-- ==== Sys2Proof/Word.lean ====
section
/-! DEFINITION. The word types of the lowpix codec core (spec/00_scope.md R10: a byte is 8 bits, a word 32 bits,
every value unsigned; spec/20_memory.md R33: addresses are 32 bits). -/

namespace Sys2Proof

/-- A byte (R10). -/
abbrev Byte := BitVec 8

/-- A 32-bit register value or Huffman payload word (R10). -/
abbrev Word := BitVec 32

/-- A 32-bit byte address of the system memory (R33). -/
abbrev Addr := BitVec 32

end Sys2Proof
end

