-- ==== Sys2Proof/Config.lean ====
section
/-! DEFINITION. What is fixed about the machine: the constants of spec/00_scope.md R8, the configuration parameters of
R9 with their legal values and defaults, and the free values (values the spec calls "any value"; log 8). -/

namespace Sys2Proof.Config

/-- P_HUF_TAIL (R9, 41_huffman.md R69): what happens to a trailing partial word of a Huffman input. -/
inductive HufTail
  | pad | truncate | reject
deriving DecidableEq, Repr

/-- P_HUF_ZERO (R9, 41_huffman.md R71): whether symbols of frequency zero become leaves. -/
inductive HufZero
  | excludeZero | includeZero
deriving DecidableEq, Repr

/-- P_HUF_LEAF_BIAS (R9, 41_huffman.md R78): 0x00 or 0xFF. -/
inductive LeafBias
  | bias00 | biasFF
deriving DecidableEq, Repr

/-- P_HUF_OFFSET (R9, 41_huffman.md R77): a branch offset above 63 fails or is masked to 6 bits. -/
inductive HufOffset
  | fail | mask
deriving DecidableEq, Repr

/-- The configuration parameters of R9. P_BASE is a multiple of 32, so only its bits 31:5 are held. -/
structure Params where
  pBaseHi : BitVec 27
  hufTail : HufTail
  hufZero : HufZero
  leafBias : LeafBias
  hufOffset : HufOffset
  lzFill : Byte
deriving DecidableEq, Repr

/-- P_BASE, the address of the register block (10_state.md R16). -/
def Params.pBase (c : Params) : Addr := c.pBaseHi ++ (0 : BitVec 5)

/-- The byte a leaf's symbol is biased by (R9). -/
def LeafBias.toByte : LeafBias → Byte
  | .bias00 => 0x00
  | .biasFF => 0xFF

/-- The defaults of R9. DESIGN CHOICE (log 3): P_BASE has no default; bits 31:5 zero here. -/
def defaults : Params :=
  { pBaseHi := 0, hufTail := .pad, hufZero := .excludeZero, leafBias := .bias00, hufOffset := .fail, lzFill := 0x00 }

/-- N, the LZ77 window and ring size (R8). -/
abbrev ringSize : Nat := 4096
/-- F, the longest LZ77 match (R8). -/
abbrev maxMatch : Nat := 18
/-- THRESHOLD, the longest match that is still coded as literals (R8). -/
abbrev threshold : Nat := 2
/-- NIL, the LZ77 "no node" value (R14). -/
abbrev nil : Nat := 4096
/-- SIZE_MAX, the largest declared size (R8). -/
abbrev sizeMax : Nat := 16777215
/-- The longest RLE run record (R8). -/
abbrev maxRun : Nat := 130
/-- The longest RLE literal record (R8). -/
abbrev maxLit : Nat := 128

/-- The four block tags (R8). -/
abbrev tagLz : Byte := 0x10
abbrev tagHuf4 : Byte := 0x24
abbrev tagHuf8 : Byte := 0x28
abbrev tagRle : Byte := 0x30

/-- A byte the spec calls "any value" (10_state.md R23, 20_memory.md R41): nothing constrains it. Applied to the
counter State.free (log 8). -/
opaque freeByte : Nat → Byte

/-- An OUT_LEN the spec leaves unspecified (70_reset_and_hazards.md R124): nothing constrains it (log 9). -/
opaque freeWord : Nat → Word

/-- A completion code the spec leaves unspecified (R124, 60_exceptions.md R120): one of the codes 0 to 6 (R102) (log 9). -/
opaque freeCode : Nat → Fin 7

end Sys2Proof.Config
end

