-- ==== Sys2Proof/Syntax.lean ====
section
/-! DEFINITION. The instructions: one constructor per row of spec/opcode_table.json. The eight commands are writes to
CMD (spec/30_encoding.md R46); the headers and stream items are the units of a block that a decoder interprets
(R48 to R56). Operands are the decoded values of R57, as the listing syntax of R61 writes them. -/

namespace Sys2Proof

inductive Instr
  /-- LZ_ENC, CMD 0x8000_0010 -/
  | lzEnc
  /-- LZ_DEC, CMD 0x8000_0110 -/
  | lzDec
  /-- HUF4_ENC, CMD 0x8000_0024 -/
  | huf4Enc
  /-- HUF4_DEC, CMD 0x8000_0124 -/
  | huf4Dec
  /-- HUF8_ENC, CMD 0x8000_0028 -/
  | huf8Enc
  /-- HUF8_DEC, CMD 0x8000_0128 -/
  | huf8Dec
  /-- RLE_ENC, CMD 0x8000_0030 -/
  | rleEnc
  /-- RLE_DEC, CMD 0x8000_0130 -/
  | rleDec
  /-- HDR 0x10, size (R48) -/
  | hdrLz77 (size : Nat)
  /-- HDR 0x24, size (R48) -/
  | hdrHuffman4 (size : Nat)
  /-- HDR 0x28, size (R48) -/
  | hdrHuffman8 (size : Nat)
  /-- HDR 0x30, size (R48) -/
  | hdrRle (size : Nat)
  /-- RLE.RUN len (R50): len is 3 to 130; the data byte is read by the meaning (R65) -/
  | rleRun (len : Nat)
  /-- RLE.LIT len (R50): len is 1 to 128; the data bytes are read by the meaning (R66) -/
  | rleLit (len : Nat)
  /-- LZ.FLAGS f (R51) -/
  | lzFlags (f : Byte)
  /-- LZ.LIT b (R51) -/
  | lzLit (b : Byte)
  /-- LZ.REF len, dist (R52): len is 3 to 18, dist 1 to 4096 -/
  | lzRef (len dist : Nat)
  /-- HUF.SIZE S (R53) -/
  | hufSize (s : Byte)
  /-- HUF.BRANCH OFF, LL, RL (R54): off is 0 to 63 -/
  | hufBranch (off : Nat) (ll rl : Bool)
  /-- HUF.LEAF v (R55): v is the stored byte -/
  | hufLeaf (v : Byte)
  /-- HUF.WORD c (R56) -/
  | hufWord (c : Word)
deriving DecidableEq, Repr

/-- The kinds of unit the hardware decodes. Which one comes next is not in the bytes: DIR, TAG and the place in the
stream say it (R58), as a mode bit would. -/
inductive Grammar
  | command | header | rleRecord | lzFlags | lzLit | lzRef | hufSize | hufBranch | hufLeaf | hufWord
deriving DecidableEq, Repr

/-- The kind of unit an instruction is. -/
def Instr.grammar : Instr → Grammar
  | .lzEnc => .command
  | .lzDec => .command
  | .huf4Enc => .command
  | .huf4Dec => .command
  | .huf8Enc => .command
  | .huf8Dec => .command
  | .rleEnc => .command
  | .rleDec => .command
  | .hdrLz77 _ => .header
  | .hdrHuffman4 _ => .header
  | .hdrHuffman8 _ => .header
  | .hdrRle _ => .header
  | .rleRun _ => .rleRecord
  | .rleLit _ => .rleRecord
  | .lzFlags _ => .lzFlags
  | .lzLit _ => .lzLit
  | .lzRef _ _ => .lzRef
  | .hufSize _ => .hufSize
  | .hufBranch _ _ _ => .hufBranch
  | .hufLeaf _ => .hufLeaf
  | .hufWord _ => .hufWord

end Sys2Proof
end

