-- ==== Sys2Proof/Machine/State.lean ====
section
/-! DEFINITION. The machine's state, all of it plain data: the register block (spec/10_state.md R16 to R20), the values
START latches (R22), the system memory (spec/20_memory.md R33), the command-local scratch (R27 to R31), the
configuration parameters (spec/00_scope.md R9), and the model's own fields (INVENTORY.md lists them). -/

namespace Sys2Proof.Machine

/-- STATUS.CODE (60_exceptions.md R102). The codes 7 to 15 are never written, so they are no value here. -/
inductive Code
  | ok | invalidInput | formatMismatch | encodingOverflow | malformed | capacity | illegalCommand
deriving DecidableEq, Repr

/-- The system memory (R33): the bytes that differ from what an unlisted address reads as, addresses rising. -/
abbrev Memory := List Host.Cell

/-- What an unlisted address reads as. DESIGN CHOICE, unsafe (log 5): the spec gives memory no power-on contents. -/
abbrev Memory.unlisted : Byte := 0x00

/-- What START latches for the command (R22). -/
structure Latch where
  dir : Bool
  tag : Byte
  srcAddr : Addr
  srcLen : Word
  dstAddr : Addr
  dstCap : Word
deriving DecidableEq, Repr

/-- What the engine takes next: nothing, the latched command (R47), or a unit of the stream (R58; log 2). -/
inductive Phase
  | idle | command | header | rleRecord | lzFlags | lzItem | hufSize | hufWord | hufBranch | hufLeaf
deriving DecidableEq, Repr

/-- The running command's output and the decoders' scratch (00_scope.md R12, 10_state.md R25, R28, R31). -/
structure Work where
  /-- OUT; the output count o is its length (R12) -/
  out : List Byte
  /-- the declared size -/
  size : Nat
  /-- the stream cursor p (R25) -/
  p : Nat
  /-- RLE: the header byte h and the record count cnt (R28) -/
  h : Byte
  cnt : Nat
  /-- LZ77: the group's flag byte and how many of its bits are not consumed yet (42_lz77.md R98) -/
  flags : Byte
  flagsLeft : Nat
  /-- Huffman: the size byte S and the last table position (41_huffman.md R82) -/
  tableSize : Nat
  last : Nat
  /-- Huffman: the bit cursor, that is the next word's offset bp, the bit index bi and the current word (R83) -/
  bp : Nat
  bi : Nat
  cur : Word
  /-- Huffman: the walk's table position q (R84) -/
  q : Nat
  /-- Huffman: symbols decoded, symbols needed, and the low nibble kept for w = 4 (R82) -/
  j : Nat
  need : Nat
  lo : Nat
deriving DecidableEq, Repr

/-- The RLE encoder's scratch (R28): input cursor i, run length r, literal buffer. -/
structure RleScratch where
  i : Nat
  r : Nat
  lit : List Byte
deriving DecidableEq, Repr

/-- The Huffman encoder's scratch (R29). The arrays hold the cells that differ from 0 (or false). -/
structure HufScratch where
  weight : List (Nat × Nat)
  left : List (Nat × Nat)
  right : List (Nat × Nat)
  parent : List (Nat × Nat)
  isLeft : List (Nat × Bool)
  /-- the candidate list C; its length is k -/
  cand : List Nat
  /-- LEAVES, in ascending order (R71) -/
  leaves : List Nat
  next : Nat
  root : Nat
  code : List (Nat × Nat)
  clen : List (Nat × Nat)
  idx : List (Nat × Nat)
  tbl : List Byte
  acc : Nat
  nb : Nat
deriving DecidableEq, Repr

/-- The LZ77 encoder's scratch (R30). text_buf holds the cells that differ from P_LZ_FILL, the link arrays those that
differ from NIL (42_lz77.md R88). -/
structure LzScratch where
  textBuf : List (Nat × Byte)
  lson : List (Nat × Nat)
  rson : List (Nat × Nat)
  dad : List (Nat × Nat)
  r : Nat
  s : Nat
  ln : Nat
  ip : Nat
  mpos : Nat
  mlen : Nat
  grp : List Byte
  mask : Nat
deriving DecidableEq, Repr

/-- The registers of the block (10_state.md R16), at offsets 0x00 to 0x1C in this order. -/
inductive Reg
  | cmd | status | srcAddr | srcLen | dstAddr | dstCap | outLen | reserved
deriving DecidableEq, Repr

/-- One access or signal of the host. Register accesses carry their width in bytes (R21 (a)); memory accesses are single
bytes (R33; the listing's MEM is one such write per byte, 30_encoding.md R61). -/
inductive HostOp
  | regRead (width : Nat) (a : Addr)
  | regWrite (width : Nat) (a : Addr) (v : Word)
  | memRead (a : Addr)
  | memWrite (a : Addr) (b : Byte)
  /-- reset is asserted (70_reset_and_hazards.md R121, R122) -/
  | reset
  /-- the platform's bus reports an error for an engine access (60_exceptions.md R120) -/
  | busError
deriving DecidableEq, Repr

/-- Who moves next: the host with one access, or the engine with one turn (log 1). -/
inductive Event
  | host (op : HostOp)
  | engine
deriving DecidableEq, Repr

/-- The whole machine. -/
structure State where
  /-- the configuration parameters, fixed when the hardware is built (R9; log 4) -/
  cfg : Config.Params
  /-- CMD.TAG and CMD.DIR (R17) -/
  cmdTag : Byte
  cmdDir : Bool
  /-- STATUS.BUSY, DONE and CODE (R18) -/
  busy : Bool
  done : Bool
  code : Code
  /-- SRC_ADDR, SRC_LEN, DST_ADDR, DST_CAP (R19) and OUT_LEN (R20) -/
  srcAddr : Addr
  srcLen : Word
  dstAddr : Addr
  dstCap : Word
  outLen : Word
  /-- the values latched at START (R22) -/
  lat : Latch
  /-- the system memory (R33) -/
  mem : Memory
  /-- command-local scratch (R27 to R31) -/
  work : Work
  rle : RleScratch
  huf : HufScratch
  lz : LzScratch
  /-- MODEL: what the engine takes next (log 2) -/
  phase : Phase
  /-- MODEL: the running command's outcome has become unspecified (R124, R120; log 9) -/
  disturbed : Bool
  /-- MODEL: the coming events, oldest first (log 1) -/
  input : List Event
  /-- MODEL: the value the host's last read returned (log 12) -/
  rdata : Word
  /-- MODEL: how many free values have been drawn (log 8) -/
  free : Nat
deriving DecidableEq, Repr

/-- No behaviour of this hardware stops the machine: every failure is a completion code (60_exceptions.md R102, R111).
There is no fault, so nobody raises one. -/
inductive Fault
deriving DecidableEq, Repr

/-- Why a step has no meaning. -/
inductive Refusal
  /-- an instruction without a meaning yet: raised by exec's refused arms (none is left). Safe. -/
  | notModelled (mnemonic : String)
  /-- a narrower, wider or misaligned access to the register block: raised by the host port; 10_state.md R21 (a)
  refuses it ("The model gives it no meaning"). Safe. -/
  | registerAccess
  /-- a register access whose address lies outside the register block: raised by the host port; it is no access to a
  register (R16). Safe (log 11). -/
  | notARegister
deriving DecidableEq, Repr

/-- Decoder scratch before any command initialises it. DESIGN CHOICE (log 6). -/
def Work.zero : Work :=
  { out := [], size := 0, p := 0, h := 0, cnt := 0, flags := 0, flagsLeft := 0, tableSize := 0, last := 0, bp := 0, bi := 0,
    cur := 0, q := 0, j := 0, need := 0, lo := 0 }

/-- RLE encoder scratch before any command initialises it. DESIGN CHOICE (log 6). -/
def RleScratch.zero : RleScratch := { i := 0, r := 0, lit := [] }

/-- Huffman scratch before any command initialises it. DESIGN CHOICE (log 6). -/
def HufScratch.zero : HufScratch :=
  { weight := [], left := [], right := [], parent := [], isLeft := [], cand := [], leaves := [], next := 0, root := 0,
    code := [], clen := [], idx := [], tbl := [], acc := 0, nb := 0 }

/-- LZ77 scratch before any command initialises it. DESIGN CHOICE (log 6). -/
def LzScratch.zero : LzScratch :=
  { textBuf := [], lson := [], rson := [], dad := [], r := 0, s := 0, ln := 0, ip := 0, mpos := 0, mlen := 0, grp := [],
    mask := 0 }

/-- The machine right after reset, for a given configuration and memory contents (10_state.md R32,
70_reset_and_hazards.md R121: reset does not change memory). -/
def State.resetWith (cfg : Config.Params) (mem : Memory) : State :=
  { cfg := cfg, cmdTag := 0, cmdDir := false, busy := false, done := false, code := .ok, srcAddr := 0, srcLen := 0,
    dstAddr := 0, dstCap := 0, outLen := 0,
    lat := { dir := false, tag := 0, srcAddr := 0, srcLen := 0, dstAddr := 0, dstCap := 0 },
    mem := mem, work := Work.zero, rle := RleScratch.zero, huf := HufScratch.zero, lz := LzScratch.zero,
    phase := .idle, disturbed := false, input := [], rdata := 0, free := 0 }

/-- The machine right after reset: the default configuration (R9), nothing listed in memory, no host access pending. -/
def State.reset : State := State.resetWith Config.defaults []

end Sys2Proof.Machine
end

