-- ==== Sys2Proof/Machine/Flags.lean ====
section
/-! DEFINITION. STATUS and the flags in it: the register views of CMD and STATUS (spec/10_state.md R17, R18), what START
writes (R22) and what completion writes (R23). Nothing else writes a flag (R26). -/

namespace Sys2Proof.Machine

/-- The 4-bit value of a completion code (60_exceptions.md R102). -/
def Code.bits : Code → BitVec 4
  | .ok => 0
  | .invalidInput => 1
  | .formatMismatch => 2
  | .encodingOverflow => 3
  | .malformed => 4
  | .capacity => 5
  | .illegalCommand => 6

/-- The code of a number below 7 (R102). -/
def Code.ofFin (n : Fin 7) : Code :=
  match n.val with
  | 0 => .ok
  | 1 => .invalidInput
  | 2 => .formatMismatch
  | 3 => .encodingOverflow
  | 4 => .malformed
  | 5 => .capacity
  | _ => .illegalCommand

/-- STATUS as the host reads it (R18): BUSY bit 0, DONE bit 1, CODE bits 11:8, the rest 0. -/
def statusWord (s : State) : Word :=
  (0 : BitVec 20) ++ s.code.bits ++ (0 : BitVec 6) ++ BitVec.ofBool s.done ++ BitVec.ofBool s.busy

/-- CMD as the host reads it (R17): TAG bits 7:0, DIR bit 8, bits 30:9 and START read 0. -/
def cmdWord (s : State) : Word := (0 : BitVec 23) ++ BitVec.ofBool s.cmdDir ++ s.cmdTag

/-- The flags START writes (R22): BUSY set, DONE and CODE cleared, OUT_LEN 0. -/
def flagsAtStart (s : State) : State := { s with busy := true, done := false, code := .ok, outLen := 0 }

/-- The flags completion writes (R23): BUSY cleared, DONE set, CODE and OUT_LEN as given. -/
def flagsAtCompletion (c : Code) (len : Word) (s : State) : State :=
  { s with busy := false, done := true, code := c, outLen := len }

end Sys2Proof.Machine
end

