-- ==== Sys2Proof/Machine/Operands.lean ====
section
/-! DEFINITION. The forms in which a command names its operands: the sparse arrays behind memory and the scratch arrays,
the source bytes Src(i), the input IN (spec/00_scope.md R12, R13), the two regions (spec/20_memory.md R34), and
EntryCheck (spec/60_exceptions.md R103). -/

namespace Sys2Proof.Machine

/-- Read element a of a sparse array whose unlisted elements are d. -/
def cellGet {α : Type} (d : α) : List (Nat × α) → Nat → α
  | [], _ => d
  | (k, v) :: m, a => if a = k then v else if a < k then d else cellGet d m a

/-- Write element a of a sparse array whose unlisted elements are d; keeps the keys rising and lists no d. -/
def cellSet {α : Type} [DecidableEq α] (d : α) : List (Nat × α) → Nat → α → List (Nat × α)
  | [], a, v => if v = d then [] else [(a, v)]
  | (k, w) :: m, a, v =>
    if a < k then (if v = d then (k, w) :: m else (a, v) :: (k, w) :: m)
    else if a = k then (if v = d then m else (a, v) :: m)
    else (k, w) :: cellSet d m a v

/-- The canonical form of a sparse array: keys rising from lo on, no element listed that equals d. -/
def cellsWfFrom {α : Type} [DecidableEq α] (d : α) : Nat → List (Nat × α) → Bool
  | _, [] => true
  | lo, (k, v) :: m => decide (lo ≤ k) && decide (v ≠ d) && cellsWfFrom d (k + 1) m

/-- MemRead(addr, 1) (R12, R33). -/
def Memory.read (m : Memory) (a : Addr) : Byte := cellGet Memory.unlisted m a.toNat

/-- MemWrite(addr, 1, v) (R12, R33). -/
def Memory.write (m : Memory) (a : Addr) (v : Byte) : Memory := cellSet Memory.unlisted m a.toNat v

/-- Memory is in its canonical form and lists no address outside the address space (R33). -/
def Memory.wf (m : Memory) : Bool := cellsWfFrom Memory.unlisted 0 m && m.all (fun c => decide (c.1 < 2 ^ 32))

/-- Write bytes at a and the addresses after it (R23: byte i at DST_ADDR + i). -/
def Memory.writeBytes (m : Memory) (a : Addr) : List Byte → Memory
  | [] => m
  | b :: bs => Memory.writeBytes (m.write a b) (a + 1) bs

/-- Src(i) (R12): the byte at the latched SRC_ADDR + i. Addresses are 32 bits; EntryCheck refuses a range that wraps.
DESIGN CHOICE (R33; log 29): where the range covers addresses of the register block, this is the memory's own byte there,
never a register, and no host access reaches that byte. -/
def State.src (s : State) (i : Nat) : Byte := s.mem.read (s.lat.srcAddr + BitVec.ofNat 32 i)

/-- IN (R13): the bytes Src(0) to Src(SRC_LEN - 1). -/
def State.inBytes (s : State) : List Byte := (List.range s.lat.srcLen.toNat).map s.src

/-- What a stream unit's meaning may look at: the input and its length L, the capacity, the command's TAG, the leaf bias. -/
structure Env where
  src : Nat → Byte
  len : Nat
  cap : Nat
  tag : Byte
  bias : Byte

/-- The running command's view (R12, R22). -/
def State.env (s : State) : Env :=
  { src := s.src, len := s.lat.srcLen.toNat, cap := s.lat.dstCap.toNat, tag := s.lat.tag, bias := s.cfg.leafBias.toByte }

/-- The same view of an input given as a list: what the functional core of R13 is a function of. -/
def envOfList (bs : List Byte) (cap : Nat) (tag bias : Byte) : Env :=
  { src := fun i => bs.getD i 0, len := bs.length, cap := cap, tag := tag, bias := bias }

/-- The bytes of the input from offset a on, at most n of them, as far as the input reaches. -/
def Env.window (e : Env) (a n : Nat) : List Byte := (List.range (min n (e.len - a))).map (fun i => e.src (a + i))

/-- Whether a lies in the region of len bytes from base (R34). -/
def inRegion (a base : Addr) (len : Word) : Bool :=
  decide (base.toNat ≤ a.toNat ∧ a.toNat < base.toNat + len.toNat)

/-- Whether a is a byte of the running command's SRC region. -/
def State.inSrc (s : State) (a : Addr) : Bool := inRegion a s.lat.srcAddr s.lat.srcLen

/-- Whether a is a byte of the running command's DST region. -/
def State.inDst (s : State) (a : Addr) : Bool := inRegion a s.lat.dstAddr s.lat.dstCap

/-- EntryCheck (R103), line by line, on the values latched at START: whether the command may go on. -/
def entryOk (l : Latch) : Bool :=
  if l.srcAddr = 0 ∨ l.dstAddr = 0 then false
  else if l.srcLen = 0 then false
  else if l.dir = false ∧ l.srcLen.toNat > Config.sizeMax then false
  else if l.srcAddr.toNat + l.srcLen.toNat > 2 ^ 32 then false
  else if l.dstAddr.toNat + l.dstCap.toNat > 2 ^ 32 then false
  else if l.dstCap.toNat > 0 ∧ l.srcAddr.toNat < l.dstAddr.toNat + l.dstCap.toNat
      ∧ l.dstAddr.toNat < l.srcAddr.toNat + l.srcLen.toNat then false
  else true

end Sys2Proof.Machine
end

