-- ==== Sys2Proof/Machine/Ops.lean ====
section
/-! DEFINITION. The operations the meanings share: Emit (spec/00_scope.md R12), START (spec/10_state.md R22), and the one
completion step (R23) in which a command ends. A failure, which is what stands in for taking an exception, is ONE
operation here, completeFail (spec/60_exceptions.md R111); there is no return from it (R112): the next START,
startCommand, clears what it left. -/

namespace Sys2Proof.Machine

/-- What a part of a unit's meaning answers: go on, or `raise <Code>()` (R12). -/
inductive Flow
  | go (w : Work)
  | raise (c : Code) (w : Work)
deriving DecidableEq, Repr

/-- What a unit's meaning answers: the engine goes on to the next unit, `return OK(OUT)`, or `raise <Code>()`. -/
inductive Item
  | go (ph : Phase) (w : Work)
  | ok (w : Work)
  | raise (c : Code) (w : Work)
deriving DecidableEq, Repr

/-- Then: no pseudocode after a raise runs (R12). -/
def Flow.andThen : Flow → (Work → Flow) → Flow
  | .go w, f => f w
  | .raise c w, _ => .raise c w

/-- The same, at the end of a unit. -/
def Flow.finish : Flow → (Work → Item) → Item
  | .go w, f => f w
  | .raise c w, _ => .raise c w

/-- Emit(v) (R12). -/
def Work.emit (e : Env) (v : Byte) (w : Work) : Flow :=
  if w.out.length ≥ e.cap then .raise .capacity w else .go { w with out := w.out ++ [v] }

/-- An encoder's Emit of a whole block, one byte after the other: an encoder raises nothing but CapacityExceeded once it
has begun to emit (R68, R94), and then it has emitted DST_CAP bytes (log 22; Laws/Ops.lean proves it). -/
def Work.emitAll (e : Env) (bs : List Byte) (w : Work) : Item :=
  if bs.length ≤ e.cap then .ok { w with out := bs } else .raise .capacity { w with out := bs.take e.cap }

/-- Pad4() (R12): how many bytes 0x00 a block of n bytes gets. -/
def padBytes (n : Nat) : List Byte := List.replicate ((4 - n % 4) % 4) 0x00

/-- Header(tag, n) (R12, 30_encoding.md R48). -/
def headerBytes (tag : Byte) (n : Nat) : List Byte :=
  [tag, BitVec.ofNat 8 (n % 256), BitVec.ofNat 8 (n / 256 % 256), BitVec.ofNat 8 (n / 65536 % 256)]

/-- n bytes the spec calls "any value", drawn from the counter's value k on (log 8). -/
def freeBytes (k n : Nat) : List Byte := (List.range n).map (fun i => Config.freeByte (k + i))

/-- The completion's end, whatever the outcome: the flags of R23, and the engine is idle. -/
def endCommand (c : Code) (len : Word) (s : State) : State :=
  flagsAtCompletion c len { s with phase := .idle, disturbed := false }

/-- How many bytes of the DST region the address space holds. -/
def State.dstSpan (s : State) : Nat := min s.lat.dstCap.toNat (2 ^ 32 - s.lat.dstAddr.toNat)

/-- Every byte of the DST region becomes any value (R122, R124). DESIGN CHOICE (log 30): a byte that lies in the SRC region
too is freed with the rest. DESIGN CHOICE (log 29): so is the memory's own byte at an address of the register block. -/
def freeDst (s : State) : State :=
  { s with mem := s.mem.writeBytes s.lat.dstAddr (freeBytes s.free s.dstSpan), free := s.free + s.dstSpan }

/-- The completion of a command whose outcome is unspecified (70_reset_and_hazards.md R124, 60_exceptions.md R120): any
CODE of R102, any OUT_LEN consistent with it, any value in the DST region (log 9). DESIGN CHOICE (log 30): where the latched
regions overlap, R124 says both "any value in the DST region" and "each SRC byte holds whatever the host last wrote"; a byte
of both becomes any value. -/
def completeDisturbed (s : State) : State :=
  let c := Code.ofFin (Config.freeCode s.free)
  let len : Word := if c = .ok then Config.freeWord s.free else 0
  endCommand c len (freeDst { s with free := s.free + 1 })

/-- The completion step of res = OK(OUT) (R23). Where DST covers addresses of the register block, the memory's own bytes there
are written, and no register is (R33; DESIGN CHOICE, log 29). -/
def completeOk (s : State) : State :=
  if s.disturbed then completeDisturbed s
  else
    endCommand .ok (BitVec.ofNat 32 s.work.out.length) { s with mem := s.mem.writeBytes s.lat.dstAddr s.work.out }

/-- The completion step of res = FAIL(c) (R23, 60_exceptions.md R111): OUT_LEN 0, CODE c, and the bytes emitted before
the raise become any value. Nothing else is saved. -/
def completeFail (c : Code) (s : State) : State :=
  if s.disturbed then completeDisturbed s
  else
    endCommand c 0
      { s with mem := s.mem.writeBytes s.lat.dstAddr (freeBytes s.free s.work.out.length),
               free := s.free + s.work.out.length }

/-- What a unit's answer does to the machine. -/
def State.take (s : State) : Item → State
  | .go ph w => { s with phase := ph, work := w }
  | .ok w => completeOk { s with work := w }
  | .raise c w => completeFail c { s with work := w }

/-- START (R22): latch the operands, set the flags. The command's scratch is created here (R27). -/
def startCommand (dir : Bool) (tag : Byte) (s : State) : State :=
  flagsAtStart
    { s with
      cmdTag := tag, cmdDir := dir,
      lat := { dir := dir, tag := tag, srcAddr := s.srcAddr, srcLen := s.srcLen, dstAddr := s.dstAddr, dstCap := s.dstCap },
      phase := .command, disturbed := false, work := Work.zero }

/-- A command's functional core after the TAG check (R47): EntryCheck (R103), and then the rule's pseudocode. The scratch
is the command's own from here on (R27), so nothing is emitted before the check. -/
def runCommand (s : State) (body : State → State) : State :=
  let s := { s with work := Work.zero }
  if entryOk s.lat then body s else completeFail .invalidInput s

end Sys2Proof.Machine
end

