-- ==== Sys2Proof/Machine/Port.lean ====
section
/-! DEFINITION. The host's side: reads and writes of the register block (spec/10_state.md R16 to R22), reads and writes of
memory (spec/20_memory.md R33, R41), reset (spec/70_reset_and_hazards.md R121, R122) and a bus error
(spec/60_exceptions.md R120). Each is one step, in the order the host makes them (R126). -/

namespace Sys2Proof.Machine

/-- How far an address lies past P_BASE, round the address space. -/
def State.blockOffset (s : State) (a : Addr) : Nat := (a - s.cfg.pBase).toNat

/-- Whether an access of width bytes at a touches the 32-byte register block (R16). -/
def State.touchesBlock (s : State) (width : Nat) (a : Addr) : Bool :=
  decide (s.blockOffset a < 32 ∨ (a.toNat < s.cfg.pBase.toNat ∧ s.cfg.pBase.toNat < a.toNat + width))

/-- The register at an offset of the block (R16). -/
def regAt (off : Nat) : Reg :=
  match off with
  | 0x00 => .cmd
  | 0x04 => .status
  | 0x08 => .srcAddr
  | 0x0C => .srcLen
  | 0x10 => .dstAddr
  | 0x14 => .dstCap
  | 0x18 => .outLen
  | _ => .reserved

/-- The register an access names: an aligned 32-bit access inside the block (R21 (a)). -/
def State.regFor (s : State) (width : Nat) (a : Addr) : Option Reg :=
  if width = 4 ∧ s.blockOffset a < 32 ∧ s.blockOffset a % 4 = 0 then some (regAt (s.blockOffset a)) else none

/-- Why a register access is refused (R21 (a); log 11). -/
def State.badAccess (s : State) (width : Nat) (a : Addr) : Refusal :=
  if s.touchesBlock width a then .registerAccess else .notARegister

/-- What a register reads as (R16 to R20, R21 (c)). -/
def State.readReg (s : State) : Reg → Word
  | .cmd => cmdWord s
  | .status => statusWord s
  | .srcAddr => s.srcAddr
  | .srcLen => s.srcLen
  | .dstAddr => s.dstAddr
  | .dstCap => s.dstCap
  | .outLen => s.outLen
  | .reserved => 0

/-- A write to CMD while BUSY = 0 (R17, R22): bit 31 starts a command, else TAG and DIR are updated only. -/
def writeCmd (v : Word) (s : State) : State :=
  let tag : Byte := v.setWidth 8
  let dir := v.getLsbD 8
  if v.getLsbD 31 then startCommand dir tag s else { s with cmdTag := tag, cmdDir := dir }

/-- A register write (R16 to R22): ignored by the read-only registers, and by all others while BUSY = 1 (R21 (b)). -/
def State.writeReg (s : State) (r : Reg) (v : Word) : State :=
  if s.busy then s
  else
    match r with
    | .cmd => writeCmd v s
    | .status => s
    | .srcAddr => { s with srcAddr := v }
    | .srcLen => { s with srcLen := v }
    | .dstAddr => { s with dstAddr := v }
    | .dstCap => { s with dstCap := v }
    | .outLen => s
    | .reserved => s

/-- A host read of a memory byte: any value for a byte of the DST region while BUSY = 1 (20_memory.md R41 (c)). -/
def hostMemRead (a : Addr) (s : State) : State :=
  if s.busy && s.inDst a then { s with rdata := (Config.freeByte s.free).setWidth 32, free := s.free + 1 }
  else { s with rdata := (s.mem.read a).setWidth 32 }

/-- A host write of a memory byte: the byte holds what the host wrote; while BUSY = 1 a write to the SRC or DST region
makes the command's outcome unspecified (R124). -/
def hostMemWrite (a : Addr) (b : Byte) (s : State) : State :=
  { s with mem := s.mem.write a b, disturbed := s.disturbed || (s.busy && (s.inSrc a || s.inDst a)) }

/-- Reset (R121, R122): every register 0 (R32); a running command is abandoned and its DST region becomes any value, a
byte that lies in its SRC region too among them (DESIGN CHOICE, log 30). The scratch, which no rule reads before writing it, is
left (log 21). -/
def resetHardware (s : State) : State :=
  let s := if s.busy then freeDst s else s
  let z := State.resetWith s.cfg s.mem
  { z with work := s.work, rle := s.rle, huf := s.huf, lz := s.lz, input := s.input, rdata := s.rdata, free := s.free }

/-- A bus error on an engine access (R120): the outcome of a running command is unspecified; nothing when none runs. -/
def hostBusError (s : State) : State := { s with disturbed := s.disturbed || s.busy }

/-- One access of the host. -/
def hostAccess (op : HostOp) (s : State) : Host.Outcome State Fault Refusal :=
  match op with
  | .regRead width a =>
    match s.regFor width a with
    | some r => .next { s with rdata := s.readReg r }
    | none => .refused (s.badAccess width a)
  | .regWrite width a v =>
    match s.regFor width a with
    | some r => .next (s.writeReg r v)
    | none => .refused (s.badAccess width a)
  | .memRead a => if s.touchesBlock 1 a then .refused .registerAccess else .next (hostMemRead a s)
  | .memWrite a b => if s.touchesBlock 1 a then .refused .registerAccess else .next (hostMemWrite a b s)
  | .reset => .next (resetHardware s)
  | .busError => .next (hostBusError s)

end Sys2Proof.Machine
end

