-- ==== Sys2Proof/Machine/Rle.lean ====
section
/-! DEFINITION. The RLE family: RLE_ENC (spec/40_rle.md R62), RLE_DEC (R64), its header, and the records RLE.RUN (R65)
and RLE.LIT (R66). -/

namespace Sys2Proof.Machine

/-- How many bytes at the front of the list equal b, at most n: the inner while loop of R62. -/
def equalPrefix (b : Byte) : Nat → List Byte → Nat
  | n + 1, c :: cs => if c = b then equalPrefix b n cs + 1 else 0
  | _, _ => 0

/-- The run measured at a byte b that is followed by rest (R62): 1 to 130. -/
def runAt (b : Byte) (rest : List Byte) : Nat := equalPrefix b (Config.maxRun - 1) rest + 1

/-- FlushLit() (R62): the record of the literal buffer, nothing when it is empty. -/
def flushLit (lit : List Byte) : List Byte :=
  if lit.length > 0 then BitVec.ofNat 8 (lit.length - 1) :: lit else []

/-- The scan of R62 over the input bytes not consumed yet; out is what has been emitted. The first argument bounds the
iterations: each consumes at least one byte (log 17). -/
def rleScan : Nat → List Byte → RleScratch → List Byte → RleScratch × List Byte
  | n + 1, b :: rest, st, out =>
    let r := runAt b rest
    if r ≥ 3 then
      rleScan n (rest.drop (r - 1)) { i := st.i + r, r := r, lit := [] }
        (out ++ flushLit st.lit ++ [BitVec.ofNat 8 (0x80 ||| (r - 3)), b])
    else
      let lit := st.lit ++ [b]
      if lit.length = Config.maxLit then
        rleScan n rest { i := st.i + 1, r := r, lit := [] } (out ++ flushLit lit)
      else rleScan n rest { i := st.i + 1, r := r, lit := lit } out
  | _, _, st, out => ({ st with lit := [] }, out ++ flushLit st.lit)

/-- The payload of R62 and the scratch the encoder leaves. -/
def rlePayload (inp : List Byte) : RleScratch × List Byte := rleScan inp.length inp RleScratch.zero []

/-- The block RLE_ENC writes for an input (R62): header, records, padding. -/
def rleBlock (inp : List Byte) : List Byte :=
  let body := headerBytes Config.tagRle inp.length ++ (rlePayload inp).2
  body ++ padBytes body.length

/-- RLE_ENC (R62). -/
def execRleEnc (s : State) : Host.Outcome State Fault Refusal :=
  .next (runCommand s fun s =>
    { s with rle := (rlePayload s.inBytes).1 }.take (s.work.emitAll s.env (rleBlock s.inBytes)))

/-- RLE_DEC (R64): EntryCheck, then the block's header is next. -/
def execRleDec (s : State) : Host.Outcome State Fault Refusal :=
  .next (runCommand s fun s => s.take (.go .header s.work))

/-- The head of every decoder (R64, R97, R82), in the order of 60_exceptions.md R110: the tag, the header's length, the
declared size and the capacity; then the cursor stands after the header. -/
def Work.header (e : Env) (tag : Byte) (minLen : Nat) (size : Nat) (next : Phase) (w : Work) : Item :=
  if tag ≠ e.tag then .raise .formatMismatch w
  else if e.len < minLen then .raise .malformed w
  else if size = 0 then .raise .malformed { w with size := size }
  else if size > e.cap then .raise .capacity { w with size := size }
  else .go next { w with size := size, p := 4 }

/-- HDR.RLE (30_encoding.md R48) as a decoder takes it (R64). -/
def execHdrRle (size : Nat) (s : State) : Host.Outcome State Fault Refusal :=
  .next (s.take (s.work.header s.env Config.tagRle 4 size .rleRecord))

/-- `while o < size` of R64: the next record, or the block is decoded. -/
def Work.afterRecord (w : Work) : Item := if w.out.length < w.size then .go .rleRecord w else .ok w

/-- `repeat cnt times: if o = size: return; Emit(b)` (R65). -/
def Work.emitRun (e : Env) (b : Byte) : Nat → Work → Flow
  | 0, w => .go w
  | n + 1, w => if w.out.length = w.size then .go w else (w.emit e b).andThen (Work.emitRun e b n)

/-- `repeat cnt times: if o = size: return; if p >= L: raise Malformed(); Emit(IN[p]); p <- p + 1` (R66). -/
def Work.emitLiteral (e : Env) : Nat → Work → Flow
  | 0, w => .go w
  | n + 1, w =>
    if w.out.length = w.size then .go w
    else if w.p ≥ e.len then .raise .malformed w
    else (w.emit e (e.src w.p)).andThen fun w => Work.emitLiteral e n { w with p := w.p + 1 }

/-- RLE.RUN (R65), with the loop around it (R64): the cursor moves past h, then past the data byte. -/
def Work.rleRun (e : Env) (len : Nat) (w : Work) : Item :=
  let w := { w with h := e.src w.p, cnt := len, p := w.p + 1 }
  if w.p ≥ e.len then .raise .malformed w
  else (Work.emitRun e (e.src w.p) len { w with p := w.p + 1 }).finish Work.afterRecord

/-- RLE.LIT (R66), with the loop around it (R64): the cursor moves past h, then past each byte copied. -/
def Work.rleLit (e : Env) (len : Nat) (w : Work) : Item :=
  (Work.emitLiteral e len { w with h := e.src w.p, cnt := len, p := w.p + 1 }).finish Work.afterRecord

/-- RLE.RUN (R65). -/
def execRleRun (len : Nat) (s : State) : Host.Outcome State Fault Refusal := .next (s.take (s.work.rleRun s.env len))

/-- RLE.LIT (R66). -/
def execRleLit (len : Nat) (s : State) : Host.Outcome State Fault Refusal := .next (s.take (s.work.rleLit s.env len))

end Sys2Proof.Machine
end

