-- ==== Sys2Proof/Machine/Huffman.lean ====
section
/-! DEFINITION. The Huffman family: the encoder's micro-operations (spec/41_huffman.md R69 to R80), HUF4_ENC and HUF8_ENC
(R68), HUF4_DEC and HUF8_DEC (R82), their headers, and the units HUF.SIZE (R82), HUF.WORD (R83), HUF.BRANCH (R84) and
HUF.LEAF (R85). -/

namespace Sys2Proof.Machine

/-- The fields of a 32-bit word from field f on, n of them, each w bits (R69): least significant first. -/
def wordFields (w x : Nat) : Nat → Nat → List Nat
  | 0, _ => []
  | n + 1, f => x / 2 ^ (f * w) % 2 ^ w :: wordFields w x n (f + 1)

/-- The fields of the little-endian words of D, in order (R69). -/
def wordSymbols (w : Nat) : List Byte → List Nat
  | b0 :: b1 :: b2 :: b3 :: rest =>
    let x := b0.toNat ||| (b1.toNat <<< 8) ||| (b2.toNat <<< 16) ||| (b3.toNat <<< 24)
    wordFields w x (32 / w) 0 ++ wordSymbols w rest
  | _ => []

/-- Scan (R69): the symbol sequence; none where P_HUF_TAIL = reject refuses the length. -/
def hufScan (tail : Config.HufTail) (w : Nat) (inp : List Byte) : Option (List Nat) :=
  match tail with
  | .pad => some (wordSymbols w (inp ++ List.replicate ((4 - inp.length % 4) % 4) 0x00))
  | .truncate => some (wordSymbols w (inp.take (4 * (inp.length / 4))))
  | .reject => if inp.length % 4 ≠ 0 then none else some (wordSymbols w inp)

/-- weight[id], isLeft[id] and so on (10_state.md R29). -/
def HufScratch.wt (h : HufScratch) (id : Nat) : Nat := cellGet 0 h.weight id
def HufScratch.lc (h : HufScratch) (id : Nat) : Nat := cellGet 0 h.left id
def HufScratch.rc (h : HufScratch) (id : Nat) : Nat := cellGet 0 h.right id
def HufScratch.par (h : HufScratch) (id : Nat) : Nat := cellGet 0 h.parent id
def HufScratch.isl (h : HufScratch) (id : Nat) : Bool := cellGet false h.isLeft id

/-- Tally (R70): every node cleared, then the frequencies. -/
def hufTally (syms : List Nat) : HufScratch :=
  syms.foldl (fun h s => { h with weight := cellSet 0 h.weight (s + 1) (h.wt (s + 1) + 1) }) HufScratch.zero

/-- LeafSet (R71): the leaves in ascending order, with the dummy partner of a single distinct symbol. -/
def hufLeafSet (zero : Config.HufZero) (alphabet : Nat) (h : HufScratch) : HufScratch :=
  let ids := (List.range alphabet).map (· + 1)
  let c :=
    match zero with
    | .excludeZero => ids.filter (fun id => decide (h.wt id > 0))
    | .includeZero => ids
  let c :=
    match c with
    | [id] =>
      let s0 := id - 1
      let d := if s0 = 0 then 1 else 0
      [min s0 d + 1, max s0 d + 1]
    | _ => c
  { h with cand := c, leaves := c }

/-- Swap elements i and m of the candidate list. -/
def swapAt (c : List Nat) (i m : Nat) : List Nat := (c.set i (c.getD m 0)).set m (c.getD i 0)

/-- HeapApply(i) (R72) on C[0 .. k-1], k the list's length. Each move goes at least one place down, so the first argument,
the list's length, bounds the moves (log 17). -/
def heapApply (wt : Nat → Nat) : Nat → Nat → List Nat → List Nat
  | 0, _, c => c
  | n + 1, i, c =>
    let l := 2 * i + 1
    if l ≥ c.length then c
    else
      let m := if l + 1 < c.length ∧ wt (c.getD (l + 1) 0) < wt (c.getD l 0) then l + 1 else l
      if wt (c.getD m 0) < wt (c.getD i 0) then heapApply wt n m (swapAt c i m) else c

/-- HeapBuild (R73): from (k div 2) - 1 down to 0. -/
def heapBuild (wt : Nat → Nat) : Nat → List Nat → List Nat
  | 0, c => c
  | n + 1, c => heapBuild wt n (heapApply wt c.length n c)

/-- `a <- C[0]; C[0] <- C[k - 1]; k <- k - 1; HeapApply(0)` (R74): the list after it. -/
def heapPop (wt : Nat → Nat) (c : List Nat) : List Nat :=
  let c := (c.set 0 (c.getLastD 0)).dropLast
  heapApply wt c.length 0 c

/-- One merge of R74. -/
def hufMerge (h : HufScratch) : HufScratch :=
  let a := h.cand.headD 0
  let c := heapPop h.wt h.cand
  let b := c.headD 0
  let x := h.next
  let h := { h with next := x + 1, weight := cellSet 0 h.weight x (h.wt a + h.wt b) }
  let h := { h with left := cellSet 0 h.left x a, right := cellSet 0 h.right x b }
  let h := { h with parent := cellSet 0 h.parent a x, isLeft := cellSet false h.isLeft a true }
  let h := { h with parent := cellSet 0 h.parent b x, isLeft := cellSet false h.isLeft b false }
  { h with cand := heapApply h.wt c.length 0 (c.set 0 x) }

/-- `while k > 1` of R74: each merge makes the list one shorter (log 17). -/
def hufMerges : Nat → HufScratch → HufScratch
  | 0, h => h
  | n + 1, h => if h.cand.length > 1 then hufMerges n (hufMerge h) else h

/-- BuildTree (R74). -/
def hufBuildTree (alphabet : Nat) (h : HufScratch) : HufScratch :=
  let h := { h with cand := heapBuild h.wt (h.cand.length / 2) h.cand, next := alphabet + 1 }
  let h := hufMerges h.cand.length h
  { h with root := h.cand.headD 0 }

/-- The walk of CodeGen (R75) from node z, with the code c and its length l so far. The first argument is how many more
levels keep the length below 32; none is the overflow. -/
def hufWalkUp (h : HufScratch) : Nat → Nat → Nat → Nat → Option (Nat × Nat)
  | 0, _, _, _ => none
  | n + 1, z, c, l =>
    if z = h.root then some (c, l)
    else hufWalkUp h n (h.par z) (c ||| ((if h.isl z then 0 else 1) <<< l)) (l + 1)

/-- CodeGen (R75) over leaves in ascending order; none is EncodingOverflow. -/
def hufCodeGen : List Nat → HufScratch → Option HufScratch
  | [], h => some h
  | y :: ys, h =>
    match hufWalkUp h 32 y 0 0 with
    | none => none
    | some (c, l) =>
      hufCodeGen ys { h with code := cellSet 0 h.code (y - 1) c, clen := cellSet 0 h.clen (y - 1) l }

/-- isLeaf(x) (R76). -/
def isLeafId (alphabet x : Nat) : Bool := decide (1 ≤ x ∧ x ≤ alphabet)

/-- The tiers from a tier on, laid end to end (R76). The first argument bounds the depth (log 17). -/
def hufTiers (alphabet : Nat) (h : HufScratch) : Nat → List Nat → List Nat
  | 0, tier => tier
  | n + 1, tier =>
    if tier.any (fun x => !isLeafId alphabet x) then
      tier ++ hufTiers alphabet h n
        ((tier.filter (fun x => !isLeafId alphabet x)).flatMap (fun x => [h.lc x, h.rc x]))
    else tier

/-- `idx[ORDER[t]] <- t` (R76) from table index t on. -/
def hufIndices : Nat → List Nat → List (Nat × Nat) → List (Nat × Nat)
  | _, [], idx => idx
  | t, x :: xs, idx => hufIndices (t + 1) xs (cellSet 0 idx x t)

/-- `x & ~1` (R11). -/
def clearBit0 (x : Nat) : Nat := x / 2 * 2

/-- The branch byte of R77 at table index t for a branch whose left child has table index c; none is the overflow. -/
def hufBranchByte (policy : Config.HufOffset) (t c : Nat) (ll rl : Bool) : Option Byte :=
  let off := (c - 1 - clearBit0 (t + 1)) / 2
  let flags (off : Nat) : Byte := BitVec.ofNat 8 (off ||| ((if ll then 1 else 0) <<< 7) ||| ((if rl then 1 else 0) <<< 6))
  if off > 63 then
    match policy with
    | .fail => none
    | .mask => some (flags (off % 64))
  else some (flags off)

/-- The leaf byte of R78 for leaf id y. -/
def hufLeafByte (bias : Config.LeafBias) (y : Nat) : Byte := BitVec.ofNat 8 (((y - 1) + bias.toByte.toNat) % 256)

/-- node[t ..] for the nodes of ORDER from table index t on (R77, R78); none is the overflow. -/
def hufNodes (cfg : Config.Params) (alphabet : Nat) (h : HufScratch) : Nat → List Nat → Option (List Byte)
  | _, [] => some []
  | t, x :: xs =>
    let byte :=
      if isLeafId alphabet x then some (hufLeafByte cfg.leafBias x)
      else
        hufBranchByte cfg.hufOffset t (cellGet 0 h.idx (h.lc x)) (isLeafId alphabet (h.lc x)) (isLeafId alphabet (h.rc x))
    match byte, hufNodes cfg alphabet h (t + 1) xs with
    | some b, some bs => some (b :: bs)
    | _, _ => none

/-- The size byte, the node bytes and the table's padding (R79). -/
def hufTable (nodes : List Byte) : List Byte :=
  let padt := (4 - (1 + nodes.length) % 4) % 4
  BitVec.ofNat 8 ((nodes.length + padt - 1) / 2) :: (nodes ++ List.replicate padt 0x00)

/-- Serialize (R76 to R79); none is EncodingOverflow. -/
def hufSerialize (cfg : Config.Params) (alphabet : Nat) (h : HufScratch) : Option HufScratch :=
  let order := hufTiers alphabet h 512 [h.root]
  let h := { h with idx := hufIndices 0 order [] }
  match hufNodes cfg alphabet h 0 order with
  | none => none
  | some nodes => some { h with tbl := hufTable nodes }

/-- Pack (R80), one code of l bits: the words it completes, with acc and nb after it. -/
def hufPackCode (c l acc nb : Nat) : List Nat × Nat × Nat :=
  if nb + l ≤ 32 then
    let acc := acc ||| (c <<< (32 - nb - l))
    if nb + l = 32 then ([acc], 0, 0) else ([], acc, nb + l)
  else
    let rem := l - (32 - nb)
    ([acc ||| (c >>> rem)], (c % 2 ^ rem) <<< (32 - rem), rem)

/-- Pack (R80) over the symbols in arrival order: the words, with acc and nb after the last symbol. -/
def hufPack (h : HufScratch) : List Nat → Nat → Nat → List Nat × Nat × Nat
  | [], acc, nb => ([], acc, nb)
  | s :: ss, acc, nb =>
    let one := hufPackCode (cellGet 0 h.code s) (cellGet 0 h.clen s) acc nb
    let more := hufPack h ss one.2.1 one.2.2
    (one.1 ++ more.1, more.2)

/-- `if nb > 0: WORDS <- WORDS ++ [acc]` (R80). -/
def hufWords (packed : List Nat × Nat × Nat) : List Nat :=
  if packed.2.2 > 0 then packed.1 ++ [packed.2.1] else packed.1

/-- A payload word as it is emitted (R68): least significant byte first. -/
def wordBytes (x : Nat) : List Byte :=
  [BitVec.ofNat 8 (x % 256), BitVec.ofNat 8 (x / 256 % 256), BitVec.ofNat 8 (x / 65536 % 256),
    BitVec.ofNat 8 (x / 16777216 % 256)]

/-- The functional core of R68 up to the first Emit: the block's bytes, or the code it raises, with the scratch it
leaves. tag is 0x20 | w. -/
def hufEncode (cfg : Config.Params) (tag : Byte) (w : Nat) (inp : List Byte) : HufScratch × Except Code (List Byte) :=
  match hufScan cfg.hufTail w inp with
  | none => (HufScratch.zero, .error .invalidInput)
  | some [] => (HufScratch.zero, .error .invalidInput)
  | some (s :: ss) =>
    let h := hufBuildTree (2 ^ w) (hufLeafSet cfg.hufZero (2 ^ w) (hufTally (s :: ss)))
    match hufCodeGen h.leaves h with
    | none => (h, .error .encodingOverflow)
    | some h =>
      match hufSerialize cfg (2 ^ w) h with
      | none => (h, .error .encodingOverflow)
      | some h =>
        let packed := hufPack h (s :: ss) 0 0
        let body := headerBytes tag inp.length ++ h.tbl ++ (hufWords packed).flatMap wordBytes
        ({ h with acc := packed.2.1, nb := packed.2.2 }, .ok (body ++ padBytes body.length))

/-- HUF_ENC (R68): the block is emitted, or the code is raised before the first Emit. -/
def runHufEnc (tag : Byte) (w : Nat) (s : State) : State :=
  runCommand s fun s =>
    let res := hufEncode s.cfg tag w s.inBytes
    { s with huf := res.1 }.take
      (match res.2 with
       | .ok block => s.work.emitAll s.env block
       | .error c => .raise c s.work)

/-- HUF4_ENC (R68 with w = 4). -/
def execHuf4Enc (s : State) : Host.Outcome State Fault Refusal := .next (runHufEnc Config.tagHuf4 4 s)

/-- HUF8_ENC (R68 with w = 8). -/
def execHuf8Enc (s : State) : Host.Outcome State Fault Refusal := .next (runHufEnc Config.tagHuf8 8 s)

/-- HUF4_DEC (R82 with w = 4): EntryCheck, then the block's header is next. -/
def execHuf4Dec (s : State) : Host.Outcome State Fault Refusal :=
  .next (runCommand s fun s => s.take (.go .header s.work))

/-- HUF8_DEC (R82 with w = 8): EntryCheck, then the block's header is next. -/
def execHuf8Dec (s : State) : Host.Outcome State Fault Refusal :=
  .next (runCommand s fun s => s.take (.go .header s.work))

/-- HDR.HUFFMAN4 (30_encoding.md R48) as a decoder takes it (R82). -/
def execHdrHuffman4 (size : Nat) (s : State) : Host.Outcome State Fault Refusal :=
  .next (s.take (s.work.header s.env Config.tagHuf4 5 size .hufSize))

/-- HDR.HUFFMAN8 (30_encoding.md R48) as a decoder takes it (R82). -/
def execHdrHuffman8 (size : Nat) (s : State) : Host.Outcome State Fault Refusal :=
  .next (s.take (s.work.header s.env Config.tagHuf8 5 size .hufSize))

/-- The symbol width of the command that runs (R82): w = 4 for TAG 0x24, w = 8 for TAG 0x28. -/
def Env.width (e : Env) : Nat := if e.tag = Config.tagHuf4 then 4 else 8

/-- The next unit of a walk: NextBit (R83) takes a new word when bi = 0, else the node byte's bit is at hand. -/
def Work.nextBitPhase (w : Work) : Phase := if w.bi = 0 then .hufWord else .hufBranch

/-- HUF.SIZE (R82): the table's extent, the bit cursor at the first payload word, the symbols to decode. -/
def Work.hufSize (e : Env) (s : Byte) (w : Work) : Item :=
  let last := 2 * s.toNat + 1
  let w := { w with tableSize := s.toNat, last := last }
  if 4 + last ≥ e.len then .raise .malformed w
  else
    let w := { w with bp := 6 + 2 * s.toNat, bi := 0, need := w.size * 8 / e.width, j := 0, q := 1 }
    if w.need = 0 then .ok w else .go w.nextBitPhase w

/-- HUF.WORD (R83): the current word, and the cursor past it. -/
def Work.hufWord (c : Word) (w : Work) : Item := .go .hufBranch { w with cur := c, bp := w.bp + 4 }

/-- HUF.BRANCH (R84): one bit of the walk. A child flagged as a leaf ends it; a child past the table is Malformed. -/
def Work.hufBranch (off : Nat) (ll rl : Bool) (w : Work) : Item :=
  let bit := w.cur.getLsbD (31 - w.bi)
  let child := clearBit0 w.q + 2 * off + 2 + (if bit then 1 else 0)
  let w := { w with bi := (w.bi + 1) % 32 }
  if child > w.last then .raise .malformed w
  else
    let w := { w with q := child }
    if (if bit then rl else ll) then .go .hufLeaf w else .go w.nextBitPhase w

/-- Leaf(pos) (R85): the symbol of a leaf byte. -/
def leafSymbol (e : Env) (v : Byte) : Nat := (v - e.bias).toNat % 2 ^ e.width

/-- The loop of R82 after a symbol: the block is decoded, or the next walk starts at the root. -/
def Work.afterSymbol (w : Work) : Item :=
  let w := { w with j := w.j + 1, q := 1 }
  if w.j = w.need then .ok w else .go w.nextBitPhase w

/-- HUF.LEAF (R85, and the loop body of R82): for w = 8 the symbol is a byte; for w = 4 two symbols make one, the low
nibble first. -/
def Work.hufLeaf (e : Env) (v : Byte) (w : Work) : Item :=
  let sym := leafSymbol e v
  if e.width = 8 then (w.emit e (BitVec.ofNat 8 sym)).finish Work.afterSymbol
  else if w.j % 2 = 0 then Work.afterSymbol { w with lo := sym }
  else (w.emit e (BitVec.ofNat 8 (w.lo ||| (sym <<< 4)))).finish Work.afterSymbol

/-- HUF.SIZE (R82). -/
def execHufSize (b : Byte) (s : State) : Host.Outcome State Fault Refusal := .next (s.take (s.work.hufSize s.env b))

/-- HUF.BRANCH (R84). -/
def execHufBranch (off : Nat) (ll rl : Bool) (s : State) : Host.Outcome State Fault Refusal :=
  .next (s.take (s.work.hufBranch off ll rl))

/-- HUF.LEAF (R85). -/
def execHufLeaf (v : Byte) (s : State) : Host.Outcome State Fault Refusal := .next (s.take (s.work.hufLeaf s.env v))

/-- HUF.WORD (R83). -/
def execHufWord (c : Word) (s : State) : Host.Outcome State Fault Refusal := .next (s.take (s.work.hufWord c))

end Sys2Proof.Machine
end

