-- ==== Sys2Proof/Machine/Lz77.lean ====
section
/-! DEFINITION. The LZ77/LZSS family: the match index (spec/42_lz77.md R87 to R93), LZ_ENC (R94, R95), LZ_DEC (R97), its
header, and the items LZ.FLAGS (R98), LZ.LIT (R99) and LZ.REF (R100). -/

namespace Sys2Proof.Machine

/-- text_buf[i], lson[i], rson[i], dad[i] (R87; 10_state.md R30). -/
def LzScratch.text (fill : Byte) (z : LzScratch) (i : Nat) : Byte := cellGet fill z.textBuf i
def LzScratch.ls (z : LzScratch) (i : Nat) : Nat := cellGet Config.nil z.lson i
def LzScratch.rs (z : LzScratch) (i : Nat) : Nat := cellGet Config.nil z.rson i
def LzScratch.da (z : LzScratch) (i : Nat) : Nat := cellGet Config.nil z.dad i

/-- `text_buf[i] <- v` and so on. -/
def LzScratch.setText (fill : Byte) (z : LzScratch) (i : Nat) (v : Byte) : LzScratch :=
  { z with textBuf := cellSet fill z.textBuf i v }
def LzScratch.setLs (z : LzScratch) (i v : Nat) : LzScratch := { z with lson := cellSet Config.nil z.lson i v }
def LzScratch.setRs (z : LzScratch) (i v : Nat) : LzScratch := { z with rson := cellSet Config.nil z.rson i v }
def LzScratch.setDa (z : LzScratch) (i v : Nat) : LzScratch := { z with dad := cellSet Config.nil z.dad i v }

/-- LzInit (R88): every link NIL, text_buf all P_LZ_FILL, s = 0, r = N - F. -/
def lzInit : LzScratch := { LzScratch.zero with s := 0, r := Config.ringSize - Config.maxMatch }

/-- The comparison loop of Insert (R89) from byte i on: the first byte that differs and the signed difference there; F
and 0 when all F bytes agree. n is how many bytes are left to compare. -/
def lzCompare (fill : Byte) (z : LzScratch) (r p : Nat) : Nat → Nat → Nat × Int
  | 0, i => (i, 0)
  | n + 1, i =>
    let d : Int := (z.text fill (r + i)).toNat - (z.text fill (p + i)).toNat
    if d ≠ 0 then (i, d) else lzCompare fill z r p n (i + 1)

/-- Replace(p, r) (R91). -/
def lzReplace (p r : Nat) (z : LzScratch) : LzScratch :=
  let z := ((z.setDa r (z.da p)).setLs r (z.ls p)).setRs r (z.rs p)
  let z := z.setDa (z.ls p) r
  let z := z.setDa (z.rs p) r
  let z := if z.rs (z.da p) = p then z.setRs (z.da p) r else z.setLs (z.da p) r
  z.setDa p Config.nil

/-- The loop of Insert (R89) at node p, reached with comparison cmp. The first argument bounds the descent: a tree holds
at most 4079 positions (R130; log 17). The candidate (r - 1) mod N is never recorded (R90). -/
def lzDescend (fill : Byte) (r : Nat) : Nat → Nat → Int → LzScratch → LzScratch
  | 0, _, _, z => z
  | n + 1, p, cmp, z =>
    let child := if cmp ≥ 0 then z.rs p else z.ls p
    if child = Config.nil then
      (if cmp ≥ 0 then z.setRs p r else z.setLs p r).setDa r p
    else
      let m := lzCompare fill z r child (Config.maxMatch - 1) 1
      if child ≠ (r + Config.ringSize - 1) % Config.ringSize ∧ m.1 > z.mlen then
        let z := { z with mpos := child, mlen := m.1 }
        if m.1 ≥ Config.maxMatch then lzReplace child r z else lzDescend fill r n child m.2 z
      else lzDescend fill r n child m.2 z

/-- Insert(r) (R89): add position r to the tree of its leading byte, leaving the longest match found in mpos and mlen,
which is FindLongestMatch (R93). -/
def lzInsert (fill : Byte) (r : Nat) (z : LzScratch) : LzScratch :=
  let p := Config.ringSize + 1 + (z.text fill r).toNat
  lzDescend fill r (Config.ringSize + 1) p 1 { (z.setRs r Config.nil).setLs r Config.nil with mlen := 0 }

/-- `while lson[q] != NIL: q <- lson[q]` (R92), at most n moves. -/
def lzLeftmost (z : LzScratch) : Nat → Nat → Nat
  | 0, q => q
  | n + 1, q => if z.ls q = Config.nil then q else lzLeftmost z n (z.ls q)

/-- The tail of Delete (R92): q takes p's place under p's parent. -/
def lzUnlink (p q : Nat) (z : LzScratch) : LzScratch :=
  let z := z.setDa q (z.da p)
  let z := if z.rs (z.da p) = p then z.setRs (z.da p) q else z.setLs (z.da p) q
  z.setDa p Config.nil

/-- Delete(p) (R92): the in-order successor takes the place of a node with two children. -/
def lzDelete (p : Nat) (z : LzScratch) : LzScratch :=
  if z.da p = Config.nil then z
  else if z.rs p = Config.nil then lzUnlink p (z.ls p) z
  else if z.ls p = Config.nil then lzUnlink p (z.rs p) z
  else
    let q0 := z.rs p
    let q := lzLeftmost z Config.ringSize q0
    let z :=
      if z.ls q0 = Config.nil then z
      else
        let z := z.setLs (z.da q) (z.rs q)
        let z := z.setDa (z.rs q) (z.da q)
        let z := z.setRs q (z.rs p)
        z.setDa (z.rs p) q
    let z := z.setLs q (z.ls p)
    let z := z.setDa (z.ls p) q
    lzUnlink p q z

/-- Advance() (R95): the next flag bit; a group of 8 items is written out. -/
def lzAdvance (z : LzScratch) (out : List Byte) : LzScratch × List Byte :=
  if z.mask / 2 = 0 then ({ z with grp := [0x00], mask := 0x80 }, out ++ z.grp) else ({ z with mask := z.mask / 2 }, out)

/-- PutLit(b) (R95). -/
def lzPutLit (b : Byte) (z : LzScratch) (out : List Byte) : LzScratch × List Byte :=
  lzAdvance { z with grp := z.grp ++ [b] } out

/-- The two bytes of a token (30_encoding.md R52, R95). -/
def tokenBytes (len dist : Nat) : List Byte :=
  [BitVec.ofNat 8 (((len - 3) <<< 4) ||| ((dist - 1) >>> 8)), BitVec.ofNat 8 ((dist - 1) % 256)]

/-- PutRef(len, dist) (R95). -/
def lzPutRef (len dist : Nat) (z : LzScratch) (out : List Byte) : LzScratch × List Byte :=
  lzAdvance
    { z with grp := (z.grp.set 0 (BitVec.ofNat 8 ((z.grp.headD 0).toNat ||| z.mask))) ++ tokenBytes len dist } out

/-- The two window loops of R94, k positions long: while input is left each position takes one input byte, then the
lookahead shrinks. -/
def lzSlide (fill : Byte) : Nat → List Byte → LzScratch → List Byte × LzScratch
  | 0, rest, z => (rest, z)
  | k + 1, c :: rest, z =>
    let z := (lzDelete z.s z).setText fill z.s c
    let z := if z.s < Config.maxMatch - 1 then z.setText fill (z.s + Config.ringSize) c else z
    let z := { z with ip := z.ip + 1, s := (z.s + 1) % Config.ringSize, r := (z.r + 1) % Config.ringSize }
    lzSlide fill k rest (lzInsert fill z.r z)
  | k + 1, [], z =>
    let z := lzDelete z.s z
    let z := { z with s := (z.s + 1) % Config.ringSize, r := (z.r + 1) % Config.ringSize, ln := z.ln - 1 }
    lzSlide fill k [] (if z.ln > 0 then lzInsert fill z.r z else z)

/-- The main loop of R94. The first argument bounds the items: each codes at least one input byte (log 17). -/
def lzLoop (fill : Byte) : Nat → List Byte → LzScratch → List Byte → LzScratch × List Byte
  | 0, _, z, out => (z, out)
  | n + 1, rest, z, out =>
    let z := if z.mlen > z.ln then { z with mlen := z.ln } else z
    let step :=
      if z.mlen ≤ Config.threshold then lzPutLit (z.text fill z.r) { z with mlen := 1 } out
      else lzPutRef z.mlen ((z.r + Config.ringSize - z.mpos) % Config.ringSize) z out
    let next := lzSlide fill step.1.mlen rest step.1
    if next.2.ln = 0 then (next.2, step.2) else lzLoop fill n next.1 next.2 step.2

/-- The first while loop of R94: up to F input bytes go to text_buf[r ..]. -/
def lzFill (fill : Byte) : Nat → List Byte → LzScratch → List Byte × LzScratch
  | n + 1, c :: rest, z => lzFill fill n rest { z.setText fill (z.r + z.ln) c with ip := z.ip + 1, ln := z.ln + 1 }
  | _, rest, z => (rest, z)

/-- The payload of R94 and the scratch the encoder leaves. -/
def lzPayload (fill : Byte) (inp : List Byte) : LzScratch × List Byte :=
  let start := lzFill fill Config.maxMatch inp lzInit
  let z := { lzInsert fill start.2.r start.2 with grp := [0x00], mask := 0x80 }
  let res := lzLoop fill inp.length start.1 z []
  (res.1, if res.1.grp.length > 1 then res.2 ++ res.1.grp else res.2)

/-- The block LZ_ENC writes for an input (R94): header, groups, padding. -/
def lzBlock (fill : Byte) (inp : List Byte) : List Byte :=
  let body := headerBytes Config.tagLz inp.length ++ (lzPayload fill inp).2
  body ++ padBytes body.length

/-- LZ_ENC (R94). -/
def execLzEnc (s : State) : Host.Outcome State Fault Refusal :=
  .next (runCommand s fun s =>
    { s with lz := (lzPayload s.cfg.lzFill s.inBytes).1 }.take
      (s.work.emitAll s.env (lzBlock s.cfg.lzFill s.inBytes)))

/-- LZ_DEC (R97): EntryCheck, then the block's header is next. -/
def execLzDec (s : State) : Host.Outcome State Fault Refusal :=
  .next (runCommand s fun s => s.take (.go .header s.work))

/-- HDR.LZ77 (30_encoding.md R48) as a decoder takes it (R97). -/
def execHdrLz77 (size : Nat) (s : State) : Host.Outcome State Fault Refusal :=
  .next (s.take (s.work.header s.env Config.tagLz 4 size .lzFlags))

/-- The loops of R97 and R98 between items: the block is decoded, the next item, or the next group. -/
def Work.afterItem (w : Work) : Item :=
  if w.out.length ≥ w.size then .ok w
  else if w.flagsLeft = 0 then .go .lzFlags w
  else .go .lzItem w

/-- The flag bit of the next item (R98: from bit 7 down to bit 0): true is LZ.REF. -/
def Work.flagBit (w : Work) : Bool := w.flags.getLsbD (w.flagsLeft - 1)

/-- LZ.FLAGS (R98). -/
def Work.lzFlags (f : Byte) (w : Work) : Item := Work.afterItem { w with p := w.p + 1, flags := f, flagsLeft := 8 }

/-- LZ.LIT (R99). -/
def Work.lzLit (e : Env) (b : Byte) (w : Work) : Item :=
  (w.emit e b).finish fun w => Work.afterItem { w with p := w.p + 1, flagsLeft := w.flagsLeft - 1 }

/-- `repeat cnt times: if o = size: return; Emit(OUT[o - dist])` (R100). -/
def Work.emitCopy (e : Env) (dist : Nat) : Nat → Work → Flow
  | 0, w => .go w
  | n + 1, w =>
    if w.out.length = w.size then .go w
    else (w.emit e (w.out.getD (w.out.length - dist) 0)).andThen (Work.emitCopy e dist n)

/-- LZ.REF (R100). -/
def Work.lzRef (e : Env) (len dist : Nat) (w : Work) : Item :=
  let w := { w with p := w.p + 2, flagsLeft := w.flagsLeft - 1 }
  if dist > w.out.length then .raise .malformed w else (Work.emitCopy e dist len w).finish Work.afterItem

/-- LZ.FLAGS (R98). -/
def execLzFlags (f : Byte) (s : State) : Host.Outcome State Fault Refusal := .next (s.take (s.work.lzFlags f))

/-- LZ.LIT (R99). -/
def execLzLit (b : Byte) (s : State) : Host.Outcome State Fault Refusal := .next (s.take (s.work.lzLit s.env b))

/-- LZ.REF (R100). -/
def execLzRef (len dist : Nat) (s : State) : Host.Outcome State Fault Refusal :=
  .next (s.take (s.work.lzRef s.env len dist))

end Sys2Proof.Machine
end

