-- ==== Sys2Proof/Machine/Dispatch.lean ====
section
/-! DEFINITION. exec: one arm per constructor of Instr, each one direct call of that instruction's meaning. -/

namespace Sys2Proof.Machine

def exec (i : Instr) (s : State) : Host.Outcome State Fault Refusal :=
  match i with
  -- commands (30_encoding.md R46)
  | .lzEnc => Sys2Proof.Machine.execLzEnc s
  | .lzDec => Sys2Proof.Machine.execLzDec s
  | .huf4Enc => Sys2Proof.Machine.execHuf4Enc s
  | .huf4Dec => Sys2Proof.Machine.execHuf4Dec s
  | .huf8Enc => Sys2Proof.Machine.execHuf8Enc s
  | .huf8Dec => Sys2Proof.Machine.execHuf8Dec s
  | .rleEnc => Sys2Proof.Machine.execRleEnc s
  | .rleDec => Sys2Proof.Machine.execRleDec s
  -- block headers (R48)
  | .hdrLz77 size => Sys2Proof.Machine.execHdrLz77 size s
  | .hdrHuffman4 size => Sys2Proof.Machine.execHdrHuffman4 size s
  | .hdrHuffman8 size => Sys2Proof.Machine.execHdrHuffman8 size s
  | .hdrRle size => Sys2Proof.Machine.execHdrRle size s
  -- stream items (R50 to R56)
  | .rleRun len => Sys2Proof.Machine.execRleRun len s
  | .rleLit len => Sys2Proof.Machine.execRleLit len s
  | .lzFlags f => Sys2Proof.Machine.execLzFlags f s
  | .lzLit b => Sys2Proof.Machine.execLzLit b s
  | .lzRef len dist => Sys2Proof.Machine.execLzRef len dist s
  | .hufSize b => Sys2Proof.Machine.execHufSize b s
  | .hufBranch off ll rl => Sys2Proof.Machine.execHufBranch off ll rl s
  | .hufLeaf v => Sys2Proof.Machine.execHufLeaf v s
  | .hufWord c => Sys2Proof.Machine.execHufWord c s

end Sys2Proof.Machine
end

