-- ==== Sys2Proof/Decode.lean ====
section
/-! DEFINITION. Decoding and encoding (spec/30_encoding.md R46 to R58, spec/20_memory.md R35). decode is total on any
bytes and rejects by name; encode writes the bytes of a well-formed instruction from the same tables. A command is one
32-bit register write: its word is given to decode as four bytes, bits 7:0 first, as spec/opcode_table.json numbers
its bits (the register itself is accessed whole, R35). -/

namespace Sys2Proof

/-- The field v[hi:lo] of R10. -/
def field (v hi lo : Nat) : Nat := v / 2 ^ lo % 2 ^ (hi + 1 - lo)

/-- The number whose bytes are given least significant first (little-endian, R35). -/
def leNat : List Byte → Nat
  | [] => 0
  | b :: bs => b.toNat + 256 * leNat bs

/-- The low n bytes of v, least significant first. -/
def leBytes : Nat → Nat → List Byte
  | 0, _ => []
  | n + 1, v => BitVec.ofNat 8 (v % 256) :: leBytes n (v / 256)

/-- Why bytes are no instruction of the kind that is expected. -/
inductive DecodeError
  /-- a CMD value with START = 0: no command (R46) -/
  | notStarted
  /-- a CMD value whose TAG is none of the four (R47, R60) -/
  | illegalTag
  /-- a block whose first byte is none of the four tags (R60) -/
  | unknownBlockTag
  /-- fewer bytes than the unit has (R60) -/
  | truncated
deriving DecidableEq, Repr

/-- What decode answers: an instruction and the bytes after it, or a rejection by name. -/
inductive Decoded
  | instr (i : Instr) (rest : List Byte)
  | rejected (e : DecodeError)
deriving DecidableEq, Repr

/-- The command table of R46: CMD[8:0], that is DIR then TAG. -/
def commandTable : List (Nat × Instr) :=
  [ (0x010, .lzEnc), (0x110, .lzDec), (0x024, .huf4Enc), (0x124, .huf4Dec), (0x028, .huf8Enc), (0x128, .huf8Dec),
    (0x030, .rleEnc), (0x130, .rleDec) ]

/-- A 32-bit CMD value: START is bit 31, bits 30:9 are ignored (R46). -/
def decodeCommand (w : Nat) (rest : List Byte) : Decoded :=
  if field w 31 31 = 0 then .rejected .notStarted
  else
    match commandTable.lookup (field w 8 0) with
    | some i => .instr i rest
    | none => .rejected .illegalTag

/-- A block header: the tag byte and the 24-bit size (R48). -/
def decodeHeader (tag : Byte) (size : Nat) (rest : List Byte) : Decoded :=
  if tag = Config.tagLz then .instr (.hdrLz77 size) rest
  else if tag = Config.tagHuf4 then .instr (.hdrHuffman4 size) rest
  else if tag = Config.tagHuf8 then .instr (.hdrHuffman8 size) rest
  else if tag = Config.tagRle then .instr (.hdrRle size) rest
  else .rejected .unknownBlockTag

/-- An RLE record header byte (R50): h[7] says run or literal; every value is legal. -/
def decodeRecord (h : Nat) : Instr :=
  if field h 7 7 = 1 then .rleRun (field h 6 0 + 3) else .rleLit (field h 6 0 + 1)

/-- A token (R52): T = t0 << 8 | t1, len = T[15:12] + 3, dist = T[11:0] + 1. -/
def decodeToken (t : Nat) : Instr := .lzRef (field t 15 12 + 3) (field t 11 0 + 1)

/-- A branch byte (R54): OFF in bits 5:0, RL in bit 6, LL in bit 7. -/
def decodeBranch (n : Nat) : Instr :=
  .hufBranch (field n 5 0) (decide (field n 7 7 = 1)) (decide (field n 6 6 = 1))

/-- Decode one unit of the given kind from the front of the bytes. -/
def decode : Grammar → List Byte → Decoded
  | .command, b0 :: b1 :: b2 :: b3 :: rest => decodeCommand (leNat [b0, b1, b2, b3]) rest
  | .header, tag :: s0 :: s1 :: s2 :: rest => decodeHeader tag (leNat [s0, s1, s2]) rest
  | .rleRecord, h :: rest => .instr (decodeRecord h.toNat) rest
  | .lzFlags, f :: rest => .instr (.lzFlags f) rest
  | .lzLit, b :: rest => .instr (.lzLit b) rest
  | .lzRef, t0 :: t1 :: rest => .instr (decodeToken (t0.toNat * 256 + t1.toNat)) rest
  | .hufSize, s :: rest => .instr (.hufSize s) rest
  | .hufBranch, n :: rest => .instr (decodeBranch n.toNat) rest
  | .hufLeaf, v :: rest => .instr (.hufLeaf v) rest
  | .hufWord, b0 :: b1 :: b2 :: b3 :: rest => .instr (.hufWord (BitVec.ofNat 32 (leNat [b0, b1, b2, b3]))) rest
  | _, _ => .rejected .truncated

/-- How many bytes a unit of this kind is read from (R46, R48, R50 to R56); a record's data bytes come after it. -/
def Grammar.width : Grammar → Nat
  | .command => 4
  | .header => 4
  | .rleRecord => 1
  | .lzFlags => 1
  | .lzLit => 1
  | .lzRef => 2
  | .hufSize => 1
  | .hufBranch => 1
  | .hufLeaf => 1
  | .hufWord => 4

/-- The CMD value of a command with START = 1 and bits 30:9 zero (R46). -/
def cmdValue (dir : Bool) (tag : Byte) : Nat := 0x80000000 + (if dir then 0x100 else 0) + tag.toNat

/-- The bytes of an instruction, in stream order (a command: its CMD value, bits 7:0 first). -/
def encode : Instr → List Byte
  | .lzEnc => leBytes 4 (cmdValue false Config.tagLz)
  | .lzDec => leBytes 4 (cmdValue true Config.tagLz)
  | .huf4Enc => leBytes 4 (cmdValue false Config.tagHuf4)
  | .huf4Dec => leBytes 4 (cmdValue true Config.tagHuf4)
  | .huf8Enc => leBytes 4 (cmdValue false Config.tagHuf8)
  | .huf8Dec => leBytes 4 (cmdValue true Config.tagHuf8)
  | .rleEnc => leBytes 4 (cmdValue false Config.tagRle)
  | .rleDec => leBytes 4 (cmdValue true Config.tagRle)
  | .hdrLz77 size => Config.tagLz :: leBytes 3 size
  | .hdrHuffman4 size => Config.tagHuf4 :: leBytes 3 size
  | .hdrHuffman8 size => Config.tagHuf8 :: leBytes 3 size
  | .hdrRle size => Config.tagRle :: leBytes 3 size
  | .rleRun len => [BitVec.ofNat 8 (0x80 + (len - 3))]
  | .rleLit len => [BitVec.ofNat 8 (len - 1)]
  | .lzFlags f => [f]
  | .lzLit b => [b]
  | .lzRef len dist => [BitVec.ofNat 8 ((len - 3) * 16 + (dist - 1) / 256), BitVec.ofNat 8 ((dist - 1) % 256)]
  | .hufSize s => [s]
  | .hufBranch off ll rl => [BitVec.ofNat 8 ((if ll then 128 else 0) + (if rl then 64 else 0) + off)]
  | .hufLeaf v => [v]
  | .hufWord c => leBytes 4 c.toNat

/-- The bytes of a unit whose bits spec/opcode_table.json numbers as w: an LZ.REF token is one 16-bit word stored
big-endian (R52), every other row is stored least significant byte first (R35). -/
def tableBytes (nbits w : Nat) : List Byte :=
  if nbits = 16 then [BitVec.ofNat 8 (w / 256 % 256), BitVec.ofNat 8 (w % 256)] else leBytes (nbits / 8) w

/-- The kinds of unit of a width, in the order in which decodeTableWord tries them (log 15): rows that one bit pattern
fits are told apart by the place in the stream (R58), which a bare word does not carry. -/
def tableGrammars (nbits : Nat) : List Grammar :=
  if nbits = 8 then [.rleRecord]
  else if nbits = 16 then [.lzRef]
  else if nbits = 32 then [.command, .header, .hufWord]
  else []

/-- The first kind under which the bytes decode, with the instruction. -/
def decodeFirst (bs : List Byte) : List Grammar → Option (Grammar × Instr)
  | [] => none
  | g :: gs =>
    match decode g bs with
    | .instr i _ => some (g, i)
    | .rejected _ => decodeFirst bs gs

/-- The instruction the decoder reads from a unit whose bits are w, numbered as spec/opcode_table.json does. -/
def decodeTableWord (nbits w : Nat) : Option Instr :=
  (decodeFirst (tableBytes nbits w) (tableGrammars nbits)).map (·.2)

end Sys2Proof
end

