-- ==== Sys2Proof/Machine/Fetch.lean ====
section
/-! DEFINITION. Where the engine finds its next unit: the latched command (spec/10_state.md R22, spec/30_encoding.md R47),
or the bytes of the input block at the decoder's place in the stream (R25, R58). There is no program counter (R25). -/

namespace Sys2Proof.Machine

/-- The kind of unit a phase takes next (R58); nothing while the engine is idle. -/
def Work.grammar (w : Work) : Phase → Option Grammar
  | .idle => none
  | .command => some .command
  | .header => some .header
  | .rleRecord => some .rleRecord
  | .lzFlags => some .lzFlags
  | .lzItem => some (if w.flagBit then .lzRef else .lzLit)
  | .hufSize => some .hufSize
  | .hufWord => some .hufWord
  | .hufBranch => some .hufBranch
  | .hufLeaf => some .hufLeaf

/-- The block offset the unit is read from: the header at 0 (R48), a record or item at the cursor p (R25), the size byte
at 4 (R53), a table byte at 4 + q (R84, R85), a payload word at bp (R83). -/
def Work.offset (w : Work) : Phase → Nat
  | .idle => 0
  | .command => 0
  | .header => 0
  | .rleRecord => w.p
  | .lzFlags => w.p
  | .lzItem => w.p
  | .hufSize => 4
  | .hufWord => w.bp
  | .hufBranch => 4 + w.q
  | .hufLeaf => 4 + w.q

/-- The bytes of the unit of kind g at hand: all of them, or fewer when the input ends first. The command is the latched
op, as its CMD value (R46). -/
def State.fetchBytes (s : State) (g : Grammar) : List Byte :=
  if g = .command then leBytes 4 (cmdValue s.lat.dir s.lat.tag)
  else s.env.window (s.work.offset s.phase) g.width

/-- The code a command ends with when no unit can be decoded: an illegal command (R47), a block of another tag or a short
header (40_rle.md R64, checked in that order), a stream that ends early (R60). -/
def State.rejectCode (s : State) : Code :=
  match s.phase with
  | .command => .illegalCommand
  | .header => if s.src 0 = s.lat.tag then .malformed else .formatMismatch
  | _ => .malformed

/-- What the engine has before it. -/
inductive Fetched
  | nothing
  | unit (i : Instr)
  | fails (c : Code)
deriving DecidableEq, Repr

/-- Fetch and decode the next unit. -/
def State.fetch (s : State) : Fetched :=
  match s.work.grammar s.phase with
  | none => .nothing
  | some g =>
    match decode g (s.fetchBytes g) with
    | .instr i _ => .unit i
    | .rejected _ => .fails s.rejectCode

/-- The phase in which a kind of unit is taken. -/
def phaseOf : Grammar → Phase
  | .command => .command
  | .header => .header
  | .rleRecord => .rleRecord
  | .lzFlags => .lzFlags
  | .lzLit => .lzItem
  | .lzRef => .lzItem
  | .hufSize => .hufSize
  | .hufBranch => .hufBranch
  | .hufLeaf => .hufLeaf
  | .hufWord => .hufWord

/-- The TAG of a command whose block holds such a unit; a header's own first byte. -/
def tagOf (g : Grammar) (first tag : Byte) : Byte :=
  match g with
  | .command => tag
  | .header => first
  | .rleRecord => Config.tagRle
  | .lzFlags => Config.tagLz
  | .lzLit => Config.tagLz
  | .lzRef => Config.tagLz
  | .hufSize => if tag = Config.tagHuf4 then tag else Config.tagHuf8
  | .hufBranch => if tag = Config.tagHuf4 then tag else Config.tagHuf8
  | .hufLeaf => if tag = Config.tagHuf4 then tag else Config.tagHuf8
  | .hufWord => if tag = Config.tagHuf4 then tag else Config.tagHuf8

/-- How many bytes the longest unit has with its data: an RLE.LIT of 128 bytes (R50). -/
abbrev longestUnit : Nat := 129

/-- The machine with a unit's bytes where the engine takes its next unit from, and the engine's turn next (log 16). A
command is started (R22); a stream unit is put at the decoder's place in the input of a running decode command. -/
def State.place (g : Grammar) (bs : List Byte) (s : State) : State :=
  if g = .command then startCommand (decide (field (leNat bs) 8 8 = 1)) (bs.headD 0) { s with input := [] }
  else
    let w := s.work
    let w :=
      match g with
      | .lzLit => { w with flags := 0x00, flagsLeft := 8 }
      | .lzRef => { w with flags := 0x80, flagsLeft := 8 }
      | _ => w
    let at_ := w.offset (phaseOf g)
    let unit := bs ++ List.replicate (longestUnit - bs.length) 0x00
    { flagsAtStart s with
      input := [], phase := phaseOf g, work := w,
      lat := { s.lat with dir := true, tag := tagOf g (bs.headD 0) s.lat.tag, srcLen := BitVec.ofNat 32 (at_ + longestUnit) },
      mem := s.mem.writeBytes (s.lat.srcAddr + BitVec.ofNat 32 at_) unit }

/-- The same for a unit whose bits spec/opcode_table.json numbers as w. -/
def State.placeTableWord (s : State) (nbits w : Nat) : State :=
  match decodeFirst (tableBytes nbits w) (tableGrammars nbits) with
  | some (g, _) => s.place g (tableBytes nbits w)
  | none => s

end Sys2Proof.Machine
end

