-- ==== Sys2Proof/Machine/Turn.lean ====
section
/-! DEFINITION. One turn of the engine: fetch the next unit and run it (spec/30_encoding.md R47, R58); an idle engine does
nothing (spec/60_exceptions.md R117). -/

namespace Sys2Proof.Machine

/-- The end of a command whose next unit cannot be decoded. An illegal command has emitted nothing (R109). -/
def failFetch (c : Code) (s : State) : State :=
  completeFail c (if s.phase = .command then { s with work := Work.zero } else s)

/-- One turn of the engine. -/
def engineTurn (s : State) : Host.Outcome State Fault Refusal :=
  match s.fetch with
  | .nothing => .next s
  | .unit i => exec i s
  | .fails c => .next (failFetch c s)

end Sys2Proof.Machine
end

