-- ==== Sys2Proof/Machine/Step.lean ====
section
/-! DEFINITION. One step of the machine: the next event of the input says whether the host or the engine moves (log 1);
when no event is left the engine goes on by itself (spec/70_reset_and_hazards.md R129: a started command completes). -/

namespace Sys2Proof.Machine

/-- One step. -/
def step (s : State) : Host.Outcome State Fault Refusal :=
  match s.input with
  | [] => engineTurn s
  | .engine :: rest => engineTurn { s with input := rest }
  | .host op :: rest => hostAccess op { s with input := rest }

/-- The machine with a unit of the opcode table placed where the next step takes it from (log 16). -/
def State.withFetchWord (s : State) (nbits w : Nat) : State := s.placeTableWord nbits w

end Sys2Proof.Machine
end

