-- ==== Sys2Proof/Machine/Functional.lean ====
section
/-! DEFINITION. The commands' functional cores as total functions of the input bytes, the capacity and the parameters
(spec/00_scope.md R13): each answers OK(OUT) or FAIL(code). The encoders' cores are the blocks the encode meanings emit; the
decoders' cores are written here as functions of the whole stream, which statements compare with the engine's run of the
same stream unit by unit. -/

namespace Sys2Proof.Machine

/-- res of R13 and R23: OK(OUT), or FAIL(code) with e bytes emitted before the raise. -/
inductive CoreResult
  | ok (out : List Byte)
  | fail (c : Code) (e : Nat)
deriving DecidableEq, Repr

/-- An encoder's block against the capacity (R12, 60_exceptions.md R108 (a)): CAPACITY comes with DST_CAP bytes emitted,
every other code before the first Emit. -/
def capped (cap : Nat) : Except Code (List Byte) → CoreResult
  | .ok block => if block.length ≤ cap then .ok block else .fail .capacity cap
  | .error c => .fail c 0

/-- The blocks of the four encode commands (R62, R68, R94); no block for any other instruction. -/
def encodeBlock (cfg : Config.Params) (inp : List Byte) : Instr → Option (Except Code (List Byte))
  | .rleEnc => some (.ok (rleBlock inp))
  | .lzEnc => some (.ok (lzBlock cfg.lzFill inp))
  | .huf4Enc => some (hufEncode cfg Config.tagHuf4 4 inp).2
  | .huf8Enc => some (hufEncode cfg Config.tagHuf8 8 inp).2
  | _ => none

/-- The head of a block: its declared size and the bytes after the header, or the code (R64, R82, R97; R110). -/
def headOf (tag : Byte) (minLen cap : Nat) (inp : List Byte) : Except Code (Nat × List Byte) :=
  match inp with
  | [] => .error .malformed
  | t :: rest =>
    if t ≠ tag then .error .formatMismatch
    else if inp.length < minLen then .error .malformed
    else
      let size := leNat (rest.take 3)
      if size = 0 then .error .malformed
      else if size > cap then .error .capacity
      else .ok (size, rest.drop 3)

/-- The records of an RLE payload (R64 to R66). A literal record that the stream cuts off has emitted the bytes it has. The
first argument bounds the records: each takes a byte (log 17). -/
def rleRecords (size : Nat) : Nat → List Byte → List Byte → CoreResult
  | 0, _, out => .fail .malformed out.length
  | n + 1, stream, out =>
    if out.length ≥ size then .ok out
    else
      match stream with
      | [] => .fail .malformed out.length
      | h :: rest =>
        if h.toNat ≥ 128 then
          match rest with
          | [] => .fail .malformed out.length
          | b :: rest => rleRecords size n rest (out ++ List.replicate (min (h.toNat - 128 + 3) (size - out.length)) b)
        else
          let k := min (h.toNat + 1) (size - out.length)
          if rest.length < k then .fail .malformed (out.length + rest.length)
          else rleRecords size n (rest.drop k) (out ++ rest.take k)

/-- RLE_DEC (R64). -/
def rleDecode (cap : Nat) (inp : List Byte) : CoreResult :=
  match headOf Config.tagRle 4 cap inp with
  | .error c => .fail c 0
  | .ok (size, stream) => rleRecords size (inp.length + 1) stream []

/-- A byte's bits from bit 7 down (R98). -/
def bitsMsb (f : Byte) : List Bool := (List.range 8).map (fun i => f.getLsbD (7 - i))

/-- k bytes, each the byte dist before the end so far (R100). -/
def copyBack (dist : Nat) : Nat → List Byte → List Byte
  | 0, out => out
  | k + 1, out => copyBack dist k (out ++ [out.getD (out.length - dist) 0])

/-- The groups and items of an LZ77 payload (R97 to R100); flags are the bits of the group's flag byte not consumed yet.
The first argument bounds the units: each takes a byte (log 17). -/
def lzItems (size : Nat) : Nat → List Bool → List Byte → List Byte → CoreResult
  | 0, _, _, out => .fail .malformed out.length
  | n + 1, flags, stream, out =>
    if out.length ≥ size then .ok out
    else
      match flags, stream with
      | [], f :: rest => lzItems size n (bitsMsb f) rest out
      | false :: flags, b :: rest => lzItems size n flags rest (out ++ [b])
      | true :: flags, t0 :: t1 :: rest =>
        let dist := (t0.toNat % 16) * 256 + t1.toNat + 1
        if dist > out.length then .fail .malformed out.length
        else lzItems size n flags rest (copyBack dist (min (t0.toNat / 16 + 3) (size - out.length)) out)
      | _, _ => .fail .malformed out.length

/-- LZ_DEC (R97). -/
def lzDecode (cap : Nat) (inp : List Byte) : CoreResult :=
  match headOf Config.tagLz 4 cap inp with
  | .error c => .fail c 0
  | .ok (size, stream) => lzItems size (inp.length + 1) [] stream []

/-- The bits of the whole little-endian payload words, from bit 31 down (R83); a last word that is cut gives none. -/
def payloadBits : List Byte → List Bool
  | b0 :: b1 :: b2 :: b3 :: rest => bitsMsb b3 ++ bitsMsb b2 ++ bitsMsb b1 ++ bitsMsb b0 ++ payloadBits rest
  | _ => []

/-- DecodeSymbol (R84, R85) from table position q: the leaf byte and the bits left. table is the block from offset 4 on, so
that table position q is its element q. -/
def hufSymbol (table : List Byte) (last : Nat) : Nat → List Bool → Option (Byte × List Bool)
  | _, [] => none
  | q, bit :: bits =>
    let node := (table.getD q 0).toNat
    let child := q / 2 * 2 + 2 * (node % 64) + 2 + bit.toNat
    if child > last then none
    else if (if bit then node / 64 % 2 else node / 128) = 1 then some (table.getD child 0, bits)
    else hufSymbol table last child bits

/-- The leaf bytes of the first n symbols (R82), and whether there are that many. -/
def hufLeaves (table : List Byte) (last : Nat) : Nat → List Bool → List Byte × Bool
  | 0, _ => ([], true)
  | n + 1, bits =>
    match hufSymbol table last 1 bits with
    | none => ([], false)
    | some (v, bits) =>
      let more := hufLeaves table last n bits
      (v :: more.1, more.2)

/-- Two nibbles to a byte, the low one first (R82). -/
def joinNibbles : List Nat → List Byte
  | lo :: hi :: rest => BitVec.ofNat 8 (lo + 16 * hi) :: joinNibbles rest
  | _ => []

/-- HUF_DEC (R82). The bytes emitted are those the symbols decoded so far make. -/
def hufDecode (bias : Byte) (tag : Byte) (w cap : Nat) (inp : List Byte) : CoreResult :=
  match headOf tag 5 cap inp with
  | .error c => .fail c 0
  | .ok (size, table) =>
    let s := (table.headD 0).toNat
    if 4 + (2 * s + 1) ≥ inp.length then .fail .malformed 0
    else
      let vs := hufLeaves table (2 * s + 1) (size * 8 / w) (payloadBits (table.drop (2 + 2 * s)))
      let syms := vs.1.map (fun v => (v - bias).toNat % 2 ^ w)
      let out := if w = 8 then syms.map (BitVec.ofNat 8) else joinNibbles syms
      if vs.2 then .ok out else .fail .malformed out.length

/-- The functional core of a command after the TAG check and EntryCheck (R13, R47); none for a stream unit. -/
def commandCore (cfg : Config.Params) (cap : Nat) (inp : List Byte) : Instr → Option CoreResult
  | .rleDec => some (rleDecode cap inp)
  | .lzDec => some (lzDecode cap inp)
  | .huf4Dec => some (hufDecode cfg.leafBias.toByte Config.tagHuf4 4 cap inp)
  | .huf8Dec => some (hufDecode cfg.leafBias.toByte Config.tagHuf8 8 cap inp)
  | i => (encodeBlock cfg inp i).map (capped cap)

/-! ### Encoded payloads as records and items -/

/-- A record of an RLE payload with its data (30_encoding.md R50). -/
inductive RleRecord
  | run (len : Nat) (b : Byte)
  | lit (bs : List Byte)
deriving DecidableEq, Repr

/-- A record's bytes in the payload (R50). -/
def RleRecord.bytes : RleRecord → List Byte
  | .run len b => encode (.rleRun len) ++ [b]
  | .lit bs => encode (.rleLit bs.length) ++ bs

/-- The bytes a record stands for. -/
def RleRecord.data : RleRecord → List Byte
  | .run len b => List.replicate len b
  | .lit bs => bs

/-- No three bytes in a row are equal (40_rle.md R63 (d)). -/
def NoThreeEqual (bs : List Byte) : Prop :=
  ∀ i, i + 2 < bs.length → ¬(bs.getD i 0 = bs.getD (i + 1) 0 ∧ bs.getD (i + 1) 0 = bs.getD (i + 2) 0)

/-- The counts of R50, and R63 (d). -/
def RleRecord.ok : RleRecord → Prop
  | .run len _ => 3 ≤ len ∧ len ≤ Config.maxRun
  | .lit bs => 1 ≤ bs.length ∧ bs.length ≤ Config.maxLit ∧ NoThreeEqual bs

/-- An item of an LZ77 group (R51). -/
inductive LzItem
  | lit (b : Byte)
  | ref (len dist : Nat)
deriving DecidableEq, Repr

/-- An item's bytes in the payload (R51, R52). -/
def LzItem.bytes : LzItem → List Byte
  | .lit b => encode (.lzLit b)
  | .ref len dist => encode (.lzRef len dist)

/-- The item's flag bit (R51). -/
def LzItem.isRef : LzItem → Bool
  | .lit _ => false
  | .ref _ _ => true

/-- The flag byte of a group: bit 7 is the first item's, the bits after the last item are 0 (R51). -/
def lzFlagByte (items : List LzItem) : Byte :=
  (List.range 8).foldl (fun f i => if (items[i]?.map LzItem.isRef).getD false then f ||| (0x80 >>> i) else f) 0

/-- A group's bytes: the flag byte, then the items (R51). -/
def lzGroupBytes (items : List LzItem) : List Byte := lzFlagByte items :: items.flatMap LzItem.bytes

/-- What items stand for after some output; none where a reference reaches before the first byte (42_lz77.md R100). -/
def lzExpand : List LzItem → List Byte → Option (List Byte)
  | [], out => some out
  | .lit b :: items, out => lzExpand items (out ++ [b])
  | .ref len dist :: items, out => if dist > out.length then none else lzExpand items (copyBack dist len out)

/-! ### When a Huffman encode fails -/

/-- The tree a Huffman encode builds (41_huffman.md R69 to R74). -/
def hufTree (cfg : Config.Params) (w : Nat) (inp : List Byte) : HufScratch :=
  hufBuildTree (2 ^ w) (hufLeafSet cfg.hufZero (2 ^ w) (hufTally ((hufScan cfg.hufTail w inp).getD [])))

/-- The node k levels above z. -/
def HufScratch.above (h : HufScratch) : Nat → Nat → Nat
  | 0, z => z
  | k + 1, z => h.above k (h.par z)

/-- Some leaf is 32 or more levels deep (60_exceptions.md R106 (a)): the root is not met in fewer. -/
def HufScratch.tooDeep (h : HufScratch) : Prop := ∃ y ∈ h.leaves, ∀ k < 32, h.above k y ≠ h.root

/-- The branch offsets of the table in table order, before P_HUF_OFFSET is applied (41_huffman.md R76, R77). -/
def HufScratch.offsets (h : HufScratch) (alphabet : Nat) : List Nat :=
  let order := hufTiers alphabet h 512 [h.root]
  (List.range order.length).filterMap fun t =>
    let x := order.getD t 0
    if isLeafId alphabet x then none
    else some ((cellGet 0 (hufIndices 0 order []) (h.lc x) - 1 - clearBit0 (t + 1)) / 2)

/-- P_HUF_TAIL leaves no symbols or refuses the length (60_exceptions.md R104 (b), (c)). -/
def hufRefused (tail : Config.HufTail) (n : Nat) : Prop :=
  (tail = .truncate ∧ n < 4) ∨ (tail = .reject ∧ n % 4 ≠ 0)

end Sys2Proof.Machine
end

