-- ==== Sys2Proof/Safety.lean ====
section
/-! DEFINITION. The terms claims are stated in: what counts as a safe step, what the host must respect
(spec/70_reset_and_hazards.md R123, R124), what the engine never writes (R127), what the host can see
(spec/10_state.md R24), the machine's invariant, and what a host sees of a completed command (R23). -/

namespace Sys2Proof.Machine

/-- A step is safe when the machine has a meaning for it. -/
def StepSafe (s : State) : Prop := ∃ t, step s = .next t

/-- The host's discipline for one access: aligned 32-bit register accesses (R21 (a)), no memory access to the register
block, no write to the SRC or DST region while BUSY (R124), and no bus error (R120). -/
def HostOp.disciplined (s : State) : HostOp → Bool
  | .regRead width a => (s.regFor width a).isSome
  | .regWrite width a _ => (s.regFor width a).isSome
  | .memRead a => !s.touchesBlock 1 a
  | .memWrite a _ => !s.touchesBlock 1 a && !(s.busy && (s.inSrc a || s.inDst a))
  | .reset => true
  | .busError => false

/-- The machine as the engine finds it when the engine moves next: no event is left, or an engine turn is first. -/
def State.engineNext (s : State) : Option State :=
  match s.input with
  | [] => some s
  | .engine :: rest => some { s with input := rest }
  | .host _ :: _ => none

/-- The configuration and the registers the engine never writes (R127). -/
def State.hostRegs (s : State) : Config.Params × Byte × Bool × Addr × Word × Addr × Word :=
  (s.cfg, s.cmdTag, s.cmdDir, s.srcAddr, s.srcLen, s.dstAddr, s.dstCap)

/-- The state without the scratch, which the host cannot see (R24, R27). -/
def State.visible (s : State) : State :=
  { s with work := Work.zero, rle := RleScratch.zero, huf := HufScratch.zero, lz := LzScratch.zero }

/-- An outcome without the scratch. -/
def visibleOutcome : Host.Outcome State Fault Refusal → Host.Outcome State Fault Refusal
  | .next s => .next s.visible
  | .fault f => .fault f
  | .refused r => .refused r

/-- Some line of EntryCheck raises InvalidInput (60_exceptions.md R103). -/
def EntryFails (l : Latch) : Prop :=
  (l.srcAddr = 0 ∨ l.dstAddr = 0)
  ∨ l.srcLen = 0
  ∨ (l.dir = false ∧ l.srcLen.toNat > 2 ^ 24 - 1)
  ∨ l.srcAddr.toNat + l.srcLen.toNat > 2 ^ 32
  ∨ l.dstAddr.toNat + l.dstCap.toNat > 2 ^ 32
  ∨ (l.dstCap.toNat > 0 ∧ l.srcAddr.toNat < l.dstAddr.toNat + l.dstCap.toNat
      ∧ l.dstAddr.toNat < l.srcAddr.toNat + l.srcLen.toNat)

/-- The invariant's part about a Huffman walk (41_huffman.md R82 to R84): the table lies inside the block, the position
inside the table, and the output is what the symbols decoded so far make. -/
def Work.walks (e : Env) (w : Work) : Prop :=
  (e.tag = Config.tagHuf4 ∨ e.tag = Config.tagHuf8)
  ∧ w.size ≤ e.cap
  ∧ w.last = 2 * w.tableSize + 1 ∧ 4 + w.last < e.len
  ∧ 1 ≤ w.q ∧ w.q ≤ w.last
  ∧ w.bi < 32
  ∧ w.need = w.size * 8 / e.width ∧ w.j < w.need
  ∧ w.out.length = w.j * e.width / 8

/-- The invariant's part about the place in the stream (R58): the family is that of TAG, and a decoder that goes on has
produced less than the declared size, which fits the capacity (R59, 60_exceptions.md R108 (b)). -/
def Work.placed (e : Env) (w : Work) : Phase → Prop
  | .idle => True
  | .command => w.out = []
  | .header => w.out = []
  | .rleRecord => e.tag = Config.tagRle ∧ 4 ≤ w.p ∧ w.out.length < w.size ∧ w.size ≤ e.cap
  | .lzFlags => e.tag = Config.tagLz ∧ 4 ≤ w.p ∧ w.out.length < w.size ∧ w.size ≤ e.cap
  | .lzItem => e.tag = Config.tagLz ∧ 4 < w.p ∧ w.out.length < w.size ∧ w.size ≤ e.cap ∧ 1 ≤ w.flagsLeft ∧ w.flagsLeft ≤ 8
  | .hufSize => (e.tag = Config.tagHuf4 ∨ e.tag = Config.tagHuf8) ∧ 5 ≤ e.len ∧ w.out = [] ∧ 0 < w.size ∧ w.size ≤ e.cap
  | .hufWord => w.walks e ∧ w.bi = 0
  | .hufBranch => w.walks e
  | .hufLeaf => w.walks e

/-- The machine's invariant: memory in canonical form; the legal STATUS combinations (R18) with CODE and OUT_LEN as R20
and R22 say; the latched values equal to the registers while a command runs (R21 (b), R127); the decoder's place. -/
structure State.Inv (s : State) : Prop where
  memWf : s.mem.wf = true
  notBoth : ¬(s.busy = true ∧ s.done = true)
  busyPhase : s.busy = true ↔ s.phase ≠ .idle
  busyClear : s.busy = true → s.code = .ok ∧ s.outLen = 0
  failZero : s.code ≠ .ok → s.outLen = 0
  latched : s.busy = true →
    s.lat = { dir := s.cmdDir, tag := s.cmdTag, srcAddr := s.srcAddr, srcLen := s.srcLen, dstAddr := s.dstAddr, dstCap := s.dstCap }
  entered : s.phase ≠ .idle → s.phase ≠ .command → entryOk s.lat = true ∧ s.lat.dir = true
  quiet : s.busy = false → s.disturbed = false
  placed : s.work.placed s.env s.phase

/-- What a host finds of a command that has completed with a result (R23): the flags, OUT_LEN, the output in memory or the e
bytes that became free values, and every other byte, in the DST region and outside it, as it was at s. -/
def CompletedWith (s : State) (res : CoreResult) (t : State) : Prop :=
  t.busy = false ∧ t.done = true ∧ t.phase = .idle ∧ t.hostRegs = s.hostRegs
  ∧ (∀ a, s.inDst a = false → t.mem.read a = s.mem.read a)
  ∧ match res with
    | .ok out =>
      t.code = .ok ∧ t.outLen.toNat = out.length
      ∧ (∀ i, i < out.length → t.mem.read (s.lat.dstAddr + BitVec.ofNat 32 i) = out.getD i 0)
      ∧ (∀ i, out.length ≤ i → i < s.lat.dstCap.toNat →
          t.mem.read (s.lat.dstAddr + BitVec.ofNat 32 i) = s.mem.read (s.lat.dstAddr + BitVec.ofNat 32 i))
    | .fail c e =>
      t.code = c ∧ t.outLen = 0
      ∧ (∃ k, ∀ i, i < e → t.mem.read (s.lat.dstAddr + BitVec.ofNat 32 i) = Config.freeByte (k + i))
      ∧ (∀ i, e ≤ i → i < s.lat.dstCap.toNat →
          t.mem.read (s.lat.dstAddr + BitVec.ofNat 32 i) = s.mem.read (s.lat.dstAddr + BitVec.ofNat 32 i))

/-- The engine, left alone from s, completes its command with a result (70_reset_and_hazards.md R129). -/
def EventuallyCompletes (s : State) (res : CoreResult) : Prop :=
  ∃ k t, Host.Core.run Sys2Proof.core k s = .next t ∧ CompletedWith s res t

end Sys2Proof.Machine
end

