-- ==== Sys2Proof/WellFormed.lean ====
section
/-! DEFINITION. Which terms of Instr an encoding can hold: the operand ranges of spec/30_encoding.md R48, R50, R52
and R54. Every other operand is a byte or a word, of which every value is legal (R60). -/

namespace Sys2Proof

/-- The operands lie in the ranges their fields can hold. -/
def Instr.wf : Instr → Bool
  | .lzEnc => true
  | .lzDec => true
  | .huf4Enc => true
  | .huf4Dec => true
  | .huf8Enc => true
  | .huf8Dec => true
  | .rleEnc => true
  | .rleDec => true
  | .hdrLz77 size => decide (size ≤ Config.sizeMax)
  | .hdrHuffman4 size => decide (size ≤ Config.sizeMax)
  | .hdrHuffman8 size => decide (size ≤ Config.sizeMax)
  | .hdrRle size => decide (size ≤ Config.sizeMax)
  | .rleRun len => decide (3 ≤ len ∧ len ≤ Config.maxRun)
  | .rleLit len => decide (1 ≤ len ∧ len ≤ Config.maxLit)
  | .lzFlags _ => true
  | .lzLit _ => true
  | .lzRef len dist => decide (3 ≤ len ∧ len ≤ Config.maxMatch ∧ 1 ≤ dist ∧ dist ≤ 4096)
  | .hufSize _ => true
  | .hufBranch off _ _ => decide (off ≤ 63)
  | .hufLeaf _ => true
  | .hufWord _ => true

end Sys2Proof
end

