-- ==== Sys2Proof/Certificates/Slice0/Obligations.lean ====
section
/-! DEFINITION. The statements about the model, for the provers. Each docstring names the rule of spec/ it formalises, or
says that it rests on a choice of the model and names the log entry. -/

open Sys2Proof Sys2Proof.Machine

/-! ### Reset and the register block -/

/-- After reset every register field is 0 and the engine is idle; an idle machine's memory is not changed by reset
(R32, R121). -/
def Obligations.ResetZeroesRegisters : Prop :=
  (∀ r, State.reset.readReg r = 0) ∧ State.reset.busy = false ∧ State.reset.done = false
  ∧ ∀ s rest, s.input = .host .reset :: rest →
      ∃ t, step s = .next t ∧ (∀ r, t.readReg r = 0) ∧ t.cmdTag = 0 ∧ t.cmdDir = false ∧ t.busy = false ∧ t.done = false
        ∧ t.code = .ok ∧ t.phase = .idle ∧ t.cfg = s.cfg ∧ t.input = rest ∧ (s.busy = false → t.mem = s.mem)

/-- Reset while BUSY (R122): the command is abandoned (the engine is idle and takes no completion step), the registers
take their reset values, each byte of the latched DST region becomes a free value, no other byte of memory changes. -/
def Obligations.ResetWhileBusyAbandonsCommand : Prop :=
  ∀ s rest, s.input = .host .reset :: rest → s.busy = true → s.mem.wf = true →
    ∃ t, step s = .next t ∧ t.busy = false ∧ t.phase = .idle ∧ engineTurn t = .next t
      ∧ (∀ r, t.readReg r = 0) ∧ t.cfg = s.cfg
      ∧ (∀ i, i < s.dstSpan → t.mem.read (s.lat.dstAddr + BitVec.ofNat 32 i) = Config.freeByte (s.free + i))
      ∧ (∀ a, s.inDst a = false → t.mem.read a = s.mem.read a)

/-- A write to CMD while BUSY = 0 (R22): with bit 31 = 1 one atomic step sets TAG and DIR, BUSY, DONE, CODE and OUT_LEN and
latches op and the four operand registers; with bit 31 = 0 it updates TAG and DIR only. -/
def Obligations.CmdWriteStartsOrUpdates : Prop :=
  ∀ s rest v, s.busy = false → s.input = .host (.regWrite 4 s.cfg.pBase v) :: rest →
    (v.getLsbD 31 = true →
      ∃ t, step s = .next t ∧ t.cmdTag = v.setWidth 8 ∧ t.cmdDir = v.getLsbD 8
        ∧ t.busy = true ∧ t.done = false ∧ t.code = .ok ∧ t.outLen = 0
        ∧ t.lat = { dir := v.getLsbD 8, tag := v.setWidth 8, srcAddr := s.srcAddr, srcLen := s.srcLen,
                    dstAddr := s.dstAddr, dstCap := s.dstCap }
        ∧ t.srcAddr = s.srcAddr ∧ t.srcLen = s.srcLen ∧ t.dstAddr = s.dstAddr ∧ t.dstCap = s.dstCap
        ∧ t.mem = s.mem ∧ t.cfg = s.cfg ∧ t.input = rest)
    ∧ (v.getLsbD 31 = false →
      step s = .next { s with input := rest, cmdTag := v.setWidth 8, cmdDir := v.getLsbD 8 })

/-- The register access rules (R21): (a) a narrower, wider or misaligned access that touches the block is refused, and so is
a byte access; (b) while BUSY = 1 a write to any register is ignored; (c) reserved offset and bits read 0 and a write to the
reserved offset is ignored; (d) a read changes nothing but what the host receives. -/
def Obligations.RegisterAccessRules : Prop :=
  (∀ s rest width a v, s.touchesBlock width a = true → ¬(width = 4 ∧ s.blockOffset a % 4 = 0) →
    (s.input = .host (.regRead width a) :: rest ∨ s.input = .host (.regWrite width a v) :: rest) →
    step s = .refused .registerAccess)
  ∧ (∀ s rest a b, s.touchesBlock 1 a = true →
      (s.input = .host (.memRead a) :: rest ∨ s.input = .host (.memWrite a b) :: rest) →
      step s = .refused .registerAccess)
  ∧ (∀ s rest k v, k < 8 → s.busy = true → s.input = .host (.regWrite 4 (s.cfg.pBase + BitVec.ofNat 32 (4 * k)) v) :: rest →
      step s = .next { s with input := rest })
  ∧ (∀ s : State, s.readReg .reserved = 0 ∧ s.readReg .cmd &&& 0xFFFFFE00 = 0 ∧ s.readReg .status &&& 0xFFFFF0FC = 0)
  ∧ (∀ s rest v, s.input = .host (.regWrite 4 (s.cfg.pBase + 0x1C) v) :: rest → step s = .next { s with input := rest })
  ∧ (∀ s rest k, k < 8 → s.input = .host (.regRead 4 (s.cfg.pBase + BitVec.ofNat 32 (4 * k))) :: rest →
      step s = .next { s with input := rest, rdata := s.readReg (regAt (4 * k)) })

/-- SRC_ADDR, SRC_LEN, DST_ADDR and DST_CAP hold every 32-bit value written while BUSY = 0 (R19); the write changes nothing
else. -/
def Obligations.DataRegistersHoldWhatIsWritten : Prop :=
  ∀ s rest k v, k ∈ [2, 3, 4, 5] → s.busy = false →
    s.input = .host (.regWrite 4 (s.cfg.pBase + BitVec.ofNat 32 (4 * k)) v) :: rest →
    ∃ t, step s = .next t ∧ t.readReg (regAt (4 * k)) = v
      ∧ (∀ r, r ≠ regAt (4 * k) → t.readReg r = s.readReg r)
      ∧ t.mem = s.mem ∧ t.phase = s.phase ∧ t.lat = s.lat ∧ t.cfg = s.cfg ∧ t.input = rest

/-- A write to STATUS or OUT_LEN is ignored, whatever BUSY is (R18, R20). -/
def Obligations.ReadOnlyRegistersIgnoreWrites : Prop :=
  ∀ s rest k v, k ∈ [1, 6] → s.input = .host (.regWrite 4 (s.cfg.pBase + BitVec.ofNat 32 (4 * k)) v) :: rest →
    step s = .next { s with input := rest }

/-- Where STATUS and CMD hold their fields (R17, R18) and the code values (R102). -/
def Obligations.StatusAndCmdLayout : Prop :=
  (∀ s, (statusWord s).getLsbD 0 = s.busy ∧ (statusWord s).getLsbD 1 = s.done
    ∧ (statusWord s).extractLsb' 8 4 = s.code.bits
    ∧ (cmdWord s).extractLsb' 0 8 = s.cmdTag ∧ (cmdWord s).getLsbD 8 = s.cmdDir)
  ∧ [Code.ok, .invalidInput, .formatMismatch, .encodingOverflow, .malformed, .capacity, .illegalCommand].map Code.bits
      = [0, 1, 2, 3, 4, 5, 6]

/-- Early reads (R125): while a command runs a host read of a DST byte returns a free value, STATUS reads BUSY = 1, DONE = 0,
CODE = 0, and OUT_LEN reads 0. -/
def Obligations.EarlyReads : Prop :=
  ∀ s rest, s.Inv → s.busy = true →
    (∀ a, s.inDst a = true → s.touchesBlock 1 a = false → s.input = .host (.memRead a) :: rest →
      step s = .next { s with input := rest, rdata := (Config.freeByte s.free).setWidth 32, free := s.free + 1 })
    ∧ (s.input = .host (.regRead 4 (s.cfg.pBase + 0x04)) :: rest → step s = .next { s with input := rest, rdata := 1 })
    ∧ (s.input = .host (.regRead 4 (s.cfg.pBase + 0x18)) :: rest → step s = .next { s with input := rest, rdata := 0 })

/-- Host accesses to memory (R33): a byte written is the byte a read outside a running command's DST region returns, no
other byte changes, and a write to the SRC or DST region while BUSY marks the command's outcome unspecified (R124). A bus
error (R120) marks the outcome of a running command unspecified and changes nothing while no command runs. (The mark is the
model's, log 9 and log 10; what it leads to: DisturbedCompletion.) -/
def Obligations.HostMemoryAccess : Prop :=
  (∀ s rest a b, s.mem.wf = true → s.touchesBlock 1 a = false → s.input = .host (.memWrite a b) :: rest →
    ∃ t, step s = .next t ∧ t.mem.read a = b ∧ (∀ a', a' ≠ a → t.mem.read a' = s.mem.read a')
      ∧ t.disturbed = (s.disturbed || (s.busy && (s.inSrc a || s.inDst a)))
      ∧ t = { s with input := rest, mem := t.mem, disturbed := t.disturbed })
  ∧ (∀ s rest a, s.touchesBlock 1 a = false → (s.busy && s.inDst a) = false → s.input = .host (.memRead a) :: rest →
      step s = .next { s with input := rest, rdata := (s.mem.read a).setWidth 32 })
  ∧ (∀ s rest, s.input = .host .busError :: rest →
      (s.busy = true → step s = .next { s with input := rest, disturbed := true })
      ∧ (s.busy = false → step s = .next { s with input := rest }))

/-! ### The engine's step, decoding and encoding -/

/-- A step runs the decoded instruction: when the engine moves and the bytes of the next unit decode to i, the step is exec
of i; when they do not decode, the command ends with the code of the rejection; an idle engine changes nothing; a host event
is that access. The step adds only the taking of the event from the input. -/
def Obligations.StepRunsTheDecodedInstruction : Prop :=
  (∀ s s' g i rest, s.engineNext = some s' → s'.work.grammar s'.phase = some g →
    decode g (s'.fetchBytes g) = .instr i rest → step s = exec i s')
  ∧ (∀ s s' g e, s.engineNext = some s' → s'.work.grammar s'.phase = some g →
    decode g (s'.fetchBytes g) = .rejected e → step s = .next (failFetch s'.rejectCode s'))
  ∧ (∀ s s', s.engineNext = some s' → s'.phase = .idle → step s = .next s')
  ∧ (∀ s op rest, s.input = .host op :: rest → step s = hostAccess op { s with input := rest })

/-- Decode and encode agree: every well-formed instruction, whatever follows it, decodes from its own encoding, with every
operand (R46, R48, R50 to R54). -/
def Obligations.DecodeOfEncodeIsTheInstruction : Prop :=
  ∀ (i : Instr) (rest : List Byte), i.wf = true → decode i.grammar (encode i ++ rest) = .instr i rest

/-- What decodes is a well-formed instruction of the kind asked for, and for a header or stream unit the bytes are its only
encoding: none is lost and none is added (R48, R50 to R56). -/
def Obligations.EncodeOfDecodeIsTheBytes : Prop :=
  ∀ (g : Grammar) (bs rest : List Byte) (i : Instr), decode g bs = .instr i rest →
    i.wf = true ∧ i.grammar = g ∧ (g ≠ .command → encode i ++ rest = bs)

/-- Every bit pattern of a record, flag byte, literal, token, size byte, table byte and payload word is legal (R50, R60), and
decoding takes exactly the unit's bytes. -/
def Obligations.EveryStreamUnitDecodes : Prop :=
  ∀ (g : Grammar) (bs rest : List Byte), g ≠ .command → g ≠ .header → bs.length = g.width →
    ∃ i, decode g (bs ++ rest) = .instr i rest

/-- A command word is told by START, DIR and TAG alone: bits 30:9 are ignored (R46); the word decodes exactly when START is 1
and TAG is one of the four tags (R60). -/
def Obligations.CommandWordFieldsDecide : Prop :=
  ∀ w w' : Word,
    (w.getLsbD 31 = w'.getLsbD 31 → w.setWidth 9 = w'.setWidth 9 →
      decode .command (leBytes 4 w.toNat) = decode .command (leBytes 4 w'.toNat))
    ∧ ((∃ i, decode .command (leBytes 4 w.toNat) = .instr i []) ↔
        w.getLsbD 31 = true ∧ w.setWidth 8 ∈ [Config.tagLz, Config.tagHuf4, Config.tagHuf8, Config.tagRle])

/-- Some encodings written out from the spec: the eight CMD values of R46, and one unit of every other format of R48 to
R56. -/
def Obligations.WrittenOutWordsDecode : Prop :=
  ([0x80000010, 0x80000110, 0x80000024, 0x80000124, 0x80000028, 0x80000128, 0x80000030, 0x80000130].map
      (decodeTableWord 32)
    = [some .lzEnc, some .lzDec, some .huf4Enc, some .huf4Dec, some .huf8Enc, some .huf8Dec, some .rleEnc, some .rleDec])
  ∧ decode .header [0x30, 0x82, 0x00, 0x00] = .instr (.hdrRle 130) []
  ∧ decode .header [0x10, 0x70, 0x17, 0x00] = .instr (.hdrLz77 6000) []
  ∧ decode .header [0x24, 0x04, 0x00, 0x00] = .instr (.hdrHuffman4 4) []
  ∧ decode .header [0x28, 0x00, 0x03, 0x00] = .instr (.hdrHuffman8 768) []
  ∧ decode .rleRecord [0xFF, 0xAA] = .instr (.rleRun 130) [0xAA]
  ∧ decode .rleRecord [0x02, 0x41, 0x41, 0x42] = .instr (.rleLit 3) [0x41, 0x41, 0x42]
  ∧ decode .lzFlags [0x10] = .instr (.lzFlags 0x10) []
  ∧ decode .lzLit [0x41] = .instr (.lzLit 0x41) []
  ∧ decode .lzRef [0x0F, 0xED] = .instr (.lzRef 3 4078) []
  ∧ decode .hufSize [0x05] = .instr (.hufSize 5) []
  ∧ decode .hufBranch [0x41] = .instr (.hufBranch 1 false true) []
  ∧ decode .hufLeaf [0x52] = .instr (.hufLeaf 0x52) []
  ∧ decode .hufWord [0xC0, 0x7A, 0xD4, 0x7A] = .instr (.hufWord 0x7AD47AC0) []

/-! ### Commands: illegal commands, EntryCheck, the encoders -/

/-- A started command whose TAG is none of the four ends with ILLEGAL_COMMAND, with either DIR, before EntryCheck; nothing is
read or written (R109). -/
def Obligations.IllegalCommandCompletes : Prop :=
  ∀ s s', s.engineNext = some s' → s'.phase = .command → s'.disturbed = false →
    s'.lat.tag ∉ [Config.tagLz, Config.tagHuf4, Config.tagHuf8, Config.tagRle] →
    ∃ t, step s = .next t ∧ t.code = .illegalCommand ∧ t.outLen = 0 ∧ t.busy = false ∧ t.done = true ∧ t.phase = .idle
      ∧ t.mem = s.mem ∧ t.hostRegs = s.hostRegs

/-- EntryCheck (R103), for all eight commands: where one of its lines raises, the command ends with INVALID_INPUT and memory
is as before. (Where none does: DecodeCommandsGoOnToTheHeader, EncodersWriteTheirBlock and EncodersReportFailure.) -/
def Obligations.EntryCheckGuardsEveryCommand : Prop :=
  ∀ (i : Instr) (s : State), i.grammar = .command → s.disturbed = false → EntryFails s.lat →
    ∃ t, exec i s = .next t ∧ t.code = .invalidInput ∧ t.outLen = 0 ∧ t.busy = false ∧ t.done = true ∧ t.phase = .idle
      ∧ t.mem = s.mem ∧ t.hostRegs = s.hostRegs

/-- The decode commands RLE_DEC, LZ_DEC, HUF4_DEC and HUF8_DEC complete their own step wherever EntryCheck passes: the block's
header is next, the scratch is created, nothing else changes (R47, R64, R82, R97; the phase is the model's, log 2). -/
def Obligations.DecodeCommandsGoOnToTheHeader : Prop :=
  ∀ (i : Instr) (s : State), i ∈ [.rleDec, .lzDec, .huf4Dec, .huf8Dec] → ¬EntryFails s.lat →
    exec i s = .next { s with phase := .header, work := Work.zero }

/-- The encode commands RLE_ENC, LZ_ENC, HUF4_ENC and HUF8_ENC: where EntryCheck passes and the block fits DST_CAP, the command
completes with OK, OUT_LEN is the block's length, the block stands in memory from DST_ADDR on, and every other byte of
memory and every register the host wrote is as before (R23, R62, R68, R94). -/
def Obligations.EncodersWriteTheirBlock : Prop :=
  ∀ (i : Instr) (s : State) (block : List Byte), ¬EntryFails s.lat → s.disturbed = false → s.mem.wf = true →
    encodeBlock s.cfg s.inBytes i = some (.ok block) → block.length ≤ s.lat.dstCap.toNat →
    ∃ t, exec i s = .next t ∧ CompletedWith s (.ok block) t

/-- The encode commands' failures. A block longer than DST_CAP gives CAPACITY: the bytes emitted become free values and no
other byte of memory changes. A code raised before the first Emit leaves memory as it was (R23, R108 (a)). Only a Huffman
encode raises one: INVALID_INPUT exactly where P_HUF_TAIL leaves no symbols or refuses the length (R104 (b), (c); an empty
input is EntryCheck's), and else ENCODING_OVERFLOW exactly where a leaf is 32 or more levels deep, or a branch offset exceeds
63 under P_HUF_OFFSET = fail (R106). -/
def Obligations.EncodersReportFailure : Prop :=
  (∀ (i : Instr) (s : State), ¬EntryFails s.lat → s.disturbed = false → s.mem.wf = true →
    (∀ block, encodeBlock s.cfg s.inBytes i = some (.ok block) → block.length > s.lat.dstCap.toNat →
      ∃ t, exec i s = .next t ∧ CompletedWith s (.fail .capacity s.lat.dstCap.toNat) t)
    ∧ (∀ c, encodeBlock s.cfg s.inBytes i = some (.error c) →
      (c = .invalidInput ∨ c = .encodingOverflow) ∧ (i = .huf4Enc ∨ i = .huf8Enc)
      ∧ ∃ t, exec i s = .next t ∧ CompletedWith s (.fail c 0) t ∧ t.mem = s.mem))
  ∧ ∀ (cfg : Config.Params) (inp : List Byte), 1 ≤ inp.length →
    ∀ form ∈ [(Config.tagHuf4, 4), (Config.tagHuf8, 8)],
      let res := (hufEncode cfg form.1 form.2 inp).2
      let tree := hufTree cfg form.2 inp
      (res = .error .invalidInput ↔ hufRefused cfg.hufTail inp.length)
      ∧ (res = .error .encodingOverflow ↔
          ¬hufRefused cfg.hufTail inp.length
          ∧ (tree.tooDeep ∨ (cfg.hufOffset = .fail ∧ ∃ off ∈ tree.offsets (2 ^ form.2), 63 < off)))

/-- No command reads a scratch cell before it writes it (R27), over the whole run: from a machine that is idle, or whose command
the engine has not begun, whatever the host does and however many steps follow, everything the host can see is the same
whatever the scratch was at the beginning. The second clause is the same of each of the eight commands' first turn. -/
def Obligations.CommandsIgnoreOldScratch : Prop :=
  (∀ (k : Nat) (s : State) (w : Work) (x : RleScratch) (h : HufScratch) (z : LzScratch),
    s.phase = .idle ∨ s.phase = .command →
    visibleOutcome (Host.Core.run Sys2Proof.core k { s with work := w, rle := x, huf := h, lz := z })
      = visibleOutcome (Host.Core.run Sys2Proof.core k s))
  ∧ ∀ (i : Instr) (s : State) (w : Work) (x : RleScratch) (h : HufScratch) (z : LzScratch), i.grammar = .command →
    visibleOutcome (exec i { s with work := w, rle := x, huf := h, lz := z }) = visibleOutcome (exec i s)

/-! ### Headers and stream units -/

/-- The four headers, each with its tag, its decoder's shortest block and the unit that follows it. -/
def headerRows (size : Nat) : List (Instr × Byte × Nat × Phase) :=
  [(.hdrRle size, Config.tagRle, 4, .rleRecord), (.hdrLz77 size, Config.tagLz, 4, .lzFlags),
    (.hdrHuffman4 size, Config.tagHuf4, 5, .hufSize), (.hdrHuffman8 size, Config.tagHuf8, 5, .hufSize)]

/-- A header (R48) as a decoder takes it (the heads of R64, R82 and R97, in the order of R110): another tag is
FORMAT_MISMATCH, a block shorter than its header or a declared size 0 is MALFORMED, a size above DST_CAP is CAPACITY; else the
declared size is held, the cursor stands at 4, and nothing else changes. -/
def Obligations.HeaderChecksInOrder : Prop :=
  ∀ (s : State) (size : Nat), ∀ row ∈ headerRows size,
    exec row.1 s = .next (
      if s.lat.tag ≠ row.2.1 then completeFail .formatMismatch s
      else if s.lat.srcLen.toNat < row.2.2.1 then completeFail .malformed s
      else if size = 0 then completeFail .malformed { s with work := { s.work with size := size } }
      else if size > s.lat.dstCap.toNat then completeFail .capacity { s with work := { s.work with size := size } }
      else { s with phase := row.2.2.2, work := { s.work with size := size, p := 4 } })

/-- Where the engine reads its next unit (R25, R58, R64, R82, R84, R97): a header at block offset 0, a record or flag byte at
the cursor p, the size byte at 4, a branch at 4 + q. Where the input has ended the command ends with MALFORMED; a block of
another tag is FORMAT_MISMATCH even when its header is short. -/
def Obligations.UnitsAreReadAtTheCursor : Prop :=
  ∀ s s' : State, s.engineNext = some s' →
    let byteOr (at_ : Nat) (f : Byte → Instr) :=
      if at_ ≥ s'.lat.srcLen.toNat then .next (completeFail .malformed s') else exec (f (s'.src at_)) s'
    (s'.phase = .header → s'.lat.tag ∈ [Config.tagLz, Config.tagHuf4, Config.tagHuf8, Config.tagRle] →
      (s'.src 0 ≠ s'.lat.tag → step s = .next (completeFail .formatMismatch s'))
      ∧ (s'.src 0 = s'.lat.tag → s'.lat.srcLen.toNat < 4 → step s = .next (completeFail .malformed s'))
      ∧ (s'.src 0 = s'.lat.tag → 4 ≤ s'.lat.srcLen.toNat →
          ∃ i, decode .header [s'.src 0, s'.src 1, s'.src 2, s'.src 3] = .instr i [] ∧ step s = exec i s'))
    ∧ (s'.phase = .rleRecord → step s = byteOr s'.work.p (fun h => decodeRecord h.toNat))
    ∧ (s'.phase = .lzFlags → step s = byteOr s'.work.p .lzFlags)
    ∧ (s'.phase = .hufSize → step s = byteOr 4 .hufSize)
    ∧ (s'.phase = .hufBranch → step s = byteOr (4 + s'.work.q) (fun n => decodeBranch n.toNat))

/-- RLE.RUN (R65): without its data byte the command ends with MALFORMED; else the data byte is emitted len times, or as often
as the declared size has room for, the cursor advances by exactly 2, and the block is complete when its size is reached.
The premises are the decoder's own: o ≤ size ≤ DST_CAP (R64). -/
def Obligations.RleRunRepeatsTheByte : Prop :=
  ∀ (s : State) (len : Nat), s.work.out.length ≤ s.work.size → s.work.size ≤ s.lat.dstCap.toNat →
    exec (.rleRun len) s = .next (
      if s.work.p + 1 ≥ s.lat.srcLen.toNat then
        completeFail .malformed
          { s with work := { s.work with h := s.src s.work.p, cnt := len, p := s.work.p + 1 } }
      else
        let w : Work :=
          { s.work with
            h := s.src s.work.p, cnt := len, p := s.work.p + 2,
            out := s.work.out ++ List.replicate (min len (s.work.size - s.work.out.length)) (s.src (s.work.p + 1)) }
        if w.out.length < s.work.size then { s with phase := .rleRecord, work := w } else completeOk { s with work := w })

/-- RLE.LIT (R66): k bytes are copied, k being len or what the declared size has room for; when the stream ends inside the
record before that, the bytes it has are emitted and the command ends with MALFORMED; the bytes after the k are not read. -/
def Obligations.RleLitCopiesTheBytes : Prop :=
  ∀ (s : State) (len : Nat), s.work.out.length ≤ s.work.size → s.work.size ≤ s.lat.dstCap.toNat →
    let k := min len (s.work.size - s.work.out.length)
    let avail := s.lat.srcLen.toNat - (s.work.p + 1)
    let after (n : Nat) : Work :=
      { s.work with
        h := s.src s.work.p, cnt := len, p := s.work.p + 1 + n,
        out := s.work.out ++ (List.range n).map (fun i => s.src (s.work.p + 1 + i)) }
    exec (.rleLit len) s = .next (
      if avail < k then completeFail .malformed { s with work := after avail }
      else if (after k).out.length < s.work.size then { s with phase := .rleRecord, work := after k }
      else completeOk { s with work := after k })

/-- LZ.FLAGS (R98) where the output is not complete: the flag byte is held with its 8 bits to consume from bit 7 down, the
cursor moves past it, and the next unit is LZ.REF where bit 7 is 1 and LZ.LIT where it is 0. -/
def Obligations.LzFlagsOpensAGroup : Prop :=
  ∀ (s : State) (f : Byte), s.work.out.length < s.work.size →
    exec (.lzFlags f) s
      = .next { s with phase := .lzItem, work := { s.work with p := s.work.p + 1, flags := f, flagsLeft := 8 } }
    ∧ ({ s.work with p := s.work.p + 1, flags := f, flagsLeft := 8 } : Work).grammar .lzItem
      = some (if f.getLsbD 7 then .lzRef else .lzLit)

/-- What follows an item of an LZ77 group (R97, R98): the block is complete, or the group's next item, or the next group. -/
def afterLzItem (s : State) (w : Work) : State :=
  if w.size ≤ w.out.length then completeOk { s with work := w }
  else { s with phase := if w.flagsLeft = 0 then .lzFlags else .lzItem, work := w }

/-- A step of LZ_DEC at a literal item (R99): when the stream has ended the command ends with MALFORMED; else the byte at the
cursor is emitted and the cursor moves past it. -/
def Obligations.LzLitStepCopiesTheByte : Prop :=
  ∀ s s' : State, s.engineNext = some s' → s'.phase = .lzItem → s'.work.flagBit = false →
    s'.work.out.length < s'.lat.dstCap.toNat →
    step s = .next (
      if s'.work.p ≥ s'.lat.srcLen.toNat then completeFail .malformed s'
      else
        afterLzItem s'
          { s'.work with
            p := s'.work.p + 1, flagsLeft := s'.work.flagsLeft - 1, out := s'.work.out ++ [s'.src s'.work.p] })

/-- LZ.LIT as an instruction (R99): its byte is emitted, the cursor and the flag bits advance by one. -/
def Obligations.LzLitEmitsItsByte : Prop :=
  ∀ (s : State) (b : Byte), s.work.out.length < s.lat.dstCap.toNat →
    exec (.lzLit b) s = .next (afterLzItem s
      { s.work with p := s.work.p + 1, flagsLeft := s.work.flagsLeft - 1, out := s.work.out ++ [b] })

/-- LZ.REF (R100). A step of LZ_DEC at a reference item: where two bytes are not left the command ends with MALFORMED; else
the item is LZ.REF with len = t0[7:4] + 3 and dist = (t0[3:0] << 8 | t1) + 1. LZ.REF itself: a distance before the first output
byte ends the command with MALFORMED; else k bytes are emitted, k being len or what the declared size has room for, each equal
to the byte dist places before it in the output as it then is, so a copy may overlap what it has just produced. The premises
are the decoder's own: o ≤ size ≤ DST_CAP (R97). -/
def Obligations.LzRefCopiesHistory : Prop :=
  (∀ s s' : State, s.engineNext = some s' → s'.phase = .lzItem → s'.work.flagBit = true →
    let t0 := (s'.src s'.work.p).toNat
    let t1 := (s'.src (s'.work.p + 1)).toNat
    step s =
      if s'.work.p + 1 ≥ s'.lat.srcLen.toNat then .next (completeFail .malformed s')
      else exec (.lzRef (t0 / 16 + 3) (t0 % 16 * 256 + t1 + 1)) s')
  ∧ ∀ (s : State) (len dist : Nat), 1 ≤ dist → s.work.out.length ≤ s.work.size → s.work.size ≤ s.lat.dstCap.toNat →
    let moved : Work := { s.work with p := s.work.p + 2, flagsLeft := s.work.flagsLeft - 1 }
    (dist > s.work.out.length → exec (.lzRef len dist) s = .next (completeFail .malformed { s with work := moved }))
    ∧ (dist ≤ s.work.out.length →
        ∃ out, exec (.lzRef len dist) s = .next (afterLzItem s { moved with out := out })
          ∧ out.length = s.work.out.length + min len (s.work.size - s.work.out.length)
          ∧ out.take s.work.out.length = s.work.out
          ∧ ∀ j, s.work.out.length ≤ j → j < out.length → out[j]? = out[j - dist]?)

/-- HUF.SIZE (R82) where a symbol is to be decoded: a table that does not lie inside the block is MALFORMED; else the table's
last position is 2S + 1, the bit cursor stands at payload offset 6 + 2S, size * 8 / w symbols are needed, and the first walk
starts at the root with a payload word. -/
def Obligations.HufSizeSetsUpTheWalk : Prop :=
  ∀ (s : State) (b : Byte), 0 < s.work.size * 8 / s.env.width →
    let w : Work := { s.work with tableSize := b.toNat, last := 2 * b.toNat + 1 }
    exec (.hufSize b) s = .next (
      if 4 + (2 * b.toNat + 1) ≥ s.lat.srcLen.toNat then completeFail .malformed { s with work := w }
      else
        { s with
          phase := .hufWord,
          work := { w with bp := 6 + 2 * b.toNat, bi := 0, need := s.work.size * 8 / s.env.width, j := 0, q := 1 } })

/-- A step of the bit reader where it needs a new word (R83): when four bytes are not left the command ends with MALFORMED;
else the little-endian word at the bit cursor becomes the current word and the cursor moves past it. -/
def Obligations.HufWordStepLoadsLittleEndian : Prop :=
  ∀ s s' : State, s.engineNext = some s' → s'.phase = .hufWord →
    step s = .next (
      if s'.work.bp + 4 > s'.lat.srcLen.toNat then completeFail .malformed s'
      else
        { s' with
          phase := .hufBranch,
          work := { s'.work with
            bp := s'.work.bp + 4,
            cur := s'.src (s'.work.bp + 3) ++ s'.src (s'.work.bp + 2) ++ s'.src (s'.work.bp + 1) ++ s'.src s'.work.bp } })

/-- HUF.WORD as an instruction (R83): the word becomes the current word, nothing but the bit cursor moves. -/
def Obligations.HufWordHoldsTheWord : Prop :=
  ∀ (s : State) (c : Word),
    exec (.hufWord c) s = .next { s with phase := .hufBranch, work := { s.work with cur := c, bp := s.work.bp + 4 } }

/-- HUF.BRANCH (R84 with the bit of R83): bit 31 - bi of the current word picks the child at (q & ~1) + 2 OFF + 2 + bit; past
the table's last position it is MALFORMED; where LL (bit 0) or RL (bit 1) says leaf, the leaf byte is next; else the walk goes
on from the child, with a new word when bi has come round to 0. -/
def Obligations.HufBranchWalksOneBit : Prop :=
  ∀ (s : State) (off : Nat) (ll rl : Bool),
    let bit := s.work.cur.getLsbD (31 - s.work.bi)
    let child := s.work.q / 2 * 2 + 2 * off + 2 + bit.toNat
    let w : Work := { s.work with bi := (s.work.bi + 1) % 32 }
    exec (.hufBranch off ll rl) s = .next (
      if child > s.work.last then completeFail .malformed { s with work := w }
      else
        { s with
          work := { w with q := child },
          phase := if (bit = false ∧ ll = true) ∨ (bit = true ∧ rl = true) then .hufLeaf
                   else if w.bi = 0 then .hufWord else .hufBranch })

/-- A walk only moves forward in the table (R84: child ≥ q + 1 at every step), even in a malformed table: a branch that does
not end the command puts q past where it was and not past the table. -/
def Obligations.HufWalkMovesForward : Prop :=
  ∀ (s t : State) (off : Nat) (ll rl : Bool), exec (.hufBranch off ll rl) s = .next t → t.busy = true →
    s.work.q < t.work.q ∧ t.work.q ≤ s.work.last

/-- What follows a symbol (R82): the block is complete, or the next walk starts at the root. -/
def afterHufSymbol (s : State) (w : Work) : State :=
  if s.work.j + 1 = s.work.need then completeOk { s with work := { w with j := s.work.j + 1, q := 1 } }
  else
    { s with
      phase := if s.work.bi = 0 then .hufWord else .hufBranch, work := { w with j := s.work.j + 1, q := 1 } }

/-- HUF.LEAF (R85, and the loop of R82). A step at a leaf reads the byte at table position q, block offset 4 + q. Its symbol is
(v - P_HUF_LEAF_BIAS) mod 256 mod 2^w; for w = 8 it is emitted; for w = 4 an even-numbered symbol is kept and an odd-numbered
one is emitted with it, the kept one in bits 3:0. -/
def Obligations.HufLeafYieldsTheSymbol : Prop :=
  (∀ s s' : State, s.engineNext = some s' → s'.phase = .hufLeaf → 4 + s'.work.q < s'.lat.srcLen.toNat →
    step s = exec (.hufLeaf (s'.src (4 + s'.work.q))) s')
  ∧ ∀ (s : State) (v : Byte), s.work.out.length < s.lat.dstCap.toNat → s.work.lo < 16 →
    let value := (256 + v.toNat - s.cfg.leafBias.toByte.toNat) % 256
    exec (.hufLeaf v) s = .next (
      if s.lat.tag ≠ Config.tagHuf4 then
        afterHufSymbol s { s.work with out := s.work.out ++ [BitVec.ofNat 8 value] }
      else if s.work.j % 2 = 0 then afterHufSymbol s { s.work with lo := value % 16 }
      else afterHufSymbol s { s.work with out := s.work.out ++ [BitVec.ofNat 8 (s.work.lo + 16 * (value % 16))] })

/-! ### Completion, frames and invariants -/

/-- The completion step (R23) of a command whose outcome is specified. OK: OUT stands in memory from DST_ADDR on, OUT_LEN is
its length, CODE is OK. FAIL after e bytes: OUT_LEN is 0, CODE the code, the bytes 0 to e - 1 of DST become free values. In
both: BUSY 0, DONE 1, every other byte of memory as before, the host's registers as before. -/
def Obligations.CompletionStep : Prop :=
  ∀ (s : State), s.disturbed = false → s.mem.wf = true →
    s.lat.dstAddr.toNat + s.work.out.length ≤ 2 ^ 32 →
    let n := s.work.out.length
    let outside (a : Addr) : Prop := a.toNat < s.lat.dstAddr.toNat ∨ s.lat.dstAddr.toNat + n ≤ a.toNat
    (let t := completeOk s
     t.busy = false ∧ t.done = true ∧ t.code = .ok ∧ t.outLen = BitVec.ofNat 32 n ∧ t.hostRegs = s.hostRegs
     ∧ (∀ i, i < n → t.mem.read (s.lat.dstAddr + BitVec.ofNat 32 i) = s.work.out.getD i 0)
     ∧ ∀ a, outside a → t.mem.read a = s.mem.read a)
    ∧ ∀ c,
      (let t := completeFail c s
       t.busy = false ∧ t.done = true ∧ t.code = c ∧ t.outLen = 0 ∧ t.hostRegs = s.hostRegs
       ∧ (∀ i, i < n → t.mem.read (s.lat.dstAddr + BitVec.ofNat 32 i) = Config.freeByte (s.free + i))
       ∧ (∀ a, outside a → t.mem.read a = s.mem.read a)
       ∧ (n = 0 → t.mem = s.mem))

/-- The completion of a command whose outcome has become unspecified (R124; the form of the free values is the model's,
log 9): OUT_LEN is consistent with CODE, the bytes of the DST region are free, and no other byte and no register the host
wrote changes. -/
def Obligations.DisturbedCompletion : Prop :=
  ∀ (s t : State), s.disturbed = true → s.mem.wf = true → (t = completeOk s ∨ ∃ c, t = completeFail c s) →
    t.busy = false ∧ t.done = true ∧ t.disturbed = false ∧ t.hostRegs = s.hostRegs
    ∧ t.code = Code.ofFin (Config.freeCode s.free) ∧ (t.code ≠ .ok → t.outLen = 0)
    ∧ (∀ i, i < s.dstSpan → t.mem.read (s.lat.dstAddr + BitVec.ofNat 32 i) = Config.freeByte (s.free + 1 + i))
    ∧ ∀ a, s.inDst a = false → t.mem.read a = s.mem.read a

/-- The only flags are BUSY, DONE and CODE; START (a write to CMD with bit 31 = 1 while BUSY = 0, R22) and completion (R23) write
them, nothing else does (R26), and reset gives them their reset values (R32, R122). OUT_LEN goes with them (R20). -/
def Obligations.FlagsChangeOnlyAtStartAndCompletion : Prop :=
  ∀ s t : State, s.Inv → step s = .next t →
    (t.busy = s.busy ∧ t.done = s.done ∧ t.code = s.code ∧ t.outLen = s.outLen)
    ∨ (∃ width a v rest, s.input = .host (.regWrite width a v) :: rest ∧ s.regFor width a = some .cmd
        ∧ s.busy = false ∧ v.getLsbD 31 = true
        ∧ t.busy = true ∧ t.done = false ∧ t.code = .ok ∧ t.outLen = 0)
    ∨ (s.busy = true ∧ (∀ op rest, s.input ≠ .host op :: rest) ∧ t.busy = false ∧ t.done = true)
    ∨ (∃ rest, s.input = .host .reset :: rest ∧ t.busy = false ∧ t.done = false ∧ t.code = .ok ∧ t.outLen = 0)

/-- No instruction writes the registers that are the host's, or the configuration (R127). -/
def Obligations.EngineKeepsTheHostsRegisters : Prop :=
  ∀ (i : Instr) (s t : State), exec i s = .next t → t.hostRegs = s.hostRegs ∧ t.lat = s.lat ∧ t.input = s.input

/-- No instruction writes memory outside the DST region, and none writes memory before the command completes (R12, R34). The
premise about o is the invariant's: OUT never grows past DST_CAP (OutputFitsTheCapacity). -/
def Obligations.EngineWritesOnlyTheDstRegion : Prop :=
  ∀ (i : Instr) (s t : State), exec i s = .next t → s.mem.wf = true → s.work.out.length ≤ s.lat.dstCap.toNat →
    s.lat.dstAddr.toNat + s.lat.dstCap.toNat ≤ 2 ^ 32 →
    (∀ a, s.inDst a = false → t.mem.read a = s.mem.read a) ∧ (s.busy = true → t.busy = true → t.mem = s.mem)

/-- Emit never lets the output grow past DST_CAP (R12): every instruction keeps o ≤ DST_CAP. -/
def Obligations.OutputFitsTheCapacity : Prop :=
  ∀ (i : Instr) (s t : State), exec i s = .next t → s.work.out.length ≤ s.lat.dstCap.toNat →
    t.work.out.length ≤ t.lat.dstCap.toNat

/-- The invariant holds right after reset. -/
def Obligations.InvariantAtReset : Prop := ∀ cfg, (State.resetWith cfg []).Inv

/-- Every step keeps the invariant: memory's canonical form, the legal STATUS combinations (R18: (1,1) never occurs), CODE and
OUT_LEN 0 while BUSY (R18, R20), OUT_LEN 0 after a failure (R20), the latched values equal to the registers (R21 (b), R127),
EntryCheck passed by every running decoder (R103), and the decoder's place in its stream (R59, R84). -/
def Obligations.EveryStepKeepsTheInvariant : Prop := ∀ s t : State, s.Inv → step s = .next t → t.Inv

/-- Every started command completes (R129, R130): left alone, the engine ends any command it runs. -/
def Obligations.EveryCommandCompletes : Prop :=
  ∀ s : State, s.Inv → s.busy = true → s.input = [] →
    ∃ k t, Host.Core.run Sys2Proof.core k s = .next t ∧ t.busy = false ∧ t.done = true

/-! ### The commands' functional cores -/

/-- A decode command about to run: started with DIR = 1 and this TAG, EntryCheck passes, the host leaves it alone. -/
def decodeStarted (s : State) (tag : Byte) : Prop :=
  s.phase = .command ∧ s.busy = true ∧ s.disturbed = false ∧ s.input = [] ∧ s.mem.wf = true
  ∧ s.lat.dir = true ∧ s.lat.tag = tag ∧ ¬EntryFails s.lat

/-- RLE_DEC, run by the engine record by record, completes with what the functional core of R64 to R66 gives for the input
(R13, R23, R59, R107, R110). -/
def Obligations.RleDecodeComputesItsCore : Prop :=
  ∀ s : State, decodeStarted s Config.tagRle → EventuallyCompletes s (rleDecode s.lat.dstCap.toNat s.inBytes)

/-- LZ_DEC, run by the engine group by group and item by item, completes with what the functional core of R97 to R100 gives
for the input. -/
def Obligations.LzDecodeComputesItsCore : Prop :=
  ∀ s : State, decodeStarted s Config.tagLz → EventuallyCompletes s (lzDecode s.lat.dstCap.toNat s.inBytes)

/-- HUF4_DEC and HUF8_DEC, run by the engine bit by bit, complete with what the functional core of R82 to R85 gives for the
input. -/
def Obligations.HufDecodeComputesItsCore : Prop :=
  ∀ s : State,
    (decodeStarted s Config.tagHuf4 →
      EventuallyCompletes s
        (hufDecode s.cfg.leafBias.toByte Config.tagHuf4 4 s.lat.dstCap.toNat s.inBytes))
    ∧ (decodeStarted s Config.tagHuf8 →
      EventuallyCompletes s
        (hufDecode s.cfg.leafBias.toByte Config.tagHuf8 8 s.lat.dstCap.toNat s.inBytes))

/-- A decoder that answers OK has produced exactly the declared size (R20, R59). -/
def Obligations.DecodedLengthIsTheDeclaredSize : Prop :=
  ∀ (inp out : List Byte) (cap : Nat) (bias : Byte),
    (rleDecode cap inp = .ok out ∨ lzDecode cap inp = .ok out ∨ hufDecode bias Config.tagHuf4 4 cap inp = .ok out
      ∨ hufDecode bias Config.tagHuf8 8 cap inp = .ok out) →
    out.length = leNat ((inp.drop 1).take 3) ∧ 0 < out.length ∧ out.length ≤ cap

/-- Every block an encoder produces begins with its tag and the input's length, little-endian in 24 bits, and its length is a
multiple of 4 (R48, R49). -/
def Obligations.BlocksAreTaggedAndAligned : Prop :=
  ∀ (cfg : Config.Params) (i : Instr) (inp block : List Byte), 1 ≤ inp.length → inp.length ≤ Config.sizeMax →
    encodeBlock cfg inp i = some (.ok block) →
    block.length % 4 = 0
    ∧ [block.headD 0] = (match i with
        | .rleEnc => [Config.tagRle] | .lzEnc => [Config.tagLz] | .huf4Enc => [Config.tagHuf4] | .huf8Enc => [Config.tagHuf8]
        | _ => [])
    ∧ leNat ((block.drop 1).take 3) = inp.length

/-- What RLE_ENC puts out (R63): the tag and the length; a multiple of 4 bytes; a payload that is a sequence of records standing
for the input, runs of 3 to 130 bytes and literals of 1 to 128, no literal with three equal bytes in a row, two literals in a
row only where the first has 128 bytes; a run below 130 that its own byte does not follow (R62: the run is measured to its
end); a payload of at most n + ceil(n / 128) bytes, so a block of at most 4 + n + ceil(n / 128) + 3. -/
def Obligations.RleBlockBound : Prop :=
  ∀ inp : List Byte,
    (rleBlock inp).headD 0 = Config.tagRle ∧ (rleBlock inp).length % 4 = 0
    ∧ (inp.length ≤ Config.sizeMax → leNat (((rleBlock inp).drop 1).take 3) = inp.length)
    ∧ (∃ recs : List RleRecord,
        (rlePayload inp).2 = recs.flatMap RleRecord.bytes ∧ recs.flatMap RleRecord.data = inp ∧ (∀ r ∈ recs, r.ok)
        ∧ (∀ i bs bs', recs[i]? = some (.lit bs) → recs[i + 1]? = some (.lit bs') → bs.length = 128)
        ∧ (∀ i len b r, recs[i]? = some (.run len b) → recs[i + 1]? = some r → len < 130 → r.data.head? ≠ some b))
    ∧ (rlePayload inp).2.length ≤ inp.length + (inp.length + 127) / 128
    ∧ (rleBlock inp).length ≤ 4 + inp.length + (inp.length + 127) / 128 + 3

/-- The LZ77 payload is at most n + ceil(n / 8) bytes, so a block is at most 4 + n + ceil(n / 8) + 3 bytes (R96 (d)). -/
def Obligations.LzBlockBound : Prop :=
  ∀ (fill : Byte) (inp : List Byte), 1 ≤ inp.length →
    (lzPayload fill inp).2.length ≤ inp.length + (inp.length + 7) / 8
    ∧ (lzBlock fill inp).length ≤ 4 + inp.length + (inp.length + 7) / 8 + 3

/-- What LZ_ENC puts out, whatever P_LZ_FILL is (R51, R95, R96 (a) to (c)): groups of 8 items, the last of 1 to 8, each after its
flag byte; every REF has len 3 to 18 and dist 2 to 4078 (so never the position just before, R90) and copies only bytes already
coded; the items stand for exactly the input; the first two are literals (R94). And REFs are emitted: where the input begins
with n ≥ 5 equal bytes and no more, the third item is the REF at distance 2 that covers the rest of them, 18 at most (R89, R90;
V43). -/
def Obligations.LzBlockItems : Prop :=
  ∀ (fill : Byte) (inp : List Byte), 1 ≤ inp.length →
    ∃ groups : List (List LzItem),
      (lzPayload fill inp).2 = groups.flatMap lzGroupBytes
      ∧ (∀ i g, groups[i]? = some g → 1 ≤ g.length ∧ g.length ≤ 8 ∧ (i + 1 < groups.length → g.length = 8))
      ∧ (∀ len dist, .ref len dist ∈ groups.flatten → 3 ≤ len ∧ len ≤ 18 ∧ 2 ≤ dist ∧ dist ≤ 4078)
      ∧ lzExpand groups.flatten [] = some inp
      ∧ (∀ item ∈ groups.flatten.take 2, item.isRef = false)
      ∧ (∀ b n, 5 ≤ n → inp.take n = List.replicate n b → inp[n]? ≠ some b →
          groups.flatten.take 3 = [.lit b, .lit b, .ref (min 18 (n - 2)) 2])

/-- RLE round trip (R67): for every input of 1 to 2^24 - 1 bytes, RLE_DEC of the block RLE_ENC makes, with enough capacity, is
OK and returns the input. -/
def Obligations.RleRoundTrip : Prop :=
  ∀ (inp : List Byte) (cap : Nat), 1 ≤ inp.length → inp.length ≤ 2 ^ 24 - 1 → inp.length ≤ cap →
    rleDecode cap (rleBlock inp) = .ok inp

/-- LZ77 round trip (R101): for every input of 1 to 2^24 - 1 bytes, LZ_DEC of the block LZ_ENC makes, with enough capacity, is
OK and returns the input, whatever P_LZ_FILL is. -/
def Obligations.LzRoundTrip : Prop :=
  ∀ (fill : Byte) (inp : List Byte) (cap : Nat), 1 ≤ inp.length → inp.length ≤ 2 ^ 24 - 1 → inp.length ≤ cap →
    lzDecode cap (lzBlock fill inp) = .ok inp

/-- No branch offset of the table exceeds 63, so P_HUF_OFFSET = mask masks none (R77). -/
def offsetsFit (cfg : Config.Params) (inp : List Byte) : Prop := ∀ off ∈ (hufTree cfg 8 inp).offsets 256, off ≤ 63

/-- Huffman round trip (R86): when P_HUF_TAIL is pad or reject, or truncate with nothing to cut off, and the encode gives a block,
the decode of it under the same parameters and width, with enough capacity, is OK and returns the input. For w = 8 under
P_HUF_OFFSET = mask this is said where no branch offset was masked: a masked table does not decode to the input
(93_implementation_defined.md S16; log 25). For w = 4 no offset exceeds 14, and mask needs no premise (R77). -/
def Obligations.HuffmanRoundTrip : Prop :=
  ∀ (cfg : Config.Params) (inp block : List Byte) (cap : Nat), inp.length ≤ 2 ^ 24 - 1 → inp.length ≤ cap →
    (cfg.hufTail = .truncate → inp.length % 4 = 0) →
    ((hufEncode cfg Config.tagHuf4 4 inp).2 = .ok block →
      hufDecode cfg.leafBias.toByte Config.tagHuf4 4 cap block = .ok inp)
    ∧ ((hufEncode cfg Config.tagHuf8 8 inp).2 = .ok block → cfg.hufOffset = .fail ∨ offsetsFit cfg inp →
      hufDecode cfg.leafBias.toByte Config.tagHuf8 8 cap block = .ok inp)

/-- For w = 4 EncodingOverflow never occurs, under any parameters (R81 (c)). -/
def Obligations.HuffmanFourNeverOverflows : Prop :=
  ∀ (cfg : Config.Params) (inp : List Byte), (hufEncode cfg Config.tagHuf4 4 inp).2 ≠ .error .encodingOverflow

/-- The low n bits of v, from bit n - 1 down. -/
def bitsDown (n v : Nat) : List Bool := (List.range n).map (fun i => v.testBit (n - 1 - i))

/-- Pack (R80): the codes lie end to end in the words, each word used from bit 31 down, and the unused low bits of the last word,
fewer than 32, are 0 (R56). -/
def Obligations.PackLaysCodesEndToEnd : Prop :=
  ∀ (h : HufScratch) (syms : List Nat),
    (∀ s ∈ syms, cellGet 0 h.clen s ≤ 31 ∧ cellGet 0 h.code s < 2 ^ cellGet 0 h.clen s) →
    ∃ pad, pad < 32 ∧
      (hufWords (hufPack h syms 0 0)).flatMap (bitsDown 32)
        = syms.flatMap (fun s => bitsDown (cellGet 0 h.clen s) (cellGet 0 h.code s)) ++ List.replicate pad false

/-! ### Round trips on the machine -/

/-- The block an encode command left in memory: OUT_LEN bytes from the latched DST_ADDR on. -/
def blockAt (s t : State) : List Byte :=
  (List.range t.outLen.toNat).map (fun i => t.mem.read (s.lat.dstAddr + BitVec.ofNat 32 i))

/-- An encode command that ran from s and completed with OK at t. -/
def encodedOk (i : Instr) (s t : State) : Prop :=
  ¬EntryFails s.lat ∧ s.lat.dir = false ∧ s.disturbed = false ∧ s.mem.wf = true ∧ exec i s = .next t ∧ t.code = .ok

/-- RLE round trip on the machine (R67): when RLE_ENC completes with OK, RLE_DEC of its output, with enough capacity, completes
with OK and gives back the input. -/
def Obligations.RleRoundTripOnTheMachine : Prop :=
  ∀ s t u : State, encodedOk .rleEnc s t → decodeStarted u Config.tagRle → u.inBytes = blockAt s t →
    s.lat.srcLen.toNat ≤ u.lat.dstCap.toNat → EventuallyCompletes u (.ok s.inBytes)

/-- LZ77 round trip on the machine (R101), likewise. -/
def Obligations.LzRoundTripOnTheMachine : Prop :=
  ∀ s t u : State, encodedOk .lzEnc s t → decodeStarted u Config.tagLz → u.inBytes = blockAt s t →
    s.lat.srcLen.toNat ≤ u.lat.dstCap.toNat → EventuallyCompletes u (.ok s.inBytes)

/-- Huffman round trip on the machine (R86), both widths, under the same parameters, where P_HUF_TAIL cuts nothing off; under
P_HUF_OFFSET = mask for w = 4, and for w = 8 where no branch offset was masked (93_implementation_defined.md S16; log 25). -/
def Obligations.HuffmanRoundTripOnTheMachine : Prop :=
  ∀ (s t u : State) (i : Instr) (tag : Byte),
    (i = .huf4Enc ∧ tag = Config.tagHuf4)
      ∨ (i = .huf8Enc ∧ tag = Config.tagHuf8 ∧ (s.cfg.hufOffset = .fail ∨ offsetsFit s.cfg s.inBytes)) →
    encodedOk i s t → decodeStarted u tag → u.inBytes = blockAt s t → s.lat.srcLen.toNat ≤ u.lat.dstCap.toNat →
    u.cfg = s.cfg → (s.cfg.hufTail = .truncate → s.lat.srcLen.toNat % 4 = 0) → EventuallyCompletes u (.ok s.inBytes)
end

