-- ==== Sys2Proof/Laws/Memory.lean ====
section
/-! SUPPORT. Sparse arrays and memory: read after write, what a write leaves alone, and that every operation keeps the
canonical form, in which equal contents are equal lists. -/

namespace Sys2Proof.Machine

section Cells
variable {α : Type} [DecidableEq α] {d : α}

theorem cellsWfFrom_cons {lo k : Nat} {v : α} {m : List (Nat × α)} :
    cellsWfFrom d lo ((k, v) :: m) = true ↔ lo ≤ k ∧ v ≠ d ∧ cellsWfFrom d (k + 1) m = true := by
  simp [cellsWfFrom, and_assoc]

theorem cellsWfFrom_mono {lo lo' : Nat} {m : List (Nat × α)} (h : cellsWfFrom d lo m = true) (hl : lo' ≤ lo) :
    cellsWfFrom d lo' m = true := by
  cases m with
  | nil => rfl
  | cons c m =>
    obtain ⟨k, v⟩ := c
    rw [cellsWfFrom_cons] at h ⊢
    exact ⟨by omega, h.2⟩

/-- Below the first key a canonical array lists nothing. -/
theorem cellGet_below {lo a : Nat} {m : List (Nat × α)} (h : cellsWfFrom d lo m = true) (ha : a < lo) :
    cellGet d m a = d := by
  cases m with
  | nil => rfl
  | cons c m =>
    obtain ⟨k, v⟩ := c
    rw [cellsWfFrom_cons] at h
    have hk : a ≠ k := by omega
    have hlt : a < k := by omega
    simp [cellGet, hk, hlt]

theorem cellGet_cellSet_same {lo a : Nat} {v : α} {m : List (Nat × α)} (h : cellsWfFrom d lo m = true) :
    cellGet d (cellSet d m a v) a = v := by
  induction m generalizing lo with
  | nil => by_cases hv : v = d <;> simp [cellSet, cellGet, hv]
  | cons c m ih =>
    obtain ⟨k, w⟩ := c
    rw [cellsWfFrom_cons] at h
    by_cases hlt : a < k
    · by_cases hv : v = d
      · simp [cellSet, cellGet, hlt, hv, Nat.ne_of_lt hlt]
      · simp [cellSet, cellGet, hlt, hv]
    · by_cases he : a = k
      · subst he
        by_cases hv : v = d
        · simp [cellSet, hv, cellGet_below h.2.2 (Nat.lt_succ_self a)]
        · simp [cellSet, cellGet, hv]
      · simp [cellSet, cellGet, hlt, he, ih h.2.2]

theorem cellGet_cellSet_ne {lo a b : Nat} {v : α} {m : List (Nat × α)} (h : cellsWfFrom d lo m = true) (hb : b ≠ a) :
    cellGet d (cellSet d m a v) b = cellGet d m b := by
  induction m generalizing lo with
  | nil => by_cases hv : v = d <;> simp [cellSet, cellGet, hv, hb]
  | cons c m ih =>
    obtain ⟨k, w⟩ := c
    rw [cellsWfFrom_cons] at h
    by_cases hlt : a < k
    · by_cases hv : v = d
      · simp [cellSet, hlt, hv]
      · by_cases hba : b < a
        · have h1 : b < k := by omega
          have h2 : b ≠ k := by omega
          simp [cellSet, cellGet, hlt, hv, hb, hba, h1, h2]
        · simp [cellSet, cellGet, hlt, hv, hb, hba]
    · by_cases he : a = k
      · subst he
        by_cases hba : b < a
        · by_cases hv : v = d
          · have : cellGet d m b = d := cellGet_below h.2.2 (by omega)
            simp [cellSet, cellGet, hv, hb, hba, this]
          · simp [cellSet, cellGet, hv, hb, hba]
        · by_cases hv : v = d <;> simp [cellSet, cellGet, hv, hb, hba]
      · simp only [cellSet, hlt, he, if_false, cellGet]
        rw [ih h.2.2]

/-- Read after write, in one equation. -/
theorem cellGet_cellSet {lo a b : Nat} {v : α} {m : List (Nat × α)} (h : cellsWfFrom d lo m = true) :
    cellGet d (cellSet d m a v) b = if b = a then v else cellGet d m b := by
  by_cases hb : b = a
  · subst hb; simp [cellGet_cellSet_same h]
  · simp [hb, cellGet_cellSet_ne h hb]

/-- A write keeps the canonical form. -/
theorem cellsWfFrom_cellSet {lo a : Nat} {v : α} {m : List (Nat × α)} (h : cellsWfFrom d lo m = true) (ha : lo ≤ a) :
    cellsWfFrom d lo (cellSet d m a v) = true := by
  induction m generalizing lo with
  | nil =>
    by_cases hv : v = d
    · simp [cellSet, hv, cellsWfFrom]
    · simp [cellSet, hv, cellsWfFrom, ha]
  | cons c m ih =>
    obtain ⟨k, w⟩ := c
    have h' := cellsWfFrom_cons.mp h
    by_cases hlt : a < k
    · by_cases hv : v = d
      · simpa [cellSet, hlt, hv] using h
      · simp only [cellSet, hlt, hv, if_true, if_false]
        exact cellsWfFrom_cons.mpr ⟨ha, hv, cellsWfFrom_cons.mpr ⟨by omega, h'.2⟩⟩
    · by_cases he : a = k
      · subst he
        by_cases hv : v = d
        · simp only [cellSet, hv, if_true, lt_self_iff_false, if_false]
          exact cellsWfFrom_mono h'.2.2 (by omega)
        · simp only [cellSet, hv, if_true, lt_self_iff_false, if_false]
          exact cellsWfFrom_cons.mpr ⟨ha, hv, h'.2.2⟩
      · simp only [cellSet, hlt, he, if_false]
        exact cellsWfFrom_cons.mpr ⟨h'.1, h'.2.1, ih h'.2.2 (by omega)⟩

/-- Every key of the array after a write is the one written or was there before. -/
theorem cellSet_all {P : Nat × α → Bool} {a : Nat} {v : α} {m : List (Nat × α)} (h : m.all P = true)
    (ha : P (a, v) = true) : (cellSet d m a v).all P = true := by
  induction m with
  | nil => by_cases hv : v = d <;> simp [cellSet, hv]; exact ha
  | cons c m ih =>
    obtain ⟨k, w⟩ := c
    simp only [List.all_cons, Bool.and_eq_true] at h
    by_cases hlt : a < k
    · by_cases hv : v = d
      · simp only [cellSet, hlt, hv, if_true, List.all_cons, h.1, h.2, Bool.and_self]
      · simp only [cellSet, hlt, hv, if_true, if_false, List.all_cons, h.1, h.2, ha, Bool.and_self]
    · by_cases he : a = k
      · by_cases hv : v = d
        · simp only [cellSet, he, hv, if_true, if_false, lt_self_iff_false, h.2]
        · subst he
          simp only [cellSet, hv, if_true, if_false, lt_self_iff_false, List.all_cons, h.2, ha, Bool.and_self]
      · simp only [cellSet, hlt, he, if_false, List.all_cons, h.1, ih h.2, Bool.and_self]

/-- Canonical arrays with the same contents are the same list. -/
theorem cells_ext {lo : Nat} {m m' : List (Nat × α)} (h : cellsWfFrom d lo m = true) (h' : cellsWfFrom d lo m' = true)
    (heq : ∀ a, lo ≤ a → cellGet d m a = cellGet d m' a) : m = m' := by
  induction m generalizing lo m' with
  | nil =>
    cases m' with
    | nil => rfl
    | cons c m' =>
      obtain ⟨k, w⟩ := c
      rw [cellsWfFrom_cons] at h'
      have := heq k h'.1
      simp [cellGet] at this
      exact absurd this.symm h'.2.1
  | cons c m ih =>
    obtain ⟨k, v⟩ := c
    rw [cellsWfFrom_cons] at h
    cases m' with
    | nil =>
      have := heq k h.1
      simp [cellGet] at this
      exact absurd this h.2.1
    | cons c' m' =>
      obtain ⟨k', w⟩ := c'
      rw [cellsWfFrom_cons] at h'
      have hk : k = k' := by
        rcases Nat.lt_trichotomy k k' with hlt | he | hgt
        · have := heq k h.1
          simp [cellGet, Nat.ne_of_lt hlt, hlt] at this
          exact absurd this h.2.1
        · exact he
        · have := heq k' h'.1
          simp [cellGet, Nat.ne_of_lt hgt, hgt] at this
          exact absurd this.symm h'.2.1
      subst hk
      have hv : v = w := by simpa [cellGet] using heq k h.1
      subst hv
      congr 1
      refine ih h.2.2 h'.2.2 fun a ha => ?_
      have := heq a (by omega)
      have h1 : a ≠ k := by omega
      have h2 : ¬a < k := by omega
      simpa [cellGet, h1, h2] using this

end Cells

/-! ### Memory -/

theorem Memory.wf_iff {m : Memory} :
    Memory.wf m = true ↔ cellsWfFrom Memory.unlisted 0 m = true ∧ m.all (fun c => decide (c.1 < 2 ^ 32)) = true := by
  simp [Memory.wf]

theorem Memory.read_write_same {m : Memory} {a : Addr} {v : Byte} (h : m.wf = true) : (m.write a v).read a = v :=
  cellGet_cellSet_same (Memory.wf_iff.mp h).1

theorem Memory.read_write_ne {m : Memory} {a b : Addr} {v : Byte} (h : m.wf = true) (hb : b ≠ a) :
    (m.write a v).read b = m.read b :=
  cellGet_cellSet_ne (Memory.wf_iff.mp h).1 fun he => hb (BitVec.eq_of_toNat_eq he)

theorem Memory.read_write {m : Memory} {a b : Addr} {v : Byte} (h : m.wf = true) :
    (m.write a v).read b = if b = a then v else m.read b := by
  by_cases hb : b = a
  · subst hb; simp [Memory.read_write_same h]
  · simp [hb, Memory.read_write_ne h hb]

/-- Every write keeps the canonical form. -/
theorem Memory.wf_write {m : Memory} {a : Addr} {v : Byte} (h : m.wf = true) : (m.write a v).wf = true := by
  rw [Memory.wf_iff] at h ⊢
  exact ⟨cellsWfFrom_cellSet h.1 (Nat.zero_le _), cellSet_all h.2 (by simpa using a.isLt)⟩

theorem Memory.wf_writeBytes {m : Memory} {a : Addr} {bs : List Byte} (h : m.wf = true) : (m.writeBytes a bs).wf = true := by
  induction bs generalizing m a with
  | nil => exact h
  | cons b bs ih => exact ih (Memory.wf_write h)

@[simp] theorem Memory.writeBytes_nil (m : Memory) (a : Addr) : m.writeBytes a [] = m := rfl

/-- The distance from a to b going up, round the address space. -/
theorem addr_sub_succ {a b : Addr} (h : b ≠ a) : (b - (a + 1)).toNat = (b - a).toNat - 1 := by
  have hne : b - a ≠ 0 := fun h0 => h (by bv_omega)
  bv_omega

/-- A byte outside the bytes written is as before. -/
theorem Memory.read_writeBytes_outside {m : Memory} {a b : Addr} {bs : List Byte} (h : m.wf = true)
    (hlen : bs.length ≤ 2 ^ 32) (hb : bs.length ≤ (b - a).toNat) : (m.writeBytes a bs).read b = m.read b := by
  induction bs generalizing m a with
  | nil => rfl
  | cons c cs ih =>
    simp only [List.length_cons] at hlen hb
    have hne : b ≠ a := by
      intro he; subst he
      simp at hb
    rw [Memory.writeBytes, ih (Memory.wf_write h) (by omega) (by rw [addr_sub_succ hne]; omega)]
    exact Memory.read_write_ne h hne

/-- A byte among the bytes written. -/
theorem Memory.read_writeBytes_inside {m : Memory} {a : Addr} {bs : List Byte} {i : Nat} (h : m.wf = true)
    (hlen : bs.length ≤ 2 ^ 32) (hi : i < bs.length) :
    (m.writeBytes a bs).read (a + BitVec.ofNat 32 i) = bs.getD i 0 := by
  induction bs generalizing m a i with
  | nil => simp at hi
  | cons c cs ih =>
    simp only [List.length_cons] at hlen hi
    rw [Memory.writeBytes]
    cases i with
    | zero =>
      have hout : (a + BitVec.ofNat 32 0) = a := by simp
      rw [hout, Memory.read_writeBytes_outside (Memory.wf_write h) (by omega), Memory.read_write_same h]
      · rfl
      · have : (a - (a + 1)).toNat = 2 ^ 32 - 1 := by bv_omega
        omega
    | succ i =>
      have haddr : a + BitVec.ofNat 32 (i + 1) = (a + 1) + BitVec.ofNat 32 i := by
        apply BitVec.eq_of_toNat_eq
        have h1 : (1 : BitVec 32).toNat = 1 := rfl
        simp only [BitVec.toNat_add, BitVec.toNat_ofNat, h1]
        omega
      rw [haddr, ih (Memory.wf_write h) (by omega) (by omega)]
      rfl

end Sys2Proof.Machine
end

