-- ==== Sys2Proof/Laws/State.lean ====
section
/-! SUPPORT. One lemma per field per shared update of State, true by rfl, so that no proof unfolds a record update: the flags
START and completion write (R22, R23), the end of a command, the freed DST region, and START. -/

namespace Sys2Proof.Machine

section FlagsAtStart
variable (s : State)
@[simp] theorem flagsAtStart_cfg : (flagsAtStart s).cfg = s.cfg := rfl
@[simp] theorem flagsAtStart_cmdTag : (flagsAtStart s).cmdTag = s.cmdTag := rfl
@[simp] theorem flagsAtStart_cmdDir : (flagsAtStart s).cmdDir = s.cmdDir := rfl
@[simp] theorem flagsAtStart_busy : (flagsAtStart s).busy = true := rfl
@[simp] theorem flagsAtStart_done : (flagsAtStart s).done = false := rfl
@[simp] theorem flagsAtStart_code : (flagsAtStart s).code = .ok := rfl
@[simp] theorem flagsAtStart_srcAddr : (flagsAtStart s).srcAddr = s.srcAddr := rfl
@[simp] theorem flagsAtStart_srcLen : (flagsAtStart s).srcLen = s.srcLen := rfl
@[simp] theorem flagsAtStart_dstAddr : (flagsAtStart s).dstAddr = s.dstAddr := rfl
@[simp] theorem flagsAtStart_dstCap : (flagsAtStart s).dstCap = s.dstCap := rfl
@[simp] theorem flagsAtStart_outLen : (flagsAtStart s).outLen = 0 := rfl
@[simp] theorem flagsAtStart_lat : (flagsAtStart s).lat = s.lat := rfl
@[simp] theorem flagsAtStart_mem : (flagsAtStart s).mem = s.mem := rfl
@[simp] theorem flagsAtStart_work : (flagsAtStart s).work = s.work := rfl
@[simp] theorem flagsAtStart_rle : (flagsAtStart s).rle = s.rle := rfl
@[simp] theorem flagsAtStart_huf : (flagsAtStart s).huf = s.huf := rfl
@[simp] theorem flagsAtStart_lz : (flagsAtStart s).lz = s.lz := rfl
@[simp] theorem flagsAtStart_phase : (flagsAtStart s).phase = s.phase := rfl
@[simp] theorem flagsAtStart_disturbed : (flagsAtStart s).disturbed = s.disturbed := rfl
@[simp] theorem flagsAtStart_input : (flagsAtStart s).input = s.input := rfl
@[simp] theorem flagsAtStart_rdata : (flagsAtStart s).rdata = s.rdata := rfl
@[simp] theorem flagsAtStart_free : (flagsAtStart s).free = s.free := rfl
end FlagsAtStart

section FlagsAtCompletion
variable (s : State) (c : Code) (len : Word)
@[simp] theorem flagsAtCompletion_cfg : (flagsAtCompletion c len s).cfg = s.cfg := rfl
@[simp] theorem flagsAtCompletion_cmdTag : (flagsAtCompletion c len s).cmdTag = s.cmdTag := rfl
@[simp] theorem flagsAtCompletion_cmdDir : (flagsAtCompletion c len s).cmdDir = s.cmdDir := rfl
@[simp] theorem flagsAtCompletion_busy : (flagsAtCompletion c len s).busy = false := rfl
@[simp] theorem flagsAtCompletion_done : (flagsAtCompletion c len s).done = true := rfl
@[simp] theorem flagsAtCompletion_code : (flagsAtCompletion c len s).code = c := rfl
@[simp] theorem flagsAtCompletion_srcAddr : (flagsAtCompletion c len s).srcAddr = s.srcAddr := rfl
@[simp] theorem flagsAtCompletion_srcLen : (flagsAtCompletion c len s).srcLen = s.srcLen := rfl
@[simp] theorem flagsAtCompletion_dstAddr : (flagsAtCompletion c len s).dstAddr = s.dstAddr := rfl
@[simp] theorem flagsAtCompletion_dstCap : (flagsAtCompletion c len s).dstCap = s.dstCap := rfl
@[simp] theorem flagsAtCompletion_outLen : (flagsAtCompletion c len s).outLen = len := rfl
@[simp] theorem flagsAtCompletion_lat : (flagsAtCompletion c len s).lat = s.lat := rfl
@[simp] theorem flagsAtCompletion_mem : (flagsAtCompletion c len s).mem = s.mem := rfl
@[simp] theorem flagsAtCompletion_work : (flagsAtCompletion c len s).work = s.work := rfl
@[simp] theorem flagsAtCompletion_rle : (flagsAtCompletion c len s).rle = s.rle := rfl
@[simp] theorem flagsAtCompletion_huf : (flagsAtCompletion c len s).huf = s.huf := rfl
@[simp] theorem flagsAtCompletion_lz : (flagsAtCompletion c len s).lz = s.lz := rfl
@[simp] theorem flagsAtCompletion_phase : (flagsAtCompletion c len s).phase = s.phase := rfl
@[simp] theorem flagsAtCompletion_disturbed : (flagsAtCompletion c len s).disturbed = s.disturbed := rfl
@[simp] theorem flagsAtCompletion_input : (flagsAtCompletion c len s).input = s.input := rfl
@[simp] theorem flagsAtCompletion_rdata : (flagsAtCompletion c len s).rdata = s.rdata := rfl
@[simp] theorem flagsAtCompletion_free : (flagsAtCompletion c len s).free = s.free := rfl
end FlagsAtCompletion

section EndCommand
variable (s : State) (c : Code) (len : Word)
@[simp] theorem endCommand_cfg : (endCommand c len s).cfg = s.cfg := rfl
@[simp] theorem endCommand_cmdTag : (endCommand c len s).cmdTag = s.cmdTag := rfl
@[simp] theorem endCommand_cmdDir : (endCommand c len s).cmdDir = s.cmdDir := rfl
@[simp] theorem endCommand_busy : (endCommand c len s).busy = false := rfl
@[simp] theorem endCommand_done : (endCommand c len s).done = true := rfl
@[simp] theorem endCommand_code : (endCommand c len s).code = c := rfl
@[simp] theorem endCommand_srcAddr : (endCommand c len s).srcAddr = s.srcAddr := rfl
@[simp] theorem endCommand_srcLen : (endCommand c len s).srcLen = s.srcLen := rfl
@[simp] theorem endCommand_dstAddr : (endCommand c len s).dstAddr = s.dstAddr := rfl
@[simp] theorem endCommand_dstCap : (endCommand c len s).dstCap = s.dstCap := rfl
@[simp] theorem endCommand_outLen : (endCommand c len s).outLen = len := rfl
@[simp] theorem endCommand_lat : (endCommand c len s).lat = s.lat := rfl
@[simp] theorem endCommand_mem : (endCommand c len s).mem = s.mem := rfl
@[simp] theorem endCommand_work : (endCommand c len s).work = s.work := rfl
@[simp] theorem endCommand_rle : (endCommand c len s).rle = s.rle := rfl
@[simp] theorem endCommand_huf : (endCommand c len s).huf = s.huf := rfl
@[simp] theorem endCommand_lz : (endCommand c len s).lz = s.lz := rfl
@[simp] theorem endCommand_phase : (endCommand c len s).phase = .idle := rfl
@[simp] theorem endCommand_disturbed : (endCommand c len s).disturbed = false := rfl
@[simp] theorem endCommand_input : (endCommand c len s).input = s.input := rfl
@[simp] theorem endCommand_rdata : (endCommand c len s).rdata = s.rdata := rfl
@[simp] theorem endCommand_free : (endCommand c len s).free = s.free := rfl
end EndCommand

section FreeDst
variable (s : State)
@[simp] theorem freeDst_cfg : (freeDst s).cfg = s.cfg := rfl
@[simp] theorem freeDst_cmdTag : (freeDst s).cmdTag = s.cmdTag := rfl
@[simp] theorem freeDst_cmdDir : (freeDst s).cmdDir = s.cmdDir := rfl
@[simp] theorem freeDst_busy : (freeDst s).busy = s.busy := rfl
@[simp] theorem freeDst_done : (freeDst s).done = s.done := rfl
@[simp] theorem freeDst_code : (freeDst s).code = s.code := rfl
@[simp] theorem freeDst_srcAddr : (freeDst s).srcAddr = s.srcAddr := rfl
@[simp] theorem freeDst_srcLen : (freeDst s).srcLen = s.srcLen := rfl
@[simp] theorem freeDst_dstAddr : (freeDst s).dstAddr = s.dstAddr := rfl
@[simp] theorem freeDst_dstCap : (freeDst s).dstCap = s.dstCap := rfl
@[simp] theorem freeDst_outLen : (freeDst s).outLen = s.outLen := rfl
@[simp] theorem freeDst_lat : (freeDst s).lat = s.lat := rfl
@[simp] theorem freeDst_mem : (freeDst s).mem = s.mem.writeBytes s.lat.dstAddr (freeBytes s.free s.dstSpan) := rfl
@[simp] theorem freeDst_work : (freeDst s).work = s.work := rfl
@[simp] theorem freeDst_rle : (freeDst s).rle = s.rle := rfl
@[simp] theorem freeDst_huf : (freeDst s).huf = s.huf := rfl
@[simp] theorem freeDst_lz : (freeDst s).lz = s.lz := rfl
@[simp] theorem freeDst_phase : (freeDst s).phase = s.phase := rfl
@[simp] theorem freeDst_disturbed : (freeDst s).disturbed = s.disturbed := rfl
@[simp] theorem freeDst_input : (freeDst s).input = s.input := rfl
@[simp] theorem freeDst_rdata : (freeDst s).rdata = s.rdata := rfl
@[simp] theorem freeDst_free : (freeDst s).free = s.free + s.dstSpan := rfl
end FreeDst

section StartCommand
variable (s : State) (dir : Bool) (tag : Byte)
@[simp] theorem startCommand_cfg : (startCommand dir tag s).cfg = s.cfg := rfl
@[simp] theorem startCommand_cmdTag : (startCommand dir tag s).cmdTag = tag := rfl
@[simp] theorem startCommand_cmdDir : (startCommand dir tag s).cmdDir = dir := rfl
@[simp] theorem startCommand_busy : (startCommand dir tag s).busy = true := rfl
@[simp] theorem startCommand_done : (startCommand dir tag s).done = false := rfl
@[simp] theorem startCommand_code : (startCommand dir tag s).code = .ok := rfl
@[simp] theorem startCommand_srcAddr : (startCommand dir tag s).srcAddr = s.srcAddr := rfl
@[simp] theorem startCommand_srcLen : (startCommand dir tag s).srcLen = s.srcLen := rfl
@[simp] theorem startCommand_dstAddr : (startCommand dir tag s).dstAddr = s.dstAddr := rfl
@[simp] theorem startCommand_dstCap : (startCommand dir tag s).dstCap = s.dstCap := rfl
@[simp] theorem startCommand_outLen : (startCommand dir tag s).outLen = 0 := rfl
@[simp] theorem startCommand_lat : (startCommand dir tag s).lat = { dir := dir, tag := tag, srcAddr := s.srcAddr, srcLen := s.srcLen, dstAddr := s.dstAddr, dstCap := s.dstCap } := rfl
@[simp] theorem startCommand_mem : (startCommand dir tag s).mem = s.mem := rfl
@[simp] theorem startCommand_work : (startCommand dir tag s).work = Work.zero := rfl
@[simp] theorem startCommand_rle : (startCommand dir tag s).rle = s.rle := rfl
@[simp] theorem startCommand_huf : (startCommand dir tag s).huf = s.huf := rfl
@[simp] theorem startCommand_lz : (startCommand dir tag s).lz = s.lz := rfl
@[simp] theorem startCommand_phase : (startCommand dir tag s).phase = .command := rfl
@[simp] theorem startCommand_disturbed : (startCommand dir tag s).disturbed = false := rfl
@[simp] theorem startCommand_input : (startCommand dir tag s).input = s.input := rfl
@[simp] theorem startCommand_rdata : (startCommand dir tag s).rdata = s.rdata := rfl
@[simp] theorem startCommand_free : (startCommand dir tag s).free = s.free := rfl
end StartCommand

end Sys2Proof.Machine
end

