-- ==== Sys2Proof/Laws/Ops.lean ====
section
/-! SUPPORT. What the shared operations can do, once each: Emit (R12), the completion step in its three forms (R23, R111,
R124), what a unit's answer does, a command after EntryCheck (R47, R103), and the bytes of the input. -/

namespace Sys2Proof.Machine

/-! ### Emit -/

theorem Work.emit_eq_go {e : Env} {v : Byte} {w : Work} (h : w.out.length < e.cap) :
    w.emit e v = .go { w with out := w.out ++ [v] } := by
  simp [Work.emit, Nat.not_le.mpr h]

theorem Work.emit_eq_raise {e : Env} {v : Byte} {w : Work} (h : e.cap ≤ w.out.length) :
    w.emit e v = .raise .capacity w := by
  simp [Work.emit, h]

/-- Everything Emit can do (R12). -/
theorem Work.emit_cases (e : Env) (v : Byte) (w : Work) :
    (w.out.length < e.cap ∧ w.emit e v = .go { w with out := w.out ++ [v] })
    ∨ (e.cap ≤ w.out.length ∧ w.emit e v = .raise .capacity w) := by
  rcases Nat.lt_or_ge w.out.length e.cap with h | h
  · exact .inl ⟨h, Work.emit_eq_go h⟩
  · exact .inr ⟨h, Work.emit_eq_raise h⟩

@[simp] theorem Flow.andThen_go (w : Work) (f : Work → Flow) : (Flow.go w).andThen f = f w := rfl
@[simp] theorem Flow.andThen_raise (c : Code) (w : Work) (f : Work → Flow) :
    (Flow.raise c w).andThen f = .raise c w := rfl
@[simp] theorem Flow.finish_go (w : Work) (f : Work → Item) : (Flow.go w).finish f = f w := rfl
@[simp] theorem Flow.finish_raise (c : Code) (w : Work) (f : Work → Item) :
    (Flow.raise c w).finish f = .raise c w := rfl

/-- Emit of several bytes, one after the other (R12): what an encoder's `for b in ...: Emit(b)` does. -/
def Work.emitEach (e : Env) : List Byte → Work → Flow
  | [], w => .go w
  | b :: bs, w => (w.emit e b).andThen (Work.emitEach e bs)

/-- Emitting bytes one after the other stops at the capacity with the bytes before it emitted. -/
theorem Work.emitEach_eq (e : Env) (bs : List Byte) (w : Work) (h : w.out.length ≤ e.cap) :
    w.emitEach e bs =
      if w.out.length + bs.length ≤ e.cap then .go { w with out := w.out ++ bs }
      else .raise .capacity { w with out := w.out ++ bs.take (e.cap - w.out.length) } := by
  induction bs generalizing w with
  | nil => simp [Work.emitEach, h]
  | cons b bs ih =>
    rcases Work.emit_cases e b w with ⟨hlt, he⟩ | ⟨hge, he⟩
    · rw [Work.emitEach, he, Flow.andThen_go, ih _ (by simp; omega)]
      have h2 : e.cap - w.out.length = (e.cap - (w.out.length + 1)) + 1 := by omega
      simp only [List.length_append, List.length_cons, List.length_nil, Nat.zero_add, h2, List.take_succ_cons,
        List.append_assoc, List.singleton_append]
      by_cases hc : w.out.length + 1 + bs.length ≤ e.cap
      · rw [if_pos hc, if_pos (by omega)]
      · rw [if_neg hc, if_neg (by omega)]
    · have h1 : e.cap - w.out.length = 0 := by omega
      have h2 : ¬w.out.length + (b :: bs).length ≤ e.cap := by simp; omega
      rw [Work.emitEach, he, Flow.andThen_raise, if_neg h2, h1]
      simp

/-- An encoder's block goes out at once exactly as it goes out byte by byte (log 22). -/
theorem Work.emitAll_eq_emitEach (e : Env) (bs : List Byte) (w : Work) (h : w.out = []) :
    w.emitAll e bs = (w.emitEach e bs).finish .ok := by
  rw [Work.emitEach_eq e bs w (by simp [h]), Work.emitAll]
  by_cases hc : bs.length ≤ e.cap <;> simp [h, hc]

/-! ### Free bytes and the DST region -/

@[simp] theorem freeBytes_length (k n : Nat) : (freeBytes k n).length = n := by simp [freeBytes]

theorem freeBytes_getD {k n i : Nat} (h : i < n) : (freeBytes k n).getD i 0 = Config.freeByte (k + i) := by
  simp [freeBytes, h]

theorem dstSpan_le (s : State) : s.dstSpan ≤ 2 ^ 32 := by
  unfold State.dstSpan
  omega

/-- A byte outside the DST region is at least the region's length above DST_ADDR, round the address space. -/
theorem dstSpan_le_of_not_inDst {s : State} {a : Addr} (h : s.inDst a = false) :
    s.dstSpan ≤ (a - s.lat.dstAddr).toNat := by
  have h' : ¬(s.lat.dstAddr.toNat ≤ a.toNat ∧ a.toNat < s.lat.dstAddr.toNat + s.lat.dstCap.toNat) := by
    simpa [State.inDst, inRegion] using h
  have ha := a.isLt
  have hd := s.lat.dstAddr.isLt
  have hsub : (a - s.lat.dstAddr).toNat = (2 ^ 32 - s.lat.dstAddr.toNat + a.toNat) % 2 ^ 32 := by
    rw [BitVec.toNat_sub]
  unfold State.dstSpan
  omega

theorem read_freeDst_inside {s : State} {i : Nat} (h : s.mem.wf = true) (hi : i < s.dstSpan) :
    (freeDst s).mem.read (s.lat.dstAddr + BitVec.ofNat 32 i) = Config.freeByte (s.free + i) := by
  have := dstSpan_le s
  rw [freeDst_mem, Memory.read_writeBytes_inside h (by simpa using this) (by simpa using hi), freeBytes_getD hi]

theorem read_freeDst_outside {s : State} {a : Addr} (h : s.mem.wf = true) (ha : s.inDst a = false) :
    (freeDst s).mem.read a = s.mem.read a := by
  have := dstSpan_le s
  rw [freeDst_mem,
    Memory.read_writeBytes_outside h (by simpa using this) (by simpa using dstSpan_le_of_not_inDst ha)]

theorem freeDst_wf {s : State} (h : s.mem.wf = true) : (freeDst s).mem.wf = true := by
  rw [freeDst_mem]; exact Memory.wf_writeBytes h

/-! ### The completion step -/

theorem completeOk_specified {s : State} (h : s.disturbed = false) :
    completeOk s = endCommand .ok (BitVec.ofNat 32 s.work.out.length)
      { s with mem := s.mem.writeBytes s.lat.dstAddr s.work.out } := by
  simp [completeOk, h]

theorem completeFail_specified {c : Code} {s : State} (h : s.disturbed = false) :
    completeFail c s = endCommand c 0
      { s with mem := s.mem.writeBytes s.lat.dstAddr (freeBytes s.free s.work.out.length),
               free := s.free + s.work.out.length } := by
  simp [completeFail, h]

theorem completeOk_disturbed {s : State} (h : s.disturbed = true) : completeOk s = completeDisturbed s := by
  simp [completeOk, h]

theorem completeFail_disturbed {c : Code} {s : State} (h : s.disturbed = true) :
    completeFail c s = completeDisturbed s := by
  simp [completeFail, h]

/-- A failure before the first Emit changes no memory and draws no free value (R23). -/
theorem completeFail_nothing_emitted {c : Code} {s : State} (h : s.disturbed = false) (ho : s.work.out = []) :
    completeFail c s = endCommand c 0 s := by
  rw [completeFail_specified h, ho]
  rfl

/-- What every completion leaves, specified or not, OK or failed: not BUSY, DONE, idle, and everything the engine never
writes as it was. -/
structure Completed (s t : State) : Prop where
  busy : t.busy = false
  done : t.done = true
  phase : t.phase = .idle
  disturbed : t.disturbed = false
  hostRegs : t.hostRegs = s.hostRegs
  lat : t.lat = s.lat
  input : t.input = s.input
  work : t.work = s.work
  rle : t.rle = s.rle
  huf : t.huf = s.huf
  lz : t.lz = s.lz
  rdata : t.rdata = s.rdata
  outLen : t.code ≠ .ok → t.outLen = 0
  wf : s.mem.wf = true → t.mem.wf = true

theorem completeDisturbed_completed (s : State) : Completed s (completeDisturbed s) where
  busy := rfl
  done := rfl
  phase := rfl
  disturbed := rfl
  hostRegs := rfl
  lat := rfl
  input := rfl
  work := rfl
  rle := rfl
  huf := rfl
  lz := rfl
  rdata := rfl
  outLen := by
    intro h
    simp only [completeDisturbed, endCommand_code, endCommand_outLen] at h ⊢
    simp [h]
  wf := by
    intro h
    simp only [completeDisturbed, endCommand_mem]
    exact freeDst_wf h

theorem completeOk_completed (s : State) : Completed s (completeOk s) := by
  cases h : s.disturbed with
  | true => rw [completeOk_disturbed h]; exact completeDisturbed_completed s
  | false =>
    rw [completeOk_specified h]
    constructor <;> try rfl
    · intro hc; exact absurd rfl hc
    · exact Memory.wf_writeBytes

theorem completeFail_completed (c : Code) (s : State) : Completed s (completeFail c s) := by
  cases h : s.disturbed with
  | true => rw [completeFail_disturbed h]; exact completeDisturbed_completed s
  | false =>
    rw [completeFail_specified h]
    constructor <;> try rfl
    · intro _; rfl
    · exact Memory.wf_writeBytes

/-! ### What a unit's answer does -/

@[simp] theorem State.take_go (s : State) (ph : Phase) (w : Work) :
    s.take (.go ph w) = { s with phase := ph, work := w } := rfl
@[simp] theorem State.take_ok (s : State) (w : Work) : s.take (.ok w) = completeOk { s with work := w } := rfl
@[simp] theorem State.take_raise (s : State) (c : Code) (w : Work) :
    s.take (.raise c w) = completeFail c { s with work := w } := rfl

/-- The output a unit's answer leaves. -/
def Item.out : Item → List Byte
  | .go _ w => w.out
  | .ok w => w.out
  | .raise _ w => w.out

/-- Everything a unit's answer can do: the engine goes on with nothing changed but the phase and the scratch, or the command
completes. -/
theorem State.take_cases (s : State) (it : Item) :
    (∃ ph w, it = .go ph w ∧ s.take it = { s with phase := ph, work := w })
    ∨ (∃ w, w.out = it.out ∧ Completed { s with work := w } (s.take it)) := by
  cases it with
  | go ph w => exact .inl ⟨ph, w, rfl, rfl⟩
  | ok w => exact .inr ⟨w, rfl, completeOk_completed _⟩
  | raise c w => exact .inr ⟨w, rfl, completeFail_completed _ _⟩

/-! ### EntryCheck and the command's body -/

/-- The check lets a command go on exactly when no line of R103 raises. -/
theorem entryOk_eq_false_iff (l : Latch) : entryOk l = false ↔ EntryFails l := by
  unfold entryOk EntryFails
  have hmax : Config.sizeMax = 2 ^ 24 - 1 := rfl
  rw [hmax]
  split_ifs <;> simp_all

theorem entryOk_iff (l : Latch) : entryOk l = true ↔ ¬EntryFails l := by
  rw [← entryOk_eq_false_iff]
  simp

theorem runCommand_ok {s : State} {body : State → State} (h : ¬EntryFails s.lat) :
    runCommand s body = body { s with work := Work.zero } := by
  simp [runCommand, (entryOk_iff s.lat).mpr h]

theorem runCommand_fails {s : State} {body : State → State} (h : EntryFails s.lat) :
    runCommand s body = completeFail .invalidInput { s with work := Work.zero } := by
  simp [runCommand, (entryOk_eq_false_iff s.lat).mpr h]

/-! ### The bytes of the input -/

@[simp] theorem State.inBytes_length (s : State) : s.inBytes.length = s.lat.srcLen.toNat := by simp [State.inBytes]

theorem State.inBytes_getD {s : State} {i : Nat} (h : i < s.lat.srcLen.toNat) : s.inBytes.getD i 0 = s.src i := by
  simp [State.inBytes, h]

theorem Env.window_length (e : Env) (a n : Nat) : (e.window a n).length = min n (e.len - a) := by simp [Env.window]

/-- One byte is at hand exactly before the input's end. -/
theorem Env.window_one (e : Env) (a : Nat) : e.window a 1 = if a < e.len then [e.src a] else [] := by
  unfold Env.window
  by_cases h : a < e.len
  · have : min 1 (e.len - a) = 1 := by omega
    simp [h, this, List.range_succ]
  · have : min 1 (e.len - a) = 0 := by omega
    simp [h, this]

@[simp] theorem State.env_len (s : State) : s.env.len = s.lat.srcLen.toNat := rfl
@[simp] theorem State.env_cap (s : State) : s.env.cap = s.lat.dstCap.toNat := rfl
@[simp] theorem State.env_tag (s : State) : s.env.tag = s.lat.tag := rfl
@[simp] theorem State.env_bias (s : State) : s.env.bias = s.cfg.leafBias.toByte := rfl
@[simp] theorem State.env_src (s : State) : s.env.src = s.src := rfl

end Sys2Proof.Machine
end

