-- ==== Sys2Proof/Laws/Huffman.lean ====
section
/-! SUPPORT. What the units of a Huffman block can answer (spec/41_huffman.md R82 to R85). -/

namespace Sys2Proof.Machine

theorem Env.width_cases (e : Env) : (e.tag = Config.tagHuf4 ∧ e.width = 4) ∨ (e.tag ≠ Config.tagHuf4 ∧ e.width = 8) := by
  by_cases h : e.tag = Config.tagHuf4
  · exact .inl ⟨h, if_pos h⟩
  · exact .inr ⟨h, if_neg h⟩

/-- The left child of a position is an even position past it (R84). -/
theorem clearBit0_add_two (q : Nat) : q + 1 ≤ clearBit0 q + 2 := by
  unfold clearBit0
  omega

/-- Everything a branch can answer (R84): the walk leaves the table, ends at a leaf, or goes on from the child. -/
theorem Work.hufBranch_cases (off : Nat) (ll rl : Bool) (w : Work) :
    let bit := w.cur.getLsbD (31 - w.bi)
    let child := clearBit0 w.q + 2 * off + 2 + (if bit then 1 else 0)
    let w' : Work := { w with bi := (w.bi + 1) % 32 }
    (w.last < child ∧ w.hufBranch off ll rl = .raise .malformed w')
    ∨ (child ≤ w.last ∧ (if bit then rl else ll) = true ∧ w.hufBranch off ll rl = .go .hufLeaf { w' with q := child })
    ∨ (child ≤ w.last ∧ (if bit then rl else ll) = false
        ∧ w.hufBranch off ll rl = .go w'.nextBitPhase { w' with q := child }) := by
  intro bit child w'
  unfold Work.hufBranch
  by_cases h1 : child > w.last
  · exact .inl ⟨h1, if_pos h1⟩
  · cases h2 : (if bit then rl else ll) with
    | true => exact .inr (.inl ⟨by omega, rfl, by rw [if_neg h1, if_pos h2]⟩)
    | false => exact .inr (.inr ⟨by omega, rfl, by rw [if_neg h1, if_neg (Bool.eq_false_iff.mp h2)]; rfl⟩)

/-- What follows a symbol: the block is decoded, or the next walk (R82). -/
theorem Work.afterSymbol_cases (w : Work) :
    (w.j + 1 = w.need ∧ w.afterSymbol = .ok { w with j := w.j + 1, q := 1 })
    ∨ (w.j + 1 ≠ w.need ∧ w.afterSymbol = .go w.nextBitPhase { w with j := w.j + 1, q := 1 }) := by
  by_cases h : w.j + 1 = w.need
  · exact .inl ⟨h, by simp [Work.afterSymbol, h]⟩
  · exact .inr ⟨h, by simp [Work.afterSymbol, h, Work.nextBitPhase]⟩

end Sys2Proof.Machine
end

