-- ==== Sys2Proof/Laws/Lz77.lean ====
section
/-! SUPPORT. What the LZ77 decoder's copy does (spec/42_lz77.md R97 to R100): it is copyBack, of which the length, the
prefix and the bytes are given here. -/

namespace Sys2Proof.Machine

/-- The loop of R100 is copyBack, as far as the declared size has room. -/
theorem Work.emitCopy_eq (e : Env) (dist n : Nat) (w : Work) (h : w.out.length ≤ w.size) (hc : w.size ≤ e.cap) :
    Work.emitCopy e dist n w = .go { w with out := copyBack dist (min n (w.size - w.out.length)) w.out } := by
  induction n generalizing w with
  | zero => simp [Work.emitCopy, copyBack]
  | succ n ih =>
    by_cases hs : w.out.length = w.size
    · simp [Work.emitCopy, hs, copyBack]
    · have hlt : w.out.length < e.cap := by omega
      rw [Work.emitCopy, if_neg hs, Work.emit_eq_go hlt, Flow.andThen_go,
        ih { w with out := w.out ++ [w.out.getD (w.out.length - dist) 0] } (by simp; omega) hc]
      have hm : min (n + 1) (w.size - w.out.length) = min n (w.size - (w.out.length + 1)) + 1 := by omega
      simp [hm, copyBack]

@[simp] theorem copyBack_length (dist k : Nat) (out : List Byte) : (copyBack dist k out).length = out.length + k := by
  induction k generalizing out with
  | zero => rfl
  | succ k ih => rw [copyBack, ih]; simp; omega

/-- A copy only appends. -/
theorem copyBack_prefix (dist k : Nat) (out : List Byte) : out <+: copyBack dist k out := by
  induction k generalizing out with
  | zero => exact List.prefix_rfl
  | succ k ih => exact (List.prefix_append _ _).trans (ih _)

/-- What follows an item: the block is decoded, the next group, or the group's next item (R97, R98). -/
theorem Work.afterItem_cases (w : Work) :
    (w.size ≤ w.out.length ∧ w.afterItem = .ok w)
    ∨ (w.out.length < w.size ∧ w.flagsLeft = 0 ∧ w.afterItem = .go .lzFlags w)
    ∨ (w.out.length < w.size ∧ w.flagsLeft ≠ 0 ∧ w.afterItem = .go .lzItem w) := by
  unfold Work.afterItem
  by_cases h1 : w.out.length ≥ w.size
  · simp [h1]
  · by_cases h2 : w.flagsLeft = 0
    · simp [h1, h2]; omega
    · simp [h1, h2]; omega

end Sys2Proof.Machine
end

