-- ==== Sys2Proof/Laws/PerInstr.lean ====
section
/-! SUPPORT. Statements made for every instruction, one lemma per constructor: an encoding has exactly the bytes of its kind
of unit (spec/30_encoding.md R46, R48, R50 to R56, R58). -/

namespace Sys2Proof.Laws

/-- The encoding of an instruction has the length of its kind of unit. -/
def EncodedLength.Statement (i : Instr) : Prop := (encode i).length = i.grammar.width

theorem EncodedLength.lzEnc : EncodedLength.Statement .lzEnc := rfl
theorem EncodedLength.lzDec : EncodedLength.Statement .lzDec := rfl
theorem EncodedLength.huf4Enc : EncodedLength.Statement .huf4Enc := rfl
theorem EncodedLength.huf4Dec : EncodedLength.Statement .huf4Dec := rfl
theorem EncodedLength.huf8Enc : EncodedLength.Statement .huf8Enc := rfl
theorem EncodedLength.huf8Dec : EncodedLength.Statement .huf8Dec := rfl
theorem EncodedLength.rleEnc : EncodedLength.Statement .rleEnc := rfl
theorem EncodedLength.rleDec : EncodedLength.Statement .rleDec := rfl
theorem EncodedLength.hdrLz77 (size : Nat) : EncodedLength.Statement (.hdrLz77 size) := rfl
theorem EncodedLength.hdrHuffman4 (size : Nat) : EncodedLength.Statement (.hdrHuffman4 size) := rfl
theorem EncodedLength.hdrHuffman8 (size : Nat) : EncodedLength.Statement (.hdrHuffman8 size) := rfl
theorem EncodedLength.hdrRle (size : Nat) : EncodedLength.Statement (.hdrRle size) := rfl
theorem EncodedLength.rleRun (len : Nat) : EncodedLength.Statement (.rleRun len) := rfl
theorem EncodedLength.rleLit (len : Nat) : EncodedLength.Statement (.rleLit len) := rfl
theorem EncodedLength.lzFlags (f : Byte) : EncodedLength.Statement (.lzFlags f) := rfl
theorem EncodedLength.lzLit (b : Byte) : EncodedLength.Statement (.lzLit b) := rfl
theorem EncodedLength.lzRef (len dist : Nat) : EncodedLength.Statement (.lzRef len dist) := rfl
theorem EncodedLength.hufSize (s : Byte) : EncodedLength.Statement (.hufSize s) := rfl
theorem EncodedLength.hufBranch (off : Nat) (ll rl : Bool) : EncodedLength.Statement (.hufBranch off ll rl) := rfl
theorem EncodedLength.hufLeaf (v : Byte) : EncodedLength.Statement (.hufLeaf v) := rfl
theorem EncodedLength.hufWord (c : Word) : EncodedLength.Statement (.hufWord c) := rfl

end Sys2Proof.Laws
end

