-- ==== Sys2Proof/Laws/Port.lean ====
section
/-! SUPPORT. The host's side: which register an aligned access names (R16, R21), what a register write can do, and which
events leave a step to the engine. -/

namespace Sys2Proof.Machine

/-- The offset of a register of the block is its distance from P_BASE. -/
theorem State.blockOffset_add (s : State) {k : Nat} (h : k < 8) :
    s.blockOffset (s.cfg.pBase + BitVec.ofNat 32 (4 * k)) = 4 * k := by
  have hsub : s.cfg.pBase + BitVec.ofNat 32 (4 * k) - s.cfg.pBase = BitVec.ofNat 32 (4 * k) := by
    simp [BitVec.add_comm]
  rw [State.blockOffset, hsub, BitVec.toNat_ofNat]
  omega

/-- An aligned 32-bit access at offset 4k names the register there. -/
theorem State.regFor_add (s : State) {k : Nat} (h : k < 8) :
    s.regFor 4 (s.cfg.pBase + BitVec.ofNat 32 (4 * k)) = some (regAt (4 * k)) := by
  rw [State.regFor, State.blockOffset_add s h, if_pos ⟨rfl, by omega, by omega⟩]

/-- An access that is not aligned or not 32 bits wide names none. -/
theorem State.regFor_eq_none {s : State} {width : Nat} {a : Addr} (h : ¬(width = 4 ∧ s.blockOffset a % 4 = 0)) :
    s.regFor width a = none := by
  rw [State.regFor, if_neg]
  rintro ⟨h1, _, h3⟩
  exact h ⟨h1, h3⟩

/-- Where an access names a register depends on the configuration only. -/
@[simp] theorem State.regFor_input (s : State) (rest : List Event) (width : Nat) (a : Addr) :
    State.regFor { s with input := rest } width a = s.regFor width a := rfl
@[simp] theorem State.touchesBlock_input (s : State) (rest : List Event) (width : Nat) (a : Addr) :
    State.touchesBlock { s with input := rest } width a = s.touchesBlock width a := rfl

/-- While BUSY = 1 a register write does nothing (R21 (b)). -/
theorem State.writeReg_busy {s : State} (r : Reg) (v : Word) (h : s.busy = true) : s.writeReg r v = s := by
  simp [State.writeReg, h]

/-- Everything a register write can do (R16 to R22): nothing, one data register, TAG and DIR, or START. -/
theorem State.writeReg_cases (s : State) (r : Reg) (v : Word) :
    s.writeReg r v = s
    ∨ (s.busy = false ∧ r = .cmd ∧ v.getLsbD 31 = true ∧ s.writeReg r v = startCommand (v.getLsbD 8) (v.setWidth 8) s)
    ∨ (s.busy = false ∧ r = .cmd ∧ v.getLsbD 31 = false
        ∧ s.writeReg r v = { s with cmdTag := v.setWidth 8, cmdDir := v.getLsbD 8 })
    ∨ (s.busy = false
        ∧ (s.writeReg r v = { s with srcAddr := v } ∨ s.writeReg r v = { s with srcLen := v }
          ∨ s.writeReg r v = { s with dstAddr := v } ∨ s.writeReg r v = { s with dstCap := v })) := by
  cases hb : s.busy with
  | true => exact .inl (State.writeReg_busy r v hb)
  | false =>
    cases r <;> simp only [State.writeReg, hb, Bool.false_eq_true, if_false, writeCmd]
    case cmd =>
      cases hv : v.getLsbD 31 with
      | true => exact .inr (.inl (by simp))
      | false => exact .inr (.inr (.inl (by simp)))
    all_goals simp

/-! ### The step -/

/-- A host event is that access, with the event taken off the input. -/
theorem step_host {s : State} {op : HostOp} {rest : List Event} (h : s.input = .host op :: rest) :
    step s = hostAccess op { s with input := rest } := by
  simp [step, h]

/-- With no event left the engine moves. -/
theorem step_nil {s : State} (h : s.input = []) : step s = engineTurn s := by
  simp [step, h]

/-- An engine event lets the engine move, with the event taken off the input. -/
theorem step_engine {s : State} {rest : List Event} (h : s.input = .engine :: rest) :
    step s = engineTurn { s with input := rest } := by
  simp [step, h]

/-- One turn of the engine with nothing to do. -/
theorem engineTurn_idle {s : State} (h : s.phase = .idle) : engineTurn s = .next s := by
  simp [engineTurn, State.fetch, h, Work.grammar]

/-- One turn of the engine where the next unit decodes. -/
theorem engineTurn_unit {s : State} {g : Grammar} {i : Instr} {rest : List Byte}
    (hg : s.work.grammar s.phase = some g) (hd : decode g (s.fetchBytes g) = .instr i rest) :
    engineTurn s = exec i s := by
  simp [engineTurn, State.fetch, hg, hd]

/-- One turn of the engine where the next unit does not decode. -/
theorem engineTurn_rejected {s : State} {g : Grammar} {e : DecodeError}
    (hg : s.work.grammar s.phase = some g) (hd : decode g (s.fetchBytes g) = .rejected e) :
    engineTurn s = .next (failFetch s.rejectCode s) := by
  simp [engineTurn, State.fetch, hg, hd]

end Sys2Proof.Machine
end

