-- ==== Sys2Proof/Laws/Rle.lean ====
section
/-! SUPPORT. What the RLE decoder's loops do, once each (spec/40_rle.md R64 to R66), and what they leave alone. -/

namespace Sys2Proof.Machine

/-- The loop of R65 emits the byte cnt times, or as often as the declared size has room for. -/
theorem Work.emitRun_eq (e : Env) (b : Byte) (n : Nat) (w : Work) (h : w.out.length ≤ w.size) (hc : w.size ≤ e.cap) :
    Work.emitRun e b n w = .go { w with out := w.out ++ List.replicate (min n (w.size - w.out.length)) b } := by
  induction n generalizing w with
  | zero => simp [Work.emitRun]
  | succ n ih =>
    by_cases hs : w.out.length = w.size
    · simp [Work.emitRun, hs]
    · have hlt : w.out.length < e.cap := by omega
      rw [Work.emitRun, if_neg hs, Work.emit_eq_go hlt, Flow.andThen_go,
        ih { w with out := w.out ++ [b] } (by simp; omega) hc]
      have hm : min (n + 1) (w.size - w.out.length) = min n (w.size - (w.out.length + 1)) + 1 := by omega
      simp [hm, List.replicate_succ]

/-- The loop of R66 copies the bytes from the cursor on, up to the declared size; where the stream ends first it stops
with Malformed, the bytes before the end emitted. -/
theorem Work.emitLiteral_eq (e : Env) (n : Nat) (w : Work) (h : w.out.length ≤ w.size) (hc : w.size ≤ e.cap) :
    Work.emitLiteral e n w =
      let k := min n (w.size - w.out.length)
      let after (m : Nat) : Work :=
        { w with p := w.p + m, out := w.out ++ (List.range m).map (fun i => e.src (w.p + i)) }
      if e.len - w.p < k then .raise .malformed (after (e.len - w.p)) else .go (after k) := by
  induction n generalizing w with
  | zero => simp [Work.emitLiteral]
  | succ n ih =>
    by_cases hs : w.out.length = w.size
    · simp [Work.emitLiteral, hs]
    · by_cases hp : w.p ≥ e.len
      · have h0 : e.len - w.p = 0 := by omega
        have hk : 0 < min (n + 1) (w.size - w.out.length) := by omega
        simp only [Work.emitLiteral, if_neg hs, if_pos hp, h0, if_pos hk]
        simp
      · have hlt : w.out.length < e.cap := by omega
        rw [Work.emitLiteral, if_neg hs, if_neg hp, Work.emit_eq_go hlt, Flow.andThen_go,
          ih { w with out := w.out ++ [e.src w.p], p := w.p + 1 } (by simp; omega) hc]
        have hm : min (n + 1) (w.size - w.out.length) = min n (w.size - (w.out.length + 1)) + 1 := by omega
        have ha : e.len - w.p = (e.len - (w.p + 1)) + 1 := by omega
        have hsrc : ∀ m, w.out ++ (List.range (m + 1)).map (fun i => e.src (w.p + i))
            = (w.out ++ [e.src w.p]) ++ (List.range m).map (fun i => e.src (w.p + 1 + i)) := by
          intro m
          simp [List.range_succ_eq_map, List.map_map, Function.comp_def, Nat.add_assoc, Nat.add_comm 1]
        simp only [List.length_append, List.length_cons, List.length_nil, Nat.zero_add, hm, ha, hsrc]
        by_cases hcmp : e.len - (w.p + 1) < min n (w.size - (w.out.length + 1))
        · rw [if_pos hcmp, if_pos (by omega)]
          simp [Nat.add_assoc, Nat.add_comm 1]
        · rw [if_neg hcmp, if_neg (by omega)]
          simp [Nat.add_assoc, Nat.add_comm 1]

/-- What follows a record: the next one, or the block is decoded (R64). -/
theorem Work.afterRecord_cases (w : Work) :
    (w.out.length < w.size ∧ w.afterRecord = .go .rleRecord w) ∨ (w.size ≤ w.out.length ∧ w.afterRecord = .ok w) := by
  rcases Nat.lt_or_ge w.out.length w.size with h | h
  · exact .inl ⟨h, by simp [Work.afterRecord, h]⟩
  · exact .inr ⟨h, by simp [Work.afterRecord, Nat.not_lt.mpr h]⟩

/-- Everything the head of a decoder can answer (R64, R82, R97). -/
theorem Work.header_cases (e : Env) (tag : Byte) (minLen size : Nat) (next : Phase) (w : Work) :
    (tag ≠ e.tag ∧ w.header e tag minLen size next = .raise .formatMismatch w)
    ∨ (tag = e.tag ∧ e.len < minLen ∧ w.header e tag minLen size next = .raise .malformed w)
    ∨ (tag = e.tag ∧ minLen ≤ e.len ∧ size = 0
        ∧ w.header e tag minLen size next = .raise .malformed { w with size := size })
    ∨ (tag = e.tag ∧ minLen ≤ e.len ∧ 0 < size ∧ e.cap < size
        ∧ w.header e tag minLen size next = .raise .capacity { w with size := size })
    ∨ (tag = e.tag ∧ minLen ≤ e.len ∧ 0 < size ∧ size ≤ e.cap
        ∧ w.header e tag minLen size next = .go next { w with size := size, p := 4 }) := by
  unfold Work.header
  by_cases h1 : tag = e.tag
  · by_cases h2 : e.len < minLen
    · simp [h1, h2]
    · by_cases h3 : size = 0
      · simp [h1, h2, h3]; omega
      · by_cases h4 : size > e.cap
        · simp [h1, h2, h3, h4]; omega
        · simp [h1, h2, h3, h4]; omega
  · simp [h1]

end Sys2Proof.Machine
end

