-- ==== Sys2Proof/Tests/Slice0.lean ====
section
/-! SUPPORT. The model's own tests: ill-formed terms, every encoding written out from the spec, one-step runs whose results
stand in spec/95_test_vectors.md, and for every statement a concrete state and operands that meet its hypotheses. -/

namespace Sys2Proof.Tests

open Sys2Proof Sys2Proof.Machine

set_option Elab.async false

/-! ### WellFormed refuses an ill-formed term for each check -/

theorem test_wf_refuses_hdrLz77 : (Instr.hdrLz77 16777216).wf = false := by decide
theorem test_wf_refuses_hdrHuffman4 : (Instr.hdrHuffman4 16777216).wf = false := by decide
theorem test_wf_refuses_hdrHuffman8 : (Instr.hdrHuffman8 16777216).wf = false := by decide
theorem test_wf_refuses_hdrRle : (Instr.hdrRle 16777216).wf = false := by decide
theorem test_wf_refuses_rleRun : (Instr.rleRun 2).wf = false ∧ (Instr.rleRun 131).wf = false := by decide
theorem test_wf_refuses_rleLit : (Instr.rleLit 0).wf = false ∧ (Instr.rleLit 129).wf = false := by decide
theorem test_wf_refuses_lzRef_len : (Instr.lzRef 2 1).wf = false ∧ (Instr.lzRef 19 1).wf = false := by decide
theorem test_wf_refuses_lzRef_dist : (Instr.lzRef 3 0).wf = false ∧ (Instr.lzRef 3 4097).wf = false := by decide
theorem test_wf_refuses_hufBranch : (Instr.hufBranch 64 false false).wf = false := by decide

/-! ### Decoding: words written out from the encodings of R46, R48, R50 to R56 -/

theorem test_decode_lzEnc : decodeTableWord 32 0x80000010 = some .lzEnc := by decide
theorem test_decode_lzDec : decodeTableWord 32 0x80000110 = some .lzDec := by decide
theorem test_decode_huf4Enc : decodeTableWord 32 0x80000024 = some .huf4Enc := by decide
theorem test_decode_huf4Dec : decodeTableWord 32 0x80000124 = some .huf4Dec := by decide
theorem test_decode_huf8Enc : decodeTableWord 32 0x80000028 = some .huf8Enc := by decide
theorem test_decode_huf8Dec : decodeTableWord 32 0x80000128 = some .huf8Dec := by decide
theorem test_decode_rleEnc : decodeTableWord 32 0x80000030 = some .rleEnc := by decide
theorem test_decode_rleDec : decodeTableWord 32 0x80000130 = some .rleDec := by decide
/-- bits 30:9 are ignored (R46) -/
theorem test_decode_ignores_reserved_bits : decodeTableWord 32 0xFFFFFE30 = some .rleEnc := by decide
theorem test_decode_hdrLz77 : decode .header [0x10, 0x09, 0x00, 0x00] = .instr (.hdrLz77 9) [] := by decide
theorem test_decode_hdrHuffman4 : decode .header [0x24, 0x04, 0x00, 0x00] = .instr (.hdrHuffman4 4) [] := by decide
theorem test_decode_hdrHuffman8 : decode .header [0x28, 0x00, 0x03, 0x00] = .instr (.hdrHuffman8 768) [] := by decide
theorem test_decode_hdrRle : decode .header [0x30, 0x01, 0x02, 0x03] = .instr (.hdrRle 0x030201) [] := by decide
theorem test_decode_rleRun :
    decode .rleRecord [0x80] = .instr (.rleRun 3) [] ∧ decode .rleRecord [0xFF] = .instr (.rleRun 130) [] := by decide
theorem test_decode_rleLit :
    decode .rleRecord [0x00] = .instr (.rleLit 1) [] ∧ decode .rleRecord [0x7F] = .instr (.rleLit 128) [] := by decide
theorem test_decode_lzFlags : decode .lzFlags [0x10] = .instr (.lzFlags 0x10) [] := by decide
theorem test_decode_lzLit : decode .lzLit [0x41] = .instr (.lzLit 0x41) [] := by decide
/-- V40: the token 30 02 is len 6, dist 3 -/
theorem test_decode_lzRef : decode .lzRef [0x30, 0x02] = .instr (.lzRef 6 3) [] := by decide
/-- T = F001, big-endian: len 18, dist 2 (V43) -/
theorem test_decode_lzRef_table_word : decodeTableWord 16 0xF001 = some (.lzRef 18 2) := by decide
theorem test_decode_hufSize : decode .hufSize [0x05] = .instr (.hufSize 5) [] := by decide
/-- V20: the byte 0x41 at table index 4 is OFF 1, LL 0, RL 1 -/
theorem test_decode_hufBranch : decode .hufBranch [0x41] = .instr (.hufBranch 1 false true) [] := by decide
theorem test_decode_hufLeaf : decode .hufLeaf [0x52] = .instr (.hufLeaf 0x52) [] := by decide
/-- V20: C0 7A D4 7A is HUF.WORD 0x7AD47AC0 -/
theorem test_decode_hufWord : decode .hufWord [0xC0, 0x7A, 0xD4, 0x7A] = .instr (.hufWord 0x7AD47AC0) [] := by decide
theorem test_decode_rejects_no_start : decode .command [0x30, 0x00, 0x00, 0x00] = .rejected .notStarted := by decide
/-- P4: TAG 0x20 is illegal -/
theorem test_decode_rejects_illegal_tag : decode .command [0x20, 0x00, 0x00, 0x80] = .rejected .illegalTag := by decide
theorem test_decode_rejects_unknown_block : decode .header [0x31, 0x05, 0x00, 0x00] = .rejected .unknownBlockTag := by decide
theorem test_decode_rejects_truncated : decode .hufWord [0x00, 0x00, 0x00] = .rejected .truncated := by decide

/-! ### Small machines -/

/-- A command about to run, or running: input at 0x1000, output at 0x2000. -/
def running (dir : Bool) (tag : Byte) (inp : List Byte) (cap : Word) (ph : Phase) (w : Work) : State :=
  { State.reset with
    busy := true, cmdDir := dir, cmdTag := tag, srcAddr := 0x1000, srcLen := BitVec.ofNat 32 inp.length,
    dstAddr := 0x2000, dstCap := cap,
    lat := { dir := dir, tag := tag, srcAddr := 0x1000, srcLen := BitVec.ofNat 32 inp.length, dstAddr := 0x2000, dstCap := cap },
    mem := Memory.writeBytes [] 0x1000 inp, phase := ph, work := w }

/-- A command just started. -/
def started (dir : Bool) (tag : Byte) (inp : List Byte) (cap : Word) : State := running dir tag inp cap .command Work.zero

/-- The state of a next outcome. -/
def after : Host.Outcome State Fault Refusal → Option State
  | .next s => some s
  | .fault _ => none
  | .refused _ => none

/-- The first n bytes of the output in memory. -/
def output (n : Nat) (s : State) : List Byte := (List.range n).map (fun i => s.mem.read (0x2000 + BitVec.ofNat 32 i))

/-- What a completed command shows: CODE, OUT_LEN and n bytes of the output. -/
def shown (n : Nat) (o : Host.Outcome State Fault Refusal) : Option (Code × Nat × List Byte) :=
  (after o).map (fun s => (s.code, s.outLen.toNat, output n s))

/-! ### One instruction each; results from spec/95_test_vectors.md -/

/-- V4 -/
theorem test_rleEnc : shown 8 (exec .rleEnc (started false 0x30 [0x41, 0x41, 0x42] 64))
    = some (.ok, 8, [0x30, 3, 0, 0, 2, 0x41, 0x41, 0x42]) := by decide
/-- V5 -/
theorem test_rleEnc_run : shown 8 (exec .rleEnc (started false 0x30 [0x41, 0x41, 0x41, 0x42] 64))
    = some (.ok, 8, [0x30, 4, 0, 0, 0x80, 0x41, 0, 0x42]) := by decide
/-- V40 -/
theorem test_lzEnc :
    shown 12 (exec .lzEnc (started false 0x10 [0x41, 0x42, 0x43, 0x41, 0x42, 0x43, 0x41, 0x42, 0x43] 64))
    = some (.ok, 12, [0x10, 9, 0, 0, 0x10, 0x41, 0x42, 0x43, 0x30, 2, 0, 0]) := by decide
/-- V53: DST_CAP 11 is one byte short; V43: the match is at distance 2, never 1 -/
theorem test_lzEnc_capacity_and_adjacency :
    ((after (exec .lzEnc (started false 0x10 [0x41, 0x42, 0x43, 0x41, 0x42, 0x43, 0x41, 0x42, 0x43] 11))).map
      (fun s => (s.code, s.outLen)) = some (.capacity, 0))
    ∧ shown 12 (exec .lzEnc (started false 0x10 (List.replicate 20 0x41) 64))
      = some (.ok, 12, [0x10, 0x14, 0, 0, 0x20, 0x41, 0x41, 0xF0, 1, 0, 0, 0]) := by decide +kernel
/-- V21 -/
theorem test_huf4Enc : shown 16 (exec .huf4Enc (started false 0x24 [0x11, 0x11, 0x21, 0x43] 64))
    = some (.ok, 16, [0x24, 4, 0, 0, 3, 0x40, 0x80, 1, 3, 0xC0, 2, 4, 0, 0, 0x18, 0xFA]) := by decide
/-- V20 -/
theorem test_huf8Enc :
    shown 20 (exec .huf8Enc
      (started false 0x28 [0x41, 0x42, 0x52, 0x41, 0x43, 0x41, 0x44, 0x41, 0x42, 0x52, 0x41, 0x21] 64))
    = some (.ok, 20, [0x28, 0x0C, 0, 0, 5, 0x80, 0x41, 0, 0xC0, 0x41, 0x44, 0x52, 0xC0, 0x42, 0x21, 0x43, 0xC0, 0x7A, 0xD4,
        0x7A]) := by decide
/-- V22: one distinct symbol -/
theorem test_huf8Enc_one_symbol : shown 12 (exec .huf8Enc (started false 0x28 [0, 0, 0, 0] 64))
    = some (.ok, 12, [0x28, 4, 0, 0, 1, 0xC0, 1, 0, 0, 0, 0, 0xF0]) := by decide
/-- R103: SRC_LEN = 0 (P4, step 4) -/
theorem test_rleDec_checks_entry :
    (after (exec .rleDec (started true 0x30 [] 64))).map (fun s => (s.code, s.busy)) = some (.invalidInput, false) := by decide
/-- R103: DST_ADDR = 0 -/
theorem test_lzDec_checks_entry :
    (after (exec .lzDec { started true 0x10 [0x10] 64 with
      lat := { dir := true, tag := 0x10, srcAddr := 0x1000, srcLen := 1, dstAddr := 0, dstCap := 64 } })).map
      (fun s => (s.code, s.busy)) = some (.invalidInput, false) := by decide
theorem test_huf4Dec_goes_on :
    (after (exec .huf4Dec (started true 0x24 [0x24] 64))).map (fun s => (s.phase, s.busy)) = some (.header, true) := by decide
theorem test_huf8Dec_goes_on :
    (after (exec .huf8Dec (started true 0x28 [0x28] 64))).map (fun s => (s.phase, s.busy)) = some (.header, true) := by decide
/-- V54j: the declared size 9 is above DST_CAP = 8 -/
theorem test_hdrLz77_capacity :
    (after (exec (.hdrLz77 9) (running true 0x10 [0x10, 9, 0, 0, 0x10] 8 .header Work.zero))).map (·.code)
      = some .capacity := by decide
theorem test_hdrHuffman4_goes_on :
    (after (exec (.hdrHuffman4 4) (running true 0x24 [0x24, 4, 0, 0, 1] 4 .header Work.zero))).map
      (fun s => (s.phase, s.work.size)) = some (.hufSize, 4) := by decide
/-- R82: a Huffman block has at least 5 bytes -/
theorem test_hdrHuffman8_short :
    (after (exec (.hdrHuffman8 4) (running true 0x28 [0x28, 4, 0, 0] 4 .header Work.zero))).map (·.code)
      = some .malformed := by decide
/-- V17h and V17c -/
theorem test_hdrRle_mismatch_and_zero :
    (after (exec (.hdrRle 9) (running true 0x10 [0x30, 9, 0, 0] 64 .header Work.zero))).map (·.code) = some .formatMismatch
    ∧ (after (exec (.hdrRle 0) (running true 0x30 [0x30, 0, 0, 0] 64 .header Work.zero))).map (·.code)
      = some .malformed := by decide

/-- A decoder at block offset p, with a declared size and some output. -/
def at_ (p size : Nat) (out : List Byte) : Work := { Work.zero with p := p, size := size, out := out }

/-- V17a: a run of 130 is cut at the declared size 5 -/
theorem test_rleRun_cut :
    shown 5 (exec (.rleRun 130) (running true 0x30 [0x30, 5, 0, 0, 0xFF, 0xAA] 64 .rleRecord (at_ 4 5 [])))
      = some (.ok, 5, List.replicate 5 0xAA) := by decide
/-- V17f: a run record without its byte -/
theorem test_rleRun_missing :
    (after (exec (.rleRun 130) (running true 0x30 [0x30, 5, 0, 0, 0xFF] 64 .rleRecord (at_ 4 5 [])))).map (·.code)
      = some .malformed := by decide
/-- R66: "02 41 41 42" emits AAB -/
theorem test_rleLit :
    shown 3 (exec (.rleLit 3) (running true 0x30 [0x30, 3, 0, 0, 2, 0x41, 0x41, 0x42] 64 .rleRecord (at_ 4 3 [])))
      = some (.ok, 3, [0x41, 0x41, 0x42]) := by decide
/-- V17e: the literal record runs past the block -/
theorem test_rleLit_short :
    (after (exec (.rleLit 3) (running true 0x30 [0x30, 5, 0, 0, 2, 0x41] 64 .rleRecord (at_ 4 5 [])))).map
      (fun s => (s.code, s.outLen)) = some (.malformed, 0) := by decide
/-- V54a: after the flag byte 0x40 the first item is a literal, the second a reference -/
theorem test_lzFlags_order :
    (after (exec (.lzFlags 0x40) (running true 0x10 [0x10, 6, 0, 0, 0x40, 0x41, 0x20, 0] 64 .lzFlags (at_ 4 6 [])))).map
      (fun s => (s.phase, s.work.p, s.work.flagBit, Work.flagBit { s.work with flagsLeft := 7 }))
      = some (.lzItem, 5, false, true) := by decide
theorem test_lzLit :
    (after (exec (.lzLit 0x41) (running true 0x10 [0x10, 6, 0, 0, 0x40, 0x41, 0x20, 0] 64 .lzItem
      { at_ 5 6 [] with flags := 0x40, flagsLeft := 8 }))).map (fun s => (s.phase, s.work.out, s.work.p, s.work.flagsLeft))
      = some (.lzItem, [0x41], 6, 7) := by decide
/-- V54a: distance 1, length 5, copied byte by byte -/
theorem test_lzRef_overlap :
    shown 6 (exec (.lzRef 5 1) (running true 0x10 [0x10, 6, 0, 0, 0x40, 0x41, 0x20, 0] 64 .lzItem
      { at_ 6 6 [0x41] with flags := 0x40, flagsLeft := 7 })) = some (.ok, 6, List.replicate 6 0x41) := by decide
/-- V54b: distance 2 before the first output byte -/
theorem test_lzRef_before_start :
    (after (exec (.lzRef 3 2) (running true 0x10 [0x10, 4, 0, 0, 0x40, 0x41, 0, 1] 64 .lzItem
      { at_ 6 4 [0x41] with flags := 0x40, flagsLeft := 7 }))).map (·.code) = some .malformed := by decide

/-- V20's block. -/
def v20 : List Byte :=
  [0x28, 0x0C, 0, 0, 5, 0x80, 0x41, 0, 0xC0, 0x41, 0x44, 0x52, 0xC0, 0x42, 0x21, 0x43, 0xC0, 0x7A, 0xD4, 0x7A]

/-- A Huffman walk in V20's block: at table position q, bit bi of the word 0x7AD47AC0. -/
def walk (q bi : Nat) : Work :=
  { at_ 4 12 [] with tableSize := 5, last := 11, bp := 20, bi := bi, cur := 0x7AD47AC0, q := q, need := 12 }

theorem test_hufSize :
    (after (exec (.hufSize 5) (running true 0x28 v20 64 .hufSize (at_ 4 12 [])))).map
      (fun s => (s.phase, s.work.last, s.work.bp, s.work.need, s.work.q)) = some (.hufWord, 11, 16, 12, 1) := by decide
theorem test_hufWord :
    (after (exec (.hufWord 0x7AD47AC0) (running true 0x28 v20 64 .hufWord { walk 1 0 with bp := 16, cur := 0 }))).map
      (fun s => (s.phase, s.work.cur, s.work.bp)) = some (.hufBranch, 0x7AD47AC0, 20) := by decide
/-- V20: bit 0 at the root byte 0x80 gives the leaf at position 2 -/
theorem test_hufBranch_leaf :
    (after (exec (.hufBranch 0 true false) (running true 0x28 v20 64 .hufBranch (walk 1 0)))).map
      (fun s => (s.phase, s.work.q, s.work.bi)) = some (.hufLeaf, 2, 1) := by decide
/-- R84: a child past the table -/
theorem test_hufBranch_outside :
    (after (exec (.hufBranch 63 false false) (running true 0x28 v20 64 .hufBranch (walk 1 0)))).map (·.code)
      = some .malformed := by decide
theorem test_hufLeaf :
    (after (exec (.hufLeaf 0x41) (running true 0x28 v20 64 .hufLeaf (walk 2 1)))).map
      (fun s => (s.phase, s.work.out, s.work.j, s.work.q)) = some (.hufBranch, [0x41], 1, 1) := by decide
/-- R82: for w = 4 the low nibble comes first -/
theorem test_hufLeaf_nibbles :
    (after (exec (.hufLeaf 0x02) (running true 0x24 v20 64 .hufLeaf { walk 2 1 with lo := 1, j := 1, need := 24 }))).map
      (·.work.out) = some [0x21] := by decide

/-! ### The host's side, and the interface -/

/-- P1: the CMD write starts the command; STATUS reads 1 -/
theorem test_start : (after (step { State.reset with input := [.host (.regWrite 4 0 0x80000030)] })).map
      (fun s => (s.readReg .status, s.readReg .cmd, s.phase)) = some (0x1, 0x30, .command) := by decide
/-- P4: STATUS after FORMAT_MISMATCH is 0x202 -/
theorem test_status_after_failure :
    (after (step (running true 0x30 [0x10, 9, 0, 0] 64 .header Work.zero))).map (·.readReg .status) = some 0x202 := by decide
theorem test_withFetchWord :
    (State.reset.withFetchWord 32 0x80000130).fetch = .unit .rleDec
    ∧ (State.reset.withFetchWord 32 0x00000910).fetch = .unit (.hdrLz77 9)
    ∧ (State.reset.withFetchWord 8 0xFF).fetch = .unit (.rleRun 130)
    ∧ (State.reset.withFetchWord 16 0x3002).fetch = .unit (.lzRef 6 3) := by decide +kernel

/-! ### Witnesses: states and operands that meet the hypotheses of the statements -/

/-- An idle machine whose register block lies at 0x40, with some events before it. -/
def idleAt (ev : List Event) : State :=
  { State.reset with cfg := { Config.defaults with pBaseHi := 2 }, input := ev }

/-- A busy machine with the same block: RLE_DEC of V17a's block just started. -/
def busyAt (ev : List Event) : State :=
  { started true 0x30 [0x30, 5, 0, 0, 0xFF, 0xAA] 8 with
    cfg := { Config.defaults with pBaseHi := 2 }, input := ev }

theorem idleAt_inv (ev : List Event) : (idleAt ev).Inv where
  memWf := rfl
  notBoth := by simp [idleAt, State.reset, State.resetWith]
  busyPhase := by simp [idleAt, State.reset, State.resetWith]
  busyClear := by simp [idleAt, State.reset, State.resetWith]
  failZero := by simp [idleAt, State.reset, State.resetWith]
  latched := by simp [idleAt, State.reset, State.resetWith]
  entered := by simp [idleAt, State.reset, State.resetWith]
  quiet := by simp [idleAt, State.reset, State.resetWith]
  placed := trivial

theorem busyAt_inv (ev : List Event) : (busyAt ev).Inv where
  memWf := (by decide : (Memory.writeBytes [] 0x1000 [0x30, 5, 0, 0, 0xFF, 0xAA]).wf = true)
  notBoth := by simp [busyAt, started, running, State.reset, State.resetWith]
  busyPhase := by simp [busyAt, started, running, State.reset, State.resetWith]
  busyClear := by simp [busyAt, started, running, State.reset, State.resetWith]
  failZero := by simp [busyAt, started, running, State.reset, State.resetWith]
  latched := by simp [busyAt, started, running, State.reset, State.resetWith]
  entered := by simp [busyAt, started, running, State.reset, State.resetWith]
  quiet := by simp [busyAt, started, running, State.reset, State.resetWith]
  placed := rfl

theorem witness_ResetZeroesRegisters :
    (idleAt [.host .reset]).input = .host .reset :: [] ∧ (idleAt [.host .reset]).busy = false := by decide
/-- the last byte of the DST region, and the byte after it -/
theorem witness_ResetWhileBusyAbandonsCommand :
    (busyAt [.host .reset]).input = .host .reset :: [] ∧ (busyAt []).busy = true ∧ (busyAt []).mem.wf = true
    ∧ 7 < (busyAt []).dstSpan ∧ ¬8 < (busyAt []).dstSpan
    ∧ (busyAt []).inDst 0x2007 = true ∧ (busyAt []).inDst 0x2008 = false ∧ (busyAt []).inDst 0x1FFF = false := by decide
theorem witness_CmdWriteStartsOrUpdates :
    (idleAt []).busy = false ∧ (idleAt []).cfg.pBase = 0x40
    ∧ (0x80000000 : Word).getLsbD 31 = true ∧ (0x7FFFFFFF : Word).getLsbD 31 = false := by decide
/-- (a): a byte access to the first byte, a misaligned word, a word that begins just below the block; (b): the first and the
last byte, and none outside; (c) the first and the last register -/
theorem witness_RegisterAccessRules :
    ((idleAt []).touchesBlock 1 0x40 = true ∧ ¬(1 = 4 ∧ (idleAt []).blockOffset 0x40 % 4 = 0))
    ∧ ((idleAt []).touchesBlock 4 0x42 = true ∧ ¬(4 = 4 ∧ (idleAt []).blockOffset 0x42 % 4 = 0))
    ∧ ((idleAt []).touchesBlock 4 0x3E = true ∧ ¬(4 = 4 ∧ (idleAt []).blockOffset 0x3E % 4 = 0))
    ∧ ((idleAt []).touchesBlock 1 0x5F = true ∧ (idleAt []).touchesBlock 1 0x60 = false
        ∧ (idleAt []).touchesBlock 1 0x3F = false)
    ∧ ((busyAt []).busy = true ∧ (busyAt []).cfg.pBase + BitVec.ofNat 32 (4 * 0) = 0x40
        ∧ (busyAt []).cfg.pBase + BitVec.ofNat 32 (4 * 7) = 0x5C) := by decide
theorem witness_DataRegistersHoldWhatIsWritten :
    (idleAt []).busy = false ∧ 2 ∈ [2, 3, 4, 5] ∧ regAt (4 * 2) = .srcAddr ∧ regAt (4 * 3) = .srcLen
    ∧ regAt (4 * 4) = .dstAddr ∧ regAt (4 * 5) = .dstCap ∧ 5 ∈ [2, 3, 4, 5] := by decide
theorem witness_ReadOnlyRegistersIgnoreWrites :
    1 ∈ [1, 6] ∧ 6 ∈ [1, 6] ∧ regAt (4 * 1) = .status ∧ regAt (4 * 6) = .outLen
    ∧ (busyAt [.host (.regWrite 4 0x44 1)]).input = .host (.regWrite 4 ((busyAt []).cfg.pBase + BitVec.ofNat 32 (4 * 1)) 1) :: []
    := by decide
theorem witness_EarlyReads :
    (busyAt [.host (.memRead 0x2000)]).Inv ∧ (busyAt []).busy = true
    ∧ ((busyAt []).inDst 0x2000 = true ∧ (busyAt []).inDst 0x2007 = true ∧ (busyAt []).touchesBlock 1 0x2000 = false) :=
  ⟨busyAt_inv _, by decide, by decide⟩
theorem witness_HostMemoryAccess :
    ((busyAt []).mem.wf = true ∧ (busyAt []).touchesBlock 1 0x1005 = false ∧ (busyAt []).inSrc 0x1005 = true
      ∧ (busyAt []).inSrc 0x1006 = false)
    ∧ (((busyAt []).busy && (busyAt []).inDst 0x2008) = false ∧ ((idleAt []).busy && (idleAt []).inDst 0) = false)
    ∧ (busyAt [.host .busError]).input = .host .busError :: [] ∧ (idleAt [.host .busError]).input = .host .busError :: []
    := by decide
theorem witness_StepRunsTheDecodedInstruction :
    ((busyAt []).engineNext = some (busyAt []) ∧ (busyAt []).work.grammar (busyAt []).phase = some .command
      ∧ decode .command ((busyAt []).fetchBytes .command) = .instr .rleDec [])
    ∧ (decode .command ((started true 0x20 [0x30] 8).fetchBytes .command) = .rejected .illegalTag
      ∧ (started true 0x20 [0x30] 8).work.grammar (started true 0x20 [0x30] 8).phase = some .command)
    ∧ ((idleAt [.engine]).engineNext = some (idleAt []) ∧ (idleAt []).phase = .idle)
    ∧ (idleAt [.host .busError]).input = .host .busError :: [] := by decide
/-- every range at both ends -/
theorem witness_DecodeOfEncodeIsTheInstruction :
    ([.lzEnc, .lzDec, .huf4Enc, .huf4Dec, .huf8Enc, .huf8Dec, .rleEnc, .rleDec, .hdrLz77 0, .hdrLz77 16777215, .hdrHuffman4 0,
      .hdrHuffman4 16777215, .hdrHuffman8 0, .hdrHuffman8 16777215, .hdrRle 0, .hdrRle 16777215, .rleRun 3, .rleRun 130,
      .rleLit 1, .rleLit 128, .lzFlags 0xFF, .lzLit 0, .lzRef 3 1, .lzRef 18 4096, .hufSize 0xFF, .hufBranch 0 false false,
      .hufBranch 63 true true, .hufLeaf 0xFF, .hufWord 0xFFFFFFFF] : List Instr).all (·.wf) = true := by decide
theorem witness_EncodeOfDecodeIsTheBytes :
    decode .lzRef [0xFF, 0xFF, 0x41] = .instr (.lzRef 18 4096) [0x41] ∧ Grammar.lzRef ≠ .command := by decide
theorem witness_EveryStreamUnitDecodes :
    Grammar.hufWord ≠ .command ∧ Grammar.hufWord ≠ .header ∧ [0, 0, 0, (0xFF : Byte)].length = Grammar.hufWord.width := by decide
theorem witness_CommandWordFieldsDecide :
    (0x80000010 : Word).getLsbD 31 = (0xFFFFFE10 : Word).getLsbD 31
    ∧ (0x80000010 : Word).setWidth 9 = (0xFFFFFE10 : Word).setWidth 9 ∧ (0x80000010 : Word) ≠ 0xFFFFFE10 := by decide
theorem witness_IllegalCommandCompletes :
    (started true 0x20 [0x30] 8).engineNext = some (started true 0x20 [0x30] 8) ∧ (started true 0x20 [0x30] 8).phase = .command
    ∧ (started true 0x20 [0x30] 8).disturbed = false
    ∧ (started true 0x20 [0x30] 8).lat.tag ∉ [Config.tagLz, Config.tagHuf4, Config.tagHuf8, Config.tagRle] := by decide

/-- A latch that passes EntryCheck, with the regions next to each other. -/
def goodLatch : Latch := { dir := false, tag := 0x30, srcAddr := 0x1000, srcLen := 0x1000, dstAddr := 0x2000, dstCap := 0x100 }

/-- one latch for every line of EntryCheck, each one step past the boundary, and the boundary itself -/
theorem witness_EntryCheckGuardsEveryCommand :
    ¬EntryFails goodLatch ∧ EntryFails { goodLatch with srcAddr := 0 } ∧ EntryFails { goodLatch with dstAddr := 0 }
    ∧ EntryFails { goodLatch with srcLen := 0 }
    ∧ (EntryFails { goodLatch with srcAddr := 0x3000, srcLen := 0x1000000 }
        ∧ ¬EntryFails { goodLatch with srcAddr := 0x3000, srcLen := 0xFFFFFF })
    ∧ (EntryFails { goodLatch with srcAddr := 0xFFFFF000, srcLen := 0x1001 }
        ∧ ¬EntryFails { goodLatch with srcAddr := 0xFFFFF000, srcLen := 0x1000 })
    ∧ (EntryFails { goodLatch with dstAddr := 0xFFFFFF01 } ∧ ¬EntryFails { goodLatch with dstAddr := 0xFFFFFF00 })
    ∧ (EntryFails { goodLatch with srcLen := 0x1001 } ∧ ¬EntryFails { goodLatch with srcLen := 0x1001, dstCap := 0 })
    ∧ State.reset.disturbed = false ∧ Instr.rleEnc.grammar = .command := by
  simp only [← entryOk_eq_false_iff]
  decide
theorem started_passes : ¬EntryFails (busyAt []).lat := by rw [← entryOk_iff]; decide
theorem witness_DecodeCommandsGoOnToTheHeader :
    Instr.rleDec ∈ ([.rleDec, .lzDec, .huf4Dec, .huf8Dec] : List Instr) ∧ ¬EntryFails (busyAt []).lat :=
  ⟨by decide, started_passes⟩

/-- An encode command just started, on four bytes 0, with room for a block of 12 bytes. -/
def encoding (tag : Byte) : State := started false tag [0, 0, 0, 0] 12

/-- V22 and V23 fit exactly; an RLE and an LZ77 block fit with room -/
theorem witness_EncodersWriteTheirBlock :
    (¬EntryFails (encoding 0x28).lat ∧ (encoding 0x28).disturbed = false ∧ (encoding 0x28).mem.wf = true)
    ∧ encodeBlock (encoding 0x28).cfg (encoding 0x28).inBytes .huf8Enc
      = some (.ok [0x28, 4, 0, 0, 1, 0xC0, 1, 0, 0, 0, 0, 0xF0])
    ∧ encodeBlock (encoding 0x24).cfg (encoding 0x24).inBytes .huf4Enc
      = some (.ok [0x24, 4, 0, 0, 1, 0xC0, 1, 0, 0, 0, 0, 0xFF])
    ∧ encodeBlock (encoding 0x30).cfg (encoding 0x30).inBytes .rleEnc = some (.ok [0x30, 4, 0, 0, 0x81, 0, 0, 0])
    ∧ (encodeBlock (encoding 0x10).cfg (encoding 0x10).inBytes .lzEnc).map (fun r => r.toOption.map List.length)
      = some (some 12) := by
  rw [← entryOk_iff]
  decide +kernel
/-- CAPACITY: V22 with room for 11 bytes; INVALID_INPUT: V27, reject and 5 bytes, and truncate and 3 bytes, but not 4 -/
theorem witness_EncodersReportFailure :
    (encodeBlock (encoding 0x28).cfg (encoding 0x28).inBytes .huf8Enc
        = some (.ok [0x28, 4, 0, 0, 1, 0xC0, 1, 0, 0, 0, 0, 0xF0])
      ∧ 12 > (started false 0x28 [0, 0, 0, 0] 11).lat.dstCap.toNat ∧ ¬EntryFails (started false 0x28 [0, 0, 0, 0] 11).lat)
    ∧ encodeBlock { Config.defaults with hufTail := .reject } [7, 7, 7, 7, 7] .huf8Enc = some (.error .invalidInput)
    ∧ encodeBlock { Config.defaults with hufTail := .truncate } [0x41, 0x42, 0x43] .huf8Enc = some (.error .invalidInput)
    ∧ (encodeBlock { Config.defaults with hufTail := .truncate } [7, 7, 7, 7] .huf8Enc).map Except.isOk = some true
    ∧ 1 ≤ [(7 : Byte), 7, 7, 7, 7].length := by
  rw [← entryOk_iff]
  decide +kernel
/-- ENCODING_OVERFLOW (R81 (d')): with P_HUF_ZERO = include 255 absent symbols make a chain deeper than 31 levels -/
theorem witness_EncodersReportFailure_overflow :
    encodeBlock { Config.defaults with hufZero := .includeZero } [0, 0, 0, 0] .huf8Enc = some (.error .encodingOverflow) := by
  decide +kernel
theorem witness_CommandsIgnoreOldScratch :
    (idleAt [.host (.regWrite 4 0x40 0x80000130)]).phase = .idle ∧ (busyAt []).phase = .command
    ∧ Instr.lzEnc.grammar = .command ∧ Work.zero ≠ walk 1 0 := by decide
theorem witness_HeaderChecksInOrder :
    ((headerRows 0).map (·.1) = [.hdrRle 0, .hdrLz77 0, .hdrHuffman4 0, .hdrHuffman8 0])
    ∧ (running true 0x30 [0x30, 5, 0, 0] 5 .header Work.zero).lat.tag = Config.tagRle := by decide

/-- The RLE decoder at V17a's record, and with its size just reached. -/
theorem witness_RleRunRepeatsTheByte :
    (at_ 4 5 []).out.length ≤ (at_ 4 5 []).size ∧ (at_ 4 5 []).size ≤ (busyAt []).lat.dstCap.toNat
    ∧ (at_ 4 8 (List.replicate 8 0xAA)).out.length ≤ 8 ∧ 8 ≤ (busyAt []).lat.dstCap.toNat := by decide
theorem witness_RleLitCopiesTheBytes :
    (at_ 4 5 [0x41]).out.length ≤ (at_ 4 5 [0x41]).size ∧ (at_ 4 5 [0x41]).size ≤ (busyAt []).lat.dstCap.toNat := by decide
theorem witness_LzFlagsOpensAGroup : (at_ 4 1 []).out.length < (at_ 4 1 []).size := by decide

/-- The LZ77 decoder at V54a's literal (flag bit 0) and at its reference (flag bit 1). -/
def lzAt (w : Work) : State := running true 0x10 [0x10, 6, 0, 0, 0x40, 0x41, 0x20, 0] 6 .lzItem w

/-- with a byte left, and at the stream's end -/
theorem witness_LzLitStepCopiesTheByte :
    ((lzAt { at_ 5 6 [] with flags := 0x40, flagsLeft := 8 }).phase = .lzItem
      ∧ ({ at_ 5 6 [] with flags := 0x40, flagsLeft := 8 } : Work).flagBit = false
      ∧ (at_ 5 6 []).out.length < (lzAt Work.zero).lat.dstCap.toNat ∧ ¬5 ≥ (lzAt Work.zero).lat.srcLen.toNat)
    ∧ ((lzAt { at_ 8 6 [] with flagsLeft := 8 }).engineNext = some (lzAt { at_ 8 6 [] with flagsLeft := 8 })
      ∧ ({ at_ 8 6 [] with flagsLeft := 8 } : Work).flagBit = false ∧ 8 ≥ (lzAt Work.zero).lat.srcLen.toNat) := by decide
theorem witness_LzLitEmitsItsByte : (lzAt (at_ 5 6 [])).work.out.length < (lzAt (at_ 5 6 [])).lat.dstCap.toNat := by decide
/-- the nearest and the farthest distance that reach the output, and one past it -/
theorem witness_LzRefCopiesHistory :
    1 ≤ 1 ∧ (at_ 6 6 [0x41]).out.length ≤ (at_ 6 6 [0x41]).size ∧ (at_ 6 6 [0x41]).size ≤ (lzAt Work.zero).lat.dstCap.toNat
    ∧ 1 ≤ (at_ 6 6 [0x41]).out.length ∧ 2 > (at_ 6 6 [0x41]).out.length := by decide

/-- HUF8_DEC and HUF4_DEC machines. -/
def hufAt (ph : Phase) (w : Work) : State := running true 0x28 v20 64 ph w

theorem witness_HufSizeSetsUpTheWalk :
    0 < (hufAt .hufSize (at_ 4 1 [])).work.size * 8 / (hufAt .hufSize (at_ 4 1 [])).env.width
    ∧ ¬4 + (2 * 7 + 1) ≥ v20.length ∧ 4 + (2 * 8 + 1) ≥ v20.length := by decide
/-- four bytes left, and three -/
theorem witness_HufWordStepLoadsLittleEndian :
    (hufAt .hufWord { walk 1 0 with bp := 16 }).engineNext = some (hufAt .hufWord { walk 1 0 with bp := 16 })
    ∧ (hufAt .hufWord (walk 1 0)).phase = .hufWord
    ∧ ¬16 + 4 > (hufAt .hufWord (walk 1 0)).lat.srcLen.toNat ∧ 17 + 4 > (hufAt .hufWord (walk 1 0)).lat.srcLen.toNat := by decide
theorem witness_HufWalkMovesForward :
    (after (exec (.hufBranch 0 true false) (hufAt .hufBranch (walk 1 0)))).map (·.busy) = some true := by decide
/-- both widths, an even and an odd symbol -/
theorem witness_HufLeafYieldsTheSymbol :
    (hufAt .hufLeaf (walk 2 1)).work.out.length < (hufAt .hufLeaf (walk 2 1)).lat.dstCap.toNat
    ∧ (hufAt .hufLeaf (walk 2 1)).work.lo < 16 ∧ (hufAt .hufLeaf (walk 2 1)).lat.tag ≠ Config.tagHuf4
    ∧ (walk 2 1).j % 2 = 0 ∧ ({ walk 2 1 with j := 1, lo := 15 } : Work).j % 2 ≠ 0
    ∧ ({ walk 2 1 with j := 1, lo := 15 } : Work).lo < 16 := by decide
/-- the last byte of the address space may be written; nothing emitted -/
theorem witness_CompletionStep :
    (running true 0x30 [0x30] 1 .rleRecord (at_ 4 1 [0x41])).disturbed = false
    ∧ (running true 0x30 [0x30] 1 .rleRecord (at_ 4 1 [0x41])).mem.wf = true
    ∧ (0xFFFFFFFF : Addr).toNat + (at_ 4 1 [0x41]).out.length ≤ 2 ^ 32
    ∧ (0x2000 : Addr).toNat + (at_ 4 1 []).out.length ≤ 2 ^ 32 := by decide
theorem witness_DisturbedCompletion :
    ({ busyAt [] with disturbed := true } : State).disturbed = true ∧ ({ busyAt [] with disturbed := true } : State).mem.wf = true
    ∧ 7 < ({ busyAt [] with disturbed := true } : State).dstSpan := by decide
theorem witness_EngineKeepsTheHostsRegisters : (after (exec .rleDec (busyAt []))).isSome = true := by decide
theorem witness_EngineWritesOnlyTheDstRegion :
    (after (exec (.rleRun 130) (busyAt []))).isSome = true ∧ (busyAt []).mem.wf = true
    ∧ (busyAt []).work.out.length ≤ (busyAt []).lat.dstCap.toNat
    ∧ (busyAt []).lat.dstAddr.toNat + (busyAt []).lat.dstCap.toNat ≤ 2 ^ 32 ∧ (busyAt []).inDst 0x2008 = false := by decide
theorem witness_OutputFitsTheCapacity :
    (after (exec (.lzLit 0x41) (lzAt (at_ 5 6 [1, 2, 3, 4, 5, 6])))).isSome = true
    ∧ (at_ 5 6 [1, 2, 3, 4, 5, 6]).out.length ≤ (lzAt Work.zero).lat.dstCap.toNat := by decide
theorem witness_EveryStepKeepsTheInvariant : (busyAt []).Inv ∧ (after (step (busyAt []))).isSome = true :=
  ⟨busyAt_inv _, by decide⟩
theorem witness_EveryCommandCompletes : (busyAt []).Inv ∧ (busyAt []).busy = true ∧ (busyAt []).input = [] :=
  ⟨busyAt_inv _, by decide, by decide⟩

theorem started_decodes (tag : Byte) : decodeStarted (started true tag [0x30, 5, 0, 0, 0xFF, 0xAA] 8) tag :=
  ⟨rfl, rfl, rfl, rfl, (by decide : (Memory.writeBytes [] 0x1000 [0x30, 5, 0, 0, 0xFF, 0xAA]).wf = true), rfl, rfl, by simp [started, running, EntryFails]⟩
theorem witness_RleDecodeComputesItsCore : decodeStarted (started true Config.tagRle [0x30, 5, 0, 0, 0xFF, 0xAA] 8) Config.tagRle :=
  started_decodes _
theorem witness_LzDecodeComputesItsCore : decodeStarted (started true Config.tagLz [0x30, 5, 0, 0, 0xFF, 0xAA] 8) Config.tagLz :=
  started_decodes _
theorem witness_HufDecodeComputesItsCore :
    decodeStarted (started true Config.tagHuf4 [0x30, 5, 0, 0, 0xFF, 0xAA] 8) Config.tagHuf4
    ∧ decodeStarted (started true Config.tagHuf8 [0x30, 5, 0, 0, 0xFF, 0xAA] 8) Config.tagHuf8 :=
  ⟨started_decodes _, started_decodes _⟩
/-- V17a, V54a, V23 and V22 -/
theorem witness_DecodedLengthIsTheDeclaredSize :
    rleDecode 8 [0x30, 5, 0, 0, 0xFF, 0xAA] = .ok (List.replicate 5 0xAA)
    ∧ lzDecode 8 [0x10, 6, 0, 0, 0x40, 0x41, 0x20, 0] = .ok (List.replicate 6 0x41)
    ∧ hufDecode 0 Config.tagHuf4 4 8 [0x24, 4, 0, 0, 1, 0xC0, 1, 0, 0, 0, 0, 0xFF] = .ok [0, 0, 0, 0]
    ∧ hufDecode 0 Config.tagHuf8 8 8 [0x28, 4, 0, 0, 1, 0xC0, 1, 0, 0, 0, 0, 0xF0] = .ok [0, 0, 0, 0] := by decide +kernel
/-- V3: one byte, the shortest input -/
theorem witness_BlocksAreTaggedAndAligned :
    1 ≤ [(0x5A : Byte)].length ∧ [(0x5A : Byte)].length ≤ Config.sizeMax
    ∧ encodeBlock Config.defaults [0x5A] .rleEnc = some (.ok [0x30, 1, 0, 0, 0, 0x5A, 0, 0]) := by decide
/-- the shortest run, at the input's end and before another byte -/
theorem witness_LzBlockItems :
    ([(0x41 : Byte), 0x41, 0x41, 0x41, 0x41].take 5 = List.replicate 5 0x41
      ∧ [(0x41 : Byte), 0x41, 0x41, 0x41, 0x41][5]? ≠ some 0x41)
    ∧ [(0x41 : Byte), 0x41, 0x41, 0x41, 0x41, 0x42][5]? ≠ some 0x41 := by decide
/-- V49 and V50: the items of the listings are the payload -/
theorem test_lzGroups :
    (lzPayload 0 (List.replicate 40 0x00)).2
      = lzGroupBytes [.lit 0, .lit 0, .ref 18 2, .ref 18 2, .lit 0, .lit 0]
    ∧ (lzPayload 0 [0x41, 0x42, 0x43, 0x44, 0x41, 0x42, 0x43, 0x44, 0x58, 0x41, 0x42, 0x43, 0x44]).2
      = lzGroupBytes [.lit 0x41, .lit 0x42, .lit 0x43, .lit 0x44, .ref 4 4, .lit 0x58, .ref 4 9] := by decide +kernel
/-- V6: the records of the listing are the payload -/
theorem test_rleRecords :
    (rlePayload [1, 2, 3, 3, 3, 4]).2 = [RleRecord.lit [1, 2], .run 3 3, .lit [4]].flatMap RleRecord.bytes := by decide
/-- V17e and V54c, and a size above DST_CAP as in V17i: how many bytes are emitted before a decoder's raise -/
theorem test_emitted_before_raise :
    rleDecode 8 [0x30, 5, 0, 0, 2, 0x41] = .fail .malformed 1
    ∧ lzDecode 8 [0x10, 5, 0, 0, 0, 0x41, 0x42] = .fail .malformed 2
    ∧ rleDecode 4 [0x30, 5, 0, 0, 0xFF, 0xAA] = .fail .capacity 0 := by decide
theorem witness_LzBlockBound : 1 ≤ [(0x41 : Byte)].length := by decide
theorem witness_RleRoundTrip :
    1 ≤ [(0x5A : Byte)].length ∧ [(0x5A : Byte)].length ≤ 2 ^ 24 - 1 ∧ [(0x5A : Byte)].length ≤ 1 := by decide
theorem witness_LzRoundTrip :
    1 ≤ [(0x41 : Byte)].length ∧ [(0x41 : Byte)].length ≤ 2 ^ 24 - 1 ∧ [(0x41 : Byte)].length ≤ 1 := by decide
/-- V22 and V23, with the defaults (pad, fail), with reject, with mask and an offset that fits, with truncate and 4 bytes -/
theorem witness_HuffmanRoundTrip :
    Config.defaults.hufTail ≠ .truncate ∧ Config.defaults.hufOffset = .fail ∧ [(0 : Byte), 0, 0, 0].length % 4 = 0
    ∧ (hufTree { Config.defaults with hufOffset := .mask } 8 [0, 0, 0, 0]).offsets 256 = [0]
    ∧ (hufEncode { Config.defaults with hufOffset := .mask, hufTail := .truncate } Config.tagHuf8 8 [0, 0, 0, 0]).2
      = .ok [0x28, 4, 0, 0, 1, 0xC0, 1, 0, 0, 0, 0, 0xF0]
    ∧ (hufEncode Config.defaults Config.tagHuf4 4 [0, 0, 0, 0]).2 = .ok [0x24, 4, 0, 0, 1, 0xC0, 1, 0, 0, 0, 0, 0xFF]
    ∧ (hufEncode Config.defaults Config.tagHuf8 8 [0, 0, 0, 0]).2 = .ok [0x28, 4, 0, 0, 1, 0xC0, 1, 0, 0, 0, 0, 0xF0]
    ∧ (hufEncode { Config.defaults with hufTail := .reject } Config.tagHuf8 8 [0, 0, 0, 0]).2
      = .ok [0x28, 4, 0, 0, 1, 0xC0, 1, 0, 0, 0, 0, 0xF0] := by decide +kernel

/-- a header of the right tag, of another tag, and a short one; a unit inside the input and one past its end -/
theorem witness_UnitsAreReadAtTheCursor :
    ((running true 0x30 [0x30, 5, 0, 0, 0xFF, 0xAA] 8 .header Work.zero).engineNext.isSome = true
      ∧ (0x30 : Byte) ∈ [Config.tagLz, Config.tagHuf4, Config.tagHuf8, Config.tagRle]
      ∧ (running true 0x30 [0x30, 5, 0, 0, 0xFF, 0xAA] 8 .header Work.zero).src 0 = 0x30
      ∧ (running true 0x30 [0x31, 5] 8 .header Work.zero).src 0 ≠ 0x30
      ∧ (running true 0x30 [0x30, 5] 8 .header Work.zero).lat.srcLen.toNat < 4)
    ∧ (running true 0x30 [0x30, 5, 0, 0, 0xFF] 8 .rleRecord (at_ 4 5 [])).phase = .rleRecord
    ∧ ¬4 ≥ (running true 0x30 [0x30, 5, 0, 0, 0xFF] 8 .rleRecord (at_ 4 5 [])).lat.srcLen.toNat
    ∧ 5 ≥ (running true 0x30 [0x30, 5, 0, 0, 0xFF] 8 .rleRecord (at_ 5 5 [])).lat.srcLen.toNat := by decide
/-- LZ.REF at a step: with both token bytes, and with the second missing -/
theorem witness_LzRefCopiesHistory_step :
    (lzAt { at_ 6 6 [0x41] with flags := 0x40, flagsLeft := 7 }).phase = .lzItem
    ∧ ({ at_ 6 6 [0x41] with flags := 0x40, flagsLeft := 7 } : Work).flagBit = true
    ∧ ¬6 + 1 ≥ (lzAt Work.zero).lat.srcLen.toNat ∧ 7 + 1 ≥ (lzAt Work.zero).lat.srcLen.toNat := by decide
theorem witness_HufLeafYieldsTheSymbol_step :
    (hufAt .hufLeaf (walk 2 1)).engineNext = some (hufAt .hufLeaf (walk 2 1))
    ∧ 4 + (walk 2 1).q < (hufAt .hufLeaf (walk 2 1)).lat.srcLen.toNat := by decide
theorem witness_FlagsChangeOnlyAtStartAndCompletion :
    (idleAt [.host (.regWrite 4 0x40 0x80000030)]).Inv
    ∧ ((after (step (idleAt [.host (.regWrite 4 0x40 0x80000030)]))).map (·.busy) = some true
      ∧ (idleAt []).regFor 4 0x40 = some .cmd ∧ (idleAt []).regFor 4 0x48 ≠ some .cmd) := ⟨idleAt_inv _, by decide⟩
/-- V22's codes: symbol 0 has the code 1 of one bit -/
theorem witness_PackLaysCodesEndToEnd :
    ∀ s ∈ [0, 0, 0, 0], cellGet 0 [(0, 1)] s ≤ 31 ∧ cellGet 0 [(0, 1)] s < 2 ^ cellGet 0 [(0, 1)] s := by decide

/-- The state after an instruction. -/
def next (i : Instr) (s : State) : State := ((after (exec i s)).getD s)

/-- A decode command on the block an encode command left. -/
def decodesThat (tag : Byte) (s t : State) : State := started true tag (blockAt s t) 4

theorem decodesThat_starts {tag : Byte} {s t : State} (hw : (decodesThat tag s t).mem.wf = true)
    (he : entryOk (decodesThat tag s t).lat = true) : decodeStarted (decodesThat tag s t) tag :=
  ⟨rfl, rfl, rfl, rfl, hw, rfl, rfl, (entryOk_iff _).mp he⟩
theorem encodedOk_encoding {i : Instr} {tag : Byte} (hn : exec i (encoding tag) = .next (next i (encoding tag)))
    (hc : (next i (encoding tag)).code = .ok) : encodedOk i (encoding tag) (next i (encoding tag)) :=
  ⟨by rw [← entryOk_iff]; exact (by decide : entryOk { goodLatch with srcLen := 4, dstCap := 12 } = true), rfl, rfl,
    (by decide : (Memory.writeBytes [] 0x1000 [0, 0, 0, 0]).wf = true), hn, hc⟩
theorem witness_RleRoundTripOnTheMachine :
    encodedOk .rleEnc (encoding 0x30) (next .rleEnc (encoding 0x30))
    ∧ decodeStarted (decodesThat 0x30 (encoding 0x30) (next .rleEnc (encoding 0x30))) Config.tagRle
    ∧ (decodesThat 0x30 (encoding 0x30) (next .rleEnc (encoding 0x30))).inBytes
      = blockAt (encoding 0x30) (next .rleEnc (encoding 0x30)) :=
  ⟨encodedOk_encoding rfl (by decide), decodesThat_starts (by decide +kernel) (by decide), by decide +kernel⟩
theorem witness_LzRoundTripOnTheMachine :
    encodedOk .lzEnc (encoding 0x10) (next .lzEnc (encoding 0x10))
    ∧ decodeStarted (decodesThat 0x10 (encoding 0x10) (next .lzEnc (encoding 0x10))) Config.tagLz
    ∧ (decodesThat 0x10 (encoding 0x10) (next .lzEnc (encoding 0x10))).inBytes
      = blockAt (encoding 0x10) (next .lzEnc (encoding 0x10)) :=
  ⟨encodedOk_encoding rfl (by decide +kernel), decodesThat_starts (by decide +kernel) (by decide +kernel), by decide +kernel⟩
theorem witness_HuffmanRoundTripOnTheMachine :
    encodedOk .huf8Enc (encoding 0x28) (next .huf8Enc (encoding 0x28))
    ∧ decodeStarted (decodesThat 0x28 (encoding 0x28) (next .huf8Enc (encoding 0x28))) Config.tagHuf8
    ∧ (decodesThat 0x28 (encoding 0x28) (next .huf8Enc (encoding 0x28))).inBytes
      = blockAt (encoding 0x28) (next .huf8Enc (encoding 0x28)) :=
  ⟨encodedOk_encoding rfl (by decide +kernel), decodesThat_starts (by decide +kernel) (by decide +kernel), by decide +kernel⟩

end Sys2Proof.Tests
end

section
/-! SUPPORT. The decoders as the engine runs them, unit by unit, against the list functions of spec/00_scope.md R13: what one
turn does from a unit's answer, and what a completed command leaves. -/

namespace Sys2Proof.Machine

/-! ### The rest of the stream -/

/-- The bytes of the input from offset a to its end: what the list functions call the stream. -/
def Env.tail (e : Env) (a : Nat) : List Byte := e.window a (e.len - a)

@[simp] theorem Env.tail_length (e : Env) (a : Nat) : (e.tail a).length = e.len - a := by
  simp [Env.tail, Env.window_length]

theorem Env.tail_eq_nil {e : Env} {a : Nat} (h : e.len ≤ a) : e.tail a = [] :=
  List.eq_nil_of_length_eq_zero (by simp; omega)

theorem Env.tail_eq_cons {e : Env} {a : Nat} (h : a < e.len) : e.tail a = e.src a :: e.tail (a + 1) := by
  have hn : e.len - a = (e.len - (a + 1)) + 1 := by omega
  simp [Env.tail, Env.window, hn, List.range_succ_eq_map, Function.comp_def, Nat.add_assoc, Nat.add_comm 1]

theorem Env.tail_eq_cons_four {e : Env} {a : Nat} (h : a + 4 ≤ e.len) :
    e.tail a = e.src a :: e.src (a + 1) :: e.src (a + 2) :: e.src (a + 3) :: e.tail (a + 4) := by
  rw [Env.tail_eq_cons (by omega), Env.tail_eq_cons (by omega), Env.tail_eq_cons (by omega), Env.tail_eq_cons (by omega)]

theorem Env.tail_getD {e : Env} {a i : Nat} (h : a + i < e.len) : (e.tail a).getD i 0 = e.src (a + i) := by
  have hi : i < e.len - a := by omega
  simp [Env.tail, Env.window, hi]

theorem Env.drop_tail (e : Env) (a k : Nat) : (e.tail a).drop k = e.tail (a + k) := by
  induction k generalizing a with
  | zero => rfl
  | succ k ih =>
    by_cases h : a < e.len
    · rw [Env.tail_eq_cons h, List.drop_succ_cons, ih]
      congr 1
      omega
    · simp [Env.tail_eq_nil (e := e) (a := a) (by omega), Env.tail_eq_nil (e := e) (a := a + (k + 1)) (by omega)]

/-- A window is what the stream from there holds of it. -/
theorem Env.window_eq_take_tail (e : Env) (a n : Nat) : e.window a n = (e.tail a).take n := by
  simp [Env.tail, Env.window, ← List.map_take, List.take_range]

theorem Env.take_tail {e : Env} {a k : Nat} (h : k ≤ e.len - a) :
    (e.tail a).take k = (List.range k).map (fun i => e.src (a + i)) := by
  rw [← Env.window_eq_take_tail, Env.window, Nat.min_eq_left h]

theorem State.inBytes_eq_tail (s : State) : s.inBytes = s.env.tail 0 := by
  simp [State.inBytes, Env.tail, Env.window]

/-- Where the stream holds fewer bytes than a unit has, none is decoded (R60). -/
theorem decode_short {g : Grammar} {bs : List Byte} (h : bs.length < g.width) : decode g bs = .rejected .truncated := by
  unfold decode
  split
  case h_11 => rfl
  all_goals exact absurd h (by simp [Grammar.width])

/-! ### A turn, from a unit's answer -/

/-- What a unit answers does not depend on where the engine stood. -/
@[simp] theorem State.take_take_go (s : State) (ph : Phase) (w : Work) (it : Item) :
    (s.take (.go ph w)).take it = s.take it := by
  cases it with
  | go => rfl
  | ok w' => cases hd : s.disturbed <;> simp [completeOk, hd] <;> rfl
  | raise c w' => cases hd : s.disturbed <;> simp [completeFail, hd] <;> rfl

/-- From this answer on, the engine left alone completes with the result. -/
def State.Leads (s : State) (it : Item) (res : CoreResult) : Prop :=
  ∃ k t, Host.Core.run Sys2Proof.core k (s.take it) = .next t ∧ CompletedWith s res t

/-- One more step in front of a run. -/
theorem run_succ {s t : State} (k : Nat) (h : step s = .next t) :
    Host.Core.run Sys2Proof.core (k + 1) s = Host.Core.run Sys2Proof.core k t := by
  have h' : Sys2Proof.core.step s = .next t := h
  simp only [Host.Core.run, h']

/-- The bytes at hand for a stream unit are the front of the rest of the stream. -/
theorem fetchBytes_take_go (s : State) (ph : Phase) (w : Work) {g : Grammar} (hg : g ≠ .command) :
    (s.take (.go ph w)).fetchBytes g = (s.env.tail (w.offset ph)).take g.width := by
  rw [State.fetchBytes, if_neg hg, ← Env.window_eq_take_tail]
  rfl

/-- Bytes written from DST_ADDR on, no more than a DST range that does not wrap holds, leave every byte outside it. -/
theorem read_writeBytes_outside_dst {s : State} {bs : List Byte} {a : Addr} (hwf : s.mem.wf = true)
    (hroom : s.lat.dstAddr.toNat + s.lat.dstCap.toNat ≤ 2 ^ 32) (hlen : bs.length ≤ s.lat.dstCap.toNat)
    (ha : s.inDst a = false) : (s.mem.writeBytes s.lat.dstAddr bs).read a = s.mem.read a := by
  have hcap := s.lat.dstCap.isLt
  have hspan := dstSpan_le_of_not_inDst ha
  unfold State.dstSpan at hspan
  exact Memory.read_writeBytes_outside hwf (by omega) (by omega)

/-- A command past EntryCheck that nothing but the engine touches: what a decoder's run rests on. -/
structure State.LeftAlone (s : State) : Prop where
  undisturbed : s.disturbed = false
  noEvent : s.input = []
  memWf : s.mem.wf = true
  entered : ¬EntryFails s.lat

theorem State.LeftAlone.of_decodeStarted {s : State} {tag : Byte} (h : decodeStarted s tag) : s.LeftAlone := by
  obtain ⟨-, -, hdist, hinput, hwf, -, -, hentry⟩ := h
  exact ⟨hdist, hinput, hwf, hentry⟩

/-- A turn whose unit decodes is that unit's meaning. -/
theorem engineTurn_take_unit {s : State} {ph : Phase} {w : Work} {it : Item} {g : Grammar} {i : Instr} {rest : List Byte}
    (hg : w.grammar ph = some g) (hstream : g ≠ .command)
    (hd : decode g ((s.env.tail (w.offset ph)).take g.width) = .instr i rest)
    (hx : exec i (s.take (.go ph w)) = .next ((s.take (.go ph w)).take it)) :
    engineTurn (s.take (.go ph w)) = .next (s.take it) := by
  rw [← fetchBytes_take_go s ph w hstream] at hd
  rw [engineTurn_unit hg hd, hx, State.take_take_go]

/-- A turn whose unit does not decode raises the code of its place (R47, R60, R64). -/
theorem engineTurn_take_rejected {s : State} {ph : Phase} {w : Work} {g : Grammar} {e : DecodeError}
    (hg : w.grammar ph = some g) (hstream : g ≠ .command) (hph : ph ≠ .command)
    (hd : decode g ((s.env.tail (w.offset ph)).take g.width) = .rejected e) :
    engineTurn (s.take (.go ph w)) = .next (s.take (.raise (s.take (.go ph w)).rejectCode w)) := by
  rw [← fetchBytes_take_go s ph w hstream] at hd
  rw [engineTurn_rejected hg hd, failFetch, if_neg (by simpa using hph), ← State.take_take_go s ph w]
  rfl

section LeftAlone
variable {s : State} (hs : s.LeftAlone)
include hs

theorem State.LeftAlone.dst_room : s.lat.dstAddr.toNat + s.lat.dstCap.toNat ≤ 2 ^ 32 := by
  by_contra hwrap
  exact hs.entered (.inr (.inr (.inr (.inr (.inl (by omega))))))

theorem State.LeftAlone.srcLen_pos : 0 < s.lat.srcLen.toNat := by
  by_contra hzero
  exact hs.entered (.inr (.inl (BitVec.eq_of_toNat_eq (by simpa using hzero))))

/-- Bytes written from DST_ADDR on, no more than DST_CAP, leave every other byte of memory as it was. -/
theorem State.LeftAlone.read_output {bs : List Byte} (hlen : bs.length ≤ s.lat.dstCap.toNat) :
    (∀ a, s.inDst a = false → (s.mem.writeBytes s.lat.dstAddr bs).read a = s.mem.read a)
    ∧ (∀ i, i < bs.length → (s.mem.writeBytes s.lat.dstAddr bs).read (s.lat.dstAddr + BitVec.ofNat 32 i) = bs.getD i 0)
    ∧ (∀ i, bs.length ≤ i → i < s.lat.dstCap.toNat →
        (s.mem.writeBytes s.lat.dstAddr bs).read (s.lat.dstAddr + BitVec.ofNat 32 i)
          = s.mem.read (s.lat.dstAddr + BitVec.ofNat 32 i)) := by
  have hcap := s.lat.dstCap.isLt
  refine ⟨fun a ha => read_writeBytes_outside_dst hs.memWf hs.dst_room hlen ha, fun i hi => ?_, fun i hlo hi => ?_⟩
  · exact Memory.read_writeBytes_inside hs.memWf (by omega) hi
  · have hdist : (s.lat.dstAddr + BitVec.ofNat 32 i - s.lat.dstAddr).toNat = i := by
      simp [BitVec.add_comm s.lat.dstAddr]
      omega
    exact Memory.read_writeBytes_outside hs.memWf (by omega) (by omega)

theorem State.Leads.ok {w : Work} (hlen : w.out.length ≤ s.lat.dstCap.toNat) : s.Leads (.ok w) (.ok w.out) := by
  obtain ⟨hout, hin, hrest⟩ := hs.read_output hlen
  have hcap := s.lat.dstCap.isLt
  refine ⟨0, completeOk { s with work := w }, rfl, ?_⟩
  rw [completeOk_specified (s := { s with work := w }) hs.undisturbed]
  refine ⟨rfl, rfl, rfl, rfl, hout, rfl, ?_, hin, hrest⟩
  simp
  omega

theorem State.Leads.raise {w : Work} (c : Code) (hlen : w.out.length ≤ s.lat.dstCap.toNat) :
    s.Leads (.raise c w) (.fail c w.out.length) := by
  obtain ⟨hout, hin, hrest⟩ := hs.read_output (bs := freeBytes s.free w.out.length) (by simpa using hlen)
  simp only [freeBytes_length] at hin hrest
  refine ⟨0, completeFail c { s with work := w }, rfl, ?_⟩
  rw [completeFail_specified (s := { s with work := w }) hs.undisturbed]
  exact ⟨rfl, rfl, rfl, rfl, hout, rfl, rfl, ⟨s.free, fun i hi => (hin i hi).trans (freeBytes_getD hi)⟩, hrest⟩

/-- One turn in front. -/
theorem State.Leads.turn {ph : Phase} {w : Work} {it : Item} {res : CoreResult}
    (hturn : engineTurn (s.take (.go ph w)) = .next (s.take it)) (hl : s.Leads it res) : s.Leads (.go ph w) res := by
  obtain ⟨k, t, hrun, hdone⟩ := hl
  exact ⟨k + 1, t, by rw [run_succ k ((step_nil (s := s.take (.go ph w)) hs.noEvent).trans hturn), hrun], hdone⟩

/-- The next unit of the stream decodes: its answer decides how the command ends. -/
theorem State.Leads.unit {ph : Phase} {w : Work} {it : Item} {res : CoreResult} {g : Grammar} {i : Instr}
    {rest : List Byte} (hg : w.grammar ph = some g) (hstream : g ≠ .command)
    (hd : decode g ((s.env.tail (w.offset ph)).take g.width) = .instr i rest)
    (hx : exec i (s.take (.go ph w)) = .next ((s.take (.go ph w)).take it)) (hl : s.Leads it res) :
    s.Leads (.go ph w) res :=
  hl.turn hs (engineTurn_take_unit hg hstream hd hx)

/-- The same for a unit of one byte. -/
theorem State.Leads.byteUnit {ph : Phase} {w : Work} {it : Item} {res : CoreResult} {g : Grammar} {i : Instr}
    (hg : w.grammar ph = some g) (hstream : g ≠ .command) (hwidth : g.width = 1) (hp : w.offset ph < s.env.len)
    (hd : decode g [s.src (w.offset ph)] = .instr i [])
    (hx : exec i (s.take (.go ph w)) = .next ((s.take (.go ph w)).take it)) (hl : s.Leads it res) :
    s.Leads (.go ph w) res := by
  refine .unit hs (rest := []) hg hstream ?_ hx hl
  rw [hwidth, Env.tail_eq_cons hp]
  exact hd

/-- The stream ends inside the next unit: MALFORMED, with the bytes emitted so far (R60). -/
theorem State.Leads.truncated {ph : Phase} {w : Work} {g : Grammar} (hg : w.grammar ph = some g)
    (hcmd : ph ≠ .command) (hhdr : ph ≠ .header) (hstream : g ≠ .command) (hshort : s.env.len - w.offset ph < g.width)
    (hlen : w.out.length ≤ s.lat.dstCap.toNat) : s.Leads (.go ph w) (.fail .malformed w.out.length) := by
  have hd : decode g ((s.env.tail (w.offset ph)).take g.width) = .rejected .truncated :=
    decode_short (by rw [List.length_take, Env.tail_length]; omega)
  have hcode : (s.take (.go ph w)).rejectCode = .malformed := by
    cases ph <;> simp_all [State.rejectCode]
  refine (State.Leads.raise hs .malformed hlen).turn hs ?_
  rw [engineTurn_take_rejected hg hstream hcmd hd, hcode]

/-- A started decode command goes on to the block's header with fresh scratch (R47, R64, R82, R97). -/
theorem EventuallyCompletes.of_header {i : Instr} {res : CoreResult} (hphase : s.phase = .command)
    (hd : decode .command (leBytes 4 (cmdValue s.lat.dir s.lat.tag)) = .instr i [])
    (hx : exec i s = .next (runCommand s fun s => s.take (.go .header s.work)))
    (hl : s.Leads (.go .header Work.zero) res) : EventuallyCompletes s res := by
  obtain ⟨k, t, hrun, hdone⟩ := hl
  have hg : s.work.grammar s.phase = some .command := by rw [hphase]; rfl
  have hturn : step s = .next (s.take (.go .header Work.zero)) := by
    rw [step_nil hs.noEvent, engineTurn_unit hg hd, hx, runCommand_ok hs.entered]
    rfl
  exact ⟨k + 1, t, by rw [run_succ k hturn, hrun], hdone⟩

end LeftAlone

/-! ### The header -/

/-- How long a block of a tag is at least (R110): a Huffman block has its size byte after the header. -/
def headerMinLen (t : Byte) : Nat := if t = Config.tagHuf4 ∨ t = Config.tagHuf8 then 5 else 4

/-- The unit after the header of a block of a tag (R58). -/
def headerNext (t : Byte) : Phase :=
  if t = Config.tagRle then .rleRecord else if t = Config.tagLz then .lzFlags else .hufSize

theorem headerMinLen_ge (t : Byte) : 4 ≤ headerMinLen t := by
  unfold headerMinLen
  split <;> omega

/-- The four block tags (R8). -/
def blockTags : List Byte := [Config.tagLz, Config.tagHuf4, Config.tagHuf8, Config.tagRle]

/-- A header's first byte is one of the four tags, and the header is answered by the head of that tag's decoder, or no header
decodes (R48, R60). -/
theorem decodeHeader_cases (t : Byte) (size : Nat) (rest : List Byte) :
    (∃ i, decodeHeader t size rest = .instr i rest
      ∧ ∀ s, exec i s = .next (s.take (s.work.header s.env t (headerMinLen t) size (headerNext t))))
    ∨ (t ∉ blockTags ∧ decodeHeader t size rest = .rejected .unknownBlockTag) := by
  by_cases hlz : t = Config.tagLz
  · subst hlz; exact .inl ⟨.hdrLz77 size, rfl, fun s => rfl⟩
  by_cases h4 : t = Config.tagHuf4
  · subst h4; exact .inl ⟨.hdrHuffman4 size, rfl, fun s => rfl⟩
  by_cases h8 : t = Config.tagHuf8
  · subst h8; exact .inl ⟨.hdrHuffman8 size, rfl, fun s => rfl⟩
  by_cases hrle : t = Config.tagRle
  · subst hrle; exact .inl ⟨.hdrRle size, rfl, fun s => rfl⟩
  · refine .inr ⟨fun hmem => ?_, by rw [decodeHeader, if_neg hlz, if_neg h4, if_neg h8, if_neg hrle]⟩
    simp only [blockTags, List.mem_cons, List.not_mem_nil, or_false] at hmem
    tauto

/-- The head of a block whose input has its four header bytes. -/
theorem headOf_cons_four (tag : Byte) (minLen cap : Nat) (t b0 b1 b2 : Byte) (rest : List Byte) :
    headOf tag minLen cap (t :: b0 :: b1 :: b2 :: rest) =
      if t ≠ tag then .error .formatMismatch
      else if rest.length + 4 < minLen then .error .malformed
      else if leNat [b0, b1, b2] = 0 then .error .malformed
      else if leNat [b0, b1, b2] > cap then .error .capacity
      else .ok (leNat [b0, b1, b2], rest) := by
  simp [headOf]

/-- The head of a block shorter than its header. -/
theorem headOf_short {tag : Byte} {minLen cap : Nat} {t : Byte} {rest : List Byte} (h : rest.length + 1 < minLen) :
    headOf tag minLen cap (t :: rest) = if t ≠ tag then .error .formatMismatch else .error .malformed := by
  simp [headOf, h]

/-- Where no header decodes, the engine tells a block of another tag from a short one (R64). -/
theorem headerTurn_rejected {s : State} {w : Work} {e : DecodeError}
    (hd : decode .header ((s.env.tail 0).take 4) = .rejected e) :
    engineTurn (s.take (.go .header w))
      = .next (s.take (.raise (if s.src 0 = s.lat.tag then .malformed else .formatMismatch) w)) :=
  engineTurn_take_rejected (g := .header) rfl (by decide) (by decide) hd

/-- An answer to the header that agrees with the functional core's head of the block: its code, with nothing more emitted, or
the declared size, with the stream from offset 4 on (R64, R82, R97, R110). -/
inductive HeadAnswer (e : Env) (w : Work) : Item → Prop
  | fails {c : Code} {w' : Work} (hhead : headOf e.tag (headerMinLen e.tag) e.cap (e.tail 0) = .error c)
      (hout : w'.out = w.out) : HeadAnswer e w (.raise c w')
  | goesOn {size : Nat} (hhead : headOf e.tag (headerMinLen e.tag) e.cap (e.tail 0) = .ok (size, e.tail 4))
      (hlong : headerMinLen e.tag ≤ e.len) (hpos : 0 < size) (hcap : size ≤ e.cap) :
      HeadAnswer e w (.go (headerNext e.tag) { w with size := size, p := 4 })

/-- An input shorter than the header. -/
theorem HeadAnswer.of_short {e : Env} (w : Work) (hpos : 0 < e.len) (hlen : e.len < 4) :
    HeadAnswer e w (.raise (if e.src 0 = e.tag then .malformed else .formatMismatch) w) := by
  have hmin := headerMinLen_ge e.tag
  refine .fails ?_ rfl
  rw [Env.tail_eq_cons hpos, headOf_short (by simp; omega)]
  by_cases heq : e.src 0 = e.tag <;> simp [heq]

/-- The head of a block that has its header. -/
theorem headOf_tail {e : Env} (hlen : 4 ≤ e.len) (tag : Byte) (minLen : Nat) :
    headOf tag minLen e.cap (e.tail 0) =
      if e.src 0 ≠ tag then .error .formatMismatch
      else if e.len < minLen then .error .malformed
      else if leNat [e.src 1, e.src 2, e.src 3] = 0 then .error .malformed
      else if leNat [e.src 1, e.src 2, e.src 3] > e.cap then .error .capacity
      else .ok (leNat [e.src 1, e.src 2, e.src 3], e.tail 4) := by
  have hrest : (e.tail (0 + 4)).length + 4 = e.len := by simp; omega
  rw [Env.tail_eq_cons_four (by omega), headOf_cons_four, hrest]

/-- A block of another tag. -/
theorem HeadAnswer.of_tag_ne {e : Env} (w : Work) (hlen : 4 ≤ e.len) (hne : e.src 0 ≠ e.tag) :
    HeadAnswer e w (.raise .formatMismatch w) :=
  .fails (by rw [headOf_tail hlen, if_pos hne]) rfl

/-- The decoders' head, given the header's fields, agrees with the functional core's. -/
theorem HeadAnswer.of_header {e : Env} (w : Work) (hlen : 4 ≤ e.len) :
    HeadAnswer e w
      (w.header e (e.src 0) (headerMinLen (e.src 0)) (leNat [e.src 1, e.src 2, e.src 3]) (headerNext (e.src 0))) := by
  by_cases hne : e.src 0 ≠ e.tag
  · rw [Work.header, if_pos hne]
    exact .of_tag_ne w hlen hne
  have heq : e.src 0 = e.tag := not_not.mp hne
  have hhead := headOf_tail hlen e.tag (headerMinLen e.tag)
  rw [if_neg hne] at hhead
  rw [heq, Work.header, if_neg (by simp)]
  split_ifs at hhead ⊢
  · exact .fails hhead rfl
  · exact .fails hhead rfl
  · exact .fails hhead rfl
  · exact .goesOn hhead (by omega) (by omega) (by omega)

/-- The engine's turn at the header. -/
theorem headerTurn {s : State} (hs : s.LeftAlone) (htag : s.lat.tag ∈ blockTags) (w : Work) :
    ∃ it, HeadAnswer s.env w it ∧ engineTurn (s.take (.go .header w)) = .next (s.take it) := by
  by_cases hlen : s.env.len < 4
  · exact ⟨_, .of_short w hs.srcLen_pos hlen,
      headerTurn_rejected <| decode_short (g := .header) <| by
        simp only [List.length_take, Env.tail_length, Grammar.width]
        omega⟩
  have hfour : (s.env.tail 0).take 4 = [s.src 0, s.src 1, s.src 2, s.src 3] := by
    simp [Env.tail_eq_cons_four (e := s.env) (a := 0) (by omega)]
  have hdecode : decode .header ((s.env.tail 0).take 4)
      = decodeHeader (s.src 0) (leNat [s.src 1, s.src 2, s.src 3]) [] := by
    rw [hfour, decode]
  rcases decodeHeader_cases (s.src 0) (leNat [s.src 1, s.src 2, s.src 3]) [] with ⟨i, hi, hexec⟩ | ⟨hmem, hi⟩
  · exact ⟨_, .of_header w (by omega),
      engineTurn_take_unit (g := .header) rfl (by decide) (hdecode.trans hi) (hexec (s.take (.go .header w)))⟩
  · have hne : s.src 0 ≠ s.lat.tag := fun heq => hmem (heq ▸ htag)
    exact ⟨_, .of_tag_ne w (by omega) hne, by rw [headerTurn_rejected (hdecode.trans hi), if_neg hne]⟩

/-- A started decode command completes with the head's code where the head fails, and with what the stream's units lead to
where it does not (R13, R64, R82, R97). -/
theorem EventuallyCompletes.of_decoder {s : State} {tag : Byte} {res : CoreResult} (h : decodeStarted s tag)
    (htag : tag ∈ blockTags)
    (hfail : ∀ c, headOf tag (headerMinLen tag) s.lat.dstCap.toNat s.inBytes = .error c → res = .fail c 0)
    (hok : ∀ size, headOf tag (headerMinLen tag) s.lat.dstCap.toNat s.inBytes = .ok (size, s.env.tail 4) →
      headerMinLen tag ≤ s.env.len → 0 < size → size ≤ s.env.cap →
      s.Leads (.go (headerNext tag) { Work.zero with size := size, p := 4 }) res) :
    EventuallyCompletes s res := by
  have hs := State.LeftAlone.of_decodeStarted h
  obtain ⟨hphase, -, -, -, -, hdir, hlat, -⟩ := h
  subst hlat
  rw [State.inBytes_eq_tail] at hfail hok
  obtain ⟨i, hd, hx⟩ : ∃ i, decode .command (leBytes 4 (cmdValue s.lat.dir s.lat.tag)) = .instr i []
      ∧ exec i s = .next (runCommand s fun s => s.take (.go .header s.work)) := by
    rw [hdir]
    simp only [blockTags, List.mem_cons, List.not_mem_nil, or_false] at htag
    rcases htag with ht | ht | ht | ht <;> rw [ht]
    · exact ⟨.lzDec, rfl, rfl⟩
    · exact ⟨.huf4Dec, rfl, rfl⟩
    · exact ⟨.huf8Dec, rfl, rfl⟩
    · exact ⟨.rleDec, rfl, rfl⟩
  refine .of_header hs hphase hd hx ?_
  obtain ⟨it, hanswer, hturn⟩ := headerTurn hs htag Work.zero
  refine State.Leads.turn hs hturn ?_
  cases hanswer with
  | @fails c w' hhead hout =>
    have hnone : w'.out.length = 0 := by rw [hout]; rfl
    have hl := State.Leads.raise (w := w') hs c (by omega)
    rwa [hnone, ← hfail c hhead] at hl
  | goesOn hhead hlong hpos hcap => exact hok _ hhead hlong hpos hcap

end Sys2Proof.Machine
end

section
/-! SUPPORT. RLE_DEC, run record by record, computes its functional core (spec/40_rle.md R64 to R66). -/

namespace Sys2Proof.Machine

theorem decodeRecord_run {h : Byte} (hh : 128 ≤ h.toNat) : decodeRecord h.toNat = .rleRun (h.toNat - 128 + 3) := by
  have hlt := h.isLt
  have hbit : field h.toNat 7 7 = 1 := by simp only [field]; omega
  have hlen : field h.toNat 6 0 = h.toNat - 128 := by simp only [field]; omega
  rw [decodeRecord, if_pos hbit, hlen]

theorem decodeRecord_lit {h : Byte} (hh : h.toNat < 128) : decodeRecord h.toNat = .rleLit (h.toNat + 1) := by
  have hbit : field h.toNat 7 7 ≠ 1 := by simp only [field]; omega
  have hlen : field h.toNat 6 0 = h.toNat := by simp only [field]; omega
  rw [decodeRecord, if_neg hbit, hlen]

section Records
variable {size n : Nat} {stream out : List Byte}

theorem rleRecords_done (h : size ≤ out.length) : rleRecords size (n + 1) stream out = .ok out := by
  simp [rleRecords, h]

theorem rleRecords_nil (h : out.length < size) : rleRecords size (n + 1) [] out = .fail .malformed out.length := by
  simp [rleRecords, h]

theorem rleRecords_run_short {b : Byte} (h : out.length < size) (hb : 128 ≤ b.toNat) :
    rleRecords size (n + 1) [b] out = .fail .malformed out.length := by
  simp [rleRecords, h, hb]

theorem rleRecords_run {b v : Byte} (h : out.length < size) (hb : 128 ≤ b.toNat) :
    rleRecords size (n + 1) (b :: v :: stream) out =
      rleRecords size n stream (out ++ List.replicate (min (b.toNat - 128 + 3) (size - out.length)) v) := by
  simp [rleRecords, h, hb]

theorem rleRecords_lit_short {b : Byte} (h : out.length < size) (hb : b.toNat < 128)
    (hk : stream.length < min (b.toNat + 1) (size - out.length)) :
    rleRecords size (n + 1) (b :: stream) out = .fail .malformed (out.length + stream.length) := by
  simp only [rleRecords, if_neg (Nat.not_le.mpr h), if_neg (Nat.not_le.mpr hb), if_pos hk]

theorem rleRecords_lit {b : Byte} (h : out.length < size) (hb : b.toNat < 128)
    (hk : min (b.toNat + 1) (size - out.length) ≤ stream.length) :
    rleRecords size (n + 1) (b :: stream) out =
      rleRecords size n (stream.drop (min (b.toNat + 1) (size - out.length)))
        (out ++ stream.take (min (b.toNat + 1) (size - out.length))) := by
  simp only [rleRecords, if_neg (Nat.not_le.mpr h), if_neg (Nat.not_le.mpr hb), if_neg (Nat.not_lt.mpr hk)]

end Records

section Answers
variable {e : Env} {len : Nat} {w : Work}

theorem Work.rleRun_short (hp : e.len ≤ w.p + 1) :
    w.rleRun e len = .raise .malformed { w with h := e.src w.p, cnt := len, p := w.p + 1 } := by
  simp [Work.rleRun, hp]

theorem Work.rleRun_eq (hp : w.p + 1 < e.len) (hout : w.out.length ≤ w.size) (hcap : w.size ≤ e.cap) :
    w.rleRun e len =
      { w with h := e.src w.p, cnt := len, p := w.p + 2,
               out := w.out ++ List.replicate (min len (w.size - w.out.length)) (e.src (w.p + 1)) }.afterRecord := by
  rw [Work.rleRun, if_neg (by simpa using hp), Work.emitRun_eq]
  · rfl
  · exact hout
  · exact hcap

theorem Work.rleLit_short (hout : w.out.length ≤ w.size) (hcap : w.size ≤ e.cap)
    (hk : e.len - (w.p + 1) < min len (w.size - w.out.length)) :
    w.rleLit e len =
      .raise .malformed { w with h := e.src w.p, cnt := len, p := w.p + 1 + (e.len - (w.p + 1)),
                                 out := w.out ++ e.tail (w.p + 1) } := by
  rw [Work.rleLit, Work.emitLiteral_eq]
  · simp [hk, Env.tail, Env.window]
  · exact hout
  · exact hcap

theorem Work.rleLit_eq (hout : w.out.length ≤ w.size) (hcap : w.size ≤ e.cap)
    (hk : min len (w.size - w.out.length) ≤ e.len - (w.p + 1)) :
    w.rleLit e len =
      { w with h := e.src w.p, cnt := len, p := w.p + 1 + min len (w.size - w.out.length),
               out := w.out ++ (e.tail (w.p + 1)).take (min len (w.size - w.out.length)) }.afterRecord := by
  rw [Work.rleLit, Work.emitLiteral_eq, Env.take_tail hk]
  · simp only [if_neg (Nat.not_lt.mpr hk), Flow.finish_go]
  · exact hout
  · exact hcap

end Answers

section Units
variable {s : State} (hs : s.LeftAlone) {w : Work} {res : CoreResult}
include hs

/-- A record whose header byte is past the end of the stream. -/
theorem State.Leads.rleRecord_truncated (hp : s.env.len ≤ w.p) (hlen : w.out.length ≤ s.lat.dstCap.toNat) :
    s.Leads (.go .rleRecord w) (.fail .malformed w.out.length) :=
  .truncated hs (g := .rleRecord) rfl (by decide) (by decide) (by decide)
    (by simp only [Work.offset, Grammar.width]; omega) hlen

/-- A header byte with bit 7 set is a run (R50, R65). -/
theorem State.Leads.rleRun (hp : w.p < s.env.len) (hh : 128 ≤ (s.src w.p).toNat)
    (hl : s.Leads (w.rleRun s.env ((s.src w.p).toNat - 128 + 3)) res) : s.Leads (.go .rleRecord w) res :=
  .byteUnit hs (g := .rleRecord) (i := .rleRun _) rfl (by decide) rfl hp (by rw [← decodeRecord_run hh]; rfl) rfl hl

/-- Any other is a literal (R50, R66). -/
theorem State.Leads.rleLit (hp : w.p < s.env.len) (hh : (s.src w.p).toNat < 128)
    (hl : s.Leads (w.rleLit s.env ((s.src w.p).toNat + 1)) res) : s.Leads (.go .rleRecord w) res :=
  .byteUnit hs (g := .rleRecord) (i := .rleLit _) rfl (by decide) rfl hp (by rw [← decodeRecord_lit hh]; rfl) rfl hl

end Units

/-- Run record by record, the engine does what rleRecords does with the rest of the stream. -/
theorem leads_rleRecords {s : State} (hs : s.LeftAlone) (n : Nat) (w : Work) (hfuel : s.env.len - w.p < n)
    (hout : w.out.length ≤ w.size) (hcap : w.size ≤ s.env.cap) :
    s.Leads w.afterRecord (rleRecords w.size n (s.env.tail w.p) w.out) := by
  induction n generalizing w with
  | zero => omega
  | succ n ih =>
    rcases w.afterRecord_cases with ⟨hmore, ha⟩ | ⟨hdone, ha⟩ <;> rw [ha]
    case inr =>
      rw [rleRecords_done hdone]
      exact .ok hs (hout.trans hcap)
    by_cases hp : s.env.len ≤ w.p
    · rw [Env.tail_eq_nil hp, rleRecords_nil hmore]
      exact .rleRecord_truncated hs hp (hout.trans hcap)
    rw [Env.tail_eq_cons (by omega), State.env_src]
    by_cases hh : 128 ≤ (s.src w.p).toNat
    · refine .rleRun hs (by omega) hh ?_
      by_cases hp1 : s.env.len ≤ w.p + 1
      · rw [Env.tail_eq_nil hp1, rleRecords_run_short hmore hh, Work.rleRun_short hp1]
        exact .raise hs .malformed (w := { w with h := _, cnt := _, p := _ }) (hout.trans hcap)
      · rw [Env.tail_eq_cons (by omega), rleRecords_run hmore hh, Work.rleRun_eq (by omega) hout hcap]
        exact ih _ (by simp only; omega) (by simp; omega) hcap
    · have hlt : (s.src w.p).toNat < 128 := by omega
      refine .rleLit hs (by omega) hlt ?_
      by_cases hk : s.env.len - (w.p + 1) < min ((s.src w.p).toNat + 1) (w.size - w.out.length)
      · rw [rleRecords_lit_short hmore hlt (by rwa [Env.tail_length]), Work.rleLit_short hout hcap hk,
          ← List.length_append]
        exact .raise hs .malformed (w := { w with h := _, cnt := _, p := _, out := _ })
          (by simp only [List.length_append, Env.tail_length, ← State.env_cap]; omega)
      · rw [rleRecords_lit hmore hlt (by rw [Env.tail_length]; omega), Work.rleLit_eq hout hcap (by omega),
          Env.drop_tail]
        exact ih _ (by simp only; omega) (by simp; omega) hcap

/-- Settles O45: past EntryCheck and the header, record by record. -/
theorem rleDecodeComputesItsCore : Obligations.RleDecodeComputesItsCore := by
  intro s h
  refine .of_decoder h (by decide) (fun c hhead => ?_) fun size hhead _ hpos hcap => ?_
  · rw [rleDecode, show headOf Config.tagRle 4 _ _ = _ from hhead]
  · rw [rleDecode, show headOf Config.tagRle 4 _ _ = _ from hhead]
    have hl := leads_rleRecords (.of_decodeStarted h) (s.inBytes.length + 1)
      { Work.zero with size := size, p := 4 } (by rw [State.inBytes_length, State.env_len]; omega) (Nat.zero_le _) hcap
    have ha : Work.afterRecord { Work.zero with size := size, p := 4 }
        = .go .rleRecord { Work.zero with size := size, p := 4 } := if_pos hpos
    rwa [ha] at hl

end Sys2Proof.Machine
end

section
/-! SUPPORT. LZ_DEC, run item by item, computes its functional core (spec/42_lz77.md R97 to R100). -/

namespace Sys2Proof.Machine

/-- The n low bits of a flag byte, from the highest down: the bits of a group whose items are still to come (R98). -/
def flagBitsLeft (f : Byte) (n : Nat) : List Bool := (List.range n).map (fun i => f.getLsbD (n - 1 - i))

@[simp] theorem flagBitsLeft_zero (f : Byte) : flagBitsLeft f 0 = [] := rfl

@[simp] theorem flagBitsLeft_eight (f : Byte) : flagBitsLeft f 8 = bitsMsb f := rfl

theorem flagBitsLeft_succ (f : Byte) (n : Nat) : flagBitsLeft f (n + 1) = f.getLsbD n :: flagBitsLeft f n := by
  simp [flagBitsLeft, List.range_succ_eq_map, Function.comp_def, Nat.sub_sub, Nat.add_comm 1]

theorem decodeToken_bytes (t0 t1 : Byte) :
    decodeToken (t0.toNat * 256 + t1.toNat) = .lzRef (t0.toNat / 16 + 3) ((t0.toNat % 16) * 256 + t1.toNat + 1) := by
  have h0 := t0.isLt
  have h1 := t1.isLt
  have hlen : field (t0.toNat * 256 + t1.toNat) 15 12 = t0.toNat / 16 := by simp only [field]; omega
  have hdist : field (t0.toNat * 256 + t1.toNat) 11 0 = (t0.toNat % 16) * 256 + t1.toNat := by simp only [field]; omega
  rw [decodeToken, hlen, hdist]

section Items
variable {size n : Nat} {flags : List Bool} {stream out : List Byte}

theorem lzItems_done (h : size ≤ out.length) : lzItems size (n + 1) flags stream out = .ok out := by
  simp [lzItems, h]

theorem lzItems_flags_short (h : out.length < size) :
    lzItems size (n + 1) [] [] out = .fail .malformed out.length := by
  simp [lzItems, h]

theorem lzItems_flags {f : Byte} (h : out.length < size) :
    lzItems size (n + 1) [] (f :: stream) out = lzItems size n (bitsMsb f) stream out := by
  simp [lzItems, h]

theorem lzItems_lit_short (h : out.length < size) :
    lzItems size (n + 1) (false :: flags) [] out = .fail .malformed out.length := by
  simp [lzItems, h]

theorem lzItems_lit {b : Byte} (h : out.length < size) :
    lzItems size (n + 1) (false :: flags) (b :: stream) out = lzItems size n flags stream (out ++ [b]) := by
  simp [lzItems, h]

theorem lzItems_ref_short (h : out.length < size) (hs : stream.length < 2) :
    lzItems size (n + 1) (true :: flags) stream out = .fail .malformed out.length := by
  match stream, hs with
  | [], _ => simp [lzItems, h]
  | [_], _ => simp [lzItems, h]

theorem lzItems_ref {t0 t1 : Byte} (h : out.length < size) :
    lzItems size (n + 1) (true :: flags) (t0 :: t1 :: stream) out =
      if (t0.toNat % 16) * 256 + t1.toNat + 1 > out.length then .fail .malformed out.length
      else
        lzItems size n flags stream
          (copyBack ((t0.toNat % 16) * 256 + t1.toNat + 1) (min (t0.toNat / 16 + 3) (size - out.length)) out) := by
  simp only [lzItems, if_neg (Nat.not_le.mpr h)]

end Items

/-- A literal, where the output has room (R99). -/
theorem Work.lzLit_eq {e : Env} (b : Byte) {w : Work} (h : w.out.length < e.cap) :
    w.lzLit e b = { w with out := w.out ++ [b], p := w.p + 1, flagsLeft := w.flagsLeft - 1 }.afterItem := by
  rw [Work.lzLit, Work.emit_eq_go h]
  rfl

/-- A reference before the first byte of the output (R100). -/
theorem Work.lzRef_far {e : Env} {len dist : Nat} {w : Work} (h : w.out.length < dist) :
    w.lzRef e len dist = .raise .malformed { w with p := w.p + 2, flagsLeft := w.flagsLeft - 1 } := by
  simp [Work.lzRef, h]

/-- A reference into the output (R100). -/
theorem Work.lzRef_eq {e : Env} {len dist : Nat} {w : Work} (h : dist ≤ w.out.length) (hout : w.out.length ≤ w.size)
    (hcap : w.size ≤ e.cap) :
    w.lzRef e len dist =
      { w with p := w.p + 2, flagsLeft := w.flagsLeft - 1,
               out := copyBack dist (min len (w.size - w.out.length)) w.out }.afterItem := by
  rw [Work.lzRef, if_neg (Nat.not_lt.mpr h), Work.emitCopy_eq]
  · rfl
  · exact hout
  · exact hcap

section Units
variable {s : State} (hs : s.LeftAlone) {w : Work} {res : CoreResult}
include hs

/-- A group's flag byte (R98). -/
theorem State.Leads.lzFlags (hp : w.p < s.env.len) (hl : s.Leads (w.lzFlags (s.src w.p)) res) :
    s.Leads (.go .lzFlags w) res :=
  .byteUnit hs (g := .lzFlags) rfl (by decide) rfl hp rfl rfl hl

/-- No byte is left for a group's flags. -/
theorem State.Leads.lzFlags_truncated (hp : s.env.len ≤ w.p) (hlen : w.out.length ≤ s.lat.dstCap.toNat) :
    s.Leads (.go .lzFlags w) (.fail .malformed w.out.length) :=
  .truncated hs (g := .lzFlags) rfl (by decide) (by decide) (by decide)
    (by simp only [Work.offset, Grammar.width]; omega) hlen

/-- A flag bit 0 is a literal (R98, R99). -/
theorem State.Leads.lzLit (hbit : w.flagBit = false) (hp : w.p < s.env.len)
    (hl : s.Leads (w.lzLit s.env (s.src w.p)) res) : s.Leads (.go .lzItem w) res :=
  .byteUnit hs (g := .lzLit) (by simp [Work.grammar, hbit]) (by decide) rfl hp rfl rfl hl

/-- No byte is left for a literal. -/
theorem State.Leads.lzLit_truncated (hbit : w.flagBit = false) (hp : s.env.len ≤ w.p)
    (hlen : w.out.length ≤ s.lat.dstCap.toNat) : s.Leads (.go .lzItem w) (.fail .malformed w.out.length) :=
  .truncated hs (g := .lzLit) (by simp [Work.grammar, hbit]) (by decide) (by decide) (by decide)
    (by simp only [Work.offset, Grammar.width]; omega) hlen

/-- A flag bit 1 is a reference, whose token is two bytes (R52, R98, R100). -/
theorem State.Leads.lzRef (hbit : w.flagBit = true) (hp : w.p + 1 < s.env.len)
    (hl : s.Leads
      (w.lzRef s.env ((s.src w.p).toNat / 16 + 3) (((s.src w.p).toNat % 16) * 256 + (s.src (w.p + 1)).toNat + 1)) res) :
    s.Leads (.go .lzItem w) res := by
  refine .unit hs (g := .lzRef) (i := .lzRef _ _) (rest := []) (by simp [Work.grammar, hbit]) (by decide) ?_ rfl hl
  rw [← decodeToken_bytes, Work.offset, Env.tail_eq_cons (by omega), Env.tail_eq_cons hp]
  rfl

/-- The token is cut off. -/
theorem State.Leads.lzRef_truncated (hbit : w.flagBit = true) (hp : s.env.len ≤ w.p + 1)
    (hlen : w.out.length ≤ s.lat.dstCap.toNat) : s.Leads (.go .lzItem w) (.fail .malformed w.out.length) :=
  .truncated hs (g := .lzRef) (by simp [Work.grammar, hbit]) (by decide) (by decide) (by decide)
    (by simp only [Work.offset, Grammar.width]; omega) hlen

end Units

/-- Run item by item, the engine does what lzItems does with the group's flag bits and the rest of the stream. -/
theorem leads_lzItems {s : State} (hs : s.LeftAlone) (n : Nat) (w : Work) (hfuel : s.env.len - w.p < n)
    (hout : w.out.length ≤ w.size) (hcap : w.size ≤ s.env.cap) :
    s.Leads w.afterItem (lzItems w.size n (flagBitsLeft w.flags w.flagsLeft) (s.env.tail w.p) w.out) := by
  induction n generalizing w with
  | zero => omega
  | succ n ih =>
    rcases w.afterItem_cases with ⟨hdone, ha⟩ | ⟨hmore, hleft, ha⟩ | ⟨hmore, hleft, ha⟩ <;> rw [ha]
    case inl =>
      rw [lzItems_done hdone]
      exact .ok hs (hout.trans hcap)
    case inr.inl =>
      rw [hleft, flagBitsLeft_zero]
      by_cases hp : s.env.len ≤ w.p
      · rw [Env.tail_eq_nil hp, lzItems_flags_short hmore]
        exact .lzFlags_truncated hs hp (hout.trans hcap)
      · rw [Env.tail_eq_cons (by omega), lzItems_flags hmore]
        exact .lzFlags hs (by omega)
          (ih { w with p := w.p + 1, flags := s.src w.p, flagsLeft := 8 } (by simp only; omega) hout hcap)
    case inr.inr =>
      obtain ⟨k, hk⟩ := Nat.exists_eq_succ_of_ne_zero hleft
      have hbit : w.flagBit = w.flags.getLsbD k := by rw [Work.flagBit, hk]; rfl
      rw [hk, flagBitsLeft_succ, ← hbit]
      cases hb : w.flagBit with
      | false =>
        by_cases hp : s.env.len ≤ w.p
        · rw [Env.tail_eq_nil hp, lzItems_lit_short hmore]
          exact .lzLit_truncated hs hb hp (hout.trans hcap)
        · refine .lzLit hs hb (by omega) ?_
          rw [Env.tail_eq_cons (by omega), lzItems_lit hmore, Work.lzLit_eq _ (by omega), hk]
          exact ih _ (by simp only; omega) (by simp; omega) hcap
      | true =>
        by_cases hp : s.env.len ≤ w.p + 1
        · rw [lzItems_ref_short hmore (by rw [Env.tail_length]; omega)]
          exact .lzRef_truncated hs hb hp (hout.trans hcap)
        · refine .lzRef hs hb (by omega) ?_
          rw [Env.tail_eq_cons (by omega), Env.tail_eq_cons (by omega), lzItems_ref hmore, State.env_src]
          split_ifs with hfar
          · rw [Work.lzRef_far hfar]
            exact .raise hs .malformed (w := { w with p := _, flagsLeft := _ }) (hout.trans hcap)
          · rw [Work.lzRef_eq (by omega) hout hcap, hk]
            exact ih _ (by simp only; omega) (by simp; omega) hcap

/-- Settles O46: past EntryCheck and the header, item by item. -/
theorem lzDecodeComputesItsCore : Obligations.LzDecodeComputesItsCore := by
  intro s h
  refine .of_decoder h (by decide) (fun c hhead => ?_) fun size hhead _ hpos hcap => ?_
  · rw [lzDecode, show headOf Config.tagLz 4 _ _ = _ from hhead]
  · rw [lzDecode, show headOf Config.tagLz 4 _ _ = _ from hhead]
    have hl := leads_lzItems (.of_decodeStarted h) (s.inBytes.length + 1)
      { Work.zero with size := size, p := 4 } (by rw [State.inBytes_length, State.env_len]; omega) (Nat.zero_le _) hcap
    have ha : Work.afterItem { Work.zero with size := size, p := 4 }
        = .go .lzFlags { Work.zero with size := size, p := 4 } := if_neg (Nat.not_le.mpr hpos)
    rwa [ha] at hl

end Sys2Proof.Machine
end

section
/-! SUPPORT. HUF4_DEC and HUF8_DEC, run bit by bit, compute their functional core (spec/41_huffman.md R82 to R85). -/

namespace Sys2Proof.Machine

/-! ### The bits of the payload -/

/-- The bits of a payload word from index k on, index 0 being bit 31 (R83). -/
def wordBitsFrom (x : Word) (k : Nat) : List Bool := (List.range (32 - k)).map (fun i => x.getLsbD (31 - (k + i)))

@[simp] theorem wordBitsFrom_end (x : Word) : wordBitsFrom x 32 = [] := rfl

theorem wordBitsFrom_eq_cons (x : Word) {k : Nat} (h : k < 32) :
    wordBitsFrom x k = x.getLsbD (31 - k) :: wordBitsFrom x (k + 1) := by
  have hn : 32 - k = (32 - (k + 1)) + 1 := by omega
  simp [wordBitsFrom, hn, List.range_succ_eq_map, Function.comp_def, Nat.add_assoc, Nat.add_comm 1]

theorem leNat_cons_testBit (b : Byte) (bs : List Byte) (i : Nat) :
    (leNat (b :: bs)).testBit i = if i < 8 then b.toNat.testBit i else (leNat bs).testBit (i - 8) := by
  rw [leNat, Nat.add_comm]
  exact Nat.testBit_two_pow_mul_add (leNat bs) b.isLt i

/-- A little-endian word's bits from bit 31 down are those of its bytes from the last to the first. -/
theorem wordBitsFrom_leNat (b0 b1 b2 b3 : Byte) :
    wordBitsFrom (BitVec.ofNat 32 (leNat [b0, b1, b2, b3])) 0 = bitsMsb b3 ++ bitsMsb b2 ++ bitsMsb b1 ++ bitsMsb b0 := by
  have hword : (BitVec.ofNat 32 (leNat [b0, b1, b2, b3])).toNat = leNat [b0, b1, b2, b3] := by
    rw [BitVec.toNat_ofNat]
    exact Nat.mod_eq_of_lt ((leNat_lt [b0, b1, b2, b3]).trans_le (by simp))
  simp [wordBitsFrom, bitsMsb, List.range_succ, BitVec.getElem_eq_testBit_toNat, hword, leNat_cons_testBit,
    -BitVec.toNat_ofNat, -Nat.testBit_zero]

/-- The bits still to be read: of the current word unless a new one is due, then of the words from bp on (R83). -/
def Work.bitsAhead (e : Env) (w : Work) : List Bool :=
  if w.bi = 0 then payloadBits (e.tail w.bp) else wordBitsFrom w.cur w.bi ++ payloadBits (e.tail w.bp)

/-- Once bit bi is read, the bits ahead are the rest. -/
theorem Work.bitsAhead_next (e : Env) (w : Work) (h : w.bi < 32) :
    Work.bitsAhead e { w with bi := (w.bi + 1) % 32 } = wordBitsFrom w.cur (w.bi + 1) ++ payloadBits (e.tail w.bp) := by
  by_cases hlast : w.bi = 31
  · simp [Work.bitsAhead, hlast]
  · have hmod : (w.bi + 1) % 32 = w.bi + 1 := Nat.mod_eq_of_lt (by omega)
    simp [Work.bitsAhead, hmod]

theorem payloadBits_short {bs : List Byte} (h : bs.length < 4) : payloadBits bs = [] := by
  match bs, h with
  | [], _ => rfl
  | [_], _ => rfl
  | [_, _], _ => rfl
  | [_, _, _], _ => rfl

/-- Where a whole word is at hand its bits come first. -/
theorem payloadBits_tail {e : Env} {a : Nat} (h : a + 4 ≤ e.len) :
    payloadBits (e.tail a)
      = wordBitsFrom (BitVec.ofNat 32 (leNat [e.src a, e.src (a + 1), e.src (a + 2), e.src (a + 3)])) 0
        ++ payloadBits (e.tail (a + 4)) := by
  rw [Env.tail_eq_cons_four h, payloadBits, wordBitsFrom_leNat]

/-! ### Branches and symbols -/

/-- The child that a walk at position q goes to from a branch byte by a bit (R84). -/
def childOf (q : Nat) (node : Byte) (bit : Bool) : Nat := q / 2 * 2 + 2 * (node.toNat % 64) + 2 + bit.toNat

/-- Whether a branch byte flags the child on the side of a bit as a leaf (R54). -/
def leafFlag (node : Byte) (bit : Bool) : Bool := decide ((if bit then node.toNat / 64 % 2 else node.toNat / 128) = 1)

/-- One bit of hufSymbol. -/
theorem hufSymbol_cons (table : List Byte) (last q : Nat) (bit : Bool) (bits : List Bool) :
    hufSymbol table last q (bit :: bits) =
      if childOf q (table.getD q 0) bit > last then none
      else if leafFlag (table.getD q 0) bit then some (table.getD (childOf q (table.getD q 0) bit) 0, bits)
      else hufSymbol table last (childOf q (table.getD q 0) bit) bits := by
  simp [hufSymbol, childOf, leafFlag]

/-- A branch byte's answer (R54, R84). -/
theorem Work.hufBranch_byte (node : Byte) (w : Work) :
    w.hufBranch (field node.toNat 5 0) (decide (field node.toNat 7 7 = 1)) (decide (field node.toNat 6 6 = 1)) =
      if childOf w.q node (w.cur.getLsbD (31 - w.bi)) > w.last then
        .raise .malformed { w with bi := (w.bi + 1) % 32 }
      else if leafFlag node (w.cur.getLsbD (31 - w.bi)) then
        .go .hufLeaf { w with bi := (w.bi + 1) % 32, q := childOf w.q node (w.cur.getLsbD (31 - w.bi)) }
      else
        .go (Work.nextBitPhase { w with bi := (w.bi + 1) % 32 })
          { w with bi := (w.bi + 1) % 32, q := childOf w.q node (w.cur.getLsbD (31 - w.bi)) } := by
  have hnode := node.isLt
  have hoff : field node.toNat 5 0 = node.toNat % 64 := by simp only [field]; omega
  have hll : field node.toNat 7 7 = node.toNat / 128 := by simp only [field]; omega
  have hrl : field node.toNat 6 6 = node.toNat / 64 % 2 := by simp only [field]; omega
  rw [hoff, hll, hrl]
  cases hbit : w.cur.getLsbD (31 - w.bi) <;> simp [Work.hufBranch, childOf, leafFlag, clearBit0, hbit, Work.nextBitPhase]

section Units
variable {s : State} (hs : s.LeftAlone) {w : Work} {res : CoreResult}
include hs

/-- The table's size byte (R53, R82). -/
theorem State.Leads.hufSize (hp : 4 < s.env.len) (hl : s.Leads (w.hufSize s.env (s.src 4)) res) :
    s.Leads (.go .hufSize w) res :=
  .byteUnit hs (g := .hufSize) rfl (by decide) rfl hp rfl rfl hl

/-- A payload word (R56, R83). -/
theorem State.Leads.hufWord (hp : w.bp + 4 ≤ s.env.len)
    (hl : s.Leads (w.hufWord
      (BitVec.ofNat 32 (leNat [s.src w.bp, s.src (w.bp + 1), s.src (w.bp + 2), s.src (w.bp + 3)]))) res) :
    s.Leads (.go .hufWord w) res := by
  refine .unit hs (g := .hufWord) (i := .hufWord _) (rest := []) rfl (by decide) ?_ rfl hl
  rw [Work.offset, Env.tail_eq_cons_four hp]
  rfl

/-- The payload word is cut off. -/
theorem State.Leads.hufWord_truncated (hp : s.env.len < w.bp + 4) (hlen : w.out.length ≤ s.lat.dstCap.toNat) :
    s.Leads (.go .hufWord w) (.fail .malformed w.out.length) :=
  .truncated hs (g := .hufWord) rfl (by decide) (by decide) (by decide)
    (by simp only [Work.offset, Grammar.width]; omega) hlen

/-- The branch byte at the walk's position (R84). -/
theorem State.Leads.hufBranch (hp : 4 + w.q < s.env.len)
    (hl : s.Leads
      (w.hufBranch (field (s.src (4 + w.q)).toNat 5 0) (decide (field (s.src (4 + w.q)).toNat 7 7 = 1))
        (decide (field (s.src (4 + w.q)).toNat 6 6 = 1))) res) :
    s.Leads (.go .hufBranch w) res :=
  .byteUnit hs (g := .hufBranch) (i := .hufBranch _ _ _) rfl (by decide) rfl hp rfl rfl hl

/-- The leaf byte at the walk's position (R85). -/
theorem State.Leads.hufLeaf (hp : 4 + w.q < s.env.len) (hl : s.Leads (w.hufLeaf s.env (s.src (4 + w.q))) res) :
    s.Leads (.go .hufLeaf w) res :=
  .byteUnit hs (g := .hufLeaf) rfl (by decide) rfl hp rfl rfl hl

/-! ### The walk to a symbol -/

/-- With no bit ahead the stream ends inside a payload word. -/
theorem State.Leads.noBit (hahead : w.bitsAhead s.env = []) (hbi : w.bi < 32)
    (hlen : w.out.length ≤ s.lat.dstCap.toNat) : s.Leads (.go w.nextBitPhase w) (.fail .malformed w.out.length) := by
  have hzero : w.bi = 0 := by
    by_contra hne
    rw [Work.bitsAhead, if_neg hne, wordBitsFrom_eq_cons _ hbi] at hahead
    exact absurd hahead (by simp)
  have hshort : s.env.len < w.bp + 4 := by
    by_contra hword
    rw [Work.bitsAhead, if_pos hzero, payloadBits_tail (by omega), wordBitsFrom_eq_cons _ (by decide)] at hahead
    exact absurd hahead (by simp)
  rw [Work.nextBitPhase, if_pos hzero]
  exact .hufWord_truncated hs hshort hlen

/-- NextBit (R83): the bit ahead is bit 31 - bi of the current word, after a new word is taken where one is due. -/
theorem State.Leads.nextBit {bit : Bool} {bits : List Bool} (hahead : w.bitsAhead s.env = bit :: bits) (hbi : w.bi < 32) :
    ∃ cur bp, cur.getLsbD (31 - w.bi) = bit ∧ wordBitsFrom cur (w.bi + 1) ++ payloadBits (s.env.tail bp) = bits
      ∧ ∀ res, s.Leads (.go .hufBranch { w with cur := cur, bp := bp }) res → s.Leads (.go w.nextBitPhase w) res := by
  by_cases hzero : w.bi = 0
  · rw [Work.bitsAhead, if_pos hzero] at hahead
    have hp : w.bp + 4 ≤ s.env.len := by
      by_contra hshort
      rw [payloadBits_short (by rw [Env.tail_length]; omega)] at hahead
      exact absurd hahead (by simp)
    rw [payloadBits_tail hp, wordBitsFrom_eq_cons _ (by decide), List.cons_append, List.cons.injEq] at hahead
    refine ⟨_, w.bp + 4, by rw [hzero]; exact hahead.1, by rw [hzero]; exact hahead.2, fun res hl => ?_⟩
    rw [Work.nextBitPhase, if_pos hzero]
    exact .hufWord hs hp hl
  · rw [Work.bitsAhead, if_neg hzero, wordBitsFrom_eq_cons _ hbi, List.cons_append, List.cons.injEq] at hahead
    refine ⟨w.cur, w.bp, hahead.1, hahead.2, fun res hl => ?_⟩
    rw [Work.nextBitPhase, if_neg hzero]
    exact hl

/-- The walk does what hufSymbol does with the bits ahead (R84): MALFORMED where it finds no symbol, else the leaf byte it
finds is taken next, with the bits after it ahead. -/
theorem State.Leads.walk (bits : List Bool) (hahead : w.bitsAhead s.env = bits) (hbi : w.bi < 32) (hq : w.q ≤ w.last)
    (hlast : 4 + w.last < s.env.len) (hlen : w.out.length ≤ s.lat.dstCap.toNat) :
    (hufSymbol (s.env.tail 4) w.last w.q bits = none → s.Leads (.go w.nextBitPhase w) (.fail .malformed w.out.length))
    ∧ ∀ v bits', hufSymbol (s.env.tail 4) w.last w.q bits = some (v, bits') →
      ∃ bi cur bp q, bi < 32 ∧ Work.bitsAhead s.env { w with bi := bi, cur := cur, bp := bp } = bits'
        ∧ ∀ res, s.Leads (Work.hufLeaf s.env v { w with bi := bi, cur := cur, bp := bp, q := q }) res →
          s.Leads (.go w.nextBitPhase w) res := by
  induction bits generalizing w with
  | nil => exact ⟨fun _ => .noBit hs hahead hbi hlen, fun v bits' hsome => by simp [hufSymbol] at hsome⟩
  | cons bit bits ih =>
    obtain ⟨cur, bp, hbit, hrest, hgo⟩ := State.Leads.nextBit hs hahead hbi
    have hnode : (s.env.tail 4).getD w.q 0 = s.src (4 + w.q) := Env.tail_getD (by omega)
    have hbits := (Work.bitsAhead_next s.env { w with cur := cur, bp := bp } hbi).trans hrest
    have hbranch := Work.hufBranch_byte (s.src (4 + w.q)) { w with cur := cur, bp := bp }
    simp only [hbit] at hbranch
    rw [hufSymbol_cons, hnode]
    split_ifs at hbranch ⊢ with hpast hleaf
    · -- the child is past the table
      refine ⟨fun _ => hgo _ (.hufBranch hs (by simp only; omega) ?_), fun v bits' hsome => by simp at hsome⟩
      rw [hbranch]
      exact .raise hs .malformed (w := { w with cur := _, bp := _, bi := _ }) hlen
    · -- the child is a leaf
      refine ⟨fun hnone => by simp at hnone, fun v bits' hsome => ?_⟩
      simp only [Option.some.injEq, Prod.mk.injEq] at hsome
      obtain ⟨rfl, rfl⟩ := hsome
      refine ⟨_, cur, bp, childOf w.q (s.src (4 + w.q)) bit, Nat.mod_lt _ (by decide), hbits, fun res hl => ?_⟩
      refine hgo _ (.hufBranch hs (by simp only; omega) ?_)
      rw [hbranch]
      have hbyte : (s.env.tail 4).getD (childOf w.q (s.src (4 + w.q)) bit) 0
          = s.src (4 + childOf w.q (s.src (4 + w.q)) bit) := Env.tail_getD (by omega)
      rw [hbyte] at hl
      exact .hufLeaf hs (by simp only; omega) hl
    · -- the walk goes on from the child
      obtain ⟨hnone, hsome⟩ := ih
        (w := { w with cur := cur, bp := bp, bi := (w.bi + 1) % 32, q := childOf w.q (s.src (4 + w.q)) bit }) hbits
        (Nat.mod_lt _ (by decide)) (by simp only; omega) hlast hlen
      have hstep : ∀ res, s.Leads (.go (Work.nextBitPhase { w with bi := (w.bi + 1) % 32 })
          { w with cur := cur, bp := bp, bi := (w.bi + 1) % 32, q := childOf w.q (s.src (4 + w.q)) bit }) res →
          s.Leads (.go w.nextBitPhase w) res := fun res hl =>
        hgo res (.hufBranch hs (by simp only; omega) (by rw [hbranch]; exact hl))
      refine ⟨fun h => hstep _ (hnone h), fun v bits' h => ?_⟩
      obtain ⟨bi, cur', bp', q, hbi', hbits', hl⟩ := hsome v bits' h
      exact ⟨bi, cur', bp', q, hbi', hbits', fun res hleaf => hstep res (hl res hleaf)⟩

end Units

/-! ### From symbols to bytes -/

theorem hufLeaves_succ_none {table : List Byte} {last n : Nat} {bits : List Bool}
    (h : hufSymbol table last 1 bits = none) : hufLeaves table last (n + 1) bits = ([], false) := by
  simp [hufLeaves, h]

theorem hufLeaves_succ_some {table : List Byte} {last n : Nat} {bits bits' : List Bool} {v : Byte}
    (h : hufSymbol table last 1 bits = some (v, bits')) :
    hufLeaves table last (n + 1) bits = (v :: (hufLeaves table last n bits').1, (hufLeaves table last n bits').2) := by
  simp [hufLeaves, h]

/-- The bytes that symbols make: each one is a byte, or two nibbles are, the low one first (R82). -/
def symbolBytes (e : Env) (syms : List Nat) : List Byte :=
  if e.width = 8 then syms.map (BitVec.ofNat 8) else joinNibbles syms

/-- The symbol that is decoded but not emitted: a low nibble that waits for the high one (R82). -/
def Work.pending (e : Env) (w : Work) : List Nat := if e.width = 8 ∨ w.j % 2 = 0 then [] else [w.lo]

/-- What a decoder with these symbols still to come ends with: they all came, or the stream failed after them. -/
def Work.hufResult (e : Env) (w : Work) (vs : List Byte × Bool) : CoreResult :=
  let out := w.out ++ symbolBytes e (w.pending e ++ vs.1.map (leafSymbol e))
  if vs.2 then .ok out else .fail .malformed out.length

/-- A waiting nibble alone makes no byte. -/
theorem symbolBytes_pending (e : Env) (w : Work) : symbolBytes e (w.pending e) = [] := by
  unfold symbolBytes Work.pending
  rcases e.width_cases with ⟨-, hw⟩ | ⟨-, hw⟩
  · by_cases hj : w.j % 2 = 0 <;> simp [hw, hj, joinNibbles]
  · simp [hw]

/-- The bytes HUF.LEAF emits (R85). -/
def Work.leafBytes (e : Env) (v : Byte) (w : Work) : List Byte :=
  if e.width = 8 then [BitVec.ofNat 8 (leafSymbol e v)]
  else if w.j % 2 = 0 then []
  else [BitVec.ofNat 8 (w.lo ||| (leafSymbol e v <<< 4))]

theorem Work.leafBytes_length_le (e : Env) (v : Byte) (w : Work) : (w.leafBytes e v).length ≤ 1 := by
  unfold Work.leafBytes
  split_ifs <;> simp

/-- What HUF.LEAF does to the output and the waiting nibble (R85). -/
def Work.takeLeaf (e : Env) (v : Byte) (w : Work) : Work :=
  { w with out := w.out ++ w.leafBytes e v,
           lo := if e.width ≠ 8 ∧ w.j % 2 = 0 then leafSymbol e v else w.lo }

/-- HUF.LEAF, where the output has room (R85). -/
theorem Work.hufLeaf_eq {e : Env} (v : Byte) {w : Work} (h : w.out.length < e.cap) :
    w.hufLeaf e v = (w.takeLeaf e v).afterSymbol := by
  unfold Work.hufLeaf Work.takeLeaf Work.leafBytes
  by_cases hw : e.width = 8
  · simp [hw, Work.emit_eq_go h]
  · by_cases hj : w.j % 2 = 0
    · simp [hw, hj]
    · simp [hw, hj, Work.emit_eq_go h]

/-- The bytes of the symbols to come do not depend on whether the next leaf is taken already. -/
theorem Work.symbolBytes_takeLeaf (e : Env) (v : Byte) (w : Work) (hlo : w.lo < 16) (q : Nat) (syms : List Nat) :
    w.leafBytes e v ++ symbolBytes e (Work.pending e { w.takeLeaf e v with j := w.j + 1, q := q } ++ syms)
      = symbolBytes e (w.pending e ++ leafSymbol e v :: syms) := by
  unfold Work.leafBytes symbolBytes Work.pending Work.takeLeaf
  rcases e.width_cases with ⟨-, hw⟩ | ⟨-, hw⟩
  · by_cases hj : w.j % 2 = 0
    · have hodd : (w.j + 1) % 2 ≠ 0 := by omega
      simp [hw, hj, hodd]
    · have heven : (w.j + 1) % 2 = 0 := by omega
      have hor : w.lo ||| (leafSymbol e v <<< 4) = w.lo + 16 * leafSymbol e v := by
        rw [Nat.or_comm, ← Nat.shiftLeft_add_eq_or_of_lt (i := 4) hlo, Nat.shiftLeft_eq]
        omega
      simp [hw, hj, heven, hor, joinNibbles]
  · simp [hw]

theorem Work.hufResult_cons (e : Env) (v : Byte) (w : Work) (hlo : w.lo < 16) (q : Nat) (vs : List Byte) (ok : Bool) :
    w.hufResult e (v :: vs, ok) = Work.hufResult e { w.takeLeaf e v with j := w.j + 1, q := q } (vs, ok) := by
  unfold Work.hufResult
  simp only [List.map_cons, ← Work.symbolBytes_takeLeaf e v w hlo q, ← List.append_assoc]
  rfl

@[simp] theorem Work.hufResult_done (e : Env) (w : Work) : w.hufResult e ([], true) = .ok w.out := by
  simp [Work.hufResult, symbolBytes_pending]

@[simp] theorem Work.hufResult_failed (e : Env) (w : Work) :
    w.hufResult e ([], false) = .fail .malformed w.out.length := by
  simp [Work.hufResult, symbolBytes_pending]

/-- A walk has room for its byte (R108 (b)). -/
theorem Work.walks.room {e : Env} {w : Work} (h : w.walks e) : w.out.length < e.cap := by
  obtain ⟨-, hcap, -, -, -, -, -, hneed, hj, hout⟩ := h
  rcases e.width_cases with ⟨-, hw⟩ | ⟨-, hw⟩ <;> rw [hw] at hneed hout <;> omega

/-- A leaf that is not the last keeps what the invariant says of a walk. -/
theorem Work.walks.takeLeaf {e : Env} {w : Work} (h : w.walks e) (v : Byte) (hmore : w.j + 1 ≠ w.need) :
    Work.walks e { w.takeLeaf e v with j := w.j + 1, q := 1 } := by
  obtain ⟨htag, hcap, hlast, hlen, hq1, hq, hbi, hneed, hj, hout⟩ := h
  refine ⟨htag, hcap, hlast, hlen, le_rfl, hq1.trans hq, hbi, hneed, by simp only [Work.takeLeaf] at *; omega, ?_⟩
  simp only [Work.takeLeaf, List.length_append, hout, Work.leafBytes]
  rcases e.width_cases with ⟨-, hw⟩ | ⟨-, hw⟩
  · by_cases heven : w.j % 2 = 0 <;> simp [hw, heven] <;> omega
  · simp [hw]

/-- The waiting nibble is a nibble. -/
theorem Work.takeLeaf_lo_lt (e : Env) (v : Byte) {w : Work} (h : w.lo < 16) : (w.takeLeaf e v).lo < 16 := by
  unfold Work.takeLeaf
  rcases e.width_cases with ⟨-, hw⟩ | ⟨-, hw⟩
  · by_cases heven : w.j % 2 = 0 <;> simp [hw, heven, leafSymbol, h]
    omega
  · simp [hw, h]

/-- What the invariant says of a walk does not name the bit cursor, but for its range. -/
theorem Work.walks.moveCursor {e : Env} {w : Work} (h : w.walks e) {bi : Nat} (hbi : bi < 32) (cur : Word) (bp : Nat) :
    Work.walks e { w with bi := bi, cur := cur, bp := bp } := by
  obtain ⟨htag, hcap, hlast, hlen, hq1, hq, -, hneed, hj, hout⟩ := h
  exact ⟨htag, hcap, hlast, hlen, hq1, hq, hbi, hneed, hj, hout⟩

/-- Run symbol by symbol, the engine does what hufLeaves does with the bits ahead. -/
theorem leads_hufLeaves {s : State} (hs : s.LeftAlone) (n : Nat) (w : Work) (hw : w.walks s.env) (hq : w.q = 1)
    (hlo : w.lo < 16) (hn : w.j + n = w.need) :
    s.Leads (.go w.nextBitPhase w) (w.hufResult s.env (hufLeaves (s.env.tail 4) w.last n (w.bitsAhead s.env))) := by
  induction n generalizing w with
  | zero =>
    obtain ⟨-, -, -, -, -, -, -, -, hj, -⟩ := hw
    omega
  | succ n ih =>
    have hroom := hw.room
    obtain ⟨-, -, -, hlast, -, hqlast, hbi, -, -, -⟩ := id hw
    obtain ⟨hnone, hsome⟩ := State.Leads.walk hs _ rfl hbi hqlast hlast hroom.le
    rw [hq] at hnone hsome
    cases hsym : hufSymbol (s.env.tail 4) w.last 1 (w.bitsAhead s.env) with
    | none =>
      rw [hufLeaves_succ_none hsym, Work.hufResult_failed]
      exact hnone hsym
    | some found =>
      obtain ⟨v, bits⟩ := found
      obtain ⟨bi, cur, bp, q, hbi', rfl, hleaf⟩ := hsome v bits hsym
      rw [hufLeaves_succ_some hsym]
      refine hleaf _ ?_
      rw [Work.hufLeaf_eq v (by exact hroom), Work.hufResult_cons s.env v w hlo 1]
      rcases Work.afterSymbol_cases (Work.takeLeaf s.env v { w with bi := bi, cur := cur, bp := bp, q := q }) with
        ⟨hdone, ha⟩ | ⟨hmore, ha⟩ <;> rw [ha]
      · have hn0 : n = 0 := by simp only [Work.takeLeaf] at hdone; omega
        rw [hn0, hufLeaves, Work.hufResult_done]
        refine .ok hs
          (w := { Work.takeLeaf s.env v { w with bi := bi, cur := cur, bp := bp, q := q } with j := _, q := 1 }) ?_
        have hone := Work.leafBytes_length_le s.env v w
        simp only [Work.takeLeaf, List.length_append]
        exact (Nat.add_le_add_left hone _).trans hroom
      · exact ih _ ((hw.moveCursor hbi' cur bp).takeLeaf v hmore) rfl (Work.takeLeaf_lo_lt s.env v hlo)
          (by simp only [Work.takeLeaf]; omega)

/-! ### The size byte and the whole block -/

/-- The work at the first bit of the first symbol (R82). -/
def Work.walkStart (e : Env) (b : Byte) (w : Work) : Work :=
  { w with tableSize := b.toNat, last := 2 * b.toNat + 1, bp := 6 + 2 * b.toNat, bi := 0, need := w.size * 8 / e.width,
           j := 0, q := 1 }

theorem Work.hufSize_short {e : Env} {b : Byte} {w : Work} (h : e.len ≤ 4 + (2 * b.toNat + 1)) :
    w.hufSize e b = .raise .malformed { w with tableSize := b.toNat, last := 2 * b.toNat + 1 } := by
  simp [Work.hufSize, h]

theorem Work.hufSize_eq {e : Env} {b : Byte} {w : Work} (h : 4 + (2 * b.toNat + 1) < e.len)
    (hneed : w.size * 8 / e.width ≠ 0) : w.hufSize e b = .go (w.walkStart e b).nextBitPhase (w.walkStart e b) := by
  rw [Work.hufSize, if_neg (Nat.not_le.mpr h), if_neg hneed]
  rfl

/-- A non-empty block needs a symbol. -/
theorem symbolsNeeded_pos (e : Env) {size : Nat} (h : 0 < size) : 0 < size * 8 / e.width := by
  rcases e.width_cases with ⟨-, hw⟩ | ⟨-, hw⟩ <;> rw [hw] <;> omega

/-- The first walk's state meets the invariant. -/
theorem Work.walks_walkStart {e : Env} {b : Byte} {w : Work} (htag : e.tag = Config.tagHuf4 ∨ e.tag = Config.tagHuf8)
    (h : 4 + (2 * b.toNat + 1) < e.len) (hpos : 0 < w.size) (hcap : w.size ≤ e.cap) (hout : w.out = []) :
    (w.walkStart e b).walks e :=
  ⟨htag, hcap, rfl, h, le_rfl, by simp [Work.walkStart], by simp [Work.walkStart], rfl, symbolsNeeded_pos e hpos,
    by simp [Work.walkStart, hout]⟩

/-- HUF_DEC past its header (R82): the table's extent, then what the symbols' bits make. -/
theorem hufDecode_of_head {e : Env} {cap : Nat} {w : Work} {inp table : List Byte}
    (h : headOf e.tag 5 cap inp = .ok (w.size, table)) (hout : w.out = []) :
    hufDecode e.bias e.tag e.width cap inp =
      if 4 + (2 * (table.headD 0).toNat + 1) ≥ inp.length then .fail .malformed 0
      else
        Work.hufResult e (w.walkStart e (table.headD 0))
          (hufLeaves table (2 * (table.headD 0).toNat + 1) (w.size * 8 / e.width)
            (payloadBits (table.drop (2 + 2 * (table.headD 0).toNat)))) := by
  have hpending : (w.walkStart e (table.headD 0)).pending e = [] := if_pos (.inr rfl)
  have hnone : (w.walkStart e (table.headD 0)).out = [] := hout
  simp only [hufDecode, h, Work.hufResult, hpending, hnone, List.nil_append, symbolBytes]
  rfl

/-- From the size byte on, the engine does what hufDecode does past the header. -/
theorem leads_hufDecode {s : State} (hs : s.LeftAlone) (htag : s.lat.tag = Config.tagHuf4 ∨ s.lat.tag = Config.tagHuf8)
    {w : Work} (hlen : 5 ≤ s.env.len) (hpos : 0 < w.size) (hcap : w.size ≤ s.env.cap) (hout : w.out = [])
    (hlo : w.lo < 16)
    (hhead : headOf s.lat.tag 5 s.lat.dstCap.toNat s.inBytes = .ok (w.size, s.env.tail 4)) :
    s.Leads (.go .hufSize w)
      (hufDecode s.cfg.leafBias.toByte s.lat.tag s.env.width s.lat.dstCap.toNat s.inBytes) := by
  have hsize : (s.env.tail 4).headD 0 = s.src 4 := by rw [Env.tail_eq_cons hlen]; rfl
  have hcore := hufDecode_of_head (e := s.env) hhead hout
  rw [hsize, State.inBytes_length, Env.drop_tail] at hcore
  refine .hufSize hs hlen (Eq.subst (motive := s.Leads _) hcore.symm ?_)
  split_ifs with hshort
  · rw [Work.hufSize_short hshort]
    have hl := State.Leads.raise hs .malformed
      (w := { w with tableSize := (s.src 4).toNat, last := 2 * (s.src 4).toNat + 1 }) (by simp [hout])
    simpa [hout] using hl
  · have hwalks := Work.walks_walkStart (b := s.src 4) htag (by rw [State.env_len]; omega) hpos hcap hout
    rw [Work.hufSize_eq (by rw [State.env_len]; omega) (symbolsNeeded_pos s.env hpos).ne']
    have hl := leads_hufLeaves hs (w.size * 8 / s.env.width) _ hwalks rfl hlo (Nat.zero_add _)
    have hbits : (w.walkStart s.env (s.src 4)).bitsAhead s.env
        = payloadBits (s.env.tail (4 + (2 + 2 * (s.src 4).toNat))) := by
      simp [Work.bitsAhead, Work.walkStart, ← Nat.add_assoc]
    rwa [hbits] at hl

/-- A started Huffman decoder of either width. -/
theorem eventuallyCompletes_hufDecode {s : State} {tag : Byte} (h : decodeStarted s tag)
    (htag : tag = Config.tagHuf4 ∨ tag = Config.tagHuf8) :
    EventuallyCompletes s
      (hufDecode s.cfg.leafBias.toByte tag s.env.width s.lat.dstCap.toNat s.inBytes) := by
  have hlat : s.lat.tag = tag := by obtain ⟨-, -, -, -, -, -, hlat, -⟩ := h; exact hlat
  have hmin : headerMinLen tag = 5 := if_pos htag
  have hnext : headerNext tag = .hufSize := by rcases htag with rfl | rfl <;> rfl
  refine .of_decoder h (by rcases htag with rfl | rfl <;> decide) (fun c hhead => ?_) fun size hhead hlen hpos hcap => ?_
  · rw [hmin] at hhead
    simp only [hufDecode, hhead]
  · rw [hmin] at hhead hlen
    rw [hnext]
    subst hlat
    exact leads_hufDecode (.of_decodeStarted h) htag (w := { Work.zero with size := size, p := 4 }) hlen hpos hcap rfl
      (Nat.succ_pos 15) hhead

/-- Settles O47: past EntryCheck, the header and the size byte, bit by bit. -/
theorem hufDecodeComputesItsCore : Obligations.HufDecodeComputesItsCore := by
  intro s
  refine ⟨fun h => ?_, fun h => ?_⟩
  all_goals
    obtain ⟨-, -, -, -, -, -, hlat, -⟩ := id h
    have hcore := eventuallyCompletes_hufDecode h (by decide)
    rwa [Env.width, State.env_tag, hlat] at hcore

end Sys2Proof.Machine
end

section
/-! SUPPORT. What every instruction does to the output and to memory (spec/00_scope.md R12, spec/20_memory.md R34): the
output stays within DST_CAP, and memory is written at completion only, inside the DST region. -/

namespace Sys2Proof.Machine

/-! ### The output within the capacity -/

/-- The output after a part of a unit's meaning. -/
def Flow.out : Flow → List Byte
  | .go w => w.out
  | .raise _ w => w.out

section Fits
variable {e : Env} {w : Work}

theorem Flow.andThen_fits {f : Flow} {k : Work → Flow} (hf : f.out.length ≤ e.cap)
    (hk : ∀ w : Work, w.out.length ≤ e.cap → (k w).out.length ≤ e.cap) : (f.andThen k).out.length ≤ e.cap := by
  cases f with
  | go w => exact hk w hf
  | raise c w => exact hf

theorem Flow.finish_fits {f : Flow} {k : Work → Item} (hf : f.out.length ≤ e.cap)
    (hk : ∀ w : Work, w.out.length ≤ e.cap → (k w).out.length ≤ e.cap) : (f.finish k).out.length ≤ e.cap := by
  cases f with
  | go w => exact hk w hf
  | raise c w => exact hf

theorem Work.emit_fits (v : Byte) (h : w.out.length ≤ e.cap) : (w.emit e v).out.length ≤ e.cap := by
  rcases Work.emit_cases e v w with ⟨hroom, he⟩ | ⟨-, he⟩ <;> rw [he]
  · simpa [Flow.out] using hroom
  · exact h

theorem Work.emitAll_fits (bs : List Byte) : (w.emitAll e bs).out.length ≤ e.cap := by
  unfold Work.emitAll
  split_ifs with h
  · exact h
  · simp [Item.out]

theorem Work.emitRun_fits (b : Byte) (n : Nat) (h : w.out.length ≤ e.cap) :
    (Work.emitRun e b n w).out.length ≤ e.cap := by
  induction n generalizing w with
  | zero => exact h
  | succ n ih =>
    rw [Work.emitRun]
    split_ifs
    · exact h
    · exact Flow.andThen_fits (Work.emit_fits b h) fun w hw => ih hw

theorem Work.emitLiteral_fits (n : Nat) (h : w.out.length ≤ e.cap) : (Work.emitLiteral e n w).out.length ≤ e.cap := by
  induction n generalizing w with
  | zero => exact h
  | succ n ih =>
    rw [Work.emitLiteral]
    split_ifs
    · exact h
    · exact h
    · exact Flow.andThen_fits (Work.emit_fits _ h) fun w hw => ih hw

theorem Work.emitCopy_fits (dist n : Nat) (h : w.out.length ≤ e.cap) :
    (Work.emitCopy e dist n w).out.length ≤ e.cap := by
  induction n generalizing w with
  | zero => exact h
  | succ n ih =>
    rw [Work.emitCopy]
    split_ifs
    · exact h
    · exact Flow.andThen_fits (Work.emit_fits _ h) fun w hw => ih hw

end Fits

section Out
variable (w : Work)

@[simp] theorem Work.afterRecord_out : w.afterRecord.out = w.out := by
  rcases w.afterRecord_cases with ⟨-, ha⟩ | ⟨-, ha⟩ <;> rw [ha] <;> rfl

@[simp] theorem Work.afterItem_out : w.afterItem.out = w.out := by
  rcases w.afterItem_cases with ⟨-, ha⟩ | ⟨-, -, ha⟩ | ⟨-, -, ha⟩ <;> rw [ha] <;> rfl

@[simp] theorem Work.afterSymbol_out : w.afterSymbol.out = w.out := by
  rcases w.afterSymbol_cases with ⟨-, ha⟩ | ⟨-, ha⟩ <;> rw [ha] <;> rfl

/-- The header emits nothing. -/
@[simp] theorem Work.header_out (e : Env) (tag : Byte) (minLen size : Nat) (next : Phase) :
    (w.header e tag minLen size next).out = w.out := by
  rcases Work.header_cases e tag minLen size next w with
    ⟨-, ha⟩ | ⟨-, -, ha⟩ | ⟨-, -, -, ha⟩ | ⟨-, -, -, -, ha⟩ | ⟨-, -, -, -, ha⟩ <;> rw [ha] <;> rfl

/-- The size byte emits nothing. -/
@[simp] theorem Work.hufSize_out (e : Env) (b : Byte) : (w.hufSize e b).out = w.out := by
  unfold Work.hufSize
  dsimp only
  split_ifs <;> rfl

/-- A branch emits nothing. -/
@[simp] theorem Work.hufBranch_out (off : Nat) (ll rl : Bool) : (w.hufBranch off ll rl).out = w.out := by
  rcases Work.hufBranch_cases off ll rl w with ⟨-, ha⟩ | ⟨-, -, ha⟩ | ⟨-, -, ha⟩ <;> rw [ha] <;> rfl

end Out

section Units
variable {e : Env} {w : Work} (h : w.out.length ≤ e.cap)
include h

theorem Work.rleRun_fits (len : Nat) : (w.rleRun e len).out.length ≤ e.cap := by
  unfold Work.rleRun
  dsimp only
  split_ifs
  · exact h
  · exact Flow.finish_fits (Work.emitRun_fits _ _ h) fun w hw => by rwa [Work.afterRecord_out]

theorem Work.rleLit_fits (len : Nat) : (w.rleLit e len).out.length ≤ e.cap :=
  Flow.finish_fits (Work.emitLiteral_fits _ h) fun w hw => by rwa [Work.afterRecord_out]

theorem Work.lzLit_fits (b : Byte) : (w.lzLit e b).out.length ≤ e.cap :=
  Flow.finish_fits (Work.emit_fits b h) fun w hw => by rwa [Work.afterItem_out]

theorem Work.lzRef_fits (len dist : Nat) : (w.lzRef e len dist).out.length ≤ e.cap := by
  unfold Work.lzRef
  dsimp only
  split_ifs
  · exact h
  · exact Flow.finish_fits (Work.emitCopy_fits _ _ h) fun w hw => by rwa [Work.afterItem_out]

theorem Work.hufLeaf_fits (v : Byte) : (w.hufLeaf e v).out.length ≤ e.cap := by
  have hsymbol : ∀ w : Work, w.out.length ≤ e.cap → w.afterSymbol.out.length ≤ e.cap := fun w hw => by
    rwa [Work.afterSymbol_out]
  unfold Work.hufLeaf
  dsimp only
  split_ifs
  · exact Flow.finish_fits (Work.emit_fits _ h) hsymbol
  · exact hsymbol _ h
  · exact Flow.finish_fits (Work.emit_fits _ h) hsymbol

end Units

/-! ### Every instruction is one answer -/

/-- What every instruction does: its answer is taken, with nothing changed before it but an encoder's scratch, and the
answer's output is within DST_CAP if the output before it is. -/
structure AnswersWith (s : State) (o : Host.Outcome State Fault Refusal) (rle : RleScratch) (huf : HufScratch)
    (lz : LzScratch) (it : Item) : Prop where
  takes : o = .next (State.take { s with rle := rle, huf := huf, lz := lz } it)
  fits : s.work.out.length ≤ s.lat.dstCap.toNat → it.out.length ≤ s.lat.dstCap.toNat

/-- A command answers what its body answers, or fails EntryCheck with nothing emitted. -/
theorem runCommand_answers {s : State} {body : State → State} {rle : RleScratch} {huf : HufScratch} {lz : LzScratch}
    {it : Item}
    (hbody : body { s with work := Work.zero } = State.take { s with rle := rle, huf := huf, lz := lz } it)
    (hfits : it.out.length ≤ s.lat.dstCap.toNat) :
    ∃ rle huf lz it, AnswersWith s (.next (runCommand s body)) rle huf lz it := by
  by_cases hentry : EntryFails s.lat
  · exact ⟨s.rle, s.huf, s.lz, .raise .invalidInput Work.zero, by rw [runCommand_fails hentry]; rfl,
      fun _ => Nat.zero_le _⟩
  · exact ⟨rle, huf, lz, it, by rw [runCommand_ok hentry, hbody], fun _ => hfits⟩

/-- A decode command goes on to the header. -/
theorem decodeCommand_answers (s : State) :
    ∃ rle huf lz it, AnswersWith s (.next (runCommand s fun s => s.take (.go .header s.work))) rle huf lz it :=
  runCommand_answers (rle := s.rle) (huf := s.huf) (lz := s.lz) (it := .go .header Work.zero) rfl (Nat.zero_le _)

/-- A Huffman encode emits its block or raises before the first Emit. -/
theorem runHufEnc_answers (tag : Byte) (w : Nat) (s : State) :
    ∃ rle huf lz it, AnswersWith s (.next (runHufEnc tag w s)) rle huf lz it := by
  refine runCommand_answers (rle := s.rle) (lz := s.lz) rfl ?_
  split
  · exact Work.emitAll_fits (e := s.env) _
  · exact Nat.zero_le _

/-- Every instruction is one answer, an arm at a time. -/
theorem exec_answers (i : Instr) (s : State) : ∃ rle huf lz it, AnswersWith s (exec i s) rle huf lz it := by
  cases i with
  | rleEnc => exact runCommand_answers (huf := s.huf) (lz := s.lz) rfl (Work.emitAll_fits (e := s.env) _)
  | lzEnc => exact runCommand_answers (rle := s.rle) (huf := s.huf) rfl (Work.emitAll_fits (e := s.env) _)
  | huf4Enc => exact runHufEnc_answers Config.tagHuf4 4 s
  | huf8Enc => exact runHufEnc_answers Config.tagHuf8 8 s
  | rleDec => exact decodeCommand_answers s
  | lzDec => exact decodeCommand_answers s
  | huf4Dec => exact decodeCommand_answers s
  | huf8Dec => exact decodeCommand_answers s
  | hdrLz77 size => exact ⟨s.rle, s.huf, s.lz, _, rfl, fun h => by rwa [Work.header_out]⟩
  | hdrHuffman4 size => exact ⟨s.rle, s.huf, s.lz, _, rfl, fun h => by rwa [Work.header_out]⟩
  | hdrHuffman8 size => exact ⟨s.rle, s.huf, s.lz, _, rfl, fun h => by rwa [Work.header_out]⟩
  | hdrRle size => exact ⟨s.rle, s.huf, s.lz, _, rfl, fun h => by rwa [Work.header_out]⟩
  | rleRun len => exact ⟨s.rle, s.huf, s.lz, _, rfl, fun h => Work.rleRun_fits (e := s.env) h len⟩
  | rleLit len => exact ⟨s.rle, s.huf, s.lz, _, rfl, fun h => Work.rleLit_fits (e := s.env) h len⟩
  | lzFlags f => exact ⟨s.rle, s.huf, s.lz, _, rfl, fun h => by rwa [Work.lzFlags, Work.afterItem_out]⟩
  | lzLit b => exact ⟨s.rle, s.huf, s.lz, _, rfl, fun h => Work.lzLit_fits (e := s.env) h b⟩
  | lzRef len dist => exact ⟨s.rle, s.huf, s.lz, _, rfl, fun h => Work.lzRef_fits (e := s.env) h len dist⟩
  | hufSize b => exact ⟨s.rle, s.huf, s.lz, _, rfl, fun h => by rwa [Work.hufSize_out]⟩
  | hufBranch off ll rl => exact ⟨s.rle, s.huf, s.lz, _, rfl, fun h => by rwa [Work.hufBranch_out]⟩
  | hufLeaf v => exact ⟨s.rle, s.huf, s.lz, _, rfl, fun h => Work.hufLeaf_fits (e := s.env) h v⟩
  | hufWord c => exact ⟨s.rle, s.huf, s.lz, _, rfl, fun h => h⟩

/-! ### What an answer leaves -/

section Take
variable (s : State) (it : Item)

theorem State.take_out : (s.take it).work.out = it.out := by
  rcases s.take_cases it with ⟨ph, w, rfl, ha⟩ | ⟨w, hout, hdone⟩
  · rfl
  · rw [hdone.work, hout]

theorem State.take_lat : (s.take it).lat = s.lat := by
  rcases s.take_cases it with ⟨ph, w, rfl, ha⟩ | ⟨w, -, hdone⟩
  · rfl
  · exact hdone.lat

/-- While the command goes on no memory is written. -/
theorem State.take_mem_of_busy (h : (s.take it).busy = true) : (s.take it).mem = s.mem := by
  rcases s.take_cases it with ⟨ph, w, rfl, ha⟩ | ⟨w, -, hdone⟩
  · rfl
  · exact absurd h (by simp [hdone.busy])

variable {s it}

theorem completeDisturbed_read_outside {a : Addr} (hwf : s.mem.wf = true) (ha : s.inDst a = false) :
    (completeDisturbed s).mem.read a = s.mem.read a :=
  read_freeDst_outside (s := { s with free := s.free + 1 }) hwf ha

theorem completeOk_read_outside {a : Addr} (hwf : s.mem.wf = true) (hlen : s.work.out.length ≤ s.lat.dstCap.toNat)
    (hroom : s.lat.dstAddr.toNat + s.lat.dstCap.toNat ≤ 2 ^ 32) (ha : s.inDst a = false) :
    (completeOk s).mem.read a = s.mem.read a := by
  cases hd : s.disturbed with
  | true => rw [completeOk_disturbed hd, completeDisturbed_read_outside hwf ha]
  | false =>
    rw [completeOk_specified hd]
    exact read_writeBytes_outside_dst hwf hroom hlen ha

theorem completeFail_read_outside {a : Addr} (c : Code) (hwf : s.mem.wf = true)
    (hlen : s.work.out.length ≤ s.lat.dstCap.toNat) (hroom : s.lat.dstAddr.toNat + s.lat.dstCap.toNat ≤ 2 ^ 32)
    (ha : s.inDst a = false) : (completeFail c s).mem.read a = s.mem.read a := by
  cases hd : s.disturbed with
  | true => rw [completeFail_disturbed hd, completeDisturbed_read_outside hwf ha]
  | false =>
    rw [completeFail_specified hd]
    exact read_writeBytes_outside_dst hwf hroom (by rwa [freeBytes_length]) ha

/-- An answer whose output is within a DST range that does not wrap changes no byte outside the DST region (R34). -/
theorem State.take_read_outside {a : Addr} (hwf : s.mem.wf = true) (hlen : it.out.length ≤ s.lat.dstCap.toNat)
    (hroom : s.lat.dstAddr.toNat + s.lat.dstCap.toNat ≤ 2 ^ 32) (ha : s.inDst a = false) :
    (s.take it).mem.read a = s.mem.read a := by
  cases it with
  | go ph w => rfl
  | ok w => exact completeOk_read_outside (s := { s with work := w }) hwf hlen hroom ha
  | raise c w => exact completeFail_read_outside (s := { s with work := w }) c hwf hlen hroom ha

end Take

/-- Settles O41: an instruction is one answer, and each answer's output fits. -/
theorem outputFitsTheCapacity : Obligations.OutputFitsTheCapacity := by
  intro i s t hexec hlen
  obtain ⟨rle, huf, lz, it, htakes, hfits⟩ := exec_answers i s
  obtain rfl := Host.Outcome.next.inj (hexec.symm.trans htakes)
  rw [State.take_out, State.take_lat]
  exact hfits hlen

/-- Settles O40: an instruction is one answer, and only a completion writes, from DST_ADDR on and no further than DST_CAP. -/
theorem engineWritesOnlyTheDstRegion : Obligations.EngineWritesOnlyTheDstRegion := by
  intro i s t hexec hwf hlen hroom
  obtain ⟨rle, huf, lz, it, htakes, hfits⟩ := exec_answers i s
  obtain rfl := Host.Outcome.next.inj (hexec.symm.trans htakes)
  exact ⟨fun a ha => State.take_read_outside (s := { s with rle := rle, huf := huf, lz := lz }) hwf (hfits hlen) hroom ha,
    fun _ hbusy => State.take_mem_of_busy _ _ hbusy⟩

end Sys2Proof.Machine
end

section
/-! SUPPORT. The machine's invariant (spec/10_state.md R18, R20 to R23, spec/70_reset_and_hazards.md R127): it holds at reset,
and every access of the host, every unit's answer and every completion keeps it. -/

namespace Sys2Proof.Machine

/-! ### The host's accesses -/

section Host
variable {s : State} (h : s.Inv)
include h

/-- Where the engine is not idle a command runs. -/
theorem State.Inv.busy_of_phase (hph : s.phase ≠ .idle) : s.busy = true := h.busyPhase.mpr hph

/-- The invariant names neither the coming events, nor what the host's last read returned, nor the free values drawn. -/
theorem State.Inv.setUnnamed (input : List Event) (rdata : Word) (free : Nat) :
    State.Inv { s with input := input, rdata := rdata, free := free } :=
  ⟨h.memWf, h.notBoth, h.busyPhase, h.busyClear, h.failZero, h.latched, h.entered, h.quiet, h.placed⟩

/-- While no command runs the host's registers are free (R19, R22). -/
theorem State.Inv.setRegisters (hb : s.busy = false) (tag : Byte) (dir : Bool) (src : Addr) (srcLen : Word) (dst : Addr)
    (dstCap : Word) :
    State.Inv { s with cmdTag := tag, cmdDir := dir, srcAddr := src, srcLen := srcLen, dstAddr := dst, dstCap := dstCap } :=
  ⟨h.memWf, h.notBoth, h.busyPhase, h.busyClear, h.failZero, fun hb' => absurd (hb.symm.trans hb') Bool.false_ne_true,
    h.entered, h.quiet, h.placed⟩

/-- START (R22). -/
theorem State.Inv.startCommand (dir : Bool) (tag : Byte) : (startCommand dir tag s).Inv where
  memWf := h.memWf
  notBoth := by simp
  busyPhase := by simp
  busyClear := by simp
  failZero := by simp
  latched := by simp
  entered := by simp
  quiet := by simp
  placed := by simp [Work.placed, Work.zero]

theorem State.Inv.writeReg (r : Reg) (v : Word) : (s.writeReg r v).Inv := by
  rcases s.writeReg_cases r v with he | ⟨-, -, -, he⟩ | ⟨hb, -, -, he⟩ | ⟨hb, he | he | he | he⟩ <;> rw [he]
  · exact h
  · exact h.startCommand _ _
  all_goals exact h.setRegisters hb ..

theorem State.Inv.hostMemRead (a : Addr) : (hostMemRead a s).Inv := by
  unfold Machine.hostMemRead
  split_ifs <;> exact h.setUnnamed ..

theorem State.Inv.hostMemWrite (a : Addr) (b : Byte) : (hostMemWrite a b s).Inv where
  memWf := Memory.wf_write h.memWf
  notBoth := h.notBoth
  busyPhase := h.busyPhase
  busyClear := h.busyClear
  failZero := h.failZero
  latched := h.latched
  entered := h.entered
  quiet hb := by
    have hb' : s.busy = false := hb
    simp [Machine.hostMemWrite, hb', h.quiet hb']
  placed := h.placed

theorem State.Inv.hostBusError : (hostBusError s).Inv where
  memWf := h.memWf
  notBoth := h.notBoth
  busyPhase := h.busyPhase
  busyClear := h.busyClear
  failZero := h.failZero
  latched := h.latched
  entered := h.entered
  quiet hb := by
    have hb' : s.busy = false := hb
    simp [Machine.hostBusError, hb', h.quiet hb']
  placed := h.placed

end Host

/-- The registers' reset values meet the invariant over any canonical memory (R32, R121). -/
theorem State.Inv.resetWith (cfg : Config.Params) {mem : Memory} (hmem : mem.wf = true) :
    (State.resetWith cfg mem).Inv := by
  constructor <;> simp [State.resetWith, hmem, Work.placed]

theorem State.Inv.resetHardware {s : State} (h : s.Inv) : (resetHardware s).Inv := by
  have hmem : (if s.busy then freeDst s else s).mem.wf = true := by
    split_ifs
    · exact freeDst_wf h.memWf
    · exact h.memWf
  have hreset := State.Inv.resetWith (if s.busy then freeDst s else s).cfg hmem
  exact ⟨hmem, hreset.notBoth, hreset.busyPhase, hreset.busyClear, hreset.failZero, hreset.latched, hreset.entered,
    hreset.quiet, trivial⟩

/-- Every access of the host keeps the invariant. -/
theorem State.Inv.hostAccess {s t : State} (h : s.Inv) {op : HostOp} (ht : hostAccess op s = .next t) : t.Inv := by
  cases op with
  | regRead width a =>
    simp only [Machine.hostAccess] at ht
    split at ht <;> cases ht
    exact h.setUnnamed ..
  | regWrite width a v =>
    simp only [Machine.hostAccess] at ht
    split at ht <;> cases ht
    exact h.writeReg ..
  | memRead a =>
    simp only [Machine.hostAccess] at ht
    split at ht <;> cases ht
    exact h.hostMemRead a
  | memWrite a b =>
    simp only [Machine.hostAccess] at ht
    split at ht <;> cases ht
    exact h.hostMemWrite a b
  | reset => cases ht; exact h.resetHardware
  | busError => cases ht; exact h.hostBusError

/-- Settles O42: nothing is listed in memory, and the reset values do the rest. -/
theorem invariantAtReset : Obligations.InvariantAtReset := fun cfg => .resetWith cfg rfl

end Sys2Proof.Machine
end

section
/-! SUPPORT. The decoder's place (spec/30_encoding.md R58): every unit, taken at its place, answers with the next one at its
place or ends the command; with that, a turn's answer keeps the invariant. -/

namespace Sys2Proof.Machine

/-- The invariant's demand on a unit's answer: an answer that goes on leaves the decoder at its place (R58). -/
def Item.Placed (e : Env) : Item → Prop
  | .go ph w => ph ≠ .idle ∧ w.placed e ph
  | .ok _ => True
  | .raise _ _ => True

section Units
variable {e : Env} {w : Work}

theorem Work.afterRecord_placed (htag : e.tag = Config.tagRle) (hp : 4 ≤ w.p) (hcap : w.size ≤ e.cap) :
    w.afterRecord.Placed e := by
  rcases w.afterRecord_cases with ⟨hmore, ha⟩ | ⟨-, ha⟩ <;> rw [ha]
  · exact ⟨by decide, htag, hp, hmore, hcap⟩
  · trivial

theorem Work.rleRun_placed (h : w.placed e .rleRecord) (len : Nat) : (w.rleRun e len).Placed e := by
  obtain ⟨htag, hp, hout, hcap⟩ := h
  by_cases hend : e.len ≤ w.p + 1
  · rw [Work.rleRun_short hend]
    trivial
  · rw [Work.rleRun_eq (by omega) hout.le hcap]
    exact Work.afterRecord_placed htag (by simp only; omega) hcap

theorem Work.rleLit_placed (h : w.placed e .rleRecord) (len : Nat) : (w.rleLit e len).Placed e := by
  obtain ⟨htag, hp, hout, hcap⟩ := h
  by_cases hend : e.len - (w.p + 1) < min len (w.size - w.out.length)
  · rw [Work.rleLit_short hout.le hcap hend]
    trivial
  · rw [Work.rleLit_eq hout.le hcap (by omega)]
    exact Work.afterRecord_placed htag (by simp only; omega) hcap

theorem Work.afterItem_placed (htag : e.tag = Config.tagLz) (hp : 4 < w.p) (hcap : w.size ≤ e.cap)
    (hflags : w.flagsLeft ≤ 8) : w.afterItem.Placed e := by
  rcases w.afterItem_cases with ⟨-, ha⟩ | ⟨hmore, -, ha⟩ | ⟨hmore, hleft, ha⟩ <;> rw [ha]
  · trivial
  · exact ⟨by decide, htag, hp.le, hmore, hcap⟩
  · exact ⟨by decide, htag, hp, hmore, hcap, by omega, hflags⟩

theorem Work.lzFlags_placed (h : w.placed e .lzFlags) (f : Byte) : (w.lzFlags f).Placed e := by
  obtain ⟨htag, hp, -, hcap⟩ := h
  exact Work.afterItem_placed htag (Nat.lt_succ_of_le hp) hcap le_rfl

theorem Work.lzLit_placed (h : w.placed e .lzItem) (b : Byte) : (w.lzLit e b).Placed e := by
  obtain ⟨htag, hp, hout, hcap, -, hflags⟩ := h
  rw [Work.lzLit_eq b (by omega)]
  exact Work.afterItem_placed htag (by simp only; omega) hcap (by simp only; omega)

theorem Work.lzRef_placed (h : w.placed e .lzItem) (len dist : Nat) : (w.lzRef e len dist).Placed e := by
  obtain ⟨htag, hp, hout, hcap, -, hflags⟩ := h
  by_cases hfar : w.out.length < dist
  · rw [Work.lzRef_far hfar]
    trivial
  · rw [Work.lzRef_eq (by omega) hout.le hcap]
    exact Work.afterItem_placed htag (by simp only; omega) hcap (by simp only; omega)

/-- A walk goes on with a payload word or a branch. -/
theorem Work.walks.placed (h : w.walks e) : (Item.go w.nextBitPhase w).Placed e := by
  unfold Work.nextBitPhase
  split_ifs with hbi
  · exact ⟨by decide, h, hbi⟩
  · exact ⟨by decide, h⟩

theorem Work.hufSize_placed (h : w.placed e .hufSize) (b : Byte) : (w.hufSize e b).Placed e := by
  obtain ⟨htag, -, hout, hpos, hcap⟩ := h
  by_cases hend : e.len ≤ 4 + (2 * b.toNat + 1)
  · rw [Work.hufSize_short hend]
    trivial
  · rw [Work.hufSize_eq (by omega) (symbolsNeeded_pos e hpos).ne']
    exact (Work.walks_walkStart htag (by omega) hpos hcap hout).placed

theorem Work.hufWord_placed (h : w.placed e .hufWord) (c : Word) : (w.hufWord c).Placed e := by
  obtain ⟨hwalks, hbi⟩ := h
  exact ⟨by decide, hwalks.moveCursor (hbi ▸ Nat.succ_pos 31) c (w.bp + 4)⟩

/-- A walk's position moves up inside the table. -/
theorem Work.walks.moveTo (h : w.walks e) {q : Nat} (hq : w.q ≤ q) (hlast : q ≤ w.last) :
    Work.walks e { w with q := q } := by
  obtain ⟨htag, hcap, hlast', hlen, hq1, -, hbi, hneed, hj, hout⟩ := h
  exact ⟨htag, hcap, hlast', hlen, hq1.trans hq, hlast, hbi, hneed, hj, hout⟩

theorem Work.hufBranch_placed (h : w.placed e .hufBranch) (off : Nat) (ll rl : Bool) :
    (w.hufBranch off ll rl).Placed e := by
  have hwalks : Work.walks e { w with bi := (w.bi + 1) % 32 } :=
    Work.walks.moveCursor h (Nat.mod_lt _ (by decide)) w.cur w.bp
  have hup := clearBit0_add_two w.q
  rcases Work.hufBranch_cases off ll rl w with ⟨-, ha⟩ | ⟨hlast, -, ha⟩ | ⟨hlast, -, ha⟩ <;> rw [ha]
  · trivial
  · exact ⟨by decide, hwalks.moveTo (by simp only; omega) hlast⟩
  · exact (hwalks.moveTo (by simp only; omega) hlast).placed

theorem Work.hufLeaf_placed (h : w.placed e .hufLeaf) (v : Byte) : (w.hufLeaf e v).Placed e := by
  have hwalks : w.walks e := h
  rw [Work.hufLeaf_eq v hwalks.room]
  rcases Work.afterSymbol_cases (w.takeLeaf e v) with ⟨-, ha⟩ | ⟨hmore, ha⟩ <;> rw [ha]
  · trivial
  · exact (hwalks.takeLeaf v hmore).placed

/-- The head of a decoder of its own tag's block goes on to the unit after the header, with the declared size inside the
capacity (R59, R110). -/
theorem Work.header_placed (h : w.placed e .header) (tag : Byte) (htag : tag ∈ blockTags) (size : Nat) :
    (w.header e tag (headerMinLen tag) size (headerNext tag)).Placed e := by
  have hout : w.out = [] := h
  rcases Work.header_cases e tag (headerMinLen tag) size (headerNext tag) w with
    ⟨-, ha⟩ | ⟨-, -, ha⟩ | ⟨-, -, -, ha⟩ | ⟨-, -, -, -, ha⟩ | ⟨heq, hlen, hpos, hcap, ha⟩ <;> rw [ha]
  case inr.inr.inr.inr =>
    simp only [blockTags, List.mem_cons, List.not_mem_nil, or_false] at htag
    have hnone : w.out.length < size := by rw [hout]; exact hpos
    rcases htag with rfl | rfl | rfl | rfl
    · exact ⟨by decide, heq.symm, le_rfl, hnone, hcap⟩
    · exact ⟨by decide, .inl heq.symm, hlen, hout, hpos, hcap⟩
    · exact ⟨by decide, .inr heq.symm, hlen, hout, hpos, hcap⟩
    · exact ⟨by decide, heq.symm, le_rfl, hnone, hcap⟩
  all_goals trivial

end Units

/-! ### What an answer leaves -/

/-- A command that has completed meets the invariant. -/
theorem Completed.inv {s t : State} (h : Completed s t) (hmem : s.mem.wf = true) : t.Inv where
  memWf := h.wf hmem
  notBoth := by simp [h.busy]
  busyPhase := by simp [h.busy, h.phase]
  busyClear := by simp [h.busy]
  failZero := h.outLen
  latched := by simp [h.busy]
  entered := by simp [h.phase]
  quiet := fun _ => h.disturbed
  placed := by rw [h.phase]; trivial

/-- An answer keeps the invariant when what it leaves in the stream is at its place, and only a decoder past EntryCheck goes
on. -/
theorem State.Inv.take {s : State} (h : s.Inv) (hph : s.phase ≠ .idle) {it : Item} (hplaced : it.Placed s.env)
    (hgo : ∀ ph w, it = .go ph w → entryOk s.lat = true ∧ s.lat.dir = true) (rle : RleScratch) (huf : HufScratch)
    (lz : LzScratch) : (State.take { s with rle := rle, huf := huf, lz := lz } it).Inv := by
  rcases State.take_cases { s with rle := rle, huf := huf, lz := lz } it with ⟨ph, w, rfl, ha⟩ | ⟨w, -, hdone⟩
  · obtain ⟨hnext, hw⟩ := hplaced
    have hbusy := h.busy_of_phase hph
    exact ⟨h.memWf, h.notBoth, by simp [hbusy, hnext], h.busyClear, h.failZero, h.latched,
      fun _ _ => hgo ph w rfl, h.quiet, hw⟩
  · exact hdone.inv h.memWf

/-- A phase takes the units of its own kinds only (R58). -/
theorem Work.grammar_phase {w : Work} {ph : Phase} {g : Grammar} (h : w.grammar ph = some g) : ph = phaseOf g := by
  cases ph with
  | lzItem => cases hbit : w.flagBit <;> simp [Work.grammar, hbit] at h <;> subst h <;> rfl
  | idle => simp [Work.grammar] at h
  | _ => simp only [Work.grammar, Option.some.injEq] at h; subst h; rfl

end Sys2Proof.Machine
end

section
/-! SUPPORT. The engine's turn: what it fetches (spec/30_encoding.md R46, R58), that every instruction in its place keeps the
invariant, and what a step does to the flags (spec/10_state.md R26). -/

namespace Sys2Proof.Machine

/-! ### What the engine fetches -/

/-- The command a CMD value decodes to is the one the table lists for its DIR and TAG (R46). -/
theorem mem_commandTable_of_decodeCommand {w : Nat} {i : Instr} {rest rest' : List Byte}
    (h : decodeCommand w rest = .instr i rest') : (field w 8 0, i) ∈ commandTable := by
  unfold decodeCommand at h
  split_ifs at h
  split at h <;> cases h
  obtain ⟨before, after, htable, -⟩ := List.lookup_eq_some_iff.mp ‹_›
  simp [htable]

/-- The kind of unit that is asked for is the kind that decodes (R58). -/
theorem grammar_of_decode {g : Grammar} {bs rest : List Byte} {i : Instr} (h : decode g bs = .instr i rest) :
    i.grammar = g := by
  unfold decode at h
  split at h
  case h_1 =>
    have hmem := mem_commandTable_of_decodeCommand h
    have hall : ∀ row ∈ commandTable, row.2.grammar = .command := by decide
    exact hall _ hmem
  case h_2 =>
    unfold decodeHeader at h
    split_ifs at h <;> cases h <;> rfl
  case h_3 =>
    unfold decodeRecord at h
    split_ifs at h <;> cases h <;> rfl
  case h_11 => cases h
  all_goals
    cases h
    rfl

/-- The four decode commands (R46). -/
def decodeCommands : List Instr := [.rleDec, .lzDec, .huf4Dec, .huf8Dec]

/-- A latched op that decodes to a decode command has DIR = 1 (R46). -/
theorem dir_of_decodeCommand {dir : Bool} {tag : Byte} {i : Instr} {rest : List Byte}
    (h : decode .command (leBytes 4 (cmdValue dir tag)) = .instr i rest) (hi : i ∈ decodeCommands) : dir = true := by
  have hmem := mem_commandTable_of_decodeCommand h
  have hvalue : leNat (leBytes 4 (cmdValue dir tag)) = cmdValue dir tag % 2 ^ 32 := leNat_leBytes 4 _
  have htag := tag.isLt
  cases dir with
  | true => rfl
  | false =>
    have hlow : ∀ row ∈ commandTable, row.1 < 256 → row.2 ∉ decodeCommands := by decide
    refine absurd hi (hlow _ hmem ?_)
    change field (leNat (leBytes 4 (cmdValue false tag))) 8 0 < 256
    rw [hvalue]
    simp only [field, cmdValue, Bool.false_eq_true, if_false]
    omega

theorem phaseOf_ne_idle (g : Grammar) : phaseOf g ≠ .idle := by cases g <;> decide

/-- Only a command is taken where the engine expects one. -/
theorem phaseOf_ne_command {g : Grammar} (h : g ≠ .command) : phaseOf g ≠ .command := by
  cases g <;> simp_all [phaseOf]

/-! ### Every instruction in its place keeps the invariant -/

/-- An encoder's block ends its command. -/
theorem Work.emitAll_ends (e : Env) (bs : List Byte) (w : Work) (ph : Phase) (w' : Work) :
    w.emitAll e bs ≠ .go ph w' := by
  unfold Work.emitAll
  split_ifs <;> simp

section Exec
variable {s : State} (h : s.Inv)
include h

/-- An answer that ends the command keeps the invariant. -/
theorem State.Inv.takeEnd (hph : s.phase ≠ .idle) {it : Item} (hend : ∀ ph w, it ≠ .go ph w) (rle : RleScratch)
    (huf : HufScratch) (lz : LzScratch) : (State.take { s with rle := rle, huf := huf, lz := lz } it).Inv := by
  refine h.take hph ?_ (fun ph w hit => absurd hit (hend ph w)) rle huf lz
  cases it with
  | go ph w => exact absurd rfl (hend ph w)
  | ok w => trivial
  | raise c w => trivial

/-- A command keeps the invariant when its body does where EntryCheck passes. -/
theorem State.Inv.runCommand {body : State → State}
    (hbody : ¬EntryFails s.lat → (body { s with work := Work.zero }).Inv) : (runCommand s body).Inv := by
  by_cases hentry : EntryFails s.lat
  · rw [runCommand_fails hentry]
    exact (completeFail_completed _ _).inv h.memWf
  · rw [runCommand_ok hentry]
    exact hbody hentry

/-- An encode command ends. -/
theorem State.Inv.encodeCommand (hph : s.phase ≠ .idle) {rle : RleScratch} {huf : HufScratch} {lz : LzScratch} {it : Item}
    {body : State → State} (hend : ∀ ph w, it ≠ .go ph w)
    (hbody : body { s with work := Work.zero } = State.take { s with rle := rle, huf := huf, lz := lz } it) :
    (Machine.runCommand s body).Inv :=
  h.runCommand fun _ => hbody ▸ h.takeEnd hph hend ..

/-- A Huffman encode ends. -/
theorem State.Inv.runHufEnc (hph : s.phase ≠ .idle) (tag : Byte) (w : Nat) : (runHufEnc tag w s).Inv := by
  refine h.encodeCommand hph (rle := s.rle) (lz := s.lz) ?_ rfl
  split
  · exact Work.emitAll_ends _ _ _
  · exact fun ph w' hgo => Item.noConfusion hgo

/-- A decode command goes on to the header. -/
theorem State.Inv.decodeCommand (hph : s.phase ≠ .idle) (hdir : s.lat.dir = true) :
    (Machine.runCommand s fun s => s.take (.go .header s.work)).Inv :=
  h.runCommand fun hentry =>
    h.take hph (it := .go .header Work.zero) ⟨by decide, rfl⟩ (fun _ _ _ => ⟨(entryOk_iff _).mpr hentry, hdir⟩) s.rle
      s.huf s.lz

/-- A unit of the stream, at its place. -/
theorem State.Inv.streamUnit {g : Grammar} (hg : s.work.grammar s.phase = some g) (hstream : g ≠ .command) {it : Item}
    (hit : s.work.placed s.env (phaseOf g) → it.Placed s.env) : (s.take it).Inv := by
  have hphase : s.phase = phaseOf g := Work.grammar_phase hg
  have hidle : s.phase ≠ .idle := hphase ▸ phaseOf_ne_idle g
  have hcommand : s.phase ≠ .command := hphase ▸ phaseOf_ne_command hstream
  exact h.take hidle (hit (hphase ▸ h.placed)) (fun _ _ _ => h.entered hidle hcommand) s.rle s.huf s.lz

/-- Every instruction the engine takes at its place keeps the invariant, an arm at a time. -/
theorem State.Inv.exec {i : Instr} {t : State} (hg : s.work.grammar s.phase = some i.grammar)
    (hdir : i ∈ decodeCommands → s.lat.dir = true) (ht : exec i s = .next t) : t.Inv := by
  have hph : s.phase ≠ .idle := by intro hidle; simp [hidle, Work.grammar] at hg
  cases i with
  | rleEnc =>
    cases ht
    exact h.encodeCommand hph (huf := s.huf) (lz := s.lz) (Work.emitAll_ends s.env _ Work.zero) rfl
  | lzEnc =>
    cases ht
    exact h.encodeCommand hph (rle := s.rle) (huf := s.huf) (Work.emitAll_ends s.env _ Work.zero) rfl
  | huf4Enc => cases ht; exact h.runHufEnc hph ..
  | huf8Enc => cases ht; exact h.runHufEnc hph ..
  | rleDec | lzDec | huf4Dec | huf8Dec => cases ht; exact h.decodeCommand hph (hdir (by decide))
  | hdrLz77 size =>
    cases ht; exact h.streamUnit (g := .header) hg (by decide) fun hw => Work.header_placed hw Config.tagLz (by decide) size
  | hdrHuffman4 size =>
    cases ht; exact h.streamUnit (g := .header) hg (by decide) fun hw => Work.header_placed hw Config.tagHuf4 (by decide) size
  | hdrHuffman8 size =>
    cases ht; exact h.streamUnit (g := .header) hg (by decide) fun hw => Work.header_placed hw Config.tagHuf8 (by decide) size
  | hdrRle size =>
    cases ht; exact h.streamUnit (g := .header) hg (by decide) fun hw => Work.header_placed hw Config.tagRle (by decide) size
  | rleRun len => cases ht; exact h.streamUnit (g := .rleRecord) hg (by decide) (Work.rleRun_placed · len)
  | rleLit len => cases ht; exact h.streamUnit (g := .rleRecord) hg (by decide) (Work.rleLit_placed · len)
  | lzFlags f => cases ht; exact h.streamUnit (g := .lzFlags) hg (by decide) (Work.lzFlags_placed · f)
  | lzLit b => cases ht; exact h.streamUnit (g := .lzLit) hg (by decide) (Work.lzLit_placed · b)
  | lzRef len dist => cases ht; exact h.streamUnit (g := .lzRef) hg (by decide) (Work.lzRef_placed · len dist)
  | hufSize b => cases ht; exact h.streamUnit (g := .hufSize) hg (by decide) (Work.hufSize_placed · b)
  | hufBranch off ll rl => cases ht; exact h.streamUnit (g := .hufBranch) hg (by decide) (Work.hufBranch_placed · off ll rl)
  | hufLeaf v => cases ht; exact h.streamUnit (g := .hufLeaf) hg (by decide) (Work.hufLeaf_placed · v)
  | hufWord c => cases ht; exact h.streamUnit (g := .hufWord) hg (by decide) (Work.hufWord_placed · c)

end Exec

/-- A latched op that the engine fetches as a decode command has DIR = 1. -/
theorem dir_of_fetched {s : State} {g : Grammar} {i : Instr} {rest : List Byte}
    (hd : decode g (s.fetchBytes g) = .instr i rest) (hi : i ∈ decodeCommands) : s.lat.dir = true := by
  have hall : ∀ i ∈ decodeCommands, i.grammar = .command := by decide
  obtain rfl : g = .command := (grammar_of_decode hd).symm.trans (hall i hi)
  exact dir_of_decodeCommand hd hi

/-- What one turn of the engine does: nothing while it is idle; else the fetched unit's meaning, or the end of a command whose
next unit does not decode (R47, R58, R117). -/
theorem engineTurn_cases (s : State) :
    (s.phase = .idle ∧ engineTurn s = .next s)
    ∨ (∃ i, s.work.grammar s.phase = some i.grammar ∧ (i ∈ decodeCommands → s.lat.dir = true)
        ∧ engineTurn s = exec i s)
    ∨ (s.phase ≠ .idle ∧ engineTurn s = .next (failFetch s.rejectCode s)) := by
  cases hg : s.work.grammar s.phase with
  | none =>
    have hidle : s.phase = .idle := by
      cases hph : s.phase <;> simp [hph, Work.grammar] at hg ⊢
    exact .inl ⟨hidle, engineTurn_idle hidle⟩
  | some g =>
    cases hd : decode g (s.fetchBytes g) with
    | instr i rest =>
      exact .inr (.inl ⟨i, by rw [grammar_of_decode hd], dir_of_fetched hd, engineTurn_unit hg hd⟩)
    | rejected e =>
      have hidle : s.phase ≠ .idle := by intro hidle; simp [hidle, Work.grammar] at hg
      exact .inr (.inr ⟨hidle, engineTurn_rejected hg hd⟩)

/-- A command whose next unit does not decode completes. -/
theorem failFetch_completed (c : Code) (s : State) :
    ∃ w, Completed { s with work := w } (failFetch c s) := by
  unfold failFetch
  split_ifs
  · exact ⟨Work.zero, completeFail_completed _ _⟩
  · exact ⟨s.work, completeFail_completed _ _⟩

theorem State.Inv.engineTurn {s t : State} (h : s.Inv) (ht : engineTurn s = .next t) : t.Inv := by
  rcases engineTurn_cases s with ⟨-, he⟩ | ⟨i, hg, hdir, he⟩ | ⟨-, he⟩ <;> rw [he] at ht
  · cases ht
    exact h
  · exact h.exec hg hdir ht
  · cases ht
    obtain ⟨w, hdone⟩ := failFetch_completed s.rejectCode s
    exact hdone.inv h.memWf

/-- A step is an access of the host or a turn of the engine, with the event taken off the input. -/
theorem step_cases (s : State) :
    (∃ op rest, s.input = .host op :: rest ∧ step s = hostAccess op { s with input := rest })
    ∨ ((∀ op rest, s.input ≠ .host op :: rest) ∧ ∃ rest, step s = engineTurn { s with input := rest }) := by
  match hin : s.input with
  | [] => exact .inr ⟨by simp, s.input, step_nil hin⟩
  | .engine :: rest => exact .inr ⟨by simp, rest, step_engine hin⟩
  | .host op :: rest => exact .inl ⟨op, rest, rfl, step_host hin⟩

/-- Settles O43: a step is an access of the host or a turn of the engine, and each keeps the invariant. -/
theorem everyStepKeepsTheInvariant : Obligations.EveryStepKeepsTheInvariant := by
  intro s t h ht
  rcases step_cases s with ⟨op, rest, -, he⟩ | ⟨-, rest, he⟩ <;> rw [he] at ht
  · exact (h.setUnnamed rest s.rdata s.free).hostAccess ht
  · exact (h.setUnnamed rest s.rdata s.free).engineTurn ht

/-- The flags and OUT_LEN, as one value. -/
def State.flags (s : State) : Bool × Bool × Code × Word := (s.busy, s.done, s.code, s.outLen)

/-- A turn of the engine leaves the flags alone or is the completion of a running command (R23, R26). -/
theorem engineTurn_flags {s t : State} (ht : engineTurn s = .next t) :
    t.flags = s.flags ∨ (s.phase ≠ .idle ∧ t.busy = false ∧ t.done = true) := by
  rcases engineTurn_cases s with ⟨-, he⟩ | ⟨i, hg, -, he⟩ | ⟨hidle, he⟩ <;> rw [he] at ht
  · cases ht
    exact .inl rfl
  · have hidle : s.phase ≠ .idle := by intro hidle; simp [hidle, Work.grammar] at hg
    obtain ⟨rle, huf, lz, it, htakes, -⟩ := exec_answers i s
    obtain rfl := Host.Outcome.next.inj (ht.symm.trans htakes)
    rcases State.take_cases { s with rle := rle, huf := huf, lz := lz } it with ⟨ph, w, rfl, ha⟩ | ⟨w, -, hdone⟩
    · exact .inl rfl
    · exact .inr ⟨hidle, hdone.busy, hdone.done⟩
  · cases ht
    obtain ⟨w, hdone⟩ := failFetch_completed s.rejectCode s
    exact .inr ⟨hidle, hdone.busy, hdone.done⟩

/-- An access of the host leaves the flags alone or is a START or a reset (R22, R26, R32). -/
theorem hostAccess_flags {s t : State} {op : HostOp} (ht : hostAccess op s = .next t) :
    t.flags = s.flags
    ∨ (∃ width a v, op = .regWrite width a v ∧ s.regFor width a = some .cmd ∧ s.busy = false ∧ v.getLsbD 31 = true
        ∧ t.flags = (true, false, .ok, 0))
    ∨ (op = .reset ∧ t.flags = (false, false, .ok, 0)) := by
  cases op with
  | regRead width a =>
    simp only [hostAccess] at ht
    split at ht <;> cases ht
    exact .inl rfl
  | regWrite width a v =>
    simp only [hostAccess] at ht
    split at ht <;> cases ht
    next r hr =>
    rcases s.writeReg_cases r v with he | ⟨hb, rfl, hv, he⟩ | ⟨-, -, -, he⟩ | ⟨-, he | he | he | he⟩ <;> rw [he]
    case inr.inl => exact .inr (.inl ⟨width, a, v, rfl, hr, hb, hv, rfl⟩)
    all_goals exact .inl rfl
  | memRead a =>
    simp only [hostAccess] at ht
    split at ht <;> cases ht
    unfold hostMemRead
    split_ifs <;> exact .inl rfl
  | memWrite a b =>
    simp only [hostAccess] at ht
    split at ht <;> cases ht
    exact .inl rfl
  | reset => cases ht; exact .inr (.inr ⟨rfl, rfl⟩)
  | busError => cases ht; exact .inl rfl

/-- Settles O38: by what an access of the host and a turn of the engine can do to the flags. -/
theorem flagsChangeOnlyAtStartAndCompletion : Obligations.FlagsChangeOnlyAtStartAndCompletion := by
  intro s t h ht
  rcases step_cases s with ⟨op, rest, hin, he⟩ | ⟨hin, rest, he⟩ <;> rw [he] at ht
  · rcases hostAccess_flags ht with hsame | ⟨width, a, v, rfl, hr, hb, hv, hstart⟩ | ⟨rfl, hreset⟩
    · simpa [State.flags] using Or.inl hsame
    · obtain ⟨hbusy, hdone, hcode, hlen⟩ : t.busy = true ∧ t.done = false ∧ t.code = .ok ∧ t.outLen = 0 := by
        simpa [State.flags] using hstart
      exact .inr (.inl ⟨width, a, v, rest, hin, hr, hb, hv, hbusy, hdone, hcode, hlen⟩)
    · exact .inr (.inr (.inr ⟨rest, hin, by simpa [State.flags] using hreset⟩))
  · rcases engineTurn_flags ht with hsame | ⟨hidle, hdone⟩
    · exact .inl (by simpa [State.flags] using hsame)
    · exact .inr (.inr (.inl ⟨h.busy_of_phase hidle, hin, hdone⟩))

end Sys2Proof.Machine
end

section
/-! SUPPORT. The register block (spec/10_state.md R16 to R22, R32): what an aligned access does, the fields of the register
words, and the completion step (R23). -/

namespace Sys2Proof.Machine

/-! ### Aligned accesses -/

section Access
variable {s : State} {rest : List Event} {k : Nat}

/-- A 32-bit read at offset 4k is the register's value to the host (R21 (d)). -/
theorem step_regRead (hk : k < 8) (hin : s.input = .host (.regRead 4 (s.cfg.pBase + BitVec.ofNat 32 (4 * k))) :: rest) :
    step s = .next { s with input := rest, rdata := s.readReg (regAt (4 * k)) } := by
  rw [step_host hin]
  simp only [hostAccess, State.regFor_input, State.regFor_add s hk]
  cases regAt (4 * k) <;> rfl

/-- A 32-bit write at offset 4k is a write to the register there. -/
theorem step_regWrite {v : Word} (hk : k < 8)
    (hin : s.input = .host (.regWrite 4 (s.cfg.pBase + BitVec.ofNat 32 (4 * k)) v) :: rest) :
    step s = .next (State.writeReg { s with input := rest } (regAt (4 * k)) v) := by
  rw [step_host hin]
  simp only [hostAccess, State.regFor_input, State.regFor_add s hk]

end Access

/-- STATUS, OUT_LEN and the reserved offset ignore every write (R18, R20, R21 (c)). -/
theorem State.writeReg_ignored (s : State) {r : Reg} (v : Word) (h : r ∈ [.status, .outLen, .reserved]) :
    s.writeReg r v = s := by
  simp only [List.mem_cons, List.not_mem_nil, or_false] at h
  rcases h with rfl | rfl | rfl <;> exact ite_self s

/-! ### The fields of STATUS and CMD -/

/-- Bit i of CMD: TAG, then DIR, then 0 (R17). -/
theorem cmdWord_getLsbD (s : State) (i : Nat) :
    (cmdWord s).getLsbD i = if i < 8 then s.cmdTag.getLsbD i else decide (i = 8) && s.cmdDir := by
  unfold cmdWord
  simp only [BitVec.getLsbD_append, BitVec.getLsbD_ofBool]
  split_ifs with h1 h2
  · rfl
  · have h3 : (i - 8 = 0) ↔ i = 8 := by omega
    simp [h3]
  · have h3 : i ≠ 8 := by omega
    simp [h3]

/-- Bit 0 of STATUS is BUSY, bit 1 DONE, bits 11:8 CODE; the rest is 0 (R18). -/
theorem statusWord_fields (s : State) :
    (statusWord s).getLsbD 0 = s.busy ∧ (statusWord s).getLsbD 1 = s.done
    ∧ (statusWord s).extractLsb' 8 4 = s.code.bits ∧ statusWord s &&& 0xFFFFF0FC = 0 := by
  unfold statusWord
  cases s.busy <;> cases s.done <;> cases s.code <;> decide

/-- Settles O7: by the bits of the two register words. -/
theorem statusAndCmdLayout : Obligations.StatusAndCmdLayout := by
  refine ⟨fun s => ?_, rfl⟩
  obtain ⟨hbusy, hdone, hcode, -⟩ := statusWord_fields s
  refine ⟨hbusy, hdone, hcode, BitVec.eq_of_getLsbD_eq fun i hi => ?_, by rw [cmdWord_getLsbD]; simp⟩
  simp [cmdWord_getLsbD, hi]

/-- The reserved bits of CMD read 0 (R21 (c)). -/
theorem cmdWord_reserved (s : State) : cmdWord s &&& 0xFFFFFE00 = 0 := by
  refine BitVec.eq_of_getLsbD_eq fun i hi => ?_
  have hmask : ∀ i < 9, (0xFFFFFE00 : Word).getLsbD i = false := by decide
  rw [BitVec.getLsbD_and, cmdWord_getLsbD]
  by_cases hlow : i < 9
  · rw [hmask i hlow, Bool.and_false]
    exact BitVec.getLsbD_zero.symm
  · have h8 : ¬i < 8 := by omega
    have hne : i ≠ 8 := by omega
    simp [h8, hne]

/-! ### The register rules -/

/-- Settles O4: (a) no register is named, (b) and (c) the write is ignored, (d) the read is the register's value. -/
theorem registerAccessRules : Obligations.RegisterAccessRules := by
  refine ⟨fun s rest width a v htouch hbad hin => ?_, fun s rest a b htouch hin => ?_, fun s rest k v hk hbusy hin => ?_,
    fun s => ?_, fun s rest v hin => ?_, fun s rest k hk hin => ?_⟩
  · have hnone := State.regFor_eq_none hbad
    rcases hin with hin | hin <;>
      simp only [step_host hin, hostAccess, State.regFor_input, hnone, State.badAccess, State.touchesBlock_input, htouch,
        if_true]
  · rcases hin with hin | hin <;> simp only [step_host hin, hostAccess, State.touchesBlock_input, htouch, if_true]
  · rw [step_regWrite hk hin, State.writeReg_busy (s := { s with input := rest }) _ _ hbusy]
  · obtain ⟨-, -, -, hreserved⟩ := statusWord_fields s
    exact ⟨rfl, cmdWord_reserved s, hreserved⟩
  · rw [step_regWrite (k := 7) (by decide) hin, State.writeReg_ignored _ v (by decide)]
  · exact step_regRead hk hin

/-- Settles O6: both ignore every write. -/
theorem readOnlyRegistersIgnoreWrites : Obligations.ReadOnlyRegistersIgnoreWrites := by
  intro s rest k v hk hin
  simp only [List.mem_cons, List.not_mem_nil, or_false] at hk
  rcases hk with rfl | rfl
  · rw [step_regWrite (by decide) hin, State.writeReg_ignored _ v (by decide)]
  · rw [step_regWrite (by decide) hin, State.writeReg_ignored _ v (by decide)]

/-- Settles O5, a register at a time. -/
theorem dataRegistersHoldWhatIsWritten : Obligations.DataRegistersHoldWhatIsWritten := by
  intro s rest k v hk hbusy hin
  have hlt : k < 8 := by
    simp only [List.mem_cons, List.not_mem_nil, or_false] at hk
    omega
  refine ⟨_, step_regWrite hlt hin, ?_⟩
  simp only [List.mem_cons, List.not_mem_nil, or_false] at hk
  rcases hk with rfl | rfl | rfl | rfl
  all_goals
    simp only [State.writeReg, hbusy, regAt, Bool.false_eq_true, if_false]
    refine ⟨rfl, fun r hr => ?_, by simp only [and_self]⟩
    cases r <;> simp_all [State.readReg, cmdWord, statusWord]

/-- Settles O3: the write at offset 0 is a write to CMD. -/
theorem cmdWriteStartsOrUpdates : Obligations.CmdWriteStartsOrUpdates := by
  intro s rest v hbusy hin
  have hstep : step s = .next (writeCmd v { s with input := rest }) := by
    rw [step_regWrite (k := 0) (by decide) (by simpa using hin)]
    simp [State.writeReg, hbusy, regAt]
  rw [hstep]
  refine ⟨fun hstart => ⟨_, rfl, ?_⟩, fun hstart => ?_⟩
  · simp only [writeCmd, hstart, if_true]
    exact ⟨rfl, rfl, rfl, rfl, rfl, rfl, rfl, rfl, rfl, rfl, rfl, rfl, rfl, rfl⟩
  · simp only [writeCmd, hstart, Bool.false_eq_true, if_false]

/-- Where every register holds 0 every register reads 0 (R16 to R20). -/
theorem readReg_eq_zero {s : State} (hcmd : s.cmdTag = 0 ∧ s.cmdDir = false) (hflags : s.flags = (false, false, .ok, 0))
    (hregs : s.srcAddr = 0 ∧ s.srcLen = 0 ∧ s.dstAddr = 0 ∧ s.dstCap = 0) (r : Reg) : s.readReg r = 0 := by
  obtain ⟨htag, hdir⟩ := hcmd
  obtain ⟨hsrc, hsrcLen, hdst, hdstCap⟩ := hregs
  obtain ⟨hbusy, hdone, hcode, hlen⟩ : s.busy = false ∧ s.done = false ∧ s.code = .ok ∧ s.outLen = 0 := by
    simpa [State.flags] using hflags
  cases r with
  | cmd => simp [State.readReg, cmdWord, htag, hdir]
  | status => simp [State.readReg, statusWord, hbusy, hdone, hcode, Code.bits]
  | reserved => rfl
  | _ => assumption

@[simp] theorem resetHardware_cfg (s : State) : (resetHardware s).cfg = s.cfg := by
  unfold resetHardware
  cases s.busy <;> rfl

@[simp] theorem resetHardware_input (s : State) : (resetHardware s).input = s.input := by
  unfold resetHardware
  cases s.busy <;> rfl

/-- Settles O1: a reset event gives the reset state, with the configuration and an idle machine's memory kept. -/
theorem resetZeroesRegisters : Obligations.ResetZeroesRegisters := by
  refine ⟨readReg_eq_zero ⟨rfl, rfl⟩ rfl ⟨rfl, rfl, rfl, rfl⟩, rfl, rfl, fun s rest hin => ?_⟩
  refine ⟨resetHardware { s with input := rest }, step_host hin,
    readReg_eq_zero ⟨rfl, rfl⟩ rfl ⟨rfl, rfl, rfl, rfl⟩, rfl, rfl, rfl, rfl, rfl, rfl,
    resetHardware_cfg _, resetHardware_input _, fun hidle => ?_⟩
  simp [resetHardware, hidle, State.resetWith]

/-! ### The completion step -/

/-- A byte below DST_ADDR or past the bytes written is that far above DST_ADDR, round the address space. -/
theorem length_le_sub_of_outside {a base : Addr} {n : Nat} (hn : base.toNat + n ≤ 2 ^ 32)
    (h : a.toNat < base.toNat ∨ base.toNat + n ≤ a.toNat) : n ≤ (a - base).toNat := by
  have ha := a.isLt
  have hb := base.isLt
  rw [BitVec.toNat_sub]
  omega

/-- Settles O36: by what a write of bytes leaves in memory, inside and outside. -/
theorem completionStep : Obligations.CompletionStep := by
  intro s hspec hwf hroom n outside
  have hlen : n ≤ 2 ^ 32 := by omega
  refine ⟨?_, fun c => ?_⟩
  · rw [completeOk_specified hspec]
    exact ⟨rfl, rfl, rfl, rfl, rfl, fun i hi => Memory.read_writeBytes_inside hwf hlen hi,
      fun a ha => Memory.read_writeBytes_outside hwf hlen (length_le_sub_of_outside hroom ha)⟩
  · rw [completeFail_specified hspec]
    refine ⟨rfl, rfl, rfl, rfl, rfl, fun i hi => ?_, fun a ha => ?_, fun hnone => ?_⟩
    · exact (Memory.read_writeBytes_inside hwf (by simpa using hlen) (by simpa using hi)).trans (freeBytes_getD hi)
    · exact Memory.read_writeBytes_outside hwf (by simpa using hlen)
        (by simpa using length_le_sub_of_outside hroom ha)
    · simp [show s.work.out.length = 0 from hnone, freeBytes]

end Sys2Proof.Machine
end

section
/-! SUPPORT. Where the engine reads its next unit (spec/10_state.md R25, spec/30_encoding.md R58), and that a decoder's OK has
the declared size (R20, R59). -/

namespace Sys2Proof.Machine

/-! ### The unit at the cursor -/

/-- Where the engine moves next the step is its turn. -/
theorem step_of_engineNext {s s' : State} (h : s.engineNext = some s') : step s = engineTurn s' := by
  match hin : s.input with
  | [] =>
    simp only [State.engineNext, hin, Option.some.injEq] at h
    rw [step_nil hin, h]
  | .engine :: rest =>
    simp only [State.engineNext, hin, Option.some.injEq] at h
    rw [step_engine hin, h]
  | .host op :: rest => simp [State.engineNext, hin] at h

/-- Where a stream unit does not decode the command ends with everything emitted so far freed (R60, R111). -/
theorem engineTurn_rejected_stream {s : State} {g : Grammar} {e : DecodeError} (hg : s.work.grammar s.phase = some g)
    (hstream : g ≠ .command) (hd : decode g (s.fetchBytes g) = .rejected e) :
    engineTurn s = .next (completeFail s.rejectCode s) := by
  have hph : s.phase ≠ .command := Work.grammar_phase hg ▸ phaseOf_ne_command hstream
  rw [engineTurn_rejected hg hd, failFetch, if_neg hph]

/-- A unit of one byte is read at its offset; where the input has ended the command ends with MALFORMED (R60). -/
theorem engineTurn_byteUnit {s : State} {g : Grammar} {f : Byte → Instr} (hg : s.work.grammar s.phase = some g)
    (hwidth : g.width = 1) (hd : ∀ b, decode g [b] = .instr (f b) []) :
    engineTurn s =
      if s.work.offset s.phase ≥ s.lat.srcLen.toNat then .next (completeFail .malformed s)
      else exec (f (s.src (s.work.offset s.phase))) s := by
  have hstream : g ≠ .command := by rintro rfl; exact absurd hwidth (by decide)
  have hheader : s.phase ≠ .header := by
    rw [Work.grammar_phase hg]
    intro hph
    cases g <;> simp [phaseOf, Grammar.width] at hph hwidth
  have hcommand : s.phase ≠ .command := Work.grammar_phase hg ▸ phaseOf_ne_command hstream
  have hbytes : s.fetchBytes g =
      if s.work.offset s.phase < s.lat.srcLen.toNat then [s.src (s.work.offset s.phase)] else [] := by
    rw [State.fetchBytes, if_neg hstream, hwidth, Env.window_one]
    rfl
  by_cases hend : s.work.offset s.phase < s.lat.srcLen.toNat
  · rw [if_pos hend] at hbytes
    rw [if_neg (Nat.not_le.mpr hend), engineTurn_unit hg (hbytes ▸ hd _)]
  · rw [if_neg hend] at hbytes
    have hshort : decode g (s.fetchBytes g) = .rejected .truncated := decode_short (by simp [hbytes, hwidth])
    have hcode : s.rejectCode = .malformed := by
      unfold State.rejectCode
      split
      · exact absurd ‹_› hcommand
      · exact absurd ‹_› hheader
      · rfl
    rw [if_pos (Nat.not_lt.mp hend), engineTurn_rejected_stream hg hstream hshort, hcode]

section Header
variable {s : State} (hph : s.phase = .header)
include hph

theorem grammar_at_header : s.work.grammar s.phase = some .header := by rw [hph]; rfl

theorem rejectCode_at_header :
    s.rejectCode = if s.src 0 = s.lat.tag then .malformed else .formatMismatch := by
  simp [State.rejectCode, hph]

/-- The header's bytes are those from block offset 0 on. -/
theorem fetchBytes_at_header : s.fetchBytes .header = (s.env.tail 0).take 4 := by
  rw [State.fetchBytes, if_neg (by decide), Env.window_eq_take_tail, hph]
  rfl

theorem decode_at_header (hlen : 4 ≤ s.lat.srcLen.toNat) :
    decode .header (s.fetchBytes .header) = decode .header [s.src 0, s.src 1, s.src 2, s.src 3] := by
  rw [fetchBytes_at_header hph, Env.tail_eq_cons_four (by simpa using hlen)]
  rfl

/-- A short block ends its command with FORMAT_MISMATCH where its tag is another, else with MALFORMED (R64). -/
theorem engineTurn_header_short (hlen : s.lat.srcLen.toNat < 4) :
    engineTurn s = .next (completeFail (if s.src 0 = s.lat.tag then .malformed else .formatMismatch) s) := by
  rw [← rejectCode_at_header hph]
  refine engineTurn_rejected_stream (grammar_at_header hph) (by decide) (e := .truncated) (decode_short ?_)
  simp only [fetchBytes_at_header hph, List.length_take, Env.tail_length, State.env_len, Grammar.width]
  omega

/-- A block of another tag ends its command with FORMAT_MISMATCH, whether its header decodes or not (R64, R110). -/
theorem engineTurn_header_mismatch (hne : s.src 0 ≠ s.lat.tag) :
    engineTurn s = .next (completeFail .formatMismatch s) := by
  by_cases hlen : s.lat.srcLen.toNat < 4
  · rw [engineTurn_header_short hph hlen, if_neg hne]
  · have hd := decode_at_header hph (by omega)
    rw [decode] at hd
    rcases decodeHeader_cases (s.src 0) (leNat [s.src 1, s.src 2, s.src 3]) [] with ⟨i, hi, hexec⟩ | ⟨-, hi⟩
    · rw [engineTurn_unit (grammar_at_header hph) (hd.trans hi), hexec, Work.header, if_pos (by exact hne)]
      rfl
    · rw [engineTurn_rejected_stream (grammar_at_header hph) (by decide) (hd.trans hi), rejectCode_at_header hph,
        if_neg hne]

/-- A whole header of one of the four tags decodes and is taken. -/
theorem engineTurn_header_unit (htag : s.src 0 ∈ blockTags) (hlen : 4 ≤ s.lat.srcLen.toNat) :
    ∃ i, decode .header [s.src 0, s.src 1, s.src 2, s.src 3] = .instr i [] ∧ engineTurn s = exec i s := by
  rcases decodeHeader_cases (s.src 0) (leNat [s.src 1, s.src 2, s.src 3]) [] with ⟨i, hi, -⟩ | ⟨hmem, -⟩
  · exact ⟨i, hi, engineTurn_unit (grammar_at_header hph) ((decode_at_header hph hlen).trans hi)⟩
  · exact absurd htag hmem

end Header

/-- Settles O23: the header's bytes from offset 0, every other unit's byte at its offset. -/
theorem unitsAreReadAtTheCursor : Obligations.UnitsAreReadAtTheCursor := by
  intro s s' hnext byteOr
  rw [step_of_engineNext hnext]
  refine ⟨fun hph htag => ⟨fun hne => engineTurn_header_mismatch hph hne, fun heq hlen => ?_, fun heq hlen => ?_⟩,
    fun hph => ?_, fun hph => ?_, fun hph => ?_, fun hph => ?_⟩
  · rw [engineTurn_header_short hph hlen, if_pos heq]
  · exact engineTurn_header_unit hph (heq ▸ htag) hlen
  · rw [engineTurn_byteUnit (g := .rleRecord) (by rw [hph]; rfl) rfl fun _ => rfl, hph]
    rfl
  · rw [engineTurn_byteUnit (g := .lzFlags) (by rw [hph]; rfl) rfl fun _ => rfl, hph]
    rfl
  · rw [engineTurn_byteUnit (g := .hufSize) (by rw [hph]; rfl) rfl fun _ => rfl, hph]
    rfl
  · rw [engineTurn_byteUnit (g := .hufBranch) (by rw [hph]; rfl) rfl fun _ => rfl, hph]
    rfl

/-! ### The length of an OK -/

/-- What a decoder of a block past its header answers with OK is as long as the declared size. -/
def CoreResult.OkHas (size : Nat) : CoreResult → Prop
  | .ok out => out.length = size
  | .fail _ _ => True

theorem rleRecords_okHas {size : Nat} (n : Nat) (stream out : List Byte) (h : out.length ≤ size) :
    (rleRecords size n stream out).OkHas size := by
  induction n generalizing stream out with
  | zero => trivial
  | succ n ih =>
    rcases Nat.lt_or_ge out.length size with hmore | hdone
    case inr =>
      rw [rleRecords_done hdone]
      exact le_antisymm h hdone
    match stream with
    | [] => rw [rleRecords_nil hmore]; trivial
    | b :: rest =>
      rcases Nat.lt_or_ge b.toNat 128 with hb | hb
      · rcases Nat.lt_or_ge rest.length (min (b.toNat + 1) (size - out.length)) with hk | hk
        · rw [rleRecords_lit_short hmore hb hk]
          trivial
        · rw [rleRecords_lit hmore hb hk]
          exact ih _ _ (by simp; omega)
      · match rest with
        | [] => rw [rleRecords_run_short hmore hb]; trivial
        | v :: rest =>
          rw [rleRecords_run hmore hb]
          exact ih _ _ (by simp; omega)

theorem lzItems_okHas {size : Nat} (n : Nat) (flags : List Bool) (stream out : List Byte) (h : out.length ≤ size) :
    (lzItems size n flags stream out).OkHas size := by
  induction n generalizing flags stream out with
  | zero => trivial
  | succ n ih =>
    rcases Nat.lt_or_ge out.length size with hmore | hdone
    case inr =>
      rw [lzItems_done hdone]
      exact le_antisymm h hdone
    match flags, stream with
    | [], [] => rw [lzItems_flags_short hmore]; trivial
    | [], f :: rest => rw [lzItems_flags hmore]; exact ih _ _ _ h
    | false :: flags, [] => rw [lzItems_lit_short hmore]; trivial
    | false :: flags, b :: rest => rw [lzItems_lit hmore]; exact ih _ _ _ (by simpa using hmore)
    | true :: flags, [] => rw [lzItems_ref_short hmore (by simp)]; trivial
    | true :: flags, [_] => rw [lzItems_ref_short hmore (by simp)]; trivial
    | true :: flags, t0 :: t1 :: rest =>
      rw [lzItems_ref hmore]
      split_ifs
      · trivial
      · exact ih _ _ _ (by simp; omega)

/-- Where all the symbols come there are as many leaf bytes. -/
theorem hufLeaves_length {table : List Byte} {last : Nat} (n : Nat) (bits : List Bool)
    (h : (hufLeaves table last n bits).2 = true) : (hufLeaves table last n bits).1.length = n := by
  induction n generalizing bits with
  | zero => rfl
  | succ n ih =>
    cases hsym : hufSymbol table last 1 bits with
    | none => simp [hufLeaves_succ_none hsym] at h
    | some found =>
      rw [hufLeaves_succ_some hsym] at h ⊢
      simpa using ih found.2 h

@[simp] theorem joinNibbles_length (syms : List Nat) : (joinNibbles syms).length = syms.length / 2 := by
  match syms with
  | [] => rfl
  | [_] => simp [joinNibbles]
  | lo :: hi :: rest =>
    simp only [joinNibbles, List.length_cons, joinNibbles_length rest]
    omega

/-- A head that lets a decoder go on gives a positive size within the capacity, which bytes 1 to 3 of the block declare
(R48, R59). -/
theorem headOf_ok {tag : Byte} {minLen cap size : Nat} {inp stream : List Byte}
    (h : headOf tag minLen cap inp = .ok (size, stream)) :
    size = leNat ((inp.drop 1).take 3) ∧ 0 < size ∧ size ≤ cap := by
  match inp with
  | [] => simp [headOf] at h
  | t :: rest =>
    simp only [headOf] at h
    split_ifs at h with htag hlen hzero hcap
    obtain ⟨rfl, -⟩ := Prod.mk.inj (Except.ok.inj h)
    exact ⟨rfl, Nat.pos_of_ne_zero hzero, Nat.not_lt.mp hcap⟩

/-- Each decoder fails with the head, or has a declared size that its OK has. -/
theorem okHas_of_head {tag : Byte} {minLen cap : Nat} {inp out : List Byte} {res : CoreResult}
    (hfail : ∀ c, headOf tag minLen cap inp = .error c → res = .fail c 0)
    (hok : ∀ size stream, headOf tag minLen cap inp = .ok (size, stream) → res.OkHas size) (h : res = .ok out) :
    out.length = leNat ((inp.drop 1).take 3) ∧ 0 < out.length ∧ out.length ≤ cap := by
  cases hhead : headOf tag minLen cap inp with
  | error c => exact absurd (h.symm.trans (hfail c hhead)) (by simp)
  | ok head =>
    have hlen : out.length = head.1 := by
      have hhas := hok head.1 head.2 hhead
      rwa [h] at hhas
    rw [hlen]
    exact headOf_ok hhead

theorem hufDecode_okHas {bias tag : Byte} {w cap size : Nat} {inp stream : List Byte} (hw : w = 4 ∨ w = 8)
    (hhead : headOf tag 5 cap inp = .ok (size, stream)) : (hufDecode bias tag w cap inp).OkHas size := by
  simp only [hufDecode, hhead]
  by_cases hshort : 4 + (2 * (stream.headD 0).toNat + 1) ≥ inp.length
  · rw [if_pos hshort]
    trivial
  rw [if_neg hshort]
  split
  case isFalse => trivial
  case isTrue hall =>
    have hlen := hufLeaves_length _ _ hall
    rcases hw with rfl | rfl
    · rw [if_neg (by decide), CoreResult.OkHas, joinNibbles_length, List.length_map, hlen]
      omega
    · rw [if_pos rfl, CoreResult.OkHas, List.length_map, List.length_map, hlen]
      omega

/-- Settles O48: each decoder past the header produces the size the header declares. -/
theorem decodedLengthIsTheDeclaredSize : Obligations.DecodedLengthIsTheDeclaredSize := by
  rintro inp out cap bias (h | h | h | h)
  · refine okHas_of_head (tag := Config.tagRle) (minLen := 4) (fun c hhead => ?_) (fun size stream hhead => ?_) h
    · simp only [rleDecode, hhead]
    · simp only [rleDecode, hhead]
      exact rleRecords_okHas _ _ _ (Nat.zero_le _)
  · refine okHas_of_head (tag := Config.tagLz) (minLen := 4) (fun c hhead => ?_) (fun size stream hhead => ?_) h
    · simp only [lzDecode, hhead]
    · simp only [lzDecode, hhead]
      exact lzItems_okHas _ _ _ _ (Nat.zero_le _)
  · exact okHas_of_head (fun c hhead => by simp only [hufDecode, hhead])
      (fun size stream hhead => hufDecode_okHas (.inl rfl) hhead) h
  · exact okHas_of_head (fun c hhead => by simp only [hufDecode, hhead])
      (fun size stream hhead => hufDecode_okHas (.inr rfl) hhead) h

end Sys2Proof.Machine
end

section
/-! SUPPORT. The encode commands (spec/40_rle.md R62, spec/41_huffman.md R68 to R80, spec/42_lz77.md R94): what they leave, and
exactly when a Huffman encode raises its codes (spec/60_exceptions.md R104, R106). -/

namespace Sys2Proof.Machine

/-! ### What an encode command leaves -/

/-- An encoder's answer: its block is emitted, or its code is raised with nothing emitted. -/
def encodeAnswer (e : Env) : Except Code (List Byte) → Item
  | .ok block => Work.zero.emitAll e block
  | .error c => .raise c Work.zero

/-- Past EntryCheck an encode command answers with what encodeBlock gives for the input. -/
theorem exec_encode {i : Instr} {s : State} {res : Except Code (List Byte)} (hentry : ¬EntryFails s.lat)
    (h : encodeBlock s.cfg s.inBytes i = some res) :
    ∃ rle huf lz, exec i s = .next (State.take { s with rle := rle, huf := huf, lz := lz } (encodeAnswer s.env res)) := by
  cases i with
  | rleEnc =>
    obtain rfl := Option.some.inj h
    exact ⟨(rlePayload s.inBytes).1, s.huf, s.lz, by rw [exec, execRleEnc, runCommand_ok hentry]; rfl⟩
  | lzEnc =>
    obtain rfl := Option.some.inj h
    exact ⟨s.rle, s.huf, (lzPayload s.cfg.lzFill s.inBytes).1, by rw [exec, execLzEnc, runCommand_ok hentry]; rfl⟩
  | huf4Enc =>
    obtain rfl := Option.some.inj h
    exact ⟨s.rle, (hufEncode s.cfg Config.tagHuf4 4 s.inBytes).1, s.lz, by
      rw [exec, execHuf4Enc, runHufEnc, runCommand_ok hentry]; rfl⟩
  | huf8Enc =>
    obtain rfl := Option.some.inj h
    exact ⟨s.rle, (hufEncode s.cfg Config.tagHuf8 8 s.inBytes).1, s.lz, by
      rw [exec, execHuf8Enc, runHufEnc, runCommand_ok hentry]; rfl⟩
  | _ => cases h

section Completes
variable {s : State} (hentry : ¬EntryFails s.lat) (hspec : s.disturbed = false) (hwf : s.mem.wf = true) {w : Work}
  (hlen : w.out.length ≤ s.lat.dstCap.toNat) (rle : RleScratch) (huf : HufScratch) (lz : LzScratch)
include hentry hspec hwf hlen

/-- A command past EntryCheck that answers OK leaves its output in the DST region (R23). -/
theorem take_ok_completedWith :
    CompletedWith s (.ok w.out) (State.take { s with rle := rle, huf := huf, lz := lz } (.ok w)) := by
  obtain ⟨hout, hin, hrest⟩ :=
    State.LeftAlone.read_output (s := { s with input := [] }) ⟨hspec, rfl, hwf, hentry⟩ hlen
  have hcap := s.lat.dstCap.isLt
  rw [State.take_ok, completeOk_specified (by exact hspec)]
  refine ⟨rfl, rfl, rfl, rfl, hout, rfl, ?_, hin, hrest⟩
  simp
  omega

/-- A command past EntryCheck that raises a code frees the bytes it has emitted and no others (R23, R111). -/
theorem take_raise_completedWith (c : Code) :
    CompletedWith s (.fail c w.out.length)
      (State.take { s with rle := rle, huf := huf, lz := lz } (.raise c w)) := by
  obtain ⟨hout, hin, hrest⟩ :=
    State.LeftAlone.read_output (s := { s with input := [] }) (bs := freeBytes s.free w.out.length)
      ⟨hspec, rfl, hwf, hentry⟩ (by simpa using hlen)
  simp only [freeBytes_length] at hin hrest
  rw [State.take_raise, completeFail_specified (by exact hspec)]
  exact ⟨rfl, rfl, rfl, rfl, hout, rfl, rfl, ⟨s.free, fun i hi => (hin i hi).trans (freeBytes_getD hi)⟩, hrest⟩

end Completes

/-- Settles O19: the block fits, so the answer is OK. -/
theorem encodersWriteTheirBlock : Obligations.EncodersWriteTheirBlock := by
  intro i s block hentry hspec hwf hblock hfits
  obtain ⟨rle, huf, lz, hexec⟩ := exec_encode hentry hblock
  rw [encodeAnswer, Work.emitAll, if_pos (by exact hfits)] at hexec
  exact ⟨_, hexec, take_ok_completedWith (w := { Work.zero with out := block }) hentry hspec hwf hfits rle huf lz⟩

/-! ### When a Huffman encode raises INVALID_INPUT -/

/-- Fewer than four bytes make no symbol, and four or more do (R69). -/
theorem wordSymbols_eq_nil_iff {w : Nat} (hw : 0 < 32 / w) (bs : List Byte) : wordSymbols w bs = [] ↔ bs.length < 4 := by
  obtain ⟨n, hn⟩ := Nat.exists_eq_add_one.mpr hw
  match bs with
  | [] => simp [wordSymbols]
  | [_] => simp [wordSymbols]
  | [_, _] => simp [wordSymbols]
  | [_, _, _] => simp [wordSymbols]
  | b0 :: b1 :: b2 :: b3 :: rest => simp [wordSymbols, hn, wordFields]

/-- P_HUF_TAIL refuses the length or leaves no symbols, or there are symbols (R69, R104 (b), (c)). -/
theorem hufScan_cases (tail : Config.HufTail) {w : Nat} (hw : 0 < 32 / w) {inp : List Byte} (hpos : 1 ≤ inp.length) :
    (hufRefused tail inp.length ∧ (hufScan tail w inp = none ∨ hufScan tail w inp = some []))
    ∨ (¬hufRefused tail inp.length ∧ ∃ sym syms, hufScan tail w inp = some (sym :: syms)) := by
  have hsome : ∀ bs : List Byte, 4 ≤ bs.length → ∃ sym syms, some (wordSymbols w bs) = some (sym :: syms) := by
    intro bs hlen
    obtain ⟨sym, syms, hsyms⟩ := List.exists_cons_of_ne_nil
      (mt (wordSymbols_eq_nil_iff hw bs).mp (Nat.not_lt.mpr hlen))
    exact ⟨sym, syms, congrArg some hsyms⟩
  cases tail with
  | pad =>
    refine .inr ⟨by simp [hufRefused], hsome _ ?_⟩
    simp only [List.length_append, List.length_replicate]
    omega
  | truncate =>
    rcases Nat.lt_or_ge inp.length 4 with hshort | hlong
    · refine .inl ⟨.inl ⟨rfl, hshort⟩, .inr (congrArg some ((wordSymbols_eq_nil_iff hw _).mpr ?_))⟩
      exact (List.length_take_le' _ _).trans_lt hshort
    · refine .inr ⟨by simp [hufRefused]; omega, hsome _ ?_⟩
      simp only [List.length_take]
      omega
  | reject =>
    by_cases hmod : inp.length % 4 = 0
    · refine .inr ⟨by simp [hufRefused, hmod], ?_⟩
      rw [hufScan, if_neg (by simpa using hmod)]
      exact hsome _ (by omega)
    · exact .inl ⟨.inr ⟨rfl, hmod⟩, .inl (by rw [hufScan, if_pos hmod])⟩

/-! ### When a leaf is too deep -/

/-- The walk from a node finds no root in n levels (R75). -/
theorem hufWalkUp_eq_none_iff (h : HufScratch) (n z c l : Nat) :
    hufWalkUp h n z c l = none ↔ ∀ k < n, h.above k z ≠ h.root := by
  induction n generalizing z c l with
  | zero => simp [hufWalkUp]
  | succ n ih =>
    rw [hufWalkUp, Nat.forall_lt_succ_left]
    by_cases hz : z = h.root
    · simp [hz, HufScratch.above]
    · rw [if_neg hz, ih]
      simp [hz, HufScratch.above]

/-- CodeGen writes codes and their lengths; the tree it walks stays. -/
theorem hufWalkUp_setCodes (h : HufScratch) (code clen : List (Nat × Nat)) (n z c l : Nat) :
    hufWalkUp { h with code := code, clen := clen } n z c l = hufWalkUp h n z c l := by
  induction n generalizing z c l with
  | zero => rfl
  | succ n ih =>
    rw [hufWalkUp, hufWalkUp, ih]
    rfl

/-- CodeGen fails exactly where the walk from one of the leaves does (R75). -/
theorem hufCodeGen_eq_none_iff (ys : List Nat) (h : HufScratch) :
    hufCodeGen ys h = none ↔ ∃ y ∈ ys, hufWalkUp h 32 y 0 0 = none := by
  induction ys generalizing h with
  | nil => simp [hufCodeGen]
  | cons y ys ih =>
    cases hwalk : hufWalkUp h 32 y 0 0 with
    | none => simp [hufCodeGen, hwalk]
    | some found => simp [hufCodeGen, hwalk, ih, hufWalkUp_setCodes]

/-- What CodeGen leaves (R75): everything but the codes and their lengths. -/
theorem hufCodeGen_eq_some {ys : List Nat} {h h' : HufScratch} (hgen : hufCodeGen ys h = some h') :
    ∃ code clen, h' = { h with code := code, clen := clen } := by
  induction ys generalizing h with
  | nil => exact ⟨h.code, h.clen, (Option.some.inj hgen).symm⟩
  | cons y ys ih =>
    cases hwalk : hufWalkUp h 32 y 0 0 with
    | none => simp [hufCodeGen, hwalk] at hgen
    | some found =>
      simp only [hufCodeGen, hwalk] at hgen
      obtain ⟨code, clen, rfl⟩ := ih hgen
      exact ⟨code, clen, rfl⟩

theorem hufCodeGen_eq_none_iff_tooDeep (h : HufScratch) : hufCodeGen h.leaves h = none ↔ h.tooDeep := by
  simp only [hufCodeGen_eq_none_iff, hufWalkUp_eq_none_iff]
  rfl

/-! ### When a branch offset is too large -/

/-- The offset of a branch at table index t before P_HUF_OFFSET is applied (R77). -/
def HufScratch.branchOffset (h : HufScratch) (t x : Nat) : Nat :=
  (cellGet 0 h.idx (h.lc x) - 1 - clearBit0 (t + 1)) / 2

theorem hufBranchByte_eq_none_iff (policy : Config.HufOffset) (t c : Nat) (ll rl : Bool) :
    hufBranchByte policy t c ll rl = none ↔ policy = .fail ∧ 63 < (c - 1 - clearBit0 (t + 1)) / 2 := by
  unfold hufBranchByte
  by_cases hbig : 63 < (c - 1 - clearBit0 (t + 1)) / 2
  · cases policy <;> simp [hbig]
  · simp [hbig]

/-- The table fails exactly where P_HUF_OFFSET = fail meets a branch with an offset above 63 (R77). -/
theorem hufNodes_eq_none_iff (cfg : Config.Params) (alphabet : Nat) (h : HufScratch) (t : Nat) (xs : List Nat) :
    hufNodes cfg alphabet h t xs = none ↔
      cfg.hufOffset = .fail
      ∧ ∃ i x, xs[i]? = some x ∧ isLeafId alphabet x = false ∧ 63 < h.branchOffset (t + i) x := by
  induction xs generalizing t with
  | nil => simp [hufNodes]
  | cons x xs ih =>
    have hnode : hufNodes cfg alphabet h t (x :: xs) = none ↔
        (isLeafId alphabet x = false ∧ cfg.hufOffset = .fail ∧ 63 < h.branchOffset t x)
        ∨ hufNodes cfg alphabet h (t + 1) xs = none := by
      cases hleaf : isLeafId alphabet x with
      | true => cases hrest : hufNodes cfg alphabet h (t + 1) xs <;> simp [hufNodes, hleaf, hrest]
      | false =>
        rw [HufScratch.branchOffset, ← hufBranchByte_eq_none_iff (ll := isLeafId alphabet (h.lc x))
          (rl := isLeafId alphabet (h.rc x))]
        cases hbyte : hufBranchByte cfg.hufOffset t (cellGet 0 h.idx (h.lc x)) (isLeafId alphabet (h.lc x))
          (isLeafId alphabet (h.rc x)) <;>
          cases hrest : hufNodes cfg alphabet h (t + 1) xs <;> simp [hufNodes, hleaf, hbyte, hrest]
    rw [hnode, ih]
    constructor
    · rintro (⟨hleaf, hfail, hbig⟩ | ⟨hfail, i, y, hy, hleaf, hbig⟩)
      · exact ⟨hfail, 0, x, rfl, hleaf, hbig⟩
      · exact ⟨hfail, i + 1, y, hy, hleaf, by rwa [Nat.add_right_comm] at hbig⟩
    · rintro ⟨hfail, i, y, hy, hleaf, hbig⟩
      cases i with
      | zero =>
        obtain rfl : x = y := Option.some.inj hy
        exact .inl ⟨hleaf, hfail, hbig⟩
      | succ i => exact .inr ⟨hfail, i, y, hy, hleaf, by rwa [Nat.add_right_comm]⟩

/-- The tiers do not depend on the codes. -/
theorem hufTiers_setCodes (alphabet : Nat) (h : HufScratch) (code clen : List (Nat × Nat)) (n : Nat) (tier : List Nat) :
    hufTiers alphabet { h with code := code, clen := clen } n tier = hufTiers alphabet h n tier := by
  induction n generalizing tier with
  | zero => rfl
  | succ n ih =>
    rw [hufTiers, hufTiers, ih]
    rfl

/-- Some branch offset of the table exceeds 63. -/
theorem exists_offset_iff (h : HufScratch) (alphabet : Nat) :
    (∃ off ∈ h.offsets alphabet, 63 < off) ↔
      ∃ t x, (hufTiers alphabet h 512 [h.root])[t]? = some x ∧ isLeafId alphabet x = false
        ∧ 63 < HufScratch.branchOffset { h with idx := hufIndices 0 (hufTiers alphabet h 512 [h.root]) [] } t x := by
  unfold HufScratch.offsets
  generalize hufTiers alphabet h 512 [h.root] = order
  simp only [List.mem_filterMap, List.mem_range]
  constructor
  · rintro ⟨off, ⟨t, ht, hoff⟩, hbig⟩
    rw [List.getD_eq_getElem _ _ ht] at hoff
    split_ifs at hoff with hleaf
    obtain rfl := Option.some.inj hoff
    exact ⟨t, order[t], List.getElem?_eq_getElem ht, by simpa using hleaf, hbig⟩
  · rintro ⟨t, x, hx, hleaf, hbig⟩
    obtain ⟨ht, rfl⟩ := List.getElem?_eq_some_iff.mp hx
    refine ⟨_, ⟨t, ht, ?_⟩, hbig⟩
    rw [List.getD_eq_getElem _ _ ht, if_neg (by simp [hleaf])]
    rfl

/-- Serialize fails exactly where a branch offset exceeds 63 under P_HUF_OFFSET = fail (R77, R106 (b)), whatever the codes
are. -/
theorem hufSerialize_eq_none_iff (cfg : Config.Params) (alphabet : Nat) (h : HufScratch) (code clen : List (Nat × Nat)) :
    hufSerialize cfg alphabet { h with code := code, clen := clen } = none ↔
      cfg.hufOffset = .fail ∧ ∃ off ∈ h.offsets alphabet, 63 < off := by
  rw [exists_offset_iff]
  have hnodes := hufNodes_eq_none_iff cfg alphabet
    { h with code := code, clen := clen, idx := hufIndices 0 (hufTiers alphabet h 512 [h.root]) [] } 0
    (hufTiers alphabet h 512 [h.root])
  simp only [Nat.zero_add] at hnodes
  refine Iff.trans ?_ hnodes
  simp only [hufSerialize, hufTiers_setCodes]
  split
  case h_1 hnone => exact iff_of_true rfl hnone
  case h_2 nodes hsome => exact iff_of_false (by simp) (by rw [hsome]; simp)

/-! ### Which code a Huffman encode raises -/

/-- With symbols at hand a Huffman encode raises nothing but ENCODING_OVERFLOW, where a leaf is too deep or an offset too
large (R106). -/
theorem hufEncode_scanned {cfg : Config.Params} (tag : Byte) {w : Nat} {inp : List Byte} {sym : Nat} {syms : List Nat}
    (hscan : hufScan cfg.hufTail w inp = some (sym :: syms)) :
    ((hufTree cfg w inp).tooDeep ∨ (cfg.hufOffset = .fail ∧ ∃ off ∈ (hufTree cfg w inp).offsets (2 ^ w), 63 < off))
        ∧ (hufEncode cfg tag w inp).2 = .error .encodingOverflow
    ∨ ¬((hufTree cfg w inp).tooDeep ∨ (cfg.hufOffset = .fail ∧ ∃ off ∈ (hufTree cfg w inp).offsets (2 ^ w), 63 < off))
        ∧ ∃ block, (hufEncode cfg tag w inp).2 = .ok block := by
  have htree : hufTree cfg w inp = hufBuildTree (2 ^ w) (hufLeafSet cfg.hufZero (2 ^ w) (hufTally (sym :: syms))) := by
    rw [hufTree, hscan]
    rfl
  have hdeep := hufCodeGen_eq_none_iff_tooDeep (hufTree cfg w inp)
  simp only [hufEncode, hscan, ← htree]
  cases hgen : hufCodeGen (hufTree cfg w inp).leaves (hufTree cfg w inp) with
  | none => exact .inl ⟨.inl (hdeep.mp hgen), rfl⟩
  | some h =>
    have hshallow : ¬(hufTree cfg w inp).tooDeep := by rw [← hdeep, hgen]; simp
    obtain ⟨code, clen, rfl⟩ := hufCodeGen_eq_some hgen
    have hoffset := hufSerialize_eq_none_iff cfg (2 ^ w) (hufTree cfg w inp) code clen
    cases hser : hufSerialize cfg (2 ^ w) { hufTree cfg w inp with code := code, clen := clen } with
    | none => exact .inl ⟨.inr (hoffset.mp hser), by simp [hser]⟩
    | some h' =>
      refine .inr ⟨?_, by simp [hser]⟩
      rw [← hoffset, hser]
      simp [hshallow]

/-- Exactly when a Huffman encode of a non-empty input raises each code (R104, R106). -/
theorem hufEncode_error_iff (cfg : Config.Params) (tag : Byte) {w : Nat} (hw : 0 < 32 / w) {inp : List Byte}
    (hpos : 1 ≤ inp.length) :
    ((hufEncode cfg tag w inp).2 = .error .invalidInput ↔ hufRefused cfg.hufTail inp.length)
    ∧ ((hufEncode cfg tag w inp).2 = .error .encodingOverflow ↔
        ¬hufRefused cfg.hufTail inp.length
        ∧ ((hufTree cfg w inp).tooDeep
          ∨ (cfg.hufOffset = .fail ∧ ∃ off ∈ (hufTree cfg w inp).offsets (2 ^ w), 63 < off))) := by
  rcases hufScan_cases cfg.hufTail hw hpos with ⟨hrefused, hscan⟩ | ⟨hgoes, sym, syms, hscan⟩
  · have hres : (hufEncode cfg tag w inp).2 = .error .invalidInput := by
      rcases hscan with hscan | hscan <;> simp [hufEncode, hscan]
    simp [hres, hrefused]
  · rcases hufEncode_scanned tag hscan with ⟨hover, hres⟩ | ⟨hfits, block, hres⟩
    · simp only [hres, hgoes, hover]
      simp
    · simp only [hres, hgoes, hfits]
      simp

/-- A Huffman encode raises no other code before the first Emit. -/
theorem hufEncode_error {cfg : Config.Params} {tag : Byte} {w : Nat} {inp : List Byte} {c : Code}
    (h : (hufEncode cfg tag w inp).2 = .error c) : c = .invalidInput ∨ c = .encodingOverflow := by
  match hscan : hufScan cfg.hufTail w inp with
  | none => simp only [hufEncode, hscan] at h; cases h; exact .inl rfl
  | some [] => simp only [hufEncode, hscan] at h; cases h; exact .inl rfl
  | some (sym :: syms) =>
    rcases hufEncode_scanned tag hscan with ⟨-, hres⟩ | ⟨-, block, hres⟩
    · exact .inr (Except.error.inj (h.symm.trans hres))
    · cases h.symm.trans hres

/-- Only the Huffman encoders raise a code before the first Emit (R62, R94, R104, R106). -/
theorem encodeBlock_error {cfg : Config.Params} {inp : List Byte} {i : Instr} {c : Code}
    (h : encodeBlock cfg inp i = some (.error c)) :
    (c = .invalidInput ∨ c = .encodingOverflow) ∧ (i = .huf4Enc ∨ i = .huf8Enc) := by
  cases i with
  | huf4Enc => exact ⟨hufEncode_error (Option.some.inj h), .inl rfl⟩
  | huf8Enc => exact ⟨hufEncode_error (Option.some.inj h), .inr rfl⟩
  | _ => cases h

/-- Settles O20: the answer is a raise, at the capacity or before the first Emit. -/
theorem encodersReportFailure : Obligations.EncodersReportFailure := by
  refine ⟨fun i s hentry hspec hwf => ⟨fun block hblock hlong => ?_, fun c hblock => ?_⟩,
    fun cfg inp hpos form hform => ?_⟩
  · obtain ⟨rle, huf, lz, hexec⟩ := exec_encode hentry hblock
    rw [encodeAnswer, Work.emitAll, if_neg (by exact Nat.not_le.mpr hlong)] at hexec
    have hlen : (block.take s.lat.dstCap.toNat).length = s.lat.dstCap.toNat := by
      rw [List.length_take]
      omega
    have hdone := take_raise_completedWith (w := { Work.zero with out := block.take s.lat.dstCap.toNat }) hentry hspec
      hwf hlen.le rle huf lz .capacity
    exact ⟨_, hexec, by rwa [show List.length _ = _ from hlen] at hdone⟩
  · obtain ⟨hcode, hhuf⟩ := encodeBlock_error hblock
    obtain ⟨rle, huf, lz, hexec⟩ := exec_encode hentry hblock
    have hdone := take_raise_completedWith (w := Work.zero) hentry hspec hwf (Nat.zero_le _) rle huf lz c
    refine ⟨hcode, hhuf, _, hexec, hdone, ?_⟩
    rw [encodeAnswer, State.take_raise, completeFail_nothing_emitted (by exact hspec) rfl]
    rfl
  · simp only [List.mem_cons, List.not_mem_nil, or_false] at hform
    rcases hform with rfl | rfl
    · exact hufEncode_error_iff cfg _ (by decide) hpos
    · exact hufEncode_error_iff cfg _ (by decide) hpos

end Sys2Proof.Machine
end

section
/-! SUPPORT. No command reads a scratch cell before it writes it (spec/10_state.md R27): two machines that differ in scratch no
decoder is using go on to differ in such scratch only. -/

namespace Sys2Proof.Machine

/-- Two machines the host cannot tell apart (R24), with the same decoder scratch wherever a decoder is in its stream (R58). -/
structure State.Agrees (s s' : State) : Prop where
  visible : s'.visible = s.visible
  work : s.phase ≠ .idle → s.phase ≠ .command → s'.work = s.work

/-- The same of two outcomes. -/
inductive OutcomesAgree : Host.Outcome State Fault Refusal → Host.Outcome State Fault Refusal → Prop
  | next {t t' : State} (h : t.Agrees t') : OutcomesAgree (.next t) (.next t')
  | fault (f : Fault) : OutcomesAgree (.fault f) (.fault f)
  | refused (r : Refusal) : OutcomesAgree (.refused r) (.refused r)

theorem OutcomesAgree.visible {o o' : Host.Outcome State Fault Refusal} (h : OutcomesAgree o o') :
    visibleOutcome o' = visibleOutcome o := by
  cases h with
  | next h => exact congrArg Host.Outcome.next h.visible
  | fault f => rfl
  | refused r => rfl

/-- The second machine is the first with other scratch. -/
theorem State.Agrees.exists_scratch {s s' : State} (h : s.Agrees s') :
    ∃ w x y z, s' = { s with work := w, rle := x, huf := y, lz := z }
      ∧ (s.phase ≠ .idle → s.phase ≠ .command → w = s.work) := by
  refine ⟨s'.work, s'.rle, s'.huf, s'.lz, ?_, h.work⟩
  have hvisible := h.visible
  cases s
  cases s'
  simpa [State.visible] using hvisible

/-! ### An answer -/

section Answer
variable (s : State) (w : Work) (x x' : RleScratch) (y y' : HufScratch) (z z' : LzScratch)

/-- The same answer, taken over other scratch. -/
theorem agrees_take (it : Item) :
    State.Agrees (State.take { s with rle := x, huf := y, lz := z } it)
      (State.take { s with work := w, rle := x', huf := y', lz := z' } it) := by
  cases it with
  | go ph w' => exact ⟨rfl, fun _ _ => rfl⟩
  | ok w' =>
    have hidle := (completeOk_completed { s with rle := x, huf := y, lz := z, work := w' }).phase
    refine ⟨?_, fun hne => absurd hidle hne⟩
    simp only [State.take_ok, completeOk]
    cases s.disturbed <;> rfl
  | raise c w' =>
    have hidle := (completeFail_completed c { s with rle := x, huf := y, lz := z, work := w' }).phase
    refine ⟨?_, fun hne => absurd hidle hne⟩
    simp only [State.take_raise, completeFail]
    cases s.disturbed <;> rfl

/-- A command whose body gives one answer whatever the scratch was. -/
theorem agrees_runCommand {body : State → State} {it : Item}
    (hbody : ∀ x y z, ∃ x' y' z', body { s with work := Work.zero, rle := x, huf := y, lz := z }
      = State.take { s with rle := x', huf := y', lz := z' } it) :
    State.Agrees (runCommand s body) (runCommand { s with work := w, rle := x, huf := y, lz := z } body) := by
  by_cases hentry : EntryFails s.lat
  · rw [runCommand_fails hentry, runCommand_fails (by exact hentry)]
    exact agrees_take s w s.rle x s.huf y s.lz z (.raise .invalidInput Work.zero)
  · rw [runCommand_ok hentry, runCommand_ok (by exact hentry)]
    obtain ⟨x₁, y₁, z₁, h₁⟩ := hbody s.rle s.huf s.lz
    obtain ⟨x₂, y₂, z₂, h₂⟩ := hbody x y z
    refine Eq.subst (motive := fun t => State.Agrees t _) h₁.symm ?_
    refine Eq.subst (motive := fun t => State.Agrees _ t) h₂.symm ?_
    exact agrees_take s s.work x₁ x₂ y₁ y₂ z₁ z₂ it

theorem agrees_runHufEnc (tag : Byte) (width : Nat) :
    State.Agrees (runHufEnc tag width s) (runHufEnc tag width { s with work := w, rle := x, huf := y, lz := z }) :=
  agrees_runCommand s w x y z (it := encodeAnswer s.env (hufEncode s.cfg tag width s.inBytes).2) fun x _ z =>
    ⟨x, (hufEncode s.cfg tag width s.inBytes).1, z, rfl⟩

theorem agrees_decodeCommand :
    State.Agrees (runCommand s fun s => s.take (.go .header s.work))
      (runCommand { s with work := w, rle := x, huf := y, lz := z } fun s => s.take (.go .header s.work)) :=
  agrees_runCommand s w x y z (it := .go .header Work.zero) fun x y z => ⟨x, y, z, rfl⟩

/-- A command's turn does not look at old scratch, an arm at a time (R27). -/
theorem agrees_execCommand {i : Instr} (hi : i.grammar = .command) :
    OutcomesAgree (exec i s) (exec i { s with work := w, rle := x, huf := y, lz := z }) := by
  cases i with
  | rleEnc =>
    exact .next (agrees_runCommand s w x y z
      (it := Work.zero.emitAll s.env (rleBlock s.inBytes)) fun _ y z => ⟨(rlePayload s.inBytes).1, y, z, rfl⟩)
  | lzEnc =>
    exact .next (agrees_runCommand s w x y z
      (it := Work.zero.emitAll s.env (lzBlock s.cfg.lzFill s.inBytes)) fun x y _ => ⟨x, y, (lzPayload s.cfg.lzFill s.inBytes).1, rfl⟩)
  | huf4Enc => exact .next (agrees_runHufEnc s w x y z Config.tagHuf4 4)
  | huf8Enc => exact .next (agrees_runHufEnc s w x y z Config.tagHuf8 8)
  | rleDec | lzDec | huf4Dec | huf8Dec => exact .next (agrees_decodeCommand s w x y z)
  | _ => cases hi

/-- A stream unit looks at the decoder's own scratch only, which its command has written. -/
theorem agrees_execUnit {i : Instr} (hi : i.grammar ≠ .command) :
    OutcomesAgree (exec i s) (exec i { s with rle := x, huf := y, lz := z }) := by
  have htake (it : Item) :
      OutcomesAgree (.next (s.take it)) (.next (State.take { s with rle := x, huf := y, lz := z } it)) :=
    .next (agrees_take s s.work s.rle x s.huf y s.lz z it)
  cases i with
  | rleEnc | lzEnc | huf4Enc | huf8Enc | rleDec | lzDec | huf4Dec | huf8Dec => exact absurd rfl hi
  | _ => exact htake _

end Answer

/-! ### A turn of the engine -/

/-- What is fetched depends on the scratch only inside a stream. -/
theorem State.Agrees.fetch_eq {s s' : State} (h : s.Agrees s') : s'.fetch = s.fetch := by
  obtain ⟨w, x, y, z, rfl, hw⟩ := h.exists_scratch
  by_cases hidle : s.phase = .idle
  · simp [State.fetch, hidle, Work.grammar]
  by_cases hcommand : s.phase = .command
  · simp [State.fetch, hcommand, Work.grammar, State.fetchBytes, State.rejectCode]
  · obtain rfl := hw hidle hcommand
    rfl

/-- A unit is fetched in the phase of its kind. -/
theorem phase_of_fetch_unit {s : State} {i : Instr} (h : s.fetch = .unit i) : s.phase = phaseOf i.grammar := by
  unfold State.fetch at h
  split at h
  case h_1 => cases h
  case h_2 g hg =>
    split at h
    case h_1 hd =>
      cases h
      rw [grammar_of_decode hd]
      exact Work.grammar_phase hg
    case h_2 => cases h

theorem State.Agrees.failFetch {s s' : State} (h : s.Agrees s') (hidle : s.phase ≠ .idle) (c : Code) :
    (failFetch c s).Agrees (failFetch c s') := by
  obtain ⟨w, x, y, z, rfl, hw⟩ := h.exists_scratch
  by_cases hcommand : s.phase = .command
  · rw [Machine.failFetch, Machine.failFetch, if_pos hcommand, if_pos (by exact hcommand)]
    exact agrees_take s w s.rle x s.huf y s.lz z (.raise c Work.zero)
  · obtain rfl := hw hidle hcommand
    rw [Machine.failFetch, Machine.failFetch, if_neg hcommand, if_neg (by exact hcommand)]
    exact agrees_take s s.work s.rle x s.huf y s.lz z (.raise c s.work)

theorem State.Agrees.engineTurn {s s' : State} (h : s.Agrees s') :
    OutcomesAgree (engineTurn s) (engineTurn s') := by
  unfold Machine.engineTurn
  rw [h.fetch_eq]
  cases hf : s.fetch with
  | nothing => exact .next h
  | unit i =>
    have hphase := phase_of_fetch_unit hf
    obtain ⟨w, x, y, z, rfl, hw⟩ := h.exists_scratch
    by_cases hi : i.grammar = .command
    · exact agrees_execCommand s w x y z hi
    · obtain rfl := hw (hphase ▸ phaseOf_ne_idle _) (hphase ▸ phaseOf_ne_command hi)
      exact agrees_execUnit s x y z hi
  | fails c =>
    have hidle : s.phase ≠ .idle := by intro hidle; simp [State.fetch, hidle, Work.grammar] at hf
    exact .next (h.failFetch hidle c)

/-! ### An access of the host -/

/-- A register write of the host does not look at scratch, and START gives a command fresh scratch (R22, R27). -/
theorem State.Agrees.writeReg {s s' : State} (h : s.Agrees s') (r : Reg) (v : Word) :
    (s.writeReg r v).Agrees (s'.writeReg r v) := by
  obtain ⟨w, x, y, z, rfl, hw⟩ := h.exists_scratch
  unfold State.writeReg
  by_cases hb : s.busy = true
  · rw [if_pos hb, if_pos (by exact hb)]
    exact h
  rw [if_neg hb, if_neg (by exact hb)]
  cases r with
  | cmd =>
    unfold writeCmd
    by_cases hstart : v.getLsbD 31 = true
    · rw [if_pos hstart, if_pos hstart]
      exact ⟨rfl, fun _ _ => rfl⟩
    · rw [if_neg hstart, if_neg hstart]
      exact ⟨rfl, hw⟩
  | _ => exact ⟨rfl, hw⟩

theorem State.Agrees.hostMemRead {s s' : State} (h : s.Agrees s') (a : Addr) :
    (hostMemRead a s).Agrees (hostMemRead a s') := by
  obtain ⟨w, x, y, z, rfl, hw⟩ := h.exists_scratch
  unfold Machine.hostMemRead
  by_cases hfree : (s.busy && s.inDst a) = true
  · rw [if_pos hfree, if_pos (by exact hfree)]
    exact ⟨rfl, hw⟩
  · rw [if_neg hfree, if_neg (by exact hfree)]
    exact ⟨rfl, hw⟩

theorem State.Agrees.resetHardware {s s' : State} (h : s.Agrees s') :
    (resetHardware s).Agrees (resetHardware s') := by
  obtain ⟨w, x, y, z, rfl, hw⟩ := h.exists_scratch
  refine ⟨?_, fun hne => absurd rfl hne⟩
  unfold Machine.resetHardware
  cases s.busy <;> rfl

theorem State.Agrees.hostAccess {s s' : State} (h : s.Agrees s') (op : HostOp) :
    OutcomesAgree (hostAccess op s) (hostAccess op s') := by
  obtain ⟨w, x, y, z, hs', hw⟩ := h.exists_scratch
  have hreg (width : Nat) (a : Addr) : s'.regFor width a = s.regFor width a := by subst hs'; rfl
  have htouch (width : Nat) (a : Addr) : s'.touchesBlock width a = s.touchesBlock width a := by subst hs'; rfl
  cases op with
  | regRead width a =>
    simp only [Machine.hostAccess, hreg]
    cases s.regFor width a with
    | none => simp only [State.badAccess, htouch]; exact .refused _
    | some r => subst hs'; exact .next ⟨by cases r <;> rfl, hw⟩
  | regWrite width a v =>
    simp only [Machine.hostAccess, hreg]
    cases s.regFor width a with
    | none => simp only [State.badAccess, htouch]; exact .refused _
    | some r => exact .next (h.writeReg r v)
  | memRead a =>
    simp only [Machine.hostAccess, htouch]
    split_ifs
    · exact .refused _
    · exact .next (h.hostMemRead a)
  | memWrite a b =>
    simp only [Machine.hostAccess, htouch]
    split_ifs
    · exact .refused _
    · subst hs'; exact .next ⟨rfl, hw⟩
  | reset => exact .next h.resetHardware
  | busError => subst hs'; exact .next ⟨rfl, hw⟩

/-! ### A run -/

theorem State.Agrees.setInput {s s' : State} (h : s.Agrees s') (rest : List Event) :
    State.Agrees { s with input := rest } { s' with input := rest } := by
  obtain ⟨w, x, y, z, rfl, hw⟩ := h.exists_scratch
  exact ⟨rfl, hw⟩

theorem State.Agrees.step {s s' : State} (h : s.Agrees s') : OutcomesAgree (step s) (step s') := by
  have hinput : s'.input = s.input := by
    obtain ⟨w, x, y, z, rfl, -⟩ := h.exists_scratch
    rfl
  match hin : s.input with
  | [] =>
    rw [step_nil hin, step_nil (hinput.trans hin)]
    exact h.engineTurn
  | .engine :: rest =>
    rw [step_engine hin, step_engine (hinput.trans hin)]
    exact (h.setInput rest).engineTurn
  | .host op :: rest =>
    rw [step_host hin, step_host (hinput.trans hin)]
    exact (h.setInput rest).hostAccess op

theorem State.Agrees.run {s s' : State} (h : s.Agrees s') (k : Nat) :
    OutcomesAgree (Host.Core.run Sys2Proof.core k s) (Host.Core.run Sys2Proof.core k s') := by
  induction k generalizing s s' with
  | zero => exact .next h
  | succ k ih =>
    have hstep : OutcomesAgree (Sys2Proof.core.step s) (Sys2Proof.core.step s') := h.step
    generalize ho : Sys2Proof.core.step s = o at hstep
    generalize ho' : Sys2Proof.core.step s' = o' at hstep
    simp only [Host.Core.run, ho, ho']
    cases hstep with
    | next ht => exact ih ht
    | fault f => exact .fault f
    | refused r => exact .refused r

/-- Settles O21: machines that agree go on to agree, and where no decoder is in its stream any scratch agrees. -/
theorem commandsIgnoreOldScratch : Obligations.CommandsIgnoreOldScratch := by
  refine ⟨fun k s w x y z hph => ?_, fun i s w x y z hi => (agrees_execCommand s w x y z hi).visible⟩
  have hagrees : State.Agrees s { s with work := w, rle := x, huf := y, lz := z } :=
    ⟨rfl, fun hidle hcommand => absurd hph (by simp [hidle, hcommand])⟩
  exact (hagrees.run k).visible

end Sys2Proof.Machine
end

section
/-! SUPPORT. The host's accesses to memory (spec/20_memory.md R33, R41) and a bus error (spec/60_exceptions.md R120), as
steps. -/

namespace Sys2Proof.Machine

section Access
variable {s : State} {rest : List Event} {a : Addr}

/-- A byte write outside the register block is a write to memory. -/
theorem step_memWrite {b : Byte} (htouch : s.touchesBlock 1 a = false) (hin : s.input = .host (.memWrite a b) :: rest) :
    step s = .next (hostMemWrite a b { s with input := rest }) := by
  rw [step_host hin]
  simp only [hostAccess, State.touchesBlock_input, htouch, Bool.false_eq_true, if_false]

/-- A byte read outside the register block is a read of memory. -/
theorem step_memRead (htouch : s.touchesBlock 1 a = false) (hin : s.input = .host (.memRead a) :: rest) :
    step s = .next (hostMemRead a { s with input := rest }) := by
  rw [step_host hin]
  simp only [hostAccess, State.touchesBlock_input, htouch, Bool.false_eq_true, if_false]

theorem step_busError (hin : s.input = .host .busError :: rest) :
    step s = .next (hostBusError { s with input := rest }) := step_host hin

/-- Outside a running command's DST region a read returns memory's own byte (R33, R41 (c)). -/
theorem hostMemRead_outside (h : (s.busy && s.inDst a) = false) :
    hostMemRead a s = { s with rdata := (s.mem.read a).setWidth 32 } := by
  simp only [hostMemRead, h, Bool.false_eq_true, if_false]

theorem hostBusError_busy (h : s.busy = true) : hostBusError s = { s with disturbed := true } := by
  simp only [hostBusError, h, Bool.or_true]

theorem hostBusError_idle (h : s.busy = false) : hostBusError s = s := by
  have hmark : (s.disturbed || s.busy) = s.disturbed := by rw [h, Bool.or_false]
  rw [hostBusError, hmark]

end Access

/-- Settles O9: a write by read after write, a read outside the freed region, a bus error by BUSY. -/
theorem hostMemoryAccess : Obligations.HostMemoryAccess := by
  refine ⟨fun s rest a b hwf htouch hin => ?_, fun s rest a htouch houtside hin => ?_, fun s rest hin => ⟨?_, ?_⟩⟩
  · exact ⟨_, step_memWrite htouch hin, Memory.read_write_same hwf, fun a' hne => Memory.read_write_ne hwf hne, rfl, rfl⟩
  · rw [step_memRead htouch hin, hostMemRead_outside (s := { s with input := rest }) houtside]
  · intro hbusy
    rw [step_busError hin, hostBusError_busy (s := { s with input := rest }) hbusy]
  · intro hidle
    rw [step_busError hin, hostBusError_idle (s := { s with input := rest }) hidle]

end Sys2Proof.Machine
end

section
/-! SUPPORT. Decode and encode agree (spec/30_encoding.md R46 to R58): the header, the record byte, the token, the branch byte
and the payload word, each way, and which CMD values are commands. -/

namespace Sys2Proof

/-! ### From an instruction to its bytes and back -/

theorem Instr.wf_rleRun {len : Nat} : (Instr.rleRun len).wf = true ↔ 3 ≤ len ∧ len ≤ 130 := decide_eq_true_iff

theorem Instr.wf_rleLit {len : Nat} : (Instr.rleLit len).wf = true ↔ 1 ≤ len ∧ len ≤ 128 := decide_eq_true_iff

theorem Instr.wf_lzRef {len dist : Nat} :
    (Instr.lzRef len dist).wf = true ↔ 3 ≤ len ∧ len ≤ 18 ∧ 1 ≤ dist ∧ dist ≤ 4096 := decide_eq_true_iff

theorem Instr.wf_hufBranch {off : Nat} {ll rl : Bool} : (Instr.hufBranch off ll rl).wf = true ↔ off ≤ 63 :=
  decide_eq_true_iff

/-- A number below the range of n bytes is the number of its n bytes. -/
theorem leNat_leBytes_of_lt {n v : Nat} (h : v < 256 ^ n) : leNat (leBytes n v) = v := by
  rw [leNat_leBytes, Nat.mod_eq_of_lt h]

/-- A header's size bytes read back as the size (R48). -/
theorem decode_header_leBytes (tag : Byte) {size : Nat} (rest : List Byte) (h : size ≤ Config.sizeMax) :
    decode .header (tag :: leBytes 3 size ++ rest) = decodeHeader tag size rest := by
  have hsize : leNat (leBytes 3 size) = size := leNat_leBytes_of_lt (Nat.lt_succ_of_le h)
  change decodeHeader tag (leNat (leBytes 3 size)) rest = _
  rw [hsize]

/-- A run's header byte (R50). -/
theorem decodeRecord_encode_run {len : Nat} (h : 3 ≤ len ∧ len ≤ 130) :
    decodeRecord (BitVec.ofNat 8 (0x80 + (len - 3))).toNat = .rleRun len := by
  have hbyte : (BitVec.ofNat 8 (0x80 + (len - 3))).toNat = 128 + (len - 3) := by
    rw [BitVec.toNat_ofNat]
    omega
  rw [Machine.decodeRecord_run (by omega), hbyte]
  congr 1
  omega

/-- A literal record's header byte (R50). -/
theorem decodeRecord_encode_lit {len : Nat} (h : 1 ≤ len ∧ len ≤ 128) :
    decodeRecord (BitVec.ofNat 8 (len - 1)).toNat = .rleLit len := by
  have hbyte : (BitVec.ofNat 8 (len - 1)).toNat = len - 1 := by
    rw [BitVec.toNat_ofNat]
    omega
  rw [Machine.decodeRecord_lit (by omega), hbyte, Nat.sub_add_cancel h.1]

/-- A token's two bytes (R52). -/
theorem decode_encode_lzRef {len dist : Nat} (rest : List Byte) (h : 3 ≤ len ∧ len ≤ 18 ∧ 1 ≤ dist ∧ dist ≤ 4096) :
    decode .lzRef (encode (.lzRef len dist) ++ rest) = .instr (.lzRef len dist) rest := by
  have h0 : (BitVec.ofNat 8 ((len - 3) * 16 + (dist - 1) / 256)).toNat = (len - 3) * 16 + (dist - 1) / 256 := by
    rw [BitVec.toNat_ofNat]
    omega
  have h1 : (BitVec.ofNat 8 ((dist - 1) % 256)).toNat = (dist - 1) % 256 := by
    rw [BitVec.toNat_ofNat]
    omega
  have hlen : ((len - 3) * 16 + (dist - 1) / 256) / 16 + 3 = len := by omega
  have hdist : ((len - 3) * 16 + (dist - 1) / 256) % 16 * 256 + (dist - 1) % 256 + 1 = dist := by omega
  have htoken := Machine.decodeToken_bytes (BitVec.ofNat 8 ((len - 3) * 16 + (dist - 1) / 256))
    (BitVec.ofNat 8 ((dist - 1) % 256))
  rw [h0, h1, hlen, hdist] at htoken
  simp only [encode, decode, List.cons_append, List.nil_append, h0, h1, htoken]

/-- A branch byte's three fields, as numbers (R54). -/
theorem decodeBranch_eq {n : Nat} (h : n < 256) :
    decodeBranch n = .hufBranch (n % 64) (decide (n / 128 = 1)) (decide (n / 64 % 2 = 1)) := by
  have hoff : field n 5 0 = n % 64 := by simp [field]
  have hll : field n 7 7 = n / 128 := by simp only [field]; omega
  have hrl : field n 6 6 = n / 64 % 2 := by simp [field]
  rw [decodeBranch, hoff, hll, hrl]

/-- A branch byte's three fields read back (R54). -/
theorem decodeBranch_encode {off : Nat} (ll rl : Bool) (h : off ≤ 63) :
    decodeBranch (BitVec.ofNat 8 ((if ll then 128 else 0) + (if rl then 64 else 0) + off)).toNat
      = .hufBranch off ll rl := by
  have hbyte : (BitVec.ofNat 8 ((if ll then 128 else 0) + (if rl then 64 else 0) + off)).toNat
      = ll.toNat * 128 + rl.toNat * 64 + off := by
    cases ll <;> cases rl <;> simp <;> omega
  have hll := ll.toNat_le
  have hrl := rl.toNat_le
  have h0 : (ll.toNat * 128 + rl.toNat * 64 + off) % 64 = off := by omega
  have h1 : (ll.toNat * 128 + rl.toNat * 64 + off) / 128 = ll.toNat := by omega
  have h2 : (ll.toNat * 128 + rl.toNat * 64 + off) / 64 % 2 = rl.toNat := by omega
  rw [hbyte, decodeBranch_eq (by omega), h0, h1, h2]
  cases ll <;> cases rl <;> rfl

/-- A payload word reads back from its four bytes (R56). -/
theorem decode_encode_hufWord (c : Word) (rest : List Byte) :
    decode .hufWord (encode (.hufWord c) ++ rest) = .instr (.hufWord c) rest := by
  have hword : leNat (leBytes 4 c.toNat) = c.toNat := leNat_leBytes_of_lt c.isLt
  change Decoded.instr (.hufWord (BitVec.ofNat 32 (leNat (leBytes 4 c.toNat)))) rest = _
  rw [hword, BitVec.ofNat_toNat, BitVec.setWidth_eq]

/-- Settles O11, constructor by constructor: a command's CMD value is closed, and every other unit's fields read back as its
operands, which lie in their ranges. -/
theorem decodeOfEncodeIsTheInstruction : Obligations.DecodeOfEncodeIsTheInstruction := by
  intro i rest hwf
  cases i with
  | hdrLz77 size | hdrHuffman4 size | hdrHuffman8 size | hdrRle size =>
    exact decode_header_leBytes _ rest (of_decide_eq_true hwf)
  | rleRun len => exact congrArg (Decoded.instr · rest) (decodeRecord_encode_run (Instr.wf_rleRun.mp hwf))
  | rleLit len => exact congrArg (Decoded.instr · rest) (decodeRecord_encode_lit (Instr.wf_rleLit.mp hwf))
  | lzRef len dist => exact decode_encode_lzRef rest (Instr.wf_lzRef.mp hwf)
  | hufBranch off ll rl =>
    exact congrArg (Decoded.instr · rest) (decodeBranch_encode ll rl (Instr.wf_hufBranch.mp hwf))
  | hufWord c => exact decode_encode_hufWord c rest
  | _ => rfl

/-! ### From bytes to an instruction and back -/

/-- A header's instruction holds its tag and its size, which 24 bits hold (R48). -/
theorem encode_of_decodeHeader {tag : Byte} {size : Nat} {rest rest' : List Byte} {i : Instr}
    (h : decodeHeader tag size rest = .instr i rest') (hsize : size ≤ Config.sizeMax) :
    i.wf = true ∧ encode i ++ rest' = tag :: leBytes 3 size ++ rest := by
  unfold decodeHeader at h
  split_ifs at h <;> cases h <;> simp_all [Instr.wf, encode]

/-- A record byte's instruction is well-formed and has that byte alone (R50). -/
theorem encode_decodeRecord (h : Byte) : (decodeRecord h.toNat).wf = true ∧ encode (decodeRecord h.toNat) = [h] := by
  have hlt := h.isLt
  by_cases hrun : 128 ≤ h.toNat
  · have hbyte : 0x80 + (h.toNat - 128 + 3 - 3) = h.toNat := by omega
    rw [Machine.decodeRecord_run hrun, encode, hbyte]
    exact ⟨Instr.wf_rleRun.mpr (by omega), by simp⟩
  · rw [Machine.decodeRecord_lit (by omega), encode, Nat.add_sub_cancel]
    exact ⟨Instr.wf_rleLit.mpr (by omega), by simp⟩

/-- A token's instruction is well-formed and has those two bytes alone (R52). -/
theorem encode_decodeToken (t0 t1 : Byte) :
    (decodeToken (t0.toNat * 256 + t1.toNat)).wf = true
    ∧ encode (decodeToken (t0.toNat * 256 + t1.toNat)) = [t0, t1] := by
  have h0 := t0.isLt
  have h1 := t1.isLt
  have hhigh : (t0.toNat / 16 + 3 - 3) * 16 + (t0.toNat % 16 * 256 + t1.toNat + 1 - 1) / 256 = t0.toNat := by omega
  have hlow : (t0.toNat % 16 * 256 + t1.toNat + 1 - 1) % 256 = t1.toNat := by omega
  rw [Machine.decodeToken_bytes, encode, hhigh, hlow]
  exact ⟨Instr.wf_lzRef.mpr (by omega), by simp⟩

/-- A branch byte's instruction is well-formed and has that byte alone (R54). -/
theorem encode_decodeBranch (n : Byte) : (decodeBranch n.toNat).wf = true ∧ encode (decodeBranch n.toNat) = [n] := by
  have hn := n.isLt
  have hbyte : (if decide (n.toNat / 128 = 1) then 128 else 0) + (if decide (n.toNat / 64 % 2 = 1) then 64 else 0)
      + n.toNat % 64 = n.toNat := by
    simp only [decide_eq_true_eq]
    split_ifs <;> omega
  rw [decodeBranch_eq hn, encode, hbyte]
  exact ⟨Instr.wf_hufBranch.mpr (by omega), by simp⟩

/-- Every command is well-formed: it has no operands (R46). -/
theorem wf_of_mem_commandTable : ∀ row ∈ commandTable, row.2.wf = true := by decide

/-- Settles O12, kind by kind. -/
theorem encodeOfDecodeIsTheBytes : Obligations.EncodeOfDecodeIsTheBytes := by
  intro g bs rest i h
  have hg := Machine.grammar_of_decode h
  suffices hboth : i.wf = true ∧ (g ≠ .command → encode i ++ rest = bs) from ⟨hboth.1, hg, hboth.2⟩
  unfold decode at h
  split at h
  case h_1 => exact ⟨wf_of_mem_commandTable _ (Machine.mem_commandTable_of_decodeCommand h), fun hne => absurd rfl hne⟩
  case h_2 tag s0 s1 s2 tail =>
    have hsize : leNat [s0, s1, s2] < 16777216 := (leNat_lt _).trans_le (by simp)
    obtain ⟨hwf, hbytes⟩ := encode_of_decodeHeader h (Nat.le_of_lt_succ hsize)
    exact ⟨hwf, fun _ => hbytes.trans (congrArg (tag :: · ++ tail) (leBytes_leNat [s0, s1, s2]))⟩
  case h_3 b tail =>
    cases h
    exact ⟨(encode_decodeRecord b).1, fun _ => by rw [(encode_decodeRecord b).2]; rfl⟩
  case h_6 t0 t1 tail =>
    cases h
    exact ⟨(encode_decodeToken t0 t1).1, fun _ => by rw [(encode_decodeToken t0 t1).2]; rfl⟩
  case h_8 n tail =>
    cases h
    exact ⟨(encode_decodeBranch n).1, fun _ => by rw [(encode_decodeBranch n).2]; rfl⟩
  case h_10 b0 b1 b2 b3 tail =>
    cases h
    have hword : (BitVec.ofNat 32 (leNat [b0, b1, b2, b3])).toNat = leNat [b0, b1, b2, b3] := by
      have hlt : leNat [b0, b1, b2, b3] < 2 ^ 32 := (leNat_lt _).trans_le (by simp)
      rw [BitVec.toNat_ofNat, Nat.mod_eq_of_lt hlt]
    refine ⟨rfl, fun _ => ?_⟩
    rw [encode, hword]
    exact congrArg (· ++ rest) (leBytes_leNat [b0, b1, b2, b3])
  case h_11 => cases h
  all_goals
    cases h
    exact ⟨rfl, fun _ => rfl⟩

/-- Settles O13: bytes of the unit's length are that many bytes, and each such pattern has its instruction. -/
theorem everyStreamUnitDecodes : Obligations.EveryStreamUnitDecodes := by
  intro g bs rest hcommand hheader hlen
  cases g with
  | command => exact absurd rfl hcommand
  | header => exact absurd rfl hheader
  | lzRef =>
    obtain ⟨t0, t1, rfl⟩ := List.length_eq_two.mp hlen
    exact ⟨_, rfl⟩
  | hufWord =>
    match bs, hlen with
    | [_, _, _, _], _ => exact ⟨_, rfl⟩
  | _ =>
    obtain ⟨b, rfl⟩ := List.length_eq_one_iff.mp hlen
    exact ⟨_, rfl⟩

/-! ### Which CMD values are commands -/

/-- A CMD value given as its four bytes is decoded as that value (R46). -/
theorem decode_command_leBytes (w : Word) : decode .command (leBytes 4 w.toNat) = decodeCommand w.toNat [] := by
  have hword : leNat (leBytes 4 w.toNat) = w.toNat := leNat_leBytes_of_lt w.isLt
  change decodeCommand (leNat (leBytes 4 w.toNat)) [] = _
  rw [hword]

/-- START is bit 31 (R46). -/
theorem field_start (w : Word) : field w.toNat 31 31 = (w.getLsbD 31).toNat := by
  rw [BitVec.getLsbD, Nat.toNat_testBit]
  rfl

/-- DIR and TAG are bits 8:0 (R46). -/
theorem field_op (w : Word) : field w.toNat 8 0 = (w.setWidth 9).toNat := by
  simp [field]

/-- The keys of the command table are the four tags, each with either DIR (R46). -/
theorem lookup_commandTable (op : BitVec 9) :
    (commandTable.lookup op.toNat).isSome ↔ op.setWidth 8 ∈ [Config.tagLz, Config.tagHuf4, Config.tagHuf8, Config.tagRle] := by
  have hop := op.isLt
  rw [List.lookup_isSome_iff]
  simp [commandTable, BitVec.toNat_eq]
  omega

/-- Settles O14: decoding looks at START and at bits 8:0 only, and the command table lists the four tags. -/
theorem commandWordFieldsDecide : Obligations.CommandWordFieldsDecide := by
  intro w w'
  simp only [decode_command_leBytes, decodeCommand, field_start, field_op]
  refine ⟨fun hstart hop => by rw [hstart, hop], ?_⟩
  have htag := lookup_commandTable (w.setWidth 9)
  rw [BitVec.setWidth_setWidth_of_le _ (by decide)] at htag
  rw [← htag]
  cases w.getLsbD 31 <;> cases commandTable.lookup (w.setWidth 9).toNat <;> simp

/-- Settles O15 by evaluation: each unit is written out. -/
theorem writtenOutWordsDecode : Obligations.WrittenOutWordsDecode := by
  unfold Obligations.WrittenOutWordsDecode
  decide

end Sys2Proof
end

section
/-! SUPPORT. What single units do to the machine (spec/30_encoding.md R46 to R58): the headers, the items of an LZ77 group, the
units of a Huffman block, and the step that runs the unit at hand. -/

namespace Sys2Proof.Machine

/-! ### Headers -/

/-- A header's answer, as the state it leaves (R64, R82, R97, R110). -/
theorem State.take_header (s : State) (tag : Byte) (minLen size : Nat) (next : Phase) :
    s.take (s.work.header s.env tag minLen size next) =
      if s.lat.tag ≠ tag then completeFail .formatMismatch s
      else if s.lat.srcLen.toNat < minLen then completeFail .malformed s
      else if size = 0 then completeFail .malformed { s with work := { s.work with size := size } }
      else if size > s.lat.dstCap.toNat then completeFail .capacity { s with work := { s.work with size := size } }
      else { s with phase := next, work := { s.work with size := size, p := 4 } } := by
  have hcases := Work.header_cases s.env tag minLen size next s.work
  simp only [State.env_tag, State.env_len, State.env_cap] at hcases
  rcases hcases with
    ⟨htag, hw⟩ | ⟨htag, hlen, hw⟩ | ⟨htag, hlen, hsize, hw⟩ | ⟨htag, hlen, hsize, hcap, hw⟩ |
    ⟨htag, hlen, hsize, hcap, hw⟩
  · rw [hw, if_pos (Ne.symm htag)]
    rfl
  · rw [hw, if_neg (not_not.mpr htag.symm), if_pos hlen]
    rfl
  · rw [hw, if_neg (not_not.mpr htag.symm), if_neg (Nat.not_lt.mpr hlen), if_pos hsize]
    rfl
  · rw [hw, if_neg (not_not.mpr htag.symm), if_neg (Nat.not_lt.mpr hlen), if_neg hsize.ne', if_pos hcap]
    rfl
  · rw [hw, if_neg (not_not.mpr htag.symm), if_neg (Nat.not_lt.mpr hlen), if_neg hsize.ne', if_neg (Nat.not_lt.mpr hcap)]
    rfl

/-- Settles O22: each of the four headers is the shared head with its own tag, length and next unit. -/
theorem headerChecksInOrder : Obligations.HeaderChecksInOrder := by
  intro s size row hrow
  simp only [headerRows, List.mem_cons, List.not_mem_nil, or_false] at hrow
  rcases hrow with rfl | rfl | rfl | rfl <;> exact congrArg Host.Outcome.next (State.take_header ..)

/-! ### Items of an LZ77 group -/

/-- What follows an item, as the state it leaves (R97, R98). -/
theorem State.take_afterItem (s : State) (w : Work) : s.take w.afterItem = afterLzItem s w := by
  unfold Work.afterItem afterLzItem
  split_ifs <;> rfl

/-- Settles O28: with room the literal is emitted, and what follows is what follows an item. -/
theorem lzLitEmitsItsByte : Obligations.LzLitEmitsItsByte := by
  intro s b hroom
  rw [exec, execLzLit, Work.lzLit_eq b (by exact hroom), State.take_afterItem]

/-- Settles O26: the group's eight items are still to come, the first by bit 7. -/
theorem lzFlagsOpensAGroup : Obligations.LzFlagsOpensAGroup := by
  intro s f hmore
  refine ⟨?_, rfl⟩
  rw [exec, execLzFlags, Work.lzFlags, State.take_afterItem, afterLzItem, if_neg (by exact Nat.not_le.mpr hmore)]
  rfl

/-! ### Units of a Huffman block -/

/-- Settles O30: a table inside the block starts the first walk, since a symbol is needed. -/
theorem hufSizeSetsUpTheWalk : Obligations.HufSizeSetsUpTheWalk := by
  intro s b hneed w
  rw [exec, execHufSize]
  by_cases hshort : 4 + (2 * b.toNat + 1) ≥ s.lat.srcLen.toNat
  · rw [if_pos hshort, Work.hufSize_short (by exact hshort)]
    rfl
  · rw [if_neg hshort, Work.hufSize_eq (by exact Nat.not_le.mp hshort) (by exact hneed.ne')]
    rfl

/-- Settles O32: the word is held and the bit cursor moves past it. -/
theorem hufWordHoldsTheWord : Obligations.HufWordHoldsTheWord := by
  intro s c
  rw [exec, execHufWord, Work.hufWord, State.take_go]

/-- A branch's answer, with the bit of the word that picks its child (R83, R84). -/
theorem Work.hufBranch_eq (off : Nat) (ll rl : Bool) (w : Work) :
    w.hufBranch off ll rl =
      let bit := w.cur.getLsbD (31 - w.bi)
      let child := w.q / 2 * 2 + 2 * off + 2 + bit.toNat
      if child > w.last then .raise .malformed { w with bi := (w.bi + 1) % 32 }
      else
        .go (if (bit = false ∧ ll = true) ∨ (bit = true ∧ rl = true) then .hufLeaf
              else if (w.bi + 1) % 32 = 0 then .hufWord else .hufBranch)
          { w with bi := (w.bi + 1) % 32, q := child } := by
  cases hbit : w.cur.getLsbD (31 - w.bi) with
  | false => cases ll <;> simp [Work.hufBranch, clearBit0, Work.nextBitPhase, hbit]
  | true => cases rl <;> simp [Work.hufBranch, clearBit0, Work.nextBitPhase, hbit]

/-- Settles O33: the walk leaves the table, or goes to the child its bit picks. -/
theorem hufBranchWalksOneBit : Obligations.HufBranchWalksOneBit := by
  intro s off ll rl bit child w
  rw [exec, execHufBranch, Work.hufBranch_eq]
  by_cases hpast : child > s.work.last
  · rw [if_pos hpast, if_pos hpast]
    rfl
  · rw [if_neg hpast, if_neg hpast]
    rfl

/-! ### The step -/

/-- Settles O10: the engine's turn on the state whose event is taken, or the host's access. -/
theorem stepRunsTheDecodedInstruction : Obligations.StepRunsTheDecodedInstruction := by
  refine ⟨fun s s' g i rest hnext hg hd => ?_, fun s s' g e hnext hg hd => ?_, fun s s' hnext hidle => ?_,
    fun s op rest hin => step_host hin⟩
  · rw [step_of_engineNext hnext, engineTurn_unit hg hd]
  · rw [step_of_engineNext hnext, engineTurn_rejected hg hd]
  · rw [step_of_engineNext hnext, engineTurn_idle hidle]

/-- The number of four bytes, least significant first, is the word they make side by side (R56). -/
theorem ofNat_leNat_eq_append (b0 b1 b2 b3 : Byte) :
    BitVec.ofNat 32 (leNat [b0, b1, b2, b3]) = b3 ++ b2 ++ b1 ++ b0 := by
  have h0 := b0.isLt
  have h1 := b1.isLt
  have h2 := b2.isLt
  have h3 := b3.isLt
  apply BitVec.eq_of_toNat_eq
  simp only [BitVec.toNat_append, BitVec.toNat_ofNat, leNat]
  rw [← Nat.shiftLeft_add_eq_or_of_lt h2, ← Nat.shiftLeft_add_eq_or_of_lt h1, ← Nat.shiftLeft_add_eq_or_of_lt h0]
  simp only [Nat.shiftLeft_eq]
  omega

/-- Settles O31: the four bytes at the bit cursor, where there are four, decode to HUF.WORD of the word they make. -/
theorem hufWordStepLoadsLittleEndian : Obligations.HufWordStepLoadsLittleEndian := by
  intro s s' hnext hph
  have hg : s'.work.grammar s'.phase = some .hufWord := by rw [hph]; rfl
  have hbytes : s'.fetchBytes .hufWord = (s'.env.tail s'.work.bp).take 4 := by
    rw [State.fetchBytes, if_neg (by decide), Env.window_eq_take_tail, hph]
    rfl
  rw [step_of_engineNext hnext]
  by_cases hend : s'.work.bp + 4 > s'.lat.srcLen.toNat
  · have hshort : decode .hufWord (s'.fetchBytes .hufWord) = .rejected .truncated := by
      refine decode_short ?_
      simp only [hbytes, List.length_take, Env.tail_length, State.env_len, Grammar.width]
      omega
    have hcode : s'.rejectCode = .malformed := by rw [State.rejectCode, hph]
    rw [if_pos hend, engineTurn_rejected_stream hg (by decide) hshort, hcode]
  · have hunit : decode .hufWord (s'.fetchBytes .hufWord) = .instr (.hufWord (s'.src (s'.work.bp + 3)
        ++ s'.src (s'.work.bp + 2) ++ s'.src (s'.work.bp + 1) ++ s'.src s'.work.bp)) [] := by
      rw [hbytes, Env.tail_eq_cons_four (by exact Nat.not_lt.mp hend)]
      exact congrArg (Decoded.instr · []) (congrArg Instr.hufWord (ofNat_leNat_eq_append ..))
    rw [if_neg hend, engineTurn_unit hg hunit, hufWordHoldsTheWord]

end Sys2Proof.Machine
end

section
/-! SUPPORT. The encoders' blocks (spec/30_encoding.md R48, R49) and the packing of Huffman codes into payload words
(spec/30_encoding.md R56, spec/41_huffman.md R80). -/

namespace Sys2Proof.Machine

/-! ### The frame of a block -/

/-- A block from its tag, its input's length and its payload: header, payload, padding (R48, R49). -/
def framedBlock (tag : Byte) (n : Nat) (payload : List Byte) : List Byte :=
  headerBytes tag n ++ payload ++ padBytes (headerBytes tag n ++ payload).length

/-- The header is the tag and the length's three bytes, least significant first (R48). -/
theorem headerBytes_eq (tag : Byte) (n : Nat) : headerBytes tag n = tag :: leBytes 3 n := by
  simp only [headerBytes, leBytes, Nat.div_div_eq_div_mul]

/-- Padding makes the length a multiple of 4 (R49). -/
theorem framedBlock_aligned (tag : Byte) (n : Nat) (payload : List Byte) : (framedBlock tag n payload).length % 4 = 0 := by
  rw [framedBlock, List.length_append, padBytes, List.length_replicate]
  omega

theorem framedBlock_tag (tag : Byte) (n : Nat) (payload : List Byte) : (framedBlock tag n payload).headD 0 = tag := rfl

/-- The size field reads back as the input's length, which 24 bits hold (R48). -/
theorem framedBlock_size (tag : Byte) {n : Nat} (payload : List Byte) (h : n ≤ Config.sizeMax) :
    leNat (((framedBlock tag n payload).drop 1).take 3) = n := by
  have hfield : ((framedBlock tag n payload).drop 1).take 3 = leBytes 3 n := by
    rw [framedBlock, headerBytes_eq]
    rfl
  rw [hfield, leNat_leBytes_of_lt (Nat.lt_succ_of_le h)]

/-- The block of a Huffman encode is framed (R68). -/
theorem hufEncode_framed {cfg : Config.Params} {tag : Byte} {w : Nat} {inp block : List Byte}
    (h : (hufEncode cfg tag w inp).2 = .ok block) : ∃ payload, block = framedBlock tag inp.length payload := by
  unfold hufEncode at h
  split at h
  · cases h
  · cases h
  · dsimp only at h
    split at h
    · cases h
    · split at h
      · cases h
      · cases h
        exact ⟨_, by rw [framedBlock, ← List.append_assoc]⟩

/-- Settles O49: all four encoders frame their payload with their family's tag. -/
theorem blocksAreTaggedAndAligned : Obligations.BlocksAreTaggedAndAligned := by
  intro cfg i inp block _ hmax hblock
  have hframed : ∀ {tag payload}, block = framedBlock tag inp.length payload →
      block.length % 4 = 0 ∧ [block.headD 0] = [tag] ∧ leNat ((block.drop 1).take 3) = inp.length := by
    rintro tag payload rfl
    exact ⟨framedBlock_aligned .., congrArg (fun b => [b]) (framedBlock_tag ..), framedBlock_size tag payload hmax⟩
  cases i with
  | rleEnc =>
    cases hblock
    exact hframed rfl
  | lzEnc =>
    cases hblock
    exact hframed rfl
  | huf4Enc =>
    obtain ⟨payload, hpayload⟩ := hufEncode_framed (Option.some.inj hblock)
    exact hframed hpayload
  | huf8Enc =>
    obtain ⟨payload, hpayload⟩ := hufEncode_framed (Option.some.inj hblock)
    exact hframed hpayload
  | _ => cases hblock

/-! ### Packing codes into words -/

@[simp] theorem bitsDown_zero (v : Nat) : bitsDown 0 v = [] := rfl

/-- Only the low n bits count. -/
theorem bitsDown_zeros (n : Nat) : bitsDown n 0 = List.replicate n false := by
  simp [bitsDown]

/-- The bits of two numbers side by side. -/
theorem bitsDown_add (n m v : Nat) {c : Nat} (hc : c < 2 ^ m) :
    bitsDown (n + m) (2 ^ m * v + c) = bitsDown n v ++ bitsDown m c := by
  refine List.ext_getElem (by simp [bitsDown]) fun i h1 _ => ?_
  replace h1 : i < n + m := by simpa [bitsDown] using h1
  simp only [bitsDown, List.getElem_append, List.getElem_map, List.getElem_range, List.length_map, List.length_range,
    Nat.testBit_two_pow_mul_add v hc]
  by_cases hi : i < n
  · rw [dif_pos hi, if_neg (by omega)]
    congr 1
    omega
  · rw [dif_neg hi, if_pos (by omega)]
    congr 1
    omega

/-- The bits of a code cut in two. -/
theorem bitsDown_cut (n m c : Nat) : bitsDown (n + m) c = bitsDown n (c / 2 ^ m) ++ bitsDown m (c % 2 ^ m) := by
  rw [← bitsDown_add n m _ (Nat.mod_lt c (by positivity)), Nat.div_add_mod]

/-- A word holds nb bits v at its top and a number x below them. -/
theorem or_shiftLeft_eq {v x nb : Nat} (hx : x < 2 ^ (32 - nb)) : v <<< (32 - nb) ||| x = 2 ^ (32 - nb) * v + x := by
  rw [← Nat.shiftLeft_add_eq_or_of_lt hx, Nat.shiftLeft_eq, Nat.mul_comm]

/-- What Pack has packed: the bits of its whole words, then the pending ones, which stand at the top of acc (R80). -/
def PacksTo (packed : List Nat × Nat × Nat) (bits : List Bool) : Prop :=
  ∃ v, packed.2.2 < 32 ∧ packed.2.1 = v <<< (32 - packed.2.2)
    ∧ packed.1.flatMap (bitsDown 32) ++ bitsDown packed.2.2 v = bits

/-- One code packed behind nb pending bits v: those bits, then the code's (R80). -/
theorem hufPackCode_packsTo {c l v nb : Nat} (hc : c < 2 ^ l) (hl : l ≤ 31) (hnb : nb < 32) :
    PacksTo (hufPackCode c l (v <<< (32 - nb)) nb) (bitsDown nb v ++ bitsDown l c) := by
  by_cases hfits : nb + l ≤ 32
  · have hsplit : 32 - nb = l + (32 - nb - l) := by omega
    have hshift : v <<< (32 - nb) ||| c <<< (32 - nb - l) = (2 ^ l * v + c) <<< (32 - nb - l) := by
      rw [hsplit, Nat.shiftLeft_add, Nat.add_sub_cancel_left, ← Nat.shiftLeft_or_distrib,
        ← Nat.shiftLeft_add_eq_or_of_lt hc, Nat.shiftLeft_eq v, Nat.mul_comm]
    by_cases hfull : nb + l = 32
    · have hzero : 32 - nb - l = 0 := by omega
      rw [hzero, Nat.shiftLeft_zero, Nat.shiftLeft_zero] at hshift
      simp only [PacksTo, hufPackCode, if_pos hfits, if_pos hfull, hzero, Nat.shiftLeft_zero, hshift]
      refine ⟨0, by omega, rfl, ?_⟩
      simp [← bitsDown_add nb l v hc, hfull]
    · simp only [PacksTo, hufPackCode, if_pos hfits, if_neg hfull, hshift]
      exact ⟨2 ^ l * v + c, by omega, by rw [Nat.sub_sub], by simp [bitsDown_add nb l v hc]⟩
  · have hhigh : c / 2 ^ (l - (32 - nb)) < 2 ^ (32 - nb) := by
      rw [Nat.div_lt_iff_lt_mul (by positivity), ← Nat.pow_add]
      exact hc.trans_le (Nat.pow_le_pow_right (by decide) (by omega))
    have hcut := bitsDown_cut (32 - nb) (l - (32 - nb)) c
    have hl' : 32 - nb + (l - (32 - nb)) = l := by omega
    have hword := bitsDown_add nb (32 - nb) v hhigh
    have h32 : nb + (32 - nb) = 32 := by omega
    rw [hl'] at hcut
    rw [h32] at hword
    simp only [PacksTo, hufPackCode, if_neg hfits, Nat.shiftRight_eq_div_pow, or_shiftLeft_eq hhigh]
    exact ⟨c % 2 ^ (l - (32 - nb)), by omega, rfl, by simp [hword, hcut]⟩

/-- Codes packed behind nb pending bits v: those bits, then the codes' in arrival order (R80). -/
theorem hufPack_packsTo (h : HufScratch) (syms : List Nat) (v nb : Nat) (hnb : nb < 32)
    (hcodes : ∀ s ∈ syms, cellGet 0 h.clen s ≤ 31 ∧ cellGet 0 h.code s < 2 ^ cellGet 0 h.clen s) :
    PacksTo (hufPack h syms (v <<< (32 - nb)) nb)
      (bitsDown nb v ++ syms.flatMap (fun s => bitsDown (cellGet 0 h.clen s) (cellGet 0 h.code s))) := by
  induction syms generalizing v nb with
  | nil => exact ⟨v, hnb, rfl, by simp [hufPack]⟩
  | cons s ss ih =>
    obtain ⟨hlen, hcode⟩ := hcodes s List.mem_cons_self
    obtain ⟨v1, hnb1, hacc1, hbits1⟩ := hufPackCode_packsTo (v := v) hcode hlen hnb
    obtain ⟨v2, hnb2, hacc2, hbits2⟩ := ih v1 _ hnb1 fun s' hs' => hcodes s' (List.mem_cons_of_mem _ hs')
    simp only [PacksTo, hufPack, hacc1]
    refine ⟨v2, hnb2, hacc2, ?_⟩
    rw [List.flatMap_append, List.append_assoc, hbits2, ← List.append_assoc, hbits1, List.flatMap_cons,
      List.append_assoc]

/-- Settles O56: the bits still pending after the last code are a word's top bits, and the rest of it is zero. -/
theorem packLaysCodesEndToEnd : Obligations.PackLaysCodesEndToEnd := by
  intro h syms hcodes
  obtain ⟨v, hnb, hacc, hbits⟩ := hufPack_packsTo h syms 0 0 (by decide) hcodes
  rw [Nat.zero_shiftLeft] at hnb hacc hbits
  rw [bitsDown_zero, List.nil_append] at hbits
  unfold hufWords
  by_cases hpending : (hufPack h syms 0 0).2.2 > 0
  · have hlast := bitsDown_add (hufPack h syms 0 0).2.2 (32 - (hufPack h syms 0 0).2.2) v (c := 0) (by positivity)
    rw [bitsDown_zeros, Nat.add_zero, Nat.mul_comm, ← Nat.shiftLeft_eq, ← hacc,
      Nat.add_sub_cancel' hnb.le] at hlast
    refine ⟨32 - (hufPack h syms 0 0).2.2, by omega, ?_⟩
    rw [if_pos hpending, List.flatMap_append, List.flatMap_singleton, hlast, ← List.append_assoc, hbits]
  · have hnone : (hufPack h syms 0 0).2.2 = 0 := by omega
    rw [hnone, bitsDown_zero, List.append_nil] at hbits
    exact ⟨0, by decide, by rw [if_neg hpending, hbits]; simp⟩

end Sys2Proof.Machine
end

section
/-! SUPPORT. The search trees of the LZ77 match index as link functions (spec/10_state.md R30, spec/42_lz77.md R87): what makes
them trees, and that taking a node out, putting a node in another's place and hanging a node on keep them so. -/

namespace Sys2Proof.Machine

/-- The links of the match index: the two kids of a node, true being rson, and its parent (R87). -/
structure Links where
  kid : Bool → Nat → Nat
  dad : Nat → Nat

/-- A node that is in a tree: a root, or a position with a parent (R87). -/
def Links.In (L : Links) (x : Nat) : Prop := Config.nil < x ∨ (x < Config.nil ∧ L.dad x ≠ Config.nil)

/-- The side of its parent on which a node hangs, as R91 and R92 test it. -/
def Links.side (L : Links) (p : Nat) : Bool := decide (L.kid true (L.dad p) = p)

/-- The trees of the match index. Every position in a tree has a place: a parent in a tree, of lesser rank and with the same
leading byte, and a side of it; and a node's kids are exactly the positions placed there. Ranks rise on every walk down, so no
walk meets a node twice. -/
structure Links.Tree (L : Links) (key : Nat → Byte) (rank : Nat → Nat) (sd : Nat → Bool) : Prop where
  kid_le : ∀ b x, L.In x → L.kid b x ≤ Config.nil
  parent : ∀ y, y < Config.nil → L.dad y ≠ Config.nil → L.In (L.dad y) ∧ key y = key (L.dad y) ∧ rank (L.dad y) < rank y
  kid_iff : ∀ b x y, L.In x → y < Config.nil → (L.kid b x = y ↔ L.dad y = x ∧ sd y = b)

/-- p is taken out and q, its only kid or NIL, takes its place (the tail of R92). -/
def Links.unlink (L : Links) (p q : Nat) : Links where
  kid b x := if x = L.dad p ∧ b = L.side p then q else L.kid b x
  dad y := if y = p then Config.nil else if y = q then L.dad p else L.dad y

/-- r takes p's place, with p's kids (R91). -/
def Links.replace (L : Links) (p r : Nat) : Links where
  kid b x := if x = r then L.kid b p else if x = L.dad p ∧ b = L.side p then r else L.kid b x
  dad y := if y = p then Config.nil else if y = r then L.dad p
    else if y = L.kid true p ∨ y = L.kid false p then r else L.dad y

/-- r, without kids, is hung on p's side b (R89). -/
def Links.hang (L : Links) (b : Bool) (p r : Nat) : Links where
  kid b' x := if x = r then Config.nil else if x = p ∧ b' = b then r else L.kid b' x
  dad y := if y = r then p else L.dad y

section Fields
variable (L : Links) (b b' : Bool) (p q r x y : Nat)
@[simp] theorem Links.unlink_kid :
    (L.unlink p q).kid b x = if x = L.dad p ∧ b = L.side p then q else L.kid b x := rfl
@[simp] theorem Links.unlink_dad :
    (L.unlink p q).dad y = if y = p then Config.nil else if y = q then L.dad p else L.dad y := rfl
@[simp] theorem Links.replace_kid :
    (L.replace p r).kid b x = if x = r then L.kid b p else if x = L.dad p ∧ b = L.side p then r else L.kid b x := rfl
@[simp] theorem Links.replace_dad :
    (L.replace p r).dad y = if y = p then Config.nil else if y = r then L.dad p
      else if y = L.kid true p ∨ y = L.kid false p then r else L.dad y := rfl
@[simp] theorem Links.hang_kid :
    (L.hang b p r).kid b' x = if x = r then Config.nil else if x = p ∧ b' = b then r else L.kid b' x := rfl
@[simp] theorem Links.hang_dad : (L.hang b p r).dad y = if y = r then p else L.dad y := rfl
end Fields

/-- Links that agree but for what no rule reads for its value: the parent of NIL (R91) and the kids of what is in no tree. -/
structure Links.Agree (L L' : Links) : Prop where
  kid : ∀ b x, L.In x → L'.kid b x = L.kid b x
  dad : ∀ y, y ≠ Config.nil → L'.dad y = L.dad y

theorem Links.in_lt {L : Links} {x : Nat} (hx : x < Config.nil) : L.In x ↔ L.dad x ≠ Config.nil := by
  simp [Links.In, hx, Nat.not_lt.mpr hx.le]

theorem Links.in_ne_nil {L : Links} {x : Nat} (hx : L.In x) : x ≠ Config.nil := by
  rcases hx with hx | ⟨hx, -⟩
  · exact hx.ne'
  · exact hx.ne

theorem Links.Agree.in_iff {L L' : Links} (ha : L.Agree L') (x : Nat) : L'.In x ↔ L.In x := by
  simp only [Links.In]
  exact or_congr_right (and_congr_right fun hx => by rw [ha.dad x hx.ne])

theorem Links.hang_in {L : Links} {p r : Nat} (hp : p ≠ Config.nil) (hr : r < Config.nil) (b : Bool) (x : Nat) :
    (L.hang b p r).In x ↔ L.In x ∨ x = r := by
  grind [Links.hang_dad, Links.In]

section Tree
variable {L : Links} {key : Nat → Byte} {rank : Nat → Nat} {sd : Nat → Bool} (h : L.Tree key rank sd)
include h

/-- A kid is in the tree of its parent. -/
theorem Links.Tree.kid {b : Bool} {x y : Nat} (hx : L.In x) (hkid : L.kid b x = y) (hy : y ≠ Config.nil) :
    y < Config.nil ∧ L.dad y = x ∧ sd y = b ∧ L.In y ∧ key y = key x ∧ rank x < rank y := by
  have hlt : y < Config.nil := lt_of_le_of_ne (hkid ▸ h.kid_le b x hx) hy
  obtain ⟨hdad, hside⟩ := (h.kid_iff b x y hx hlt).mp hkid
  have hin : L.dad y ≠ Config.nil := hdad ▸ Links.in_ne_nil hx
  obtain ⟨-, hkey, hrank⟩ := h.parent y hlt hin
  exact ⟨hlt, hdad, hside, .inr ⟨hlt, hin⟩, hdad ▸ hkey, hdad ▸ hrank⟩

/-- The test of R91 and R92 finds the side on which a node hangs. -/
theorem Links.Tree.side_eq {p : Nat} (hp : p < Config.nil) (hin : L.dad p ≠ Config.nil) : L.side p = sd p := by
  have hiff := h.kid_iff true (L.dad p) p (h.parent p hp hin).1 hp
  rw [Bool.eq_iff_iff, Links.side, decide_eq_true_iff, hiff]
  simp

/-- What no rule reads does not matter. -/
theorem Links.Tree.of_agree {L' : Links} (ha : L.Agree L') : L'.Tree key rank sd := by
  have hmem := ha.in_iff
  refine ⟨fun b x hx => ?_, fun y hy hin => ?_, fun b x y hx hy => ?_⟩
  · rw [ha.kid b x ((hmem x).mp hx)]
    exact h.kid_le b x ((hmem x).mp hx)
  · rw [ha.dad y hy.ne] at hin ⊢
    rw [hmem]
    exact h.parent y hy hin
  · rw [ha.kid b x ((hmem x).mp hx), ha.dad y hy.ne]
    exact h.kid_iff b x y ((hmem x).mp hx) hy

/-- A node stands among its parent's kids, on its side. -/
theorem Links.Tree.kid_of_dad {x y : Nat} (hx : L.In x) (hy : y < Config.nil) (hdad : L.dad y = x) :
    L.kid (sd y) x = y := (h.kid_iff _ x y hx hy).mpr ⟨hdad, rfl⟩

/-! ### Taking a node out -/

section Unlink
variable {p q : Nat} (hp : p < Config.nil) (hin : L.dad p ≠ Config.nil) {b : Bool} (hq : L.kid b p = q)
include hp hin hq

theorem Links.Tree.unlink_in (x : Nat) : (L.unlink p q).In x ↔ L.In x ∧ x ≠ p := by
  have hkid := h.kid (.inr ⟨hp, hin⟩) hq
  grind [Links.unlink_dad, Links.In]

/-- The trees without p, where p had at most one kid. -/
theorem Links.Tree.unlink (hone : L.kid (!b) p = Config.nil) :
    (L.unlink p q).Tree key rank (fun y => if y = q then sd p else sd y) := by
  have hmem := h.unlink_in hp hin hq
  have hpin : L.In p := .inr ⟨hp, hin⟩
  have hkid := h.kid hpin hq
  have hside := h.side_eq hp hin
  have honly : ∀ y, y < Config.nil → L.dad y = p → y = q := by
    intro y hy hdad
    have hkidy := h.kid_of_dad hpin hy hdad
    cases hb : sd y <;> cases b <;> simp_all
  obtain ⟨hdad, hkey, hrank⟩ := h.parent p hp hin
  refine ⟨fun b' x hx => ?_, fun y hy hyin => ?_, fun b' x y hx hy => ?_⟩
  · have hle := h.kid_le b p hpin
    have hle' := h.kid_le b' x ((hmem x).mp hx).1
    rw [Links.unlink_kid]
    split <;> omega
  · by_cases hyp : y = p
    · simp [hyp] at hyin
    · by_cases hyq : y = q
      · obtain ⟨-, -, -, -, hkeyq, hrankq⟩ := hkid (hyq ▸ hy.ne)
        rw [Links.unlink_dad, if_neg hyp, if_pos hyq, hmem, hyq]
        exact ⟨⟨hdad, fun he => by simp [he] at hrank⟩, hkeyq.trans hkey, hrank.trans hrankq⟩
      · rw [Links.unlink_dad, if_neg hyp, if_neg hyq] at hyin ⊢
        obtain ⟨hydad, hkeyrank⟩ := h.parent y hy hyin
        exact ⟨(hmem _).mpr ⟨hydad, fun he => hyq (honly y hy he)⟩, hkeyrank⟩
  · obtain ⟨hx, hxp⟩ := (hmem x).mp hx
    have hxy := h.kid_iff b' x y hx hy
    have hplace := h.kid_iff b' x p hx hp
    have hdadq : q ≠ Config.nil → L.dad q = p ∧ q ≠ p := fun hne =>
      ⟨(hkid hne).2.1, fun he => by simp [he] at hkid; omega⟩
    have hxne := Links.in_ne_nil hx
    rw [Links.unlink_kid, Links.unlink_dad, hside]
    by_cases hspot : x = L.dad p ∧ b' = sd p
    · obtain ⟨rfl, rfl⟩ := hspot
      grind
    · grind

end Unlink

/-! ### A node in another's place -/

section Replace
variable {p r : Nat} (hp : p < Config.nil) (hin : L.dad p ≠ Config.nil) (hr : r < Config.nil) (hout : L.dad r = Config.nil)
include hp hin hr hout

theorem Links.Tree.replace_in (x : Nat) : (L.replace p r).In x ↔ (L.In x ∧ x ≠ p) ∨ x = r := by
  have hpin : L.In p := .inr ⟨hp, hin⟩
  have htrue := h.kid (b := true) hpin rfl
  have hfalse := h.kid (b := false) hpin rfl
  grind [Links.replace_dad, Links.In]

/-- The trees with r in p's place, where r begins with the same byte. -/
theorem Links.Tree.replace (hkey : key r = key p) :
    (L.replace p r).Tree key (fun y => if y = r then rank p else rank y) (fun y => if y = r then sd p else sd y) := by
  have hmem := h.replace_in hp hin hr hout
  have hpin : L.In p := .inr ⟨hp, hin⟩
  have hpr : p ≠ r := by rintro rfl; exact hin hout
  have hkids : ∀ y, y < Config.nil → ((y = L.kid true p ∨ y = L.kid false p) ↔ L.dad y = p) := by
    intro y hy
    have htrue := h.kid_iff true p y hpin hy
    have hfalse := h.kid_iff false p y hpin hy
    refine ⟨fun hkid => ?_, fun hdad => ?_⟩
    · rcases hkid with hkid | hkid
      · exact (htrue.mp hkid.symm).1
      · exact (hfalse.mp hkid.symm).1
    · cases hb : sd y with
      | true => exact .inl (htrue.mpr ⟨hdad, hb⟩).symm
      | false => exact .inr (hfalse.mpr ⟨hdad, hb⟩).symm
  have hside := h.side_eq hp hin
  obtain ⟨hdad, hkeyp, hrank⟩ := h.parent p hp hin
  have hrout : ¬L.In r := fun hrin => (Links.in_lt hr).mp hrin hout
  refine ⟨fun b' x hx => ?_, fun y hy hyin => ?_, fun b' x y hx hy => ?_⟩
  · have hle := h.kid_le b' p hpin
    have hle' := h.kid_le b' x
    rw [Links.replace_kid]
    grind
  · have hpar := h.parent y hy
    simp only [Links.replace_dad, hkids y hy, hmem] at hyin ⊢
    by_cases hyp : y = p
    · simp [hyp] at hyin
    · by_cases hyr : y = r
      · simp only [if_neg hyp, if_pos hyr]
        grind
      · by_cases hydad : L.dad y = p
        · simp only [if_neg hyp, if_neg hyr, if_pos hydad]
          grind
        · simp only [if_neg hyp, if_neg hyr, if_neg hydad] at hyin ⊢
          grind
  · have hxy := h.kid_iff b' x y
    have hxp := h.kid_iff b' x p
    have hpy := h.kid_iff b' p y hpin hy
    have hdady := h.parent y hy
    have hxne := Links.in_ne_nil hx
    rw [hmem] at hx
    simp only [Links.replace_kid, Links.replace_dad, hkids y hy, hside]
    by_cases hxr : x = r
    · simp only [if_pos hxr, hpy]
      grind
    · by_cases hspot : x = L.dad p ∧ b' = sd p
      · simp only [if_neg hxr, if_pos hspot]
        grind
      · simp only [if_neg hxr, if_neg hspot]
        grind

end Replace

/-! ### A new leaf -/

section Hang
variable {p r : Nat} (hp : L.In p) (hr : r < Config.nil) (hout : L.dad r = Config.nil)
include hp hr hout

/-- The trees with a new leaf r on a free side of p, where r begins with the same byte. -/
theorem Links.Tree.hang {b : Bool} (hfree : L.kid b p = Config.nil) (hkey : key r = key p) :
    (L.hang b p r).Tree key (fun y => if y = r then rank p + 1 else rank y) (fun y => if y = r then b else sd y) := by
  have hmem := Links.hang_in (L := L) (Links.in_ne_nil hp) hr b
  have hne : p ≠ r := by
    rintro rfl
    exact (Links.in_lt hr).mp hp hout
  have hrout : ¬L.In r := fun hrin => (Links.in_lt hr).mp hrin hout
  refine ⟨fun b' x hx => ?_, fun y hy hyin => ?_, fun b' x y hx hy => ?_⟩
  · have hle := h.kid_le b' x
    rw [Links.hang_kid]
    grind
  · have hpar := h.parent y hy
    rw [Links.hang_dad] at hyin ⊢
    grind
  · have hxy := h.kid_iff b' x y
    have hpar := h.parent y hy
    have hxne := Links.in_ne_nil hx
    rw [Links.hang_kid, Links.hang_dad]
    grind

end Hang
end Tree
end Sys2Proof.Machine
end

section
/-! SUPPORT. What Insert, Replace and Delete (spec/42_lz77.md R89, R91, R92) do to the links of the match index: the operations on
trees, and so the trees are kept. -/

namespace Sys2Proof.Machine

/-! ### The link arrays -/

/-- The links the arrays hold: true is rson. -/
def LzScratch.links (z : LzScratch) : Links where
  kid b x := if b then z.rs x else z.ls x
  dad := z.da

/-- The link arrays are in canonical form (log 20) and hold these links. -/
structure LzScratch.Has (z : LzScratch) (L : Links) : Prop where
  lson : cellsWfFrom Config.nil 0 z.lson = true
  rson : cellsWfFrom Config.nil 0 z.rson = true
  dad : cellsWfFrom Config.nil 0 z.dad = true
  links : z.links = L

/-- `lson[i] <- v` (false) or `rson[i] <- v` (true). -/
def Links.setKid (L : Links) (b : Bool) (i v : Nat) : Links :=
  { L with kid := fun b' x => if x = i ∧ b' = b then v else L.kid b' x }

/-- `dad[i] <- v`. -/
def Links.setDad (L : Links) (i v : Nat) : Links := { L with dad := fun y => if y = i then v else L.dad y }

section Fields
variable (L : Links) (b b' : Bool) (i v x : Nat) (z : LzScratch)
@[simp] theorem Links.setKid_kid : (L.setKid b i v).kid b' x = if x = i ∧ b' = b then v else L.kid b' x := rfl
@[simp] theorem Links.setKid_dad : (L.setKid b i v).dad x = L.dad x := rfl
@[simp] theorem Links.setDad_kid : (L.setDad i v).kid b x = L.kid b x := rfl
@[simp] theorem Links.setDad_dad : (L.setDad i v).dad x = if x = i then v else L.dad x := rfl
@[simp] theorem LzScratch.links_kid_true : z.links.kid true x = z.rs x := rfl
@[simp] theorem LzScratch.links_kid_false : z.links.kid false x = z.ls x := rfl
@[simp] theorem LzScratch.links_dad : z.links.dad x = z.da x := rfl
@[simp] theorem LzScratch.setDa_rs : (z.setDa i v).rs x = z.rs x := rfl
end Fields

/-- The side on which a node hangs is read from the node's parent. -/
theorem Links.side_congr {L L' : Links} {p : Nat} (h : L'.kid true (L'.dad p) = L.kid true (L.dad p)) :
    L'.side p = L.side p := by rw [Links.side, Links.side, h]

theorem Links.eq_of {L L' : Links} (hkid : ∀ b x, L.kid b x = L'.kid b x) (hdad : ∀ y, L.dad y = L'.dad y) : L = L' := by
  cases L
  cases L'
  simp only [Links.mk.injEq]
  exact ⟨funext fun b => funext fun x => hkid b x, funext hdad⟩

section Has
variable {z : LzScratch} {L : Links} (h : z.Has L)
include h

theorem LzScratch.Has.rs (x : Nat) : z.rs x = L.kid true x := by rw [← h.links]; rfl
theorem LzScratch.Has.ls (x : Nat) : z.ls x = L.kid false x := by rw [← h.links]; rfl
theorem LzScratch.Has.da (x : Nat) : z.da x = L.dad x := by rw [← h.links]; rfl

theorem LzScratch.Has.setLs (i v : Nat) : (z.setLs i v).Has (L.setKid false i v) := by
  refine ⟨cellsWfFrom_cellSet h.lson (Nat.zero_le _), h.rson, h.dad, Links.eq_of (fun b x => ?_) fun y => h.da y⟩
  cases b with
  | false => exact (cellGet_cellSet h.lson).trans (by simp [← h.ls]; rfl)
  | true => exact (h.rs x).trans (by simp)

theorem LzScratch.Has.setRs (i v : Nat) : (z.setRs i v).Has (L.setKid true i v) := by
  refine ⟨h.lson, cellsWfFrom_cellSet h.rson (Nat.zero_le _), h.dad, Links.eq_of (fun b x => ?_) fun y => h.da y⟩
  cases b with
  | false => exact (h.ls x).trans (by simp)
  | true => exact (cellGet_cellSet h.rson).trans (by simp [← h.rs]; rfl)

theorem LzScratch.Has.setDa (i v : Nat) : (z.setDa i v).Has (L.setDad i v) := by
  refine ⟨h.lson, h.rson, cellsWfFrom_cellSet h.dad (Nat.zero_le _), Links.eq_of (fun b x => ?_) fun y => ?_⟩
  · cases b with
    | false => exact h.ls x
    | true => exact h.rs x
  · exact (cellGet_cellSet h.dad).trans (by simp [← h.da]; rfl)

/-- The step that R91 and R92 share: q is hung where p hangs. -/
theorem LzScratch.Has.setSide (p q : Nat) :
    (if z.rs (z.da p) = p then z.setRs (z.da p) q else z.setLs (z.da p) q).Has (L.setKid (L.side p) (L.dad p) q) := by
  rw [h.rs, h.da]
  by_cases hside : L.kid true (L.dad p) = p
  · rw [if_pos hside, Links.side, decide_eq_true hside]
    exact h.setRs ..
  · rw [if_neg hside, Links.side, decide_eq_false hside]
    exact h.setLs ..

/-- The tail of Delete takes a node out (R92). -/
theorem LzScratch.Has.unlink {p q : Nat} (hqp : q ≠ p) : (lzUnlink p q z).Has (L.unlink p q) := by
  have hops : (lzUnlink p q z).Has _ := ((h.setDa q (z.da p)).setSide p q).setDa p Config.nil
  have hside : (L.setDad q (z.da p)).side p = L.side p := Links.side_congr (by simp [hqp.symm])
  rw [hside, h.da] at hops
  convert hops using 1
  refine Links.eq_of (fun b x => ?_) fun y => ?_
  · simp [hqp.symm]
  · simp

/-- Replace puts a node in another's place (R91). -/
theorem LzScratch.Has.replace {p r : Nat} (hpr : p ≠ r) (hdad : L.dad p ≠ r) (hls : L.kid false p ≠ p ∧ L.kid false p ≠ r)
    (hrs : L.kid true p ≠ p ∧ L.kid true p ≠ r) : (lzReplace p r z).Has (L.replace p r) := by
  have h3 := ((h.setDa r (z.da p)).setLs r (z.ls p)).setRs r (z.rs p)
  have hops : (lzReplace p r z).Has _ := ((((h3.setDa _ _).setDa _ _).setSide _ _).setDa _ _)
  rw [LzScratch.setDa_rs, h3.ls, h3.rs, h.ls, h.rs, h.da] at hops
  simp only [Links.setKid_kid, Links.setDad_kid, hpr, false_and, if_false] at hops
  rw [Links.side_congr (L := L) (by simp [hpr, hdad, hls.1.symm, hrs.1.symm])] at hops
  convert hops using 1
  refine Links.eq_of (fun b x => ?_) fun y => ?_
  · cases b <;> by_cases hx : x = r <;> simp [hx, hpr, hls.1.symm, hrs.1.symm, hdad.symm]
  · by_cases hyp : y = p
    · simp [hyp]
    · by_cases hyr : y = r
      · simp [hyr, hpr.symm, hls.2.symm, hrs.2.symm]
      · simp [hyp, hyr]
        grind

/-- The end of Insert's walk hangs a node without kids on a free side (R89). -/
theorem LzScratch.Has.hang {p r : Nat} (hpr : p ≠ r) (hnone : ∀ b, L.kid b r = Config.nil) (cmp : Int) :
    ((if cmp ≥ 0 then z.setRs p r else z.setLs p r).setDa r p).Has (L.hang (decide (cmp ≥ 0)) p r) := by
  have hops : ((if cmp ≥ 0 then z.setRs p r else z.setLs p r).setDa r p).Has
      ((L.setKid (decide (cmp ≥ 0)) p r).setDad r p) := by
    by_cases hcmp : cmp ≥ 0
    · rw [if_pos hcmp, decide_eq_true hcmp]
      exact (h.setRs p r).setDa r p
    · rw [if_neg hcmp, decide_eq_false hcmp]
      exact (h.setLs p r).setDa r p
  convert hops using 1
  refine Links.eq_of (fun b x => ?_) fun y => ?_
  · by_cases hx : x = r <;> simp [hx, hnone, hpr.symm]
  · simp

end Has

/-! ### Delete -/

theorem lzLeftmost_of_none {z : LzScratch} {q : Nat} (n : Nat) (h : z.ls q = Config.nil) : lzLeftmost z n q = q := by
  cases n with
  | zero => rfl
  | succ n => rw [lzLeftmost, if_pos h]

section Delete
variable {z : LzScratch} {L : Links} (h : z.Has L) {key : Nat → Byte} {rank : Nat → Nat} {sd : Nat → Bool}
  (ht : L.Tree key rank sd)
include h ht

/-- As long as a walk to the left goes on it meets a new node. -/
theorem LzScratch.Has.walk_left (n : Nat) {q : Nat} (hq : L.In q) (hlt : q < Config.nil)
    (hon : z.ls (lzLeftmost z n q) ≠ Config.nil) :
    ∃ S : Finset Nat, S.card = n + 1 ∧ ∀ x ∈ S, x < Config.nil ∧ rank q ≤ rank x := by
  induction n generalizing q with
  | zero => exact ⟨{q}, rfl, by simpa using hlt⟩
  | succ n ih =>
    rw [lzLeftmost] at hon
    split at hon
    · exact absurd ‹_› hon
    · obtain ⟨hlt', -, -, hin', -, hrank⟩ := ht.kid hq (h.ls q).symm ‹_›
      obtain ⟨S, hcard, hS⟩ := ih hin' hlt' hon
      have hnew : q ∉ S := fun hmem => absurd (hS q hmem).2 (Nat.not_le.mpr hrank)
      refine ⟨insert q S, by rw [Finset.card_insert_of_notMem hnew, hcard], fun x hx => ?_⟩
      rcases Finset.mem_insert.mp hx with rfl | hx
      · exact ⟨hlt, le_rfl⟩
      · exact ⟨(hS x hx).1, hrank.le.trans (hS x hx).2⟩

/-- The walk to the left of R92 ends before its bound, at a node without a left kid (R130). -/
theorem LzScratch.Has.ls_leftmost {q : Nat} (hq : L.In q) (hlt : q < Config.nil) :
    z.ls (lzLeftmost z Config.ringSize q) = Config.nil := by
  by_contra hon
  obtain ⟨S, hcard, hS⟩ := h.walk_left ht Config.ringSize hq hlt hon
  have hsub : S ⊆ Finset.range Config.nil := fun x hx => Finset.mem_range.mpr (hS x hx).1
  have hle := Finset.card_le_card hsub
  rw [hcard, Finset.card_range] at hle
  exact absurd hle (by decide)

/-- Where the walk to the left ends: in the same tree, and where it has moved, at a left kid. -/
theorem LzScratch.Has.leftmost (n : Nat) {q : Nat} (hq : L.In q) (hlt : q < Config.nil) :
    L.In (lzLeftmost z n q) ∧ lzLeftmost z n q < Config.nil ∧ key (lzLeftmost z n q) = key q
    ∧ rank q ≤ rank (lzLeftmost z n q)
    ∧ (lzLeftmost z n q ≠ q → sd (lzLeftmost z n q) = false ∧ rank q ≤ rank (L.dad (lzLeftmost z n q))) := by
  induction n generalizing q with
  | zero => exact ⟨hq, hlt, rfl, le_rfl, fun hne => absurd rfl hne⟩
  | succ n ih =>
    rw [lzLeftmost]
    split
    · exact ⟨hq, hlt, rfl, le_rfl, fun hne => absurd rfl hne⟩
    · obtain ⟨hlt', hdad, hside, hin', hkey, hrank⟩ := ht.kid hq (h.ls q).symm ‹_›
      obtain ⟨h1, h2, h3, h4, h5⟩ := ih hin' hlt'
      refine ⟨h1, h2, h3.trans hkey, hrank.le.trans h4, fun _ => ?_⟩
      by_cases hstay : lzLeftmost z n (z.ls q) = z.ls q
      · rw [hstay, hdad]
        exact ⟨hside, le_rfl⟩
      · exact ⟨(h5 hstay).1, hrank.le.trans (h5 hstay).2⟩

omit h in
/-- A node in a tree, its parent and its kids are different nodes. -/
theorem Links.Tree.apart {x : Nat} (hx : x < Config.nil) (hin : L.dad x ≠ Config.nil) :
    L.dad x ≠ x ∧ ∀ b, L.kid b x ≠ x ∧ L.kid b x ≠ L.dad x := by
  obtain ⟨-, -, hrank⟩ := ht.parent x hx hin
  refine ⟨fun he => by rw [he] at hrank; omega, fun b => ?_⟩
  by_cases hkid : L.kid b x = Config.nil
  · exact ⟨hkid.trans_ne hx.ne', hkid.trans_ne hin.symm⟩
  · obtain ⟨-, -, -, -, -, hrank'⟩ := ht.kid (.inr ⟨hx, hin⟩) rfl hkid
    exact ⟨fun he => by rw [he] at hrank'; omega, fun he => by rw [he] at hrank'; omega⟩

end Delete

/-- The part of Delete that takes the successor q, found below p's right kid, out of its place (R92). -/
def lzLift (p q : Nat) (z : LzScratch) : LzScratch :=
  let z := z.setLs (z.da q) (z.rs q)
  let z := z.setDa (z.rs q) (z.da q)
  let z := z.setRs q (z.rs p)
  z.setDa (z.rs p) q

/-- The part of Delete that gives q p's left kid (R92). -/
def lzAdopt (p q : Nat) (z : LzScratch) : LzScratch :=
  let z := z.setLs q (z.ls p)
  z.setDa (z.ls p) q

/-- Delete of a node with two kids, by its parts (R92). -/
theorem lzDelete_two {p : Nat} {z : LzScratch} (hin : z.da p ≠ Config.nil) (hrs : z.rs p ≠ Config.nil)
    (hls : z.ls p ≠ Config.nil) :
    lzDelete p z =
      let q := lzLeftmost z Config.ringSize (z.rs p)
      lzUnlink p q (lzAdopt p q (if z.ls (z.rs p) = Config.nil then z else lzLift p q z)) := by
  rw [lzDelete, if_neg hin, if_neg hrs, if_neg hls]
  rfl

/-- p's left kid becomes q's. -/
def Links.adopt (L : Links) (p q : Nat) : Links := (L.setKid false q (L.kid false p)).setDad (L.kid false p) q

/-- q's right kid takes q's place as a left kid, and p's right kid becomes q's. -/
def Links.lift (L : Links) (p q : Nat) : Links :=
  (((L.setKid false (L.dad q) (L.kid true q)).setDad (L.kid true q) (L.dad q)).setKid true q (L.kid true p)).setDad
    (L.kid true p) q

section Parts
variable {z : LzScratch} {L : Links} (h : z.Has L) {p q : Nat} (hqp : q ≠ p)
include h hqp

theorem LzScratch.Has.adopt : (lzAdopt p q z).Has (L.adopt p q) := by
  have hops : (lzAdopt p q z).Has _ := (h.setLs q (z.ls p)).setDa _ q
  rw [(h.setLs q (z.ls p)).ls, h.ls] at hops
  simpa [Links.adopt, hqp.symm] using hops

theorem LzScratch.Has.lift : (lzLift p q z).Has (L.lift p q) := by
  have h2 := (h.setLs (z.da q) (z.rs q)).setDa (z.rs q) (z.da q)
  have hops : (lzLift p q z).Has (Links.setDad _
      ((((z.setLs (z.da q) (z.rs q)).setDa (z.rs q) (z.da q)).setRs q (z.rs p)).rs p) q) :=
    (h2.setRs q (z.rs p)).setDa _ q
  rw [(h2.setRs q (z.rs p)).rs, h.rs, h.rs, h.da] at hops
  simpa [Links.lift, hqp.symm] using hops

end Parts

section Promote
variable {L : Links} {key : Nat → Byte} {rank : Nat → Nat} {sd : Nat → Bool} (ht : L.Tree key rank sd) {p q : Nat}
  (hp : p < Config.nil) (hin : L.dad p ≠ Config.nil) (hls : L.kid false p ≠ Config.nil)
include ht hp hin hls

/-- A successor that is p's right kid: it takes p's left kid, then p's place (R92). -/
theorem Links.Tree.agree_adopt (hq : L.kid true p = q) (hqn : q ≠ Config.nil) :
    Links.Agree ((L.unlink q (L.kid true q)).replace p q) ((L.adopt p q).unlink p q) := by
  have hpin : L.In p := .inr ⟨hp, hin⟩
  obtain ⟨hqlt, hqd, hqsd, hqin, -, hrankq⟩ := ht.kid hpin hq hqn
  obtain ⟨-, -, hsidel, -, -, -⟩ := ht.kid hpin rfl hls
  obtain ⟨hpdad, hpkids⟩ := ht.apart hp hin
  obtain ⟨-, hqkids⟩ := ht.apart hqlt ((Links.in_lt hqlt).mp hqin)
  have hqp : q ≠ p := hq ▸ (hpkids true).1
  have hrqp : L.kid true q ≠ p := hqd ▸ (hqkids true).2
  have hrq : L.kid true q ≠ Config.nil → L.dad (L.kid true q) = q := fun hne => (ht.kid hqin rfl hne).2.1
  have hqs : L.side q = true := (ht.side_eq hqlt ((Links.in_lt hqlt).mp hqin)).trans hqsd
  have hlq : L.kid false p ≠ q := fun he => by rw [he, hqsd] at hsidel; cases hsidel
  have hdadu : (L.unlink q (L.kid true q)).dad p = L.dad p := by simp [hqp.symm, hrqp.symm]
  have hsideu : (L.unlink q (L.kid true q)).side p = L.side p := Links.side_congr (by rw [hdadu]; simp [hqd, hpdad])
  have hdada : (L.adopt p q).dad p = L.dad p := by simp [Links.adopt, (hpkids false).1.symm]
  have hsidea : (L.adopt p q).side p = L.side p := Links.side_congr (by rw [hdada]; simp [Links.adopt])
  refine ⟨fun b x hx => ?_, fun y hy => ?_⟩
  · have hxp : x ≠ p := by
      rintro rfl
      simp [Links.in_lt hp] at hx
    rw [Links.unlink_kid, Links.replace_kid, hdadu, hsideu, hdada, hsidea]
    cases b <;> simp [Links.adopt, hqd, hqs, hxp] <;> grind
  · rw [Links.unlink_dad, Links.replace_dad, hdadu, hdada]
    simp [Links.adopt, hqd, hqs]
    grind

/-- A successor further down: it is taken out, then it takes both kids of p and p's place (R92). -/
theorem Links.Tree.agree_lift (hrs : L.kid true p ≠ Config.nil) (hqls : L.kid false q = Config.nil) (hqlt : q < Config.nil)
    (hqin : L.In q) (hqsd : sd q = false) (hrank : rank p < rank (L.dad q)) :
    Links.Agree ((L.unlink q (L.kid true q)).replace p q) (((L.lift p q).adopt p q).unlink p q) := by
  have hpin : L.In p := .inr ⟨hp, hin⟩
  have hqdad := (Links.in_lt hqlt).mp hqin
  obtain ⟨-, hdad0, -, -, -, -⟩ := ht.kid hpin rfl hrs
  obtain ⟨-, hdadl, -, -, -, -⟩ := ht.kid hpin rfl hls
  obtain ⟨-, -, hprank⟩ := ht.parent p hp hin
  obtain ⟨-, -, hqrank⟩ := ht.parent q hqlt hqdad
  obtain ⟨hpdad, hpkids⟩ := ht.apart hp hin
  obtain ⟨hqdadne, hqkids⟩ := ht.apart hqlt hqdad
  have hqside : L.side q = false := (ht.side_eq hqlt hqdad).trans hqsd
  have hqp : q ≠ p := by rintro rfl; omega
  have hdadpq : L.dad p ≠ q := by rintro rfl; omega
  have hdadqp : L.dad q ≠ p := fun he => by rw [he] at hrank; omega
  have hdadne : L.dad p ≠ L.dad q := fun he => by rw [he] at hprank; omega
  have hrqp : L.kid true q ≠ p := fun he => by
    have := (ht.kid hqin he hp.ne).2.2.2.2.2
    omega
  have hrq : L.kid true q ≠ Config.nil → L.dad (L.kid true q) = q := fun hne => (ht.kid hqin rfl hne).2.1
  have hlq : L.kid false p ≠ q := fun he => hdadqp (he ▸ hdadl)
  have hlp : (L.lift p q).kid false p = L.kid false p := by simp [Links.lift, hqp.symm, hdadqp.symm]
  have hdadu : (L.unlink q (L.kid true q)).dad p = L.dad p := by simp [hqp.symm, hrqp.symm]
  have hsideu : (L.unlink q (L.kid true q)).side p = L.side p := Links.side_congr (by rw [hdadu]; simp [hdadne])
  have hdada : ((L.lift p q).adopt p q).dad p = L.dad p := by
    rw [Links.adopt, hlp]
    simp [Links.lift, hrqp.symm, (hpkids true).1.symm, (hpkids false).1.symm]
  have hsidea : ((L.lift p q).adopt p q).side p = L.side p :=
    Links.side_congr (by rw [hdada]; simp [Links.adopt, Links.lift, hdadpq])
  refine ⟨fun b x hx => ?_, fun y hy => ?_⟩
  · have hxp : x ≠ p := by
      rintro rfl
      simp [Links.in_lt hp] at hx
    rw [Links.unlink_kid, Links.replace_kid, hdadu, hsideu, hdada, hsidea, Links.adopt, hlp]
    cases b <;> simp [Links.lift, hqside]
    all_goals grind
  · rw [Links.unlink_dad, Links.replace_dad, hdadu, hdada, Links.adopt, hlp]
    simp [Links.lift, hqside]
    grind

/-- The links that Delete leaves of a node with two kids: its successor q is taken out, and takes its place (R92). -/
theorem LzScratch.Has.promote {z : LzScratch} (h : z.Has L) (hrs : L.kid true p ≠ Config.nil) :
    ∃ q L', q < Config.nil ∧ L.dad q ≠ Config.nil ∧ L.kid false q = Config.nil ∧ q ≠ p ∧ key q = key p
      ∧ (lzDelete p z).Has L' ∧ Links.Agree ((L.unlink q (L.kid true q)).replace p q) L' := by
  have hpin : L.In p := .inr ⟨hp, hin⟩
  obtain ⟨hlt0, hdad0, hside0, hin0, hkey0, hrank0⟩ := ht.kid hpin rfl hrs
  have hleft := h.leftmost ht Config.ringSize hin0 hlt0
  have hqls := h.ls_leftmost ht hin0 hlt0
  have hdel := lzDelete_two (z := z) (p := p) (by rwa [h.da]) (by rwa [h.rs]) (by rwa [h.ls])
  have hstays := lzLeftmost_of_none (z := z) (q := L.kid true p) Config.ringSize
  simp only [h.rs] at hdel
  generalize lzLeftmost z Config.ringSize (L.kid true p) = q at hleft hqls hdel hstays
  obtain ⟨hqin, hqlt, hqkey, hqrank, hqmoved⟩ := hleft
  have hqp : q ≠ p := by rintro rfl; omega
  have hqdad := (Links.in_lt hqlt).mp hqin
  rw [h.ls] at hqls
  by_cases hstay : z.ls (L.kid true p) = Config.nil
  · rw [if_pos hstay] at hdel
    exact ⟨q, _, hqlt, hqdad, hqls, hqp, hqkey.trans hkey0, hdel ▸ (h.adopt hqp).unlink hqp,
      ht.agree_adopt hp hin hls (hstays hstay).symm hqlt.ne⟩
  · obtain ⟨hqsd, hqdadrank⟩ := hqmoved fun he => hstay (by rw [h.ls, ← he, hqls])
    rw [if_neg hstay] at hdel
    exact ⟨q, _, hqlt, hqdad, hqls, hqp, hqkey.trans hkey0, hdel ▸ ((h.lift hqp).adopt hqp).unlink hqp,
      ht.agree_lift hp hin hls hrs hqls hqlt hqin hqsd (hrank0.trans_le hqdadrank)⟩

end Promote
end Sys2Proof.Machine
end

section
/-! SUPPORT. The match index (spec/42_lz77.md R87 to R93): Delete takes a position out of it, and Insert puts one in and leaves a
match that is one. -/

namespace Sys2Proof.Machine

/-! ### The index -/

/-- The byte a node's strings begin with: its own for a position, the tree's for a root (R87). -/
def LzScratch.key (fill : Byte) (z : LzScratch) (x : Nat) : Byte :=
  if x < Config.nil then z.text fill x else BitVec.ofNat 8 (x - (Config.ringSize + 1))

/-- The root of a byte's tree is no position (R87). -/
theorem nil_lt_root (c : Nat) : Config.nil < Config.ringSize + 1 + c := by
  change 4096 < 4096 + 1 + c
  omega

/-- The links are in canonical form and are trees whose nodes begin with the same bytes. -/
def LzScratch.Indexed (z : LzScratch) (key : Nat → Byte) : Prop :=
  z.Has z.links ∧ ∃ rank sd, z.links.Tree key rank sd

/-- z' is z but for the links. -/
def LzScratch.Relinked (z z' : LzScratch) : Prop := ∃ l r d, z' = { z with lson := l, rson := r, dad := d }

theorem LzScratch.Relinked.refl (z : LzScratch) : z.Relinked z := ⟨_, _, _, rfl⟩

theorem LzScratch.Relinked.trans {z z' z'' : LzScratch} (h : z.Relinked z') (h' : z'.Relinked z'') : z.Relinked z'' := by
  obtain ⟨_, _, _, rfl⟩ := h
  obtain ⟨_, _, _, rfl⟩ := h'
  exact ⟨_, _, _, rfl⟩

theorem LzScratch.Has.indexed {z : LzScratch} {L : Links} {key : Nat → Byte} {rank : Nat → Nat} {sd : Nat → Bool}
    (h : z.Has L) (ht : L.Tree key rank sd) : z.Indexed key := by
  obtain rfl := h.links
  exact ⟨h, rank, sd, ht⟩

/-- Only what nodes of the trees begin with matters. -/
theorem Links.Tree.congr_key {L : Links} {key key' : Nat → Byte} {rank : Nat → Nat} {sd : Nat → Bool}
    (h : L.Tree key rank sd) (hkey : ∀ x, L.In x → key' x = key x) : L.Tree key' rank sd := by
  refine ⟨h.kid_le, fun y hy hin => ?_, h.kid_iff⟩
  obtain ⟨hdad, hkeyy, hrank⟩ := h.parent y hy hin
  exact ⟨hdad, by rw [hkey _ hdad, hkey y (.inr ⟨hy, hin⟩), hkeyy], hrank⟩

/-! ### Delete -/

/-- Delete takes a position out of the index, if it is in it (R92). -/
theorem lzDelete_indexed {z : LzScratch} {key : Nat → Byte} (h : z.Indexed key) {p : Nat} (hp : p < Config.nil) :
    (lzDelete p z).Indexed key ∧ ∀ x, (lzDelete p z).links.In x ↔ z.links.In x ∧ x ≠ p := by
  obtain ⟨hz, rank, sd, ht⟩ := h
  by_cases hin : z.da p = Config.nil
  · rw [lzDelete, if_pos hin]
    refine ⟨⟨hz, rank, sd, ht⟩, fun x => ⟨fun hx => ⟨hx, ?_⟩, And.left⟩⟩
    rintro rfl
    exact (Links.in_lt hp).mp hx hin
  · have hkids := (ht.apart hp hin).2
    by_cases hrs : z.rs p = Config.nil
    · have hq : z.links.kid false p = z.ls p := rfl
      have hu := hz.unlink (p := p) (hkids false).1
      rw [lzDelete, if_neg hin, if_pos hrs]
      exact ⟨hu.indexed (ht.unlink hp hin hq hrs), fun x => hu.links ▸ ht.unlink_in hp hin hq x⟩
    · by_cases hls : z.ls p = Config.nil
      · have hq : z.links.kid true p = z.rs p := rfl
        have hu := hz.unlink (p := p) (hkids true).1
        rw [lzDelete, if_neg hin, if_neg hrs, if_pos hls]
        exact ⟨hu.indexed (ht.unlink hp hin hq hls), fun x => hu.links ▸ ht.unlink_in hp hin hq x⟩
      · obtain ⟨q, L', hq, hqin, hqls, hqp, hqkey, hdel, hagree⟩ := hz.promote ht hp hin hls hrs
        have htu := ht.unlink hq hqin (b := true) rfl hqls
        have hinu := ht.unlink_in hq hqin (b := true) rfl
        have hpu : (z.links.unlink q (z.links.kid true q)).dad p ≠ Config.nil :=
          (Links.in_lt hp).mp ((hinu p).mpr ⟨.inr ⟨hp, hin⟩, hqp.symm⟩)
        have hqu : (z.links.unlink q (z.links.kid true q)).dad q = Config.nil := by simp
        refine ⟨hdel.indexed ((htu.replace hp hpu hq hqu hqkey).of_agree hagree), fun x => ?_⟩
        rw [hdel.links, hagree.in_iff, htu.replace_in hp hpu hq hqu, hinu]
        have hqx : x = q → z.links.In x ∧ x ≠ p := by
          rintro rfl
          exact ⟨.inr ⟨hq, hqin⟩, hqp⟩
        tauto

theorem relinked_lzUnlink (p q : Nat) (z : LzScratch) : z.Relinked (lzUnlink p q z) := by
  unfold lzUnlink
  dsimp only
  split <;> exact ⟨_, _, _, rfl⟩

theorem relinked_lzDelete (p : Nat) (z : LzScratch) : z.Relinked (lzDelete p z) := by
  unfold lzDelete
  split_ifs
  · exact .refl z
  · exact relinked_lzUnlink ..
  · exact relinked_lzUnlink ..
  · refine .trans ?_ (relinked_lzUnlink ..)
    dsimp only
    split <;> exact ⟨_, _, _, rfl⟩

/-! ### The comparison -/

/-- The comparison of Insert stops at the first byte that differs, or after the last (R89). -/
theorem lzCompare_spec (fill : Byte) (z : LzScratch) (r p n i : Nat) :
    i ≤ (lzCompare fill z r p n i).1 ∧ (lzCompare fill z r p n i).1 ≤ i + n
    ∧ (∀ t, i ≤ t → t < (lzCompare fill z r p n i).1 → z.text fill (r + t) = z.text fill (p + t))
    ∧ ((lzCompare fill z r p n i).1 < i + n →
        z.text fill (r + (lzCompare fill z r p n i).1) ≠ z.text fill (p + (lzCompare fill z r p n i).1)) := by
  induction n generalizing i with
  | zero => exact ⟨le_rfl, le_rfl, fun t h1 h2 => absurd h2 (Nat.not_lt.mpr h1), fun h => absurd h (lt_irrefl _)⟩
  | succ n ih =>
    simp only [lzCompare]
    split
    · next hd =>
      refine ⟨le_rfl, by omega, fun t h1 h2 => absurd h2 (Nat.not_lt.mpr h1), fun _ heq => hd ?_⟩
      rw [show z.text fill (r + i) = z.text fill (p + i) from heq]
      omega
    · next hd =>
      have heq : z.text fill (r + i) = z.text fill (p + i) := BitVec.eq_of_toNat_eq (by omega)
      obtain ⟨h1, h2, h3, h4⟩ := ih (i + 1)
      refine ⟨by omega, by omega, fun t ht hlt => ?_, fun hlt => h4 (by omega)⟩
      rcases Nat.lt_or_ge i t with hit | hit
      · exact h3 t hit hlt
      · obtain rfl : t = i := by omega
        exact heq

/-! ### Insert -/

/-- What Insert leaves as the match for the string at r is one: a position of the index, not the one just before r, whose string
agrees with it in its first mlen bytes, 18 at most (R89, R90, R93). -/
def LzScratch.Matches (fill : Byte) (L : Links) (r : Nat) (z : LzScratch) : Prop :=
  z.mlen = 0 ∨ (L.In z.mpos ∧ z.mpos < Config.nil ∧ z.mpos ≠ (r + Config.ringSize - 1) % Config.ringSize
    ∧ z.mlen ≤ Config.maxMatch ∧ ∀ i < z.mlen, z.text fill (r + i) = z.text fill (z.mpos + i))

theorem LzScratch.Relinked.matches {z z' : LzScratch} (h : z.Relinked z') {fill : Byte} {L : Links} {r : Nat}
    (hm : z.Matches fill L r) : z'.Matches fill L r := by
  obtain ⟨_, _, _, rfl⟩ := h
  exact hm

/-- A candidate recorded as the match (R89). -/
def LzScratch.record (fill : Byte) (r child : Nat) (z : LzScratch) : LzScratch :=
  { z with mpos := child, mlen := (lzCompare fill z r child (Config.maxMatch - 1) 1).1 }

/-- z' is z but for the links and the match. -/
def LzScratch.Rematched (z z' : LzScratch) : Prop :=
  ∃ l r d pos len, z' = { z with lson := l, rson := r, dad := d, mpos := pos, mlen := len }

theorem LzScratch.Rematched.trans {z z' z'' : LzScratch} (h : z.Rematched z') (h' : z'.Rematched z'') : z.Rematched z'' := by
  obtain ⟨_, _, _, _, _, rfl⟩ := h
  obtain ⟨_, _, _, _, _, rfl⟩ := h'
  exact ⟨_, _, _, _, _, rfl⟩

theorem LzScratch.Relinked.rematched {z z' : LzScratch} (h : z.Relinked z') : z.Rematched z' := by
  obtain ⟨_, _, _, rfl⟩ := h
  exact ⟨_, _, _, _, _, rfl⟩

theorem relinked_lzReplace (p r : Nat) (z : LzScratch) : z.Relinked (lzReplace p r z) := by
  unfold lzReplace
  dsimp only
  split <;> exact ⟨_, _, _, rfl⟩

theorem rematched_lzDescend (fill : Byte) (r n p : Nat) (cmp : Int) (z : LzScratch) :
    z.Rematched (lzDescend fill r n p cmp z) := by
  induction n generalizing p cmp z with
  | zero => exact (LzScratch.Relinked.refl z).rematched
  | succ n ih =>
    rw [lzDescend]
    dsimp only
    generalize (if cmp ≥ 0 then z.rs p else z.ls p) = child
    split_ifs
    · exact LzScratch.Relinked.rematched ⟨_, _, _, rfl⟩
    · exact LzScratch.Relinked.rematched ⟨_, _, _, rfl⟩
    · exact .trans ⟨_, _, _, _, _, rfl⟩ (relinked_lzReplace ..).rematched
    · exact .trans ⟨_, _, _, _, _, rfl⟩ (ih ..)
    · exact ih ..

/-- The walk of Insert never shortens the match it has (R89). -/
theorem mlen_le_lzDescend (fill : Byte) (r n p : Nat) (cmp : Int) (z : LzScratch) :
    z.mlen ≤ (lzDescend fill r n p cmp z).mlen := by
  induction n generalizing p cmp z with
  | zero => exact le_rfl
  | succ n ih =>
    rw [lzDescend]
    dsimp only
    generalize (if cmp ≥ 0 then z.rs p else z.ls p) = child
    split_ifs with h1 h2 h3 h4
    · exact le_rfl
    · exact le_rfl
    · obtain ⟨_, _, _, he⟩ := relinked_lzReplace child r (z.record fill r child)
      exact h3.2.le.trans (congrArg LzScratch.mlen he).ge
    · exact h3.2.le.trans (ih child _ (z.record fill r child))
    · exact ih ..

section Descend
variable {fill : Byte} {r : Nat} {L : Links} {key : Nat → Byte} {rank : Nat → Nat} {sd : Nat → Bool}
  (ht : L.Tree key rank sd) (hr : r < Config.nil) (hout : L.dad r = Config.nil) (hnone : ∀ b, L.kid b r = Config.nil)
include ht hr hout hnone

/-- The walk of Insert from a node whose strings begin with r's byte: r is put in, at most one position is taken out, and the match
is one (R89 to R91). -/
theorem lzDescend_indexed (n : Nat) {p : Nat} {cmp : Int} {z : LzScratch} (h : z.Has L) (hp : L.In p)
    (hkey : key r = key p) (htext : ∀ x, L.In x → x < Config.nil → z.text fill x = key x) (hrtext : z.text fill r = key r)
    (hm : z.Matches fill L r) :
    (lzDescend fill r n p cmp z).Indexed key
    ∧ (∀ x, (lzDescend fill r n p cmp z).links.In x → L.In x ∨ x = r)
    ∧ (lzDescend fill r n p cmp z).Matches fill L r := by
  induction n generalizing p cmp z with
  | zero => exact ⟨h.indexed ht, fun x hx => .inl (h.links ▸ hx), hm⟩
  | succ n ih =>
    have hpr : p ≠ r := by
      rintro rfl
      exact (Links.in_lt hr).mp hp hout
    have hchild : (if cmp ≥ 0 then z.rs p else z.ls p) = L.kid (decide (cmp ≥ 0)) p := by
      by_cases hcmp : cmp ≥ 0
      · rw [if_pos hcmp, h.rs, decide_eq_true hcmp]
      · rw [if_neg hcmp, h.ls, decide_eq_false hcmp]
    rw [lzDescend]
    simp only [hchild]
    by_cases hleaf : L.kid (decide (cmp ≥ 0)) p = Config.nil
    · rw [if_pos hleaf]
      have hh := h.hang hpr hnone cmp
      refine ⟨hh.indexed (ht.hang hp hr hout hleaf hkey), fun x hx => ?_, ?_⟩
      · rw [hh.links] at hx
        exact (Links.hang_in (Links.in_ne_nil hp) hr _ x).mp hx
      · split <;> exact hm
    · rw [if_neg hleaf]
      obtain ⟨hclt, hcdad, -, hcin, hckey, -⟩ := ht.kid hp rfl hleaf
      generalize L.kid (decide (cmp ≥ 0)) p = child at *
      obtain ⟨hm1, hm18, hagree, -⟩ := lzCompare_spec fill z r child (Config.maxMatch - 1) 1
      have hrec : (z.record fill r child).Has L := ⟨h.lson, h.rson, h.dad, h.links⟩
      have hbyte : z.text fill r = z.text fill child := by rw [hrtext, htext child hcin hclt, hkey, hckey]
      have hmrec : child ≠ (r + Config.ringSize - 1) % Config.ringSize → (z.record fill r child).Matches fill L r := by
        refine fun hne => .inr ⟨hcin, hclt, hne, hm18, fun i hi => ?_⟩
        rcases Nat.eq_zero_or_pos i with rfl | hi0
        · exact hbyte
        · exact hagree i hi0 hi
      split_ifs with hbetter hfull
      · have hcr : child ≠ r := by
          rintro rfl
          exact (Links.in_lt hr).mp hcin hout
        have hin := (Links.in_lt hclt).mp hcin
        have hdadr : L.dad child ≠ r := fun he =>
          (Links.in_lt hr).mp (he ▸ (ht.parent child hclt hin).1) hout
        have hkid : ∀ b, L.kid b child ≠ child ∧ L.kid b child ≠ r := fun b =>
          ⟨((ht.apart hclt hin).2 b).1, fun he => (Links.in_lt hr).mp (ht.kid hcin he hr.ne).2.2.2.1 hout⟩
        have hrep := hrec.replace hcr hdadr (hkid false) (hkid true)
        refine ⟨hrep.indexed (ht.replace hclt hin hr hout (hkey.trans hckey.symm)), fun x hx => ?_, ?_⟩
        · have hx' : (L.replace child r).In x := hrep.links ▸ hx
          exact ((ht.replace_in hclt hin hr hout x).mp hx').imp_left And.left
        · exact (relinked_lzReplace child r (z.record fill r child)).matches (hmrec hbetter.1)
      · exact ih hrec hcin (hkey.trans hckey.symm) htext hrtext (hmrec hbetter.1)
      · exact ih h hcin (hkey.trans hckey.symm) htext hrtext hm

end Descend

/-- Insert of a position that is not in the index: it is put in, at most one other is taken out, and the match is one (R89 to
R91). -/
theorem lzInsert_indexed {fill : Byte} {r : Nat} {z : LzScratch} (h : z.Indexed (z.key fill)) (hr : r < Config.nil)
    (hout : z.da r = Config.nil) :
    (lzInsert fill r z).Indexed (z.key fill)
    ∧ (∀ x, (lzInsert fill r z).links.In x → z.links.In x ∨ x = r)
    ∧ (lzInsert fill r z).Matches fill z.links r := by
  obtain ⟨hz, rank, sd, ht⟩ := h
  have hset := (hz.setRs r Config.nil).setLs r Config.nil
  have hagree : z.links.Agree ((z.links.setKid true r Config.nil).setKid false r Config.nil) := by
    refine ⟨fun b x hx => ?_, fun y hy => rfl⟩
    have hxr : x ≠ r := by
      rintro rfl
      exact (Links.in_lt hr).mp hx hout
    simp [hxr]
  have hroot : z.links.In (Config.ringSize + 1 + (z.text fill r).toNat) := .inl (nil_lt_root _)
  have hkey : z.key fill r = z.key fill (Config.ringSize + 1 + (z.text fill r).toNat) := by
    rw [LzScratch.key, LzScratch.key, if_pos hr, if_neg (nil_lt_root _).not_gt]
    simp
  have hgoal := lzDescend_indexed (fill := fill) (ht.of_agree hagree) hr (by simpa using hout) (by simp) (Config.ringSize + 1)
    (p := Config.ringSize + 1 + (z.text fill r).toNat) (cmp := 1)
    (z := { (z.setRs r Config.nil).setLs r Config.nil with mlen := 0 }) ⟨hset.lson, hset.rson, hset.dad, hset.links⟩
    ((hagree.in_iff _).mpr hroot) hkey (fun x _ hx => (if_pos hx).symm) (if_pos hr).symm (.inl rfl)
  obtain ⟨hindex, hin, hmatch⟩ := hgoal
  refine ⟨hindex, fun x hx => (hin x hx).imp_left (hagree.in_iff x).mp, hmatch.imp_right fun hm => ?_⟩
  exact ⟨(hagree.in_iff _).mp hm.1, hm.2⟩

theorem rematched_lzInsert (fill : Byte) (r : Nat) (z : LzScratch) : z.Rematched (lzInsert fill r z) :=
  .trans ⟨_, _, _, _, _, rfl⟩ (rematched_lzDescend ..)

end Sys2Proof.Machine
end

section
/-! SUPPORT. The window of LZ_ENC (spec/42_lz77.md R87, R94): what the ring buffer and the match index hold at each position of the
input, and that moving on by one position keeps it so. -/

namespace Sys2Proof.Machine

/-! ### The ring buffer -/

/-- The ring position of an input position (R88, R94). -/
def ringPos (j : Nat) : Nat := (4078 + j) % 4096

section Text
variable {fill : Byte} {z : LzScratch} (h : cellsWfFrom fill 0 z.textBuf = true) (i : Nat) (v : Byte)
include h

theorem text_setText (x : Nat) : (z.setText fill i v).text fill x = if x = i then v else z.text fill x :=
  cellGet_cellSet h

theorem textWf_setText : cellsWfFrom fill 0 (z.setText fill i v).textBuf = true := cellsWfFrom_cellSet h (Nat.zero_le _)

end Text

/-- `text_buf[s] <- c` with its copy past the ring (R87, R94). -/
def lzStore (fill : Byte) (s : Nat) (c : Byte) (z : LzScratch) : LzScratch :=
  if s < Config.maxMatch - 1 then (z.setText fill s c).setText fill (s + Config.ringSize) c else z.setText fill s c

/-- What is stored is read at its ring position, and at the copy if there is one (R87). -/
theorem text_lzStore {fill : Byte} {z : LzScratch} (h : cellsWfFrom fill 0 z.textBuf = true) (s : Nat) (c : Byte) (x : Nat) :
    (lzStore fill s c z).text fill x = if x = s ∨ (s < 17 ∧ x = s + 4096) then c else z.text fill x := by
  unfold lzStore
  split
  · next hcopy =>
    have hs : s < 17 := hcopy
    rw [text_setText (textWf_setText h _ _), text_setText h]
    change (if x = s + 4096 then c else if x = s then c else z.text fill x) = _
    simp only [hs, true_and]
    grind
  · next hcopy =>
    have hs : ¬s < 17 := hcopy
    rw [text_setText h]
    simp [hs]

theorem textWf_lzStore {fill : Byte} {z : LzScratch} (h : cellsWfFrom fill 0 z.textBuf = true) (s : Nat) (c : Byte) :
    cellsWfFrom fill 0 (lzStore fill s c z).textBuf = true := by
  unfold lzStore
  split
  · exact textWf_setText (textWf_setText h _ _) _ _
  · exact textWf_setText h _ _

/-- Storing a byte changes text_buf alone. -/
theorem lzStore_eq (fill : Byte) (s : Nat) (c : Byte) (z : LzScratch) :
    lzStore fill s c z = { z with textBuf := (lzStore fill s c z).textBuf } := by
  unfold lzStore
  split <;> rfl

/-! ### The window -/

/-- The encoder at position k of the input, with the positions before h put into the index: the ring buffer holds the last 4078
bytes and the lookahead, the index holds positions of the last 4078 only (R87, R88, R94). -/
structure Window (fill : Byte) (inp : List Byte) (k h : Nat) (rest : List Byte) (z : LzScratch) : Prop where
  le : k ≤ inp.length
  textWf : cellsWfFrom fill 0 z.textBuf = true
  r : z.r = ringPos k
  s : z.s = k % 4096
  ln : z.ln = min 18 (inp.length - k)
  rest : rest = inp.drop (k + 18)
  text : ∀ j, k ≤ j + 4078 → j < k + 18 → j < inp.length → z.text fill (ringPos j) = inp.getD j 0
  mirror : ∀ q < 17, z.text fill (q + 4096) = z.text fill q
  indexed : z.Indexed (z.key fill)
  inside : ∀ x < Config.nil, z.links.In x → ∃ j, j < h ∧ k ≤ j + 4078 ∧ x = ringPos j

/-- The string at a position of the window is the input's, as far as the lookahead reaches (R87). -/
theorem Window.string {fill : Byte} {inp : List Byte} {k h : Nat} {rest : List Byte} {z : LzScratch}
    (hw : Window fill inp k h rest z) {j i : Nat} (hj : k ≤ j + 4078) (hjk : j ≤ k) (hi : i < 18) (hji : j + i < k + z.ln) :
    z.text fill (ringPos j + i) = inp.getD (j + i) 0 := by
  have hln := hw.ln
  have hle := hw.le
  rw [← hw.text (j + i) (by omega) (by omega) (by omega)]
  by_cases hwrap : ringPos j + i < 4096
  · congr 1
    unfold ringPos at *
    omega
  · obtain ⟨q, hq⟩ := Nat.exists_eq_add_of_le (Nat.not_lt.mp hwrap)
    have hpos : ringPos (j + i) = q := by
      unfold ringPos at *
      omega
    rw [hq, Nat.add_comm, hw.mirror q (by unfold ringPos at *; omega), hpos]

/-- The byte at the position at hand is the input's. -/
theorem Window.byte {fill : Byte} {inp : List Byte} {k h : Nat} {rest : List Byte} {z : LzScratch}
    (hw : Window fill inp k h rest z) (hk : k < inp.length) : z.text fill z.r = inp.getD k 0 := by
  rw [hw.r]
  exact hw.string (j := k) (i := 0) (by omega) le_rfl (by decide) (by rw [hw.ln]; omega)

/-- The match at position k is one of the input: an earlier string, 2 to 4078 bytes back, that agrees with the one at k as far as the
lookahead reaches (R89, R90). -/
def Matched (inp : List Byte) (k : Nat) (z : LzScratch) : Prop :=
  z.mlen = 0 ∨ ∃ j, z.mpos = ringPos j ∧ j + 2 ≤ k ∧ k ≤ j + 4078 ∧ z.mlen ≤ 18
    ∧ ∀ i < min z.mlen z.ln, inp.getD (k + i) 0 = inp.getD (j + i) 0

section Insert
variable {fill : Byte} {inp : List Byte} {k : Nat} {rest : List Byte} {z : LzScratch} (hw : Window fill inp k k rest z)
include hw

/-- The position at hand is not in the index yet. -/
theorem Window.da_r : z.da z.r = Config.nil := by
  by_contra hin
  have hr : z.r < Config.nil := by
    rw [hw.r]
    exact Nat.mod_lt _ (by decide)
  obtain ⟨j, hjk, hj, hpos⟩ := hw.inside z.r hr (.inr ⟨hr, hin⟩)
  rw [hw.r] at hpos
  unfold ringPos at hpos
  omega

/-- Insert puts the position at hand into the index and finds a match for it (R89). -/
theorem Window.insert : Window fill inp k (k + 1) rest (lzInsert fill z.r z) ∧ Matched inp k (lzInsert fill z.r z) := by
  have hr : z.r < Config.nil := by
    rw [hw.r]
    exact Nat.mod_lt _ (by decide)
  obtain ⟨hindexed, hin, hmatch⟩ := lzInsert_indexed hw.indexed hr hw.da_r
  obtain ⟨l, rs, d, pos, len, he⟩ := rematched_lzInsert fill z.r z
  rw [he] at hindexed hin hmatch ⊢
  refine ⟨⟨hw.le, hw.textWf, hw.r, hw.s, hw.ln, hw.rest, hw.text, hw.mirror, hindexed, fun x hx hinx => ?_⟩, ?_⟩
  · rcases hin x hinx with hold | rfl
    · obtain ⟨j, hjk, hj, hpos⟩ := hw.inside x hx hold
      exact ⟨j, by omega, hj, hpos⟩
    · exact ⟨k, by omega, by omega, hw.r⟩
  · refine hmatch.imp_right fun hm => ?_
    obtain ⟨hinm, hlt, hne, hlen, hagree⟩ := hm
    obtain ⟨j, hjk, hj, hpos⟩ := hw.inside _ hlt hinm
    have hadj : j + 1 ≠ k := by
      rintro rfl
      refine hne (hpos.trans ?_)
      rw [hw.r]
      unfold ringPos
      change _ = (_ + 4096 - 1) % 4096
      omega
    refine ⟨j, hpos, by omega, hj, hlen, fun i hi => ?_⟩
    dsimp only at hi hagree hpos hlen
    have hbyte := hagree i (by omega)
    have hk := hw.string (j := k) (i := i) (by omega) le_rfl (by change len ≤ 18 at hlen; omega) (by omega)
    have hj' := hw.string (j := j) (i := i) (by omega) (by omega) (by change len ≤ 18 at hlen; omega) (by omega)
    rw [← hk, ← hj', ← hpos, ← hw.r]
    exact hbyte

end Insert

/-! ### Moving on -/

/-- The part of one round of R94's window loops before Insert: the position that leaves the window is deleted, the next input byte,
if there is one, takes its place. -/
def lzMove (fill : Byte) (rest : List Byte) (z : LzScratch) : LzScratch :=
  match rest with
  | c :: _ =>
    { lzStore fill z.s c (lzDelete z.s z) with
      ip := z.ip + 1, s := (z.s + 1) % Config.ringSize, r := (z.r + 1) % Config.ringSize }
  | [] => { lzDelete z.s z with s := (z.s + 1) % Config.ringSize, r := (z.r + 1) % Config.ringSize, ln := z.ln - 1 }

/-- A round of the second window loop of R94. -/
theorem lzSlide_nil (fill : Byte) (n : Nat) (z : LzScratch) :
    lzSlide fill (n + 1) [] z =
      lzSlide fill n []
        (if (lzMove fill [] z).ln > 0 then lzInsert fill (lzMove fill [] z).r (lzMove fill [] z) else lzMove fill [] z) := by
  obtain ⟨l, r, d, hdel⟩ := relinked_lzDelete z.s z
  rw [lzSlide, lzMove, hdel]

/-- A round of the first window loop of R94. -/
theorem lzSlide_cons (fill : Byte) (n : Nat) (c : Byte) (rest : List Byte) (z : LzScratch) :
    lzSlide fill (n + 1) (c :: rest) z =
      lzSlide fill n rest (lzInsert fill (lzMove fill (c :: rest) z).r (lzMove fill (c :: rest) z)) := by
  obtain ⟨l, r, d, hdel⟩ := relinked_lzDelete z.s z
  have hstore : (if ((lzDelete z.s z).setText fill z.s c).s < Config.maxMatch - 1 then
        ((lzDelete z.s z).setText fill z.s c).setText fill (((lzDelete z.s z).setText fill z.s c).s + Config.ringSize) c
      else (lzDelete z.s z).setText fill z.s c) = lzStore fill z.s c (lzDelete z.s z) := by
    rw [hdel]
    rfl
  rw [lzSlide, lzMove]
  dsimp only
  rw [hstore, lzStore_eq, hdel]

/-- Moving on leaves the group under construction alone. -/
theorem lzMove_group (fill : Byte) (rest : List Byte) (z : LzScratch) :
    (lzMove fill rest z).grp = z.grp ∧ (lzMove fill rest z).mask = z.mask := by
  obtain ⟨l, r, d, hdel⟩ := relinked_lzDelete z.s z
  cases rest with
  | nil => simp [lzMove, hdel]
  | cons c rest =>
    rw [lzMove, lzStore_eq, hdel]
    exact ⟨rfl, rfl⟩

theorem lzMove_ln (fill : Byte) (rest : List Byte) (z : LzScratch) :
    (lzMove fill rest z).ln = if rest = [] then z.ln - 1 else z.ln := by
  obtain ⟨l, r, d, hdel⟩ := relinked_lzDelete z.s z
  cases rest with
  | nil => simp [lzMove, hdel]
  | cons c rest =>
    rw [lzMove, lzStore_eq, hdel, if_neg (List.cons_ne_nil c rest)]

/-- The window after the next byte has come in, before Insert (R94). -/
theorem Window.move {fill : Byte} {inp : List Byte} {k : Nat} {rest : List Byte} {z : LzScratch}
    (hw : Window fill inp k (k + 1) rest z) (hk : k < inp.length) :
    Window fill inp (k + 1) (k + 1) rest.tail (lzMove fill rest z) := by
  have hs : z.s < Config.nil := by
    rw [hw.s]
    exact Nat.mod_lt _ (by decide)
  obtain ⟨⟨hdelhas, hdeltree⟩, hdelin⟩ := lzDelete_indexed hw.indexed hs
  obtain ⟨l, r, d, hdel⟩ := relinked_lzDelete z.s z
  have hinside : ∀ x < Config.nil, z.links.In x ∧ x ≠ z.s → ∃ j, j < k + 1 ∧ k + 1 ≤ j + 4078 ∧ x = ringPos j := by
    rintro x hx ⟨hin, hne⟩
    obtain ⟨j, hjk, hj, hpos⟩ := hw.inside x hx hin
    refine ⟨j, hjk, ?_, hpos⟩
    rw [hw.s] at hne
    unfold ringPos at hpos
    omega
  have hrest := hw.rest
  have hln := hw.ln
  have hsk := hw.s
  have hr : (z.r + 1) % 4096 = ringPos (k + 1) := by
    rw [hw.r]
    unfold ringPos
    omega
  have hsnext : (z.s + 1) % 4096 = (k + 1) % 4096 := by
    rw [hw.s]
    omega
  have htail : rest.tail = inp.drop (k + 1 + 18) := by
    rw [hrest, List.tail_drop, Nat.add_right_comm]
  rw [hdel] at hdelhas hdelin hdeltree
  cases rest with
  | nil =>
    have hend : inp.length ≤ k + 18 := List.drop_eq_nil_iff.mp hrest.symm
    rw [lzMove, hdel]
    refine ⟨hk, hw.textWf, hr, hsnext, ?_, htail, fun j hj hjk hjn => hw.text j (by omega) (by omega) hjn, hw.mirror,
      ⟨⟨hdelhas.lson, hdelhas.rson, hdelhas.dad, rfl⟩, hdeltree⟩, fun x hx hin => hinside x hx ((hdelin x).mp hin)⟩
    dsimp only
    omega
  | cons c rest =>
    have hmore : k + 18 < inp.length := by
      by_contra hend
      rw [List.drop_eq_nil_of_le (by omega)] at hrest
      cases hrest
    have hc : inp.getD (k + 18) 0 = c := by
      have hhead := congrArg List.head? hrest
      rw [List.head?_drop] at hhead
      rw [List.getD_eq_getElem?_getD, ← hhead]
      rfl
    have htext : ∀ x, (lzMove fill (c :: rest) z).text fill x
        = if x = z.s ∨ (z.s < 17 ∧ x = z.s + 4096) then c else z.text fill x := fun x => by
      rw [lzMove, hdel]
      exact text_lzStore (z := { z with lson := l, rson := r, dad := d }) hw.textWf z.s c x
    have hwf : cellsWfFrom fill 0 (lzMove fill (c :: rest) z).textBuf = true := by
      rw [lzMove, hdel]
      exact textWf_lzStore (z := { z with lson := l, rson := r, dad := d }) hw.textWf z.s c
    have hmove := lzStore_eq fill z.s c (lzDelete z.s z)
    rw [hdel] at hmove
    have hlinks : (lzMove fill (c :: rest) z).links = { z with lson := l, rson := r, dad := d : LzScratch }.links := by
      rw [lzMove, hdel, hmove]
      rfl
    have hhas : (lzMove fill (c :: rest) z).Has (lzMove fill (c :: rest) z).links := by
      rw [lzMove, hdel, hmove]
      exact ⟨hdelhas.lson, hdelhas.rson, hdelhas.dad, rfl⟩
    refine ⟨hk, hwf, ?_, ?_, ?_, htail, fun j hj hjk hjn => ?_, fun q hq => ?_, ⟨hhas, ?_⟩, fun x hx hin => ?_⟩
    · rw [lzMove]
      exact hr
    · rw [lzMove]
      exact hsnext
    · rw [lzMove_ln, if_neg (List.cons_ne_nil c rest)]
      omega
    · rw [htext]
      by_cases hnew : j = k + 18
      · have hpos : ringPos j = z.s := by
          unfold ringPos
          omega
        rw [if_pos (.inl hpos), hnew, hc]
      · have hpos : ¬(ringPos j = z.s ∨ (z.s < 17 ∧ ringPos j = z.s + 4096)) := by
          unfold ringPos
          omega
        rw [if_neg hpos]
        exact hw.text j (by omega) (by omega) hjn
    · rw [htext, htext, hw.mirror q hq]
      exact if_congr (by omega) rfl rfl
    · obtain ⟨rank, sd, ht⟩ := hdeltree
      rw [hlinks]
      refine ⟨rank, sd, ht.congr_key fun x hx => ?_⟩
      obtain ⟨-, hne⟩ := (hdelin x).mp hx
      unfold LzScratch.key
      by_cases hx : x < Config.nil
      · have hxs : ¬(x = z.s ∨ (z.s < 17 ∧ x = z.s + 4096)) := by
          change x < 4096 at hx
          omega
        rw [if_pos hx, if_pos hx, htext, if_neg hxs]
      · rw [if_neg hx, if_neg hx]
    · exact hinside x hx ((hdelin x).mp (hlinks ▸ hin))

end Sys2Proof.Machine
end

section
/-! SUPPORT. The walk of LZ_ENC over its input (spec/42_lz77.md R94): the first fill, and the window at every position the loops
reach. -/

namespace Sys2Proof.Machine

/-! ### A round of the window loops -/

/-- One round of R94's window loops: the window moves on, and the new position is put into the index while there is lookahead. -/
def lzRound (fill : Byte) (rest : List Byte) (z : LzScratch) : LzScratch :=
  if (lzMove fill rest z).ln > 0 then lzInsert fill (lzMove fill rest z).r (lzMove fill rest z) else lzMove fill rest z

theorem lzRound_group (fill : Byte) (rest : List Byte) (z : LzScratch) :
    (lzRound fill rest z).grp = z.grp ∧ (lzRound fill rest z).mask = z.mask
      ∧ (lzRound fill rest z).ln = (lzMove fill rest z).ln := by
  obtain ⟨hgrp, hmask⟩ := lzMove_group fill rest z
  unfold lzRound
  split
  · obtain ⟨l, r, d, pos, len, he⟩ := rematched_lzInsert fill (lzMove fill rest z).r (lzMove fill rest z)
    rw [he]
    exact ⟨hgrp, hmask, rfl⟩
  · exact ⟨hgrp, hmask, rfl⟩

/-- The match and the group under construction are no part of the window. -/
theorem Window.of_group {fill : Byte} {inp : List Byte} {k h : Nat} {rest : List Byte} {z : LzScratch}
    (hw : Window fill inp k h rest z) (len : Nat) (grp : List Byte) (mask : Nat) :
    Window fill inp k h rest { z with mlen := len, grp := grp, mask := mask } :=
  ⟨hw.le, hw.textWf, hw.r, hw.s, hw.ln, hw.rest, hw.text, hw.mirror,
    ⟨⟨hw.indexed.1.lson, hw.indexed.1.rson, hw.indexed.1.dad, rfl⟩, hw.indexed.2⟩, hw.inside⟩

section Rounds
variable {fill : Byte} {inp : List Byte} {k : Nat} {rest : List Byte} {z : LzScratch} (hw : Window fill inp k (k + 1) rest z)
include hw

theorem Window.slide_succ (hk : k < inp.length) (m : Nat) :
    lzSlide fill (m + 1) rest z = lzSlide fill m rest.tail (lzRound fill rest z) := by
  cases hr : rest with
  | nil => exact lzSlide_nil fill m z
  | cons c rest' =>
    have hln : (lzMove fill (c :: rest') z).ln > 0 := by
      rw [lzMove_ln, if_neg (List.cons_ne_nil c rest'), hw.ln]
      omega
    rw [lzSlide_cons, lzRound, if_pos hln, List.tail_cons]

/-- A round that leaves lookahead ends with Insert (R94). -/
theorem Window.round_eq (hk : k + 1 < inp.length) :
    lzRound fill rest z = lzInsert fill (lzMove fill rest z).r (lzMove fill rest z) := by
  have hln : (lzMove fill rest z).ln > 0 := by
    rw [(hw.move (by omega)).ln]
    omega
  rw [lzRound, if_pos hln]

/-- A round leads to the window one position on, and to a match for it (R94). -/
theorem Window.round (hk : k + 1 < inp.length) :
    Window fill inp (k + 1) (k + 2) rest.tail (lzRound fill rest z) ∧ Matched inp (k + 1) (lzRound fill rest z) := by
  rw [hw.round_eq hk]
  exact (hw.move (by omega)).insert

/-- m rounds lead to the window m positions on, and to a match for it (R94). -/
theorem Window.slide {m : Nat} (hm : 1 ≤ m) (hk : k + m ≤ inp.length) :
    (lzSlide fill m rest z).2.grp = z.grp ∧ (lzSlide fill m rest z).2.mask = z.mask
    ∧ (lzSlide fill m rest z).2.ln = min 18 (inp.length - (k + m))
    ∧ (k + m < inp.length →
        Window fill inp (k + m) (k + m + 1) (lzSlide fill m rest z).1 (lzSlide fill m rest z).2
        ∧ Matched inp (k + m) (lzSlide fill m rest z).2) := by
  induction m generalizing k rest z with
  | zero => omega
  | succ m ih =>
    rw [hw.slide_succ (by omega)]
    obtain ⟨hgrp, hmask, hln⟩ := lzRound_group fill rest z
    rcases Nat.eq_zero_or_pos m with rfl | hm
    · exact ⟨hgrp, hmask, hln.trans (hw.move (by omega)).ln, fun hlt => hw.round hlt⟩
    · obtain ⟨hgrp', hmask', hln', hnext⟩ := ih (hw.round (by omega)).1 hm (by omega)
      rw [Nat.add_assoc, Nat.add_comm 1 m] at hln' hnext
      exact ⟨hgrp'.trans hgrp, hmask'.trans hmask, hln', hnext⟩

end Rounds

/-! ### The start -/

/-- The first loop of R94 puts up to m bytes into text_buf after the ln it holds. -/
theorem lzFill_spec (fill : Byte) (m : Nat) (rest : List Byte) {z : LzScratch}
    (h : cellsWfFrom fill 0 z.textBuf = true) :
    (lzFill fill m rest z).1 = rest.drop m
    ∧ (∃ t ip, (lzFill fill m rest z).2 = { z with textBuf := t, ip := ip, ln := z.ln + min m rest.length })
    ∧ cellsWfFrom fill 0 (lzFill fill m rest z).2.textBuf = true
    ∧ ∀ x, (lzFill fill m rest z).2.text fill x =
        if z.r + z.ln ≤ x ∧ x < z.r + z.ln + min m rest.length then rest.getD (x - (z.r + z.ln)) 0 else z.text fill x := by
  induction m generalizing rest z with
  | zero =>
    rw [lzFill]
    · exact ⟨rfl, ⟨z.textBuf, z.ip, by simp⟩, h, fun x => (if_neg (by omega)).symm⟩
    · simp
  | succ m ih =>
    cases rest with
    | nil =>
      rw [lzFill]
      · exact ⟨rfl, ⟨z.textBuf, z.ip, by simp⟩, h, fun x => (if_neg (by simp)).symm⟩
      · simp
    | cons c rest =>
      rw [lzFill]
      obtain ⟨hrest, ⟨t, ip, he⟩, hwf, htext⟩ :=
        ih rest (z := { z.setText fill (z.r + z.ln) c with ip := z.ip + 1, ln := z.ln + 1 }) (textWf_setText h _ _)
      refine ⟨hrest, ⟨t, ip, ?_⟩, hwf, fun x => ?_⟩
      · have hln : z.ln + 1 + min m rest.length = z.ln + min (m + 1) (c :: rest).length := by
          rw [List.length_cons]
          omega
        rw [he, ← hln]
        rfl
      · rw [htext x]
        change (if z.r + (z.ln + 1) ≤ x ∧ x < z.r + (z.ln + 1) + min m rest.length then
            rest.getD (x - (z.r + (z.ln + 1))) 0 else (z.setText fill (z.r + z.ln) c).text fill x) = _
        rw [text_setText h, List.length_cons]
        rcases Nat.lt_trichotomy x (z.r + z.ln) with hlt | rfl | hgt
        · rw [if_neg (by omega), if_neg (by omega), if_neg (by omega)]
        · rw [if_neg (by omega), if_pos rfl, if_pos (by omega), Nat.sub_self, List.getD_cons_zero]
        · obtain ⟨y, rfl⟩ := Nat.exists_eq_add_of_le hgt
          rw [if_neg (show z.r + z.ln + 1 + y ≠ z.r + z.ln by omega),
            show z.r + z.ln + 1 + y - (z.r + z.ln) = y + 1 by omega, List.getD_cons_succ,
            show z.r + z.ln + 1 + y - (z.r + (z.ln + 1)) = y by omega]
          exact if_congr (by omega) rfl rfl

/-- The encoder after the first fill (R94). -/
def lzStart (fill : Byte) (inp : List Byte) : LzScratch := (lzFill fill Config.maxMatch inp lzInit).2

/-- The window at the start: no position is in the index yet (R88). -/
theorem window_lzStart (fill : Byte) (inp : List Byte) : Window fill inp 0 0 (inp.drop 18) (lzStart fill inp) := by
  obtain ⟨-, ⟨t, ip, he⟩, hwf, htext⟩ := lzFill_spec fill Config.maxMatch inp (z := lzInit) rfl
  change lzStart fill inp = _ at he
  change cellsWfFrom fill 0 (lzStart fill inp).textBuf = true at hwf
  have hbyte : ∀ x, (lzStart fill inp).text fill x
      = if 4078 ≤ x ∧ x < 4078 + min 18 inp.length then inp.getD (x - 4078) 0 else fill := htext
  refine ⟨Nat.zero_le _, hwf, ?_, ?_, ?_, rfl, fun j _ hj hjn => ?_, fun q hq => ?_, ?_, fun x hx hin => ?_⟩
  · rw [he]
    rfl
  · rw [he]
    rfl
  · rw [he]
    exact Nat.zero_add _
  · have hpos : ringPos j = 4078 + j := by
      unfold ringPos
      omega
    rw [hbyte, hpos, if_pos (by omega), Nat.add_sub_cancel_left]
  · rw [hbyte, hbyte, if_neg (by omega), if_neg (by omega)]
  · have hkid : ∀ b x, (lzStart fill inp).links.kid b x = Config.nil := by
      rw [he]
      rintro (_ | _) x <;> rfl
    have hdad : ∀ y, (lzStart fill inp).links.dad y = Config.nil := by
      rw [he]
      exact fun _ => rfl
    refine ⟨?_, fun _ => 0, fun _ => false, fun b x _ => (hkid b x).le, fun y _ hin => absurd (hdad y) hin,
      fun b x y hx hy => ?_⟩
    · rw [he]
      exact ⟨rfl, rfl, rfl, rfl⟩
    · rw [hkid, hdad]
      exact ⟨fun h => absurd h hy.ne', fun h => absurd h.1.symm (Links.in_ne_nil hx)⟩
  · rw [he] at hin
    exact absurd rfl ((Links.in_lt hx).mp hin)

end Sys2Proof.Machine
end

section
/-! SUPPORT. The items of an LZ77 payload (spec/42_lz77.md R95, R100): what a group's bytes are when an item joins it, and what the
items stand for. -/

namespace Sys2Proof.Machine

/-! ### The flag byte -/

/-- The bits of the first n items in a flag byte (R51). -/
def lzFlagBits (items : List LzItem) (n : Nat) : Byte :=
  (List.range n).foldl (fun f i => if (items[i]?.map LzItem.isRef).getD false then f ||| BitVec.ofNat 8 (0x80 >>> i) else f) 0

theorem lzFlagBits_succ (items : List LzItem) (n : Nat) :
    lzFlagBits items (n + 1) =
      if (items[n]?.map LzItem.isRef).getD false then lzFlagBits items n ||| BitVec.ofNat 8 (0x80 >>> n) else lzFlagBits items n := by
  rw [lzFlagBits, List.range_succ, List.foldl_append]
  rfl

/-- Bits past the last item are 0 (R51). -/
theorem lzFlagBits_of_length_le {items : List LzItem} {n : Nat} (hn : items.length ≤ n) :
    lzFlagBits items n = lzFlagBits items items.length := by
  induction n, hn using Nat.le_induction with
  | base => rfl
  | succ n hn ih =>
    rw [lzFlagBits_succ, List.getElem?_eq_none hn]
    exact ih

theorem lzFlagBits_append (items : List LzItem) (item : LzItem) {n : Nat} (hn : n ≤ items.length) :
    lzFlagBits (items ++ [item]) n = lzFlagBits items n := by
  induction n with
  | zero => rfl
  | succ n ih => rw [lzFlagBits_succ, lzFlagBits_succ, ih (by omega), List.getElem?_append_left hn]

/-- A reference that joins a group sets the next bit of its flag byte (R51). -/
theorem lzFlagByte_append {items : List LzItem} (hlen : items.length < 8) (item : LzItem) :
    lzFlagByte (items ++ [item]) =
      if item.isRef then lzFlagByte items ||| BitVec.ofNat 8 (0x80 >>> items.length) else lzFlagByte items := by
  have hle : (items ++ [item]).length ≤ 8 := by
    rw [List.length_append]
    exact hlen
  change lzFlagBits (items ++ [item]) 8 = if item.isRef then lzFlagBits items 8 ||| _ else lzFlagBits items 8
  rw [lzFlagBits_of_length_le hle, lzFlagBits_of_length_le hlen.le, List.length_append, List.length_singleton,
    lzFlagBits_succ, lzFlagBits_append _ _ le_rfl, List.getElem?_concat_length]
  rfl

/-! ### Groups -/

/-- A token's bytes are the encoding of its item (R52). -/
theorem tokenBytes_eq {len dist : Nat} (hdist : dist ≤ 4096) : tokenBytes len dist = (LzItem.ref len dist).bytes := by
  have hhigh : (dist - 1) / 256 < 2 ^ 4 := by omega
  rw [LzItem.bytes, encode, tokenBytes, Nat.shiftRight_eq_div_pow, ← Nat.shiftLeft_add_eq_or_of_lt hhigh, Nat.shiftLeft_eq]

/-- A group after one more item. -/
theorem lzGroupBytes_append {items : List LzItem} (hlen : items.length < 8) (item : LzItem) :
    lzGroupBytes (items ++ [item]) =
      (if item.isRef then lzFlagByte items ||| BitVec.ofNat 8 (0x80 >>> items.length) else lzFlagByte items)
        :: (items.flatMap LzItem.bytes ++ item.bytes) := by
  simp [lzGroupBytes, lzFlagByte_append hlen]

/-- The groups written out hold 8 items each, and the group under construction the rest (R95). -/
def Grouped (items : List LzItem) (grp : List Byte) (mask : Nat) (out : List Byte) : Prop :=
  ∃ (gs : List (List LzItem)) (g : List LzItem), items = gs.flatten ++ g ∧ (∀ x ∈ gs, x.length = 8) ∧ g.length < 8
    ∧ out = gs.flatMap lzGroupBytes ∧ grp = lzGroupBytes g ∧ mask = 0x80 >>> g.length

/-- z' and out' are z and out with the item put out: the group and the mask have changed, and nothing else (R95). -/
def PutsItem (items : List LzItem) (item : LzItem) (z : LzScratch) (res : LzScratch × List Byte) : Prop :=
  (∃ grp mask, res.1 = { z with grp := grp, mask := mask }) ∧ Grouped (items ++ [item]) res.1.grp res.1.mask res.2

/-- Advance closes a group at its 8th item (R95). -/
theorem lzAdvance_puts {gs : List (List LzItem)} {g : List LzItem} (hgs : ∀ x ∈ gs, x.length = 8) (hg : g.length < 8)
    {z : LzScratch} (hmask : z.mask = 0x80 >>> g.length) (item : LzItem) :
    PutsItem (gs.flatten ++ g) item z
      (lzAdvance { z with grp := lzGroupBytes (g ++ [item]) } (gs.flatMap lzGroupBytes)) := by
  have hhalf : z.mask / 2 = 0x80 >>> (g.length + 1) := by
    rw [hmask, Nat.shiftRight_add]
    rfl
  unfold lzAdvance
  dsimp only
  rcases Nat.lt_or_ge g.length 7 with hlt | hge
  · have hmore : z.mask / 2 ≠ 0 := by
      rw [hhalf, Nat.shiftRight_eq_div_pow]
      have hpow : 2 ^ (g.length + 1) ≤ 2 ^ 7 := Nat.pow_le_pow_right (by decide) hlt
      exact (Nat.div_pos hpow (Nat.two_pow_pos _)).ne'
    rw [if_neg hmore]
    refine ⟨⟨_, _, rfl⟩, gs, g ++ [item], by simp, hgs, by simpa using Nat.succ_lt_succ hlt, rfl, rfl, ?_⟩
    rw [List.length_append]
    exact hhalf
  · have hseven : g.length = 7 := by omega
    rw [if_pos (by rw [hhalf, hseven]; rfl)]
    refine ⟨⟨_, _, rfl⟩, gs ++ [g ++ [item]], [], by simp, fun x hx => ?_, by decide, by simp, rfl, rfl⟩
    rcases List.mem_append.mp hx with hx | hx
    · exact hgs x hx
    · rw [List.mem_singleton.mp hx, List.length_append, hseven]
      rfl

section Put
variable {items : List LzItem} {z : LzScratch} {out : List Byte} (h : Grouped items z.grp z.mask out)
include h

theorem Grouped.putLit (b : Byte) : PutsItem items (.lit b) z (lzPutLit b z out) := by
  obtain ⟨gs, g, rfl, hgs, hg, rfl, hgrp, hmask⟩ := h
  have hjoin : z.grp ++ [b] = lzGroupBytes (g ++ [.lit b]) := by
    rw [lzGroupBytes_append hg, hgrp]
    rfl
  rw [lzPutLit, hjoin]
  exact lzAdvance_puts hgs hg hmask _

theorem Grouped.putRef (len : Nat) {dist : Nat} (hdist : dist ≤ 4096) :
    PutsItem items (.ref len dist) z (lzPutRef len dist z out) := by
  obtain ⟨gs, g, rfl, hgs, hg, rfl, hgrp, hmask⟩ := h
  have hflag : BitVec.ofNat 8 ((lzFlagByte g).toNat ||| 0x80 >>> g.length) = lzFlagByte g ||| BitVec.ofNat 8 (0x80 >>> g.length) := by
    rw [BitVec.ofNat_or, BitVec.ofNat_toNat, BitVec.setWidth_eq]
  have hjoin : z.grp.set 0 (BitVec.ofNat 8 ((z.grp.headD 0).toNat ||| z.mask)) ++ tokenBytes len dist
      = lzGroupBytes (g ++ [.ref len dist]) := by
    rw [lzGroupBytes_append hg, hgrp, hmask, tokenBytes_eq hdist]
    change BitVec.ofNat 8 ((lzFlagByte g).toNat ||| 0x80 >>> g.length) :: _ = _
    rw [hflag]
    rfl
  rw [lzPutRef, hjoin]
  exact lzAdvance_puts hgs hg hmask _

end Put

/-! ### What items stand for -/

theorem lzExpand_append (items items' : List LzItem) (out : List Byte) :
    lzExpand (items ++ items') out = (lzExpand items out).bind (lzExpand items') := by
  induction items generalizing out with
  | nil => rfl
  | cons item items ih =>
    cases item with
    | lit b => exact ih _
    | ref len dist =>
      simp only [List.cons_append, lzExpand]
      split
      · rfl
      · exact ih _

/-- A copy of what the input repeats goes on with the input (R100). -/
theorem copyBack_take {inp : List Byte} {d k len : Nat} (hd : 1 ≤ d) (hdk : d ≤ k) (hlen : k + len ≤ inp.length)
    (hsame : ∀ i < len, inp.getD (k + i) 0 = inp.getD (k - d + i) 0) :
    copyBack d len (inp.take k) = inp.take (k + len) := by
  induction len generalizing k with
  | zero => rfl
  | succ len ih =>
    have hnext : inp.take k ++ [(inp.take k).getD ((inp.take k).length - d) 0] = inp.take (k + 1) := by
      have hfirst := hsame 0 (Nat.succ_pos _)
      rw [Nat.add_zero, Nat.add_zero] at hfirst
      rw [List.length_take_of_le (by omega), List.getD_eq_getElem?_getD, List.getElem?_take_of_lt (by omega),
        ← List.getD_eq_getElem?_getD, ← hfirst, List.getD_eq_getElem _ _ (by omega), List.take_concat_get']
    rw [copyBack, hnext, ih (by omega) (by omega) (fun i hi => ?_), Nat.add_right_comm, Nat.add_assoc]
    have hi' := hsame (i + 1) (by omega)
    rwa [show k + (i + 1) = k + 1 + i by omega, show k - d + (i + 1) = k + 1 - d + i by omega] at hi'

/-- No reference of distance 2 or more fits among the first two items (R94, R100). -/
theorem lits_of_lzExpand {items : List LzItem} {bs : List Byte} (h : lzExpand items [] = some bs)
    (hfar : ∀ len dist, .ref len dist ∈ items → 2 ≤ dist) : ∀ item ∈ items.take 2, item.isRef = false := by
  match items with
  | [] => simp
  | .ref len dist :: _ =>
    have hdist : dist > ([] : List Byte).length := (hfar len dist (by simp)).trans_lt' (by decide)
    rw [lzExpand, if_pos hdist] at h
    cases h
  | [.lit b] => simp [LzItem.isRef]
  | .lit b :: .lit b' :: _ => simp [LzItem.isRef]
  | .lit b :: .ref len dist :: _ =>
    have hdist : dist > [b].length := hfar len dist (by simp)
    rw [lzExpand, List.nil_append, lzExpand, if_pos hdist] at h
    cases h

end Sys2Proof.Machine
end

section
/-! SUPPORT. The main loop of LZ_ENC (spec/42_lz77.md R94): what it has coded at every position it reaches. -/

namespace Sys2Proof.Machine

/-- The item the main loop chooses for the position at hand (R94). -/
def lzChosen (fill : Byte) (z : LzScratch) : LzItem :=
  if min z.mlen z.ln ≤ Config.threshold then .lit (z.text fill z.r)
  else .ref (min z.mlen z.ln) ((z.r + Config.ringSize - z.mpos) % Config.ringSize)

/-- How many input bytes an item stands for (R51). -/
def LzItem.span : LzItem → Nat
  | .lit _ => 1
  | .ref len _ => len

/-- The bounds of a reference LZ_ENC puts out (R90, R96). -/
def LzItem.InRange : LzItem → Prop
  | .lit _ => True
  | .ref len dist => 3 ≤ len ∧ len ≤ 18 ∧ 2 ≤ dist ∧ dist ≤ 4078

/-- The item of the position at hand is put out, and mlen is what it stands for (R94). -/
def lzPut (fill : Byte) (z : LzScratch) (out : List Byte) : LzScratch × List Byte :=
  if min z.mlen z.ln ≤ Config.threshold then lzPutLit (z.text fill z.r) { z with mlen := 1 } out
  else lzPutRef (min z.mlen z.ln) ((z.r + Config.ringSize - z.mpos) % Config.ringSize) { z with mlen := min z.mlen z.ln } out

theorem lzPut_puts {fill : Byte} {items : List LzItem} {z : LzScratch} {out : List Byte}
    (h : Grouped items z.grp z.mask out) (hrange : (lzChosen fill z).InRange) :
    PutsItem items (lzChosen fill z) { z with mlen := (lzChosen fill z).span } (lzPut fill z out) := by
  unfold lzChosen at hrange ⊢
  unfold lzPut
  split_ifs at hrange ⊢
  · exact Grouped.putLit (z := { z with mlen := 1 }) h _
  · exact Grouped.putRef (z := { z with mlen := min z.mlen z.ln }) h _ (hrange.2.2.2.trans (by decide))

/-- A round of the main loop: an item is put out, then the window moves past what it stands for (R94). -/
theorem lzLoop_succ (fill : Byte) (n : Nat) (rest : List Byte) (z : LzScratch) (out : List Byte) :
    lzLoop fill (n + 1) rest z out =
      let step := lzPut fill z out
      let next := lzSlide fill step.1.mlen rest step.1
      if next.2.ln = 0 then (next.2, step.2) else lzLoop fill n next.1 next.2 step.2 := by
  have hcut : (if z.mlen > z.ln then { z with mlen := z.ln } else z) = { z with mlen := min z.mlen z.ln } := by
    split
    · next hgt => rw [min_eq_right hgt.le]
    · next hle => rw [min_eq_left (Nat.not_lt.mp hle)]
  rw [lzLoop, hcut]
  rfl

/-- The main loop at position k of the input: the items put out so far stand for the bytes before k (R94, R96). -/
structure Coded (fill : Byte) (inp : List Byte) (k : Nat) (items : List LzItem) (rest : List Byte) (z : LzScratch)
    (out : List Byte) : Prop where
  le : k ≤ inp.length
  ln : z.ln = min 18 (inp.length - k)
  grouped : Grouped items z.grp z.mask out
  inRange : ∀ item ∈ items, item.InRange
  expand : lzExpand items [] = some (inp.take k)
  window : k < inp.length → Window fill inp k (k + 1) rest z
  matched : k < inp.length → Matched inp k z

section Round
variable {fill : Byte} {inp : List Byte} {k : Nat} {items : List LzItem} {rest : List Byte} {z : LzScratch} {out : List Byte}
  (h : Coded fill inp k items rest z out) (hk : k < inp.length)
include h hk

/-- The item chosen for a position is in range and stands for the bytes there (R96). -/
theorem Coded.chosen : (lzChosen fill z).InRange ∧ 1 ≤ (lzChosen fill z).span ∧ k + (lzChosen fill z).span ≤ inp.length
    ∧ lzExpand [lzChosen fill z] (inp.take k) = some (inp.take (k + (lzChosen fill z).span)) := by
  unfold lzChosen
  have hln := h.ln
  by_cases hlit : min z.mlen z.ln ≤ Config.threshold
  · rw [if_pos hlit, (h.window hk).byte hk]
    refine ⟨trivial, le_rfl, hk, ?_⟩
    rw [lzExpand, lzExpand, List.getD_eq_getElem _ _ hk, List.take_concat_get']
    rfl
  · rw [if_neg hlit]
    have hlong : 2 < min z.mlen z.ln := Nat.not_le.mp hlit
    rcases h.matched hk with hnone | ⟨j, hpos, hjk, hj, hlen, hsame⟩
    · omega
    · have hdist : (z.r + Config.ringSize - z.mpos) % Config.ringSize = k - j := by
        rw [(h.window hk).r, hpos]
        unfold ringPos
        change (_ + 4096 - _) % 4096 = _
        omega
      rw [hdist]
      refine ⟨⟨hlong, by omega, by omega, by omega⟩, by simp only [LzItem.span]; omega, by simp only [LzItem.span]; omega, ?_⟩
      have hfit : ¬k - j > (inp.take k).length := by
        rw [List.length_take]
        omega
      rw [lzExpand, if_neg hfit, lzExpand, copyBack_take (by omega) (by omega) (by omega) fun i hi => ?_]
      · rfl
      · rw [Nat.sub_sub_self (by omega)]
        exact hsame i hi

/-- A round of the main loop codes one item and goes on behind what it stands for (R94). -/
theorem Coded.round : ∃ grp mask out',
    let m := (lzChosen fill z).span
    let next := lzSlide fill m rest { z with mlen := m, grp := grp, mask := mask }
    Coded fill inp (k + m) (items ++ [lzChosen fill z]) next.1 next.2 out'
    ∧ ∀ n, lzLoop fill (n + 1) rest z out = if next.2.ln = 0 then (next.2, out') else lzLoop fill n next.1 next.2 out' := by
  obtain ⟨hrange, hpos, hle, hexpand⟩ := h.chosen hk
  obtain ⟨⟨grp, mask, hz⟩, hgrouped⟩ := lzPut_puts h.grouped hrange
  rw [hz] at hgrouped
  refine ⟨grp, mask, (lzPut fill z out).2, ?_, fun n => by simp only [lzLoop_succ, hz]⟩
  obtain ⟨hgrp, hmask, hln, hnext⟩ := ((h.window hk).of_group (lzChosen fill z).span grp mask).slide hpos hle
  refine ⟨hle, hln, ?_, fun item hitem => ?_, ?_, fun hlt => (hnext hlt).1, fun hlt => (hnext hlt).2⟩
  · rw [hgrp, hmask]
    exact hgrouped
  · rcases List.mem_append.mp hitem with hitem | hitem
    · exact h.inRange item hitem
    · rw [List.mem_singleton.mp hitem]
      exact hrange
  · rw [lzExpand_append, h.expand]
    exact hexpand

end Round

/-- The main loop ends with items that begin with these and stand for the input (R96). -/
def Codes (inp : List Byte) (items : List LzItem) (res : LzScratch × List Byte) : Prop :=
  ∃ items', items <+: items' ∧ (∀ item ∈ items', item.InRange) ∧ lzExpand items' [] = some inp
    ∧ Grouped items' res.1.grp res.1.mask res.2

/-- The main loop codes the rest of the input (R94, R96). -/
theorem Coded.codes {fill : Byte} {inp : List Byte} {k : Nat} {items : List LzItem} {rest : List Byte} {z : LzScratch}
    {out : List Byte} (h : Coded fill inp k items rest z out) {n : Nat} (hn : inp.length ≤ k + n) :
    Codes inp items (if z.ln = 0 then (z, out) else lzLoop fill n rest z out) := by
  have hln := h.ln
  have hle := h.le
  induction n generalizing k items rest z out with
  | zero =>
    rw [if_pos (by omega)]
    exact ⟨items, List.prefix_rfl, h.inRange, by rw [h.expand, List.take_of_length_le (by omega)], h.grouped⟩
  | succ n ih =>
    split
    · exact ⟨items, List.prefix_rfl, h.inRange, by rw [h.expand, List.take_of_length_le (by omega)], h.grouped⟩
    · have hk : k < inp.length := by omega
      obtain ⟨grp, mask, out', hnext, hloop⟩ := h.round hk
      obtain ⟨-, hpos, -, -⟩ := h.chosen hk
      obtain ⟨items', hprefix, hall⟩ := ih hnext (by omega) hnext.ln hnext.le
      rw [hloop]
      exact ⟨items', (List.prefix_append _ _).trans hprefix, hall⟩

/-- The encoder as the main loop begins: the first position is in the index, and the group is empty (R94). -/
def lzReady (fill : Byte) (inp : List Byte) : LzScratch :=
  { lzInsert fill (lzStart fill inp).r (lzStart fill inp) with grp := [0x00], mask := 0x80 }

/-- The main loop begins with nothing coded (R94). -/
theorem coded_start (fill : Byte) (inp : List Byte) : Coded fill inp 0 [] (inp.drop 18) (lzReady fill inp) [] := by
  obtain ⟨hwindow, hmatched⟩ := (window_lzStart fill inp).insert
  exact ⟨Nat.zero_le _, hwindow.ln, ⟨[], [], rfl, by simp, by decide, rfl, rfl, rfl⟩, by simp, rfl,
    fun _ => hwindow.of_group _ _ _, fun _ => hmatched⟩

end Sys2Proof.Machine
end

section
/-! SUPPORT. An input that begins with a run (spec/42_lz77.md R89, R90; V43): why its third item is the reference at distance 2. -/

namespace Sys2Proof.Machine

/-! ### Insert into a small tree -/

/-- The root of a byte's tree (R87). -/
def lzRoot (b : Byte) : Nat := Config.ringSize + 1 + b.toNat

theorem lzRoot_ne {b : Byte} {x : Nat} (hx : x < Config.nil) : lzRoot b ≠ x := (hx.trans (nil_lt_root b.toNat)).ne'

/-- The encoder as Insert begins its walk for position r (R89). -/
def LzScratch.fresh (r : Nat) (z : LzScratch) : LzScratch := { (z.setRs r Config.nil).setLs r Config.nil with mlen := 0 }

theorem lzInsert_eq (fill : Byte) (r : Nat) (z : LzScratch) :
    lzInsert fill r z = lzDescend fill r (Config.ringSize + 1) (lzRoot (z.text fill r)) 1 (z.fresh r) := rfl

section Small
variable {fill : Byte} {r : Nat} {z : LzScratch} (hz : z.Has z.links)
include hz

theorem LzScratch.Has.fresh : (z.fresh r).Has ((z.links.setKid true r Config.nil).setKid false r Config.nil) := by
  have hset := (hz.setRs r Config.nil).setLs r Config.nil
  exact ⟨hset.lson, hset.rson, hset.dad, hset.links⟩

variable (hr : r < Config.nil)
include hr

/-- Insert into an empty tree hangs the position on the root (R89). -/
theorem lzInsert_empty (hroot : z.rs (lzRoot (z.text fill r)) = Config.nil) :
    (lzInsert fill r z).rs (lzRoot (z.text fill r)) = r ∧ (lzInsert fill r z).rs r = Config.nil
      ∧ (lzInsert fill r z).ls r = Config.nil := by
  have hne := lzRoot_ne hr (b := z.text fill r)
  have hfresh := hz.fresh (r := r)
  have hchild : (z.fresh r).rs (lzRoot (z.text fill r)) = Config.nil := by
    rw [hfresh.rs]
    simpa [hne] using hroot
  have hhang := hfresh.hang hne (fun b => by cases b <;> simp) 1
  have hinsert : lzInsert fill r z =
      ((if (1 : Int) ≥ 0 then (z.fresh r).setRs (lzRoot (z.text fill r)) r
        else (z.fresh r).setLs (lzRoot (z.text fill r)) r).setDa r (lzRoot (z.text fill r))) := by
    rw [lzInsert_eq, lzDescend]
    exact if_pos hchild
  rw [hinsert, hhang.rs, hhang.rs, hhang.ls]
  simp [hne]

/-- Insert passes by the position just before, which stays below the root (R89, R90). -/
theorem lzInsert_behind {c : Nat} (hc : c = (r + Config.ringSize - 1) % Config.ringSize) (hcr : c ≠ r)
    (hroot : z.rs (lzRoot (z.text fill r)) = c) (hrs : z.rs c = Config.nil) (hls : z.ls c = Config.nil) :
    (lzInsert fill r z).rs (lzRoot (z.text fill r)) = c := by
  have hne := lzRoot_ne hr (b := z.text fill r)
  have hcn : c < Config.nil := hc ▸ Nat.mod_lt _ (by decide)
  have hnec := lzRoot_ne hcn (b := z.text fill r)
  have hfresh := hz.fresh (r := r)
  have hchild : (z.fresh r).rs (lzRoot (z.text fill r)) = c := by
    rw [hfresh.rs]
    simpa [hne] using hroot
  have hleaf : ∀ cmp : Int, (if cmp ≥ 0 then (z.fresh r).rs c else (z.fresh r).ls c) = Config.nil := fun cmp => by
    rw [hfresh.rs, hfresh.ls]
    simp [hcr, hrs, hls]
  obtain ⟨cmp, hinsert⟩ : ∃ cmp : Int, lzInsert fill r z =
      (if cmp ≥ 0 then (z.fresh r).setRs c r else (z.fresh r).setLs c r).setDa r c := by
    refine ⟨(lzCompare fill (z.fresh r) r c (Config.maxMatch - 1) 1).2, ?_⟩
    rw [lzInsert_eq, lzDescend]
    simp only [ge_iff_le, Int.one_nonneg, if_true, hchild, if_neg hcn.ne]
    rw [if_neg fun hboth => hboth.1 hc, lzDescend]
    exact if_pos (hleaf _)
  have hhang := hfresh.hang hcr (fun b => by cases b <;> simp) cmp
  rw [hinsert, hhang.rs]
  simpa [hne, hnec] using hroot

/-- The match Insert leaves is no shorter than the comparison with the first candidate below the root (R89). -/
theorem lzInsert_mlen {c : Nat} (hc : c ≠ (r + Config.ringSize - 1) % Config.ringSize) (hnil : c ≠ Config.nil)
    (hroot : z.rs (lzRoot (z.text fill r)) = c) :
    ∃ t ≤ (lzInsert fill r z).mlen, t < 18 → z.text fill (r + t) ≠ z.text fill (c + t) := by
  have hne := lzRoot_ne hr (b := z.text fill r)
  have hfresh := hz.fresh (r := r)
  have hchild : (z.fresh r).rs (lzRoot (z.text fill r)) = c := by
    rw [hfresh.rs]
    simpa [hne] using hroot
  obtain ⟨hpos, -, -, hdiff⟩ := lzCompare_spec fill (z.fresh r) r c (Config.maxMatch - 1) 1
  refine ⟨_, ?_, hdiff⟩
  rw [lzInsert_eq, lzDescend]
  simp only [ge_iff_le, Int.one_nonneg, if_true, hchild, if_neg hnil]
  rw [if_pos ⟨hc, hpos⟩]
  split
  · obtain ⟨_, _, _, he⟩ := relinked_lzReplace c r ((z.fresh r).record fill r c)
    exact (congrArg LzScratch.mlen he).ge
  · exact mlen_le_lzDescend fill r _ c _ ((z.fresh r).record fill r c)

end Small

/-! ### The first three positions -/

/-- No position leaves the window while it is at the first two (R87, R94). -/
theorem Window.lzDelete_s {fill : Byte} {inp : List Byte} {k h : Nat} {rest : List Byte} {z : LzScratch}
    (hw : Window fill inp k h rest z) (hk : k < 2) (hh : h ≤ 2) : lzDelete z.s z = z := by
  have hs := hw.s
  have hsn : z.s < Config.nil := by
    rw [hs]
    exact Nat.mod_lt _ (by decide)
  refine if_pos ?_
  by_contra hin
  obtain ⟨j, hj, -, hpos⟩ := hw.inside z.s hsn ((Links.in_lt hsn).mpr hin)
  unfold ringPos at hpos
  omega

/-- Moving on leaves the kids alone when nothing leaves the window. -/
theorem lzMove_kids {fill : Byte} {z : LzScratch} (hdel : lzDelete z.s z = z) (rest : List Byte) (x : Nat) :
    (lzMove fill rest z).rs x = z.rs x ∧ (lzMove fill rest z).ls x = z.ls x := by
  cases rest with
  | nil =>
    rw [lzMove, hdel]
    exact ⟨rfl, rfl⟩
  | cons c rest =>
    rw [lzMove, hdel, lzStore_eq]
    exact ⟨rfl, rfl⟩

/-- The first position is alone in its tree (R88, R89). -/
theorem Window.first {fill : Byte} {inp : List Byte} {rest : List Byte} {z : LzScratch} (hw : Window fill inp 0 0 rest z)
    (hinp : 0 < inp.length) :
    (lzInsert fill z.r z).rs (lzRoot (inp.getD 0 0)) = 4078 ∧ (lzInsert fill z.r z).rs 4078 = Config.nil
      ∧ (lzInsert fill z.r z).ls 4078 = Config.nil := by
  obtain ⟨hz, rank, sd, ht⟩ := hw.indexed
  have hempty : z.rs (lzRoot (inp.getD 0 0)) = Config.nil := by
    by_contra hleaf
    obtain ⟨hlt, -, -, hin, -⟩ := ht.kid (.inl (nil_lt_root _)) (b := true) rfl hleaf
    obtain ⟨j, hj, -⟩ := hw.inside _ hlt hin
    omega
  have hr : z.r = 4078 := hw.r
  rw [← hw.byte hinp] at hempty ⊢
  rw [hr] at hempty ⊢
  exact lzInsert_empty hz (by decide) hempty

/-- The second position of a run is put below the first (R89, R90). -/
theorem Window.second {fill : Byte} {inp : List Byte} {rest : List Byte} {z : LzScratch} (hw : Window fill inp 0 1 rest z)
    (hinp : 1 < inp.length) (hrun : inp.getD 1 0 = inp.getD 0 0) (hroot : z.rs (lzRoot (inp.getD 0 0)) = 4078)
    (hrs : z.rs 4078 = Config.nil) (hls : z.ls 4078 = Config.nil) :
    (lzRound fill rest z).rs (lzRoot (inp.getD 0 0)) = 4078 := by
  have hmove := hw.move (by omega)
  have hkids := lzMove_kids (fill := fill) (hw.lzDelete_s (by decide) (by decide)) rest
  have hr : (lzMove fill rest z).r = 4079 := hmove.r
  rw [hw.round_eq hinp, ← hrun, ← hmove.byte hinp, hr]
  refine lzInsert_behind hmove.indexed.1 (by decide) rfl (by decide) ?_ ?_ ?_
  · rw [(hkids _).1, ← hr, hmove.byte hinp, hrun, hroot]
  · rw [(hkids _).1, hrs]
  · rw [(hkids _).2, hls]

/-- The match of the third position of a run is no shorter than the run from there on, 18 at most (R89, R90). -/
theorem Window.third {fill : Byte} {inp : List Byte} {rest : List Byte} {z : LzScratch} (hw : Window fill inp 1 2 rest z)
    (hinp : 2 < inp.length) (hrun : inp.getD 2 0 = inp.getD 0 0) (hroot : z.rs (lzRoot (inp.getD 0 0)) = 4078) :
    ∃ t ≤ (lzRound fill rest z).mlen, t < 18 → 2 + t < inp.length → inp.getD (2 + t) 0 ≠ inp.getD t 0 := by
  have hmove := hw.move (by omega)
  have hkids := lzMove_kids (fill := fill) (hw.lzDelete_s (by decide) (by decide)) rest
  have hr : (lzMove fill rest z).r = 4080 := hmove.r
  have hcand : (lzMove fill rest z).rs (lzRoot ((lzMove fill rest z).text fill (lzMove fill rest z).r)) = 4078 := by
    rw [(hkids _).1, hmove.byte hinp, hrun, hroot]
  rw [hr] at hcand
  obtain ⟨t, ht, hdiff⟩ := lzInsert_mlen hmove.indexed.1 (by decide) (by decide) (by decide) hcand
  rw [hw.round_eq hinp, hr]
  refine ⟨t, ht, fun ht18 htn => ?_⟩
  have hln := hmove.ln
  rw [← hmove.string (j := 2) (by omega) (by omega) ht18 (by omega), ← Nat.zero_add t,
    ← hmove.string (j := 0) (by omega) (by omega) (by omega) (by omega), Nat.zero_add]
  exact hdiff ht18

end Sys2Proof.Machine
end

section
/-! PROOF. O60 (spec/42_lz77.md R96): what LZ_ENC puts out. -/

namespace Sys2Proof.Machine

/-- There is no match for the first two positions (R89, R90). -/
theorem Matched.mlen_eq_zero {inp : List Byte} {k : Nat} {z : LzScratch} (h : Matched inp k z) (hk : k < 2) : z.mlen = 0 := by
  rcases h with h | ⟨j, -, hj, -⟩
  · exact h
  · omega

/-- A position without a match is coded as a literal (R94). -/
theorem Coded.lit {fill : Byte} {inp : List Byte} {k : Nat} {items : List LzItem} {rest : List Byte} {z : LzScratch}
    {out : List Byte} (h : Coded fill inp k items rest z out) (hk : k + 1 < inp.length) (hz : z.mlen = 0) :
    ∃ z₁ z' out', (∃ grp mask, z₁ = { z with mlen := 1, grp := grp, mask := mask }) ∧ z' = lzRound fill rest z₁
      ∧ Window fill inp k (k + 1) rest z₁
      ∧ Coded fill inp (k + 1) (items ++ [.lit (inp.getD k 0)]) rest.tail z' out'
      ∧ ∀ n, lzLoop fill (n + 1) rest z out = lzLoop fill n rest.tail z' out' := by
  have hk' : k < inp.length := by omega
  have hchosen : lzChosen fill z = .lit (inp.getD k 0) := by
    rw [lzChosen, hz, Nat.zero_min, if_pos (Nat.zero_le _), (h.window hk').byte hk']
  obtain ⟨grp, mask, out', hnext, hloop⟩ := h.round hk'
  rw [hchosen] at hnext hloop
  have hwindow := (h.window hk').of_group 1 grp mask
  simp only [LzItem.span, hwindow.slide_succ hk', lzSlide] at hnext hloop
  have hln := hnext.ln
  refine ⟨_, _, out', ⟨grp, mask, rfl⟩, rfl, hwindow, hnext, fun n => ?_⟩
  rw [hloop, if_neg (by omega)]

/-- The input begins with exactly n equal bytes, 5 at least. -/
structure BeginsWithRun (inp : List Byte) (b : Byte) (n : Nat) : Prop where
  five : 5 ≤ n
  take : inp.take n = List.replicate n b
  stop : inp[n]? ≠ some b

section Run
variable {inp : List Byte} {b : Byte} {n : Nat} (h : BeginsWithRun inp b n)
include h

theorem BeginsWithRun.le : n ≤ inp.length := by
  have hlen := congrArg List.length h.take
  rw [List.length_take, List.length_replicate] at hlen
  omega

theorem BeginsWithRun.getD {i : Nat} (hi : i < n) : inp.getD i 0 = b := by
  rw [List.getD_eq_getElem?_getD, ← List.getElem?_take_of_lt hi, h.take, List.getElem?_replicate_of_lt hi]
  rfl

theorem BeginsWithRun.getD_ne (hn : n < inp.length) : inp.getD n 0 ≠ b := by
  intro heq
  refine h.stop ?_
  rw [List.getElem?_eq_getElem hn, ← List.getD_eq_getElem _ 0 hn, heq]

theorem BeginsWithRun.byte_eq : b = inp.getD 0 0 := (h.getD (Nat.lt_of_lt_of_le (by decide) h.five)).symm

/-- An input begins with one run. -/
theorem BeginsWithRun.le_of_run {b' : Byte} {n' : Nat} (h' : BeginsWithRun inp b' n') : n' ≤ n := by
  by_contra hlt
  have hlt' : n < n' := Nat.not_le.mp hlt
  refine h.getD_ne (hlt'.trans_le h'.le) ?_
  rw [h'.getD hlt', h'.byte_eq, ← h.byte_eq]

end Run

/-- The third item of a run is the reference at distance 2 to the end of the run, 18 bytes at most (R89, R90; V43). -/
theorem Coded.chosen_of_run {fill : Byte} {inp : List Byte} {items : List LzItem} {rest : List Byte} {z : LzScratch}
    {out : List Byte} (h : Coded fill inp 2 items rest z out) {b : Byte} {n : Nat} (hrun : BeginsWithRun inp b n)
    (hlong : ∃ t ≤ z.mlen, t < 18 → 2 + t < inp.length → inp.getD (2 + t) 0 ≠ inp.getD t 0) :
    lzChosen fill z = .ref (min 18 (n - 2)) 2 := by
  have hn := hrun.five
  have hle := hrun.le
  have hln := h.ln
  have hwindow := h.window (by omega)
  obtain ⟨t, ht, hdiff⟩ := hlong
  have hreach : min 18 (n - 2) ≤ t := by
    by_contra hshort
    refine hdiff (by omega) (by omega) ?_
    rw [hrun.getD (i := 2 + t) (by omega), hrun.getD (i := t) (by omega)]
  rcases h.matched (by omega) with hnone | ⟨j, hpos, hj, -, hlen, hsame⟩
  · omega
  · obtain rfl : j = 0 := by omega
    have hstop : min z.mlen z.ln ≤ n - 2 := by
      by_contra hpast
      have hmore := hsame (n - 2) (by omega)
      rw [Nat.zero_add, hrun.getD (i := n - 2) (by omega), Nat.add_sub_of_le (by omega)] at hmore
      exact hrun.getD_ne (by omega) hmore
    have hspan : min z.mlen z.ln = min 18 (n - 2) := by omega
    rw [lzChosen, hspan, if_neg (show ¬min 18 (n - 2) ≤ 2 by omega), hwindow.r, hpos]
    rfl

/-- An input that begins with a run of at least 5 has its first two bytes as literals and the rest of the run as a reference at
distance 2 (R90; V43). -/
theorem codes_run (fill : Byte) {inp : List Byte} {b : Byte} {n : Nat} (hrun : BeginsWithRun inp b n) :
    Codes inp [.lit b, .lit b, .ref (min 18 (n - 2)) 2]
      (lzLoop fill inp.length (inp.drop 18) (lzReady fill inp) []) := by
  have hn := hrun.five
  have hle := hrun.le
  obtain ⟨m, hm⟩ := Nat.exists_eq_add_of_le (show 3 ≤ inp.length by omega)
  have hbyte : ∀ i < n, inp.getD i 0 = inp.getD 0 0 := fun i hi => (hrun.getD hi).trans hrun.byte_eq
  obtain ⟨hroot, hrs, hls⟩ := (window_lzStart fill inp).first (by omega)
  have h0 := coded_start fill inp
  have hnone := (h0.matched (by omega)).mlen_eq_zero (by decide)
  obtain ⟨z₁, z₂, out₂, ⟨_, _, rfl⟩, hz₂, hw₁, h₂, hloop₂⟩ := h0.lit (by omega) hnone
  have hroot₂ := hw₁.second (by omega) (hbyte 1 (by omega)) hroot hrs hls
  rw [← hz₂] at hroot₂
  have hnone₂ := (h₂.matched (by omega)).mlen_eq_zero (by decide)
  obtain ⟨z₃, z₄, out₄, ⟨_, _, rfl⟩, hz₄, hw₃, h₄, hloop₄⟩ := h₂.lit (by omega) hnone₂
  have hlong := hw₃.third (by omega) (hbyte 2 (by omega)) hroot₂
  rw [← hz₄] at hlong
  have hchosen := h₄.chosen_of_run hrun hlong
  obtain ⟨grp, mask, out₅, h₅, hloop₅⟩ := h₄.round (by omega)
  rw [hchosen, hrun.getD (i := 0) (by omega), hrun.getD (i := 1) (by omega)] at h₅
  rw [hm, Nat.add_comm 3 m, hloop₂, hloop₄, hloop₅, hchosen]
  exact h₅.codes (by simp only [LzItem.span]; omega)

/-- The groups of a payload: those written out and the one under construction, if it has an item (R94, R95). -/
theorem Grouped.groups {items : List LzItem} {grp : List Byte} {mask : Nat} {out : List Byte} (h : Grouped items grp mask out) :
    ∃ groups : List (List LzItem), groups.flatten = items
      ∧ (if grp.length > 1 then out ++ grp else out) = groups.flatMap lzGroupBytes
      ∧ ∀ i g, groups[i]? = some g → 1 ≤ g.length ∧ g.length ≤ 8 ∧ (i + 1 < groups.length → g.length = 8) := by
  obtain ⟨gs, g, rfl, hgs, hg, rfl, rfl, -⟩ := h
  have hfull : ∀ (i : Nat) (x : List LzItem), gs[i]? = some x → x.length = 8 := fun i x hx => hgs x (List.mem_of_getElem? hx)
  rcases g with _ | ⟨item, g⟩
  · refine ⟨gs, by simp, if_neg (by decide), fun i x hx => ?_⟩
    rw [hfull i x hx]
    exact ⟨by decide, le_rfl, fun _ => rfl⟩
  · have hbytes : (lzGroupBytes (item :: g)).length > 1 := by
      cases item <;> simp [lzGroupBytes, LzItem.bytes, encode]
    refine ⟨gs ++ [item :: g], by simp, by rw [if_pos hbytes]; simp, fun i x hx => ?_⟩
    rcases Nat.lt_or_ge i gs.length with hlt | hge
    · rw [List.getElem?_append_left hlt] at hx
      rw [hfull i x hx]
      exact ⟨by decide, le_rfl, fun _ => rfl⟩
    · rw [List.getElem?_append_right hge, List.getElem?_singleton] at hx
      split at hx
      · obtain rfl := Option.some.inj hx
        refine ⟨Nat.succ_pos _, hg.le, fun hmore => ?_⟩
        rw [List.length_append, List.length_singleton] at hmore
        omega
      · cases hx

/-- The payload in terms of the main loop (R94). -/
theorem lzPayload_snd (fill : Byte) (inp : List Byte) :
    (lzPayload fill inp).2 =
      let res := lzLoop fill inp.length (inp.drop 18) (lzReady fill inp) []
      if res.1.grp.length > 1 then res.2 ++ res.1.grp else res.2 := by
  obtain ⟨hrest, -⟩ := lzFill_spec fill Config.maxMatch inp (z := lzInit) rfl
  rw [lzPayload, hrest]
  rfl

/-- The main loop codes the input, and where it begins with a run, the first three items are those of the run. -/
theorem codes_start (fill : Byte) {inp : List Byte} (hinp : 1 ≤ inp.length) :
    ∃ items, (∀ b n, BeginsWithRun inp b n → items = [.lit b, .lit b, .ref (min 18 (n - 2)) 2])
      ∧ Codes inp items (lzLoop fill inp.length (inp.drop 18) (lzReady fill inp) []) := by
  by_cases hany : ∃ b n, BeginsWithRun inp b n
  · obtain ⟨b, n, hrun⟩ := hany
    refine ⟨_, fun b' n' hrun' => ?_, codes_run fill hrun⟩
    obtain rfl : b = b' := hrun.byte_eq.trans hrun'.byte_eq.symm
    obtain rfl : n = n' := le_antisymm (hrun'.le_of_run hrun) (hrun.le_of_run hrun')
    rfl
  · have hstart := coded_start fill inp
    have hln : (lzReady fill inp).ln ≠ 0 := by
      rw [hstart.ln]
      omega
    have hcodes := hstart.codes (n := inp.length) (by omega)
    rw [if_neg hln] at hcodes
    exact ⟨[], fun b n hrun => absurd ⟨b, n, hrun⟩ hany, hcodes⟩

/-- Settles O60, by an invariant of the main loop: the items put out stand for the bytes before the position at hand, and the match
index holds only positions of the window, in search trees. -/
theorem lzBlockItems : Obligations.LzBlockItems := by
  unfold Obligations.LzBlockItems
  intro fill inp hinp
  obtain ⟨opening, hopening, items, ⟨later, hlater⟩, hrange, hexpand, hgrouped⟩ := codes_start fill hinp
  obtain ⟨groups, hitems, hbytes, hsizes⟩ := hgrouped.groups
  rw [← hitems] at hrange hexpand hlater
  refine ⟨groups, (lzPayload_snd fill inp).trans hbytes, hsizes, fun len dist hmem => hrange _ hmem, hexpand,
    lits_of_lzExpand hexpand fun len dist hmem => (hrange _ hmem).2.2.1, fun b n hn htake hstop => ?_⟩
  rw [← hlater, hopening b n ⟨hn, htake, hstop⟩]
  rfl

end Sys2Proof.Machine
end

section
/-! PROOF. RLE_DEC's command and its two records as the states they leave (spec/40_rle.md R64 to R66). -/

namespace Sys2Proof.Machine

/-- What follows a record, as the state it leaves (R64). -/
theorem State.take_afterRecord (s : State) (w : Work) :
    s.take w.afterRecord =
      if w.out.length < w.size then { s with phase := .rleRecord, work := w } else completeOk { s with work := w } := by
  unfold Work.afterRecord
  split_ifs <;> rfl

/-- Settles O18: all four decode commands have the same body, which goes on to the header with fresh scratch. -/
theorem decodeCommandsGoOnToTheHeader : Obligations.DecodeCommandsGoOnToTheHeader := by
  intro i s hi hentry
  have hbody : runCommand s (fun s => s.take (.go .header s.work)) = { s with phase := .header, work := Work.zero } := by
    rw [runCommand_ok hentry, State.take_go]
  simp only [List.mem_cons, List.not_mem_nil, or_false] at hi
  rcases hi with rfl | rfl | rfl | rfl <;> exact congrArg Host.Outcome.next hbody

/-- Settles O24: the data byte is missing, or the loop emits it as often as there is room for. -/
theorem rleRunRepeatsTheByte : Obligations.RleRunRepeatsTheByte := by
  intro s len hout hcap
  rw [exec, execRleRun]
  by_cases hp : s.lat.srcLen.toNat ≤ s.work.p + 1
  · rw [if_pos hp, Work.rleRun_short (e := s.env) hp, State.take_raise, State.env_src]
  · rw [if_neg hp, Work.rleRun_eq (e := s.env) (Nat.not_le.mp hp) hout hcap, State.take_afterRecord, State.env_src]

/-- Settles O25: the stream ends before the bytes wanted, or they are the next ones of it. -/
theorem rleLitCopiesTheBytes : Obligations.RleLitCopiesTheBytes := by
  intro s len hout hcap k avail after
  rw [exec, execRleLit]
  by_cases hk : avail < k
  · rw [if_pos hk, Work.rleLit_short (e := s.env) hout hcap hk, State.take_raise,
      ← List.take_of_length_le (Env.tail_length s.env (s.work.p + 1)).le, Env.take_tail le_rfl]
    rfl
  · rw [if_neg hk, Work.rleLit_eq (e := s.env) hout hcap (Nat.not_lt.mp hk), State.take_afterRecord,
      Env.take_tail (Nat.not_lt.mp hk)]
    rfl

end Sys2Proof.Machine
end

section
/-! PROOF. The records RLE_ENC writes (spec/40_rle.md R62, R63): what its scan finds in the input, and what the records of a scan
are like. -/

namespace Sys2Proof.Machine

/-! ### The run at a byte -/

theorem equalPrefix_le (b : Byte) (n : Nat) (bs : List Byte) : equalPrefix b n bs ≤ n := by
  fun_induction equalPrefix b n bs <;> omega

/-- The bytes counted are equal to b. -/
theorem replicate_equalPrefix_append (b : Byte) (n : Nat) (bs : List Byte) :
    List.replicate (equalPrefix b n bs) b ++ bs.drop (equalPrefix b n bs) = bs := by
  fun_induction equalPrefix b n bs with
  | case1 n cs ih => rw [List.replicate_succ, List.cons_append, List.drop_succ_cons, ih]
  | case2 | case3 => rfl

/-- Below the limit the byte after those counted is another one. -/
theorem head?_drop_equalPrefix {b : Byte} {n : Nat} {bs : List Byte} (h : equalPrefix b n bs < n) :
    (bs.drop (equalPrefix b n bs)).head? ≠ some b := by
  fun_induction equalPrefix b n bs with
  | case1 n cs ih => exact ih (by omega)
  | case2 n c cs hne => simpa using hne
  | case3 n bs hnone =>
    cases bs with
    | nil => simp
    | cons c cs => exact absurd rfl (hnone (n - 1) c cs (by omega))

theorem runAt_le (b : Byte) (rest : List Byte) : runAt b rest ≤ 130 := Nat.succ_le_succ (equalPrefix_le b 129 rest)

/-- A byte and what follows it are its run and the rest. -/
theorem replicate_runAt_append (b : Byte) (rest : List Byte) :
    List.replicate (runAt b rest) b ++ rest.drop (runAt b rest - 1) = b :: rest := by
  rw [runAt, List.replicate_succ, List.cons_append, Nat.add_sub_cancel, replicate_equalPrefix_append]

/-- A run below 130 is measured to its end (R62). -/
theorem head?_drop_runAt {b : Byte} {rest : List Byte} (h : runAt b rest < 130) :
    (rest.drop (runAt b rest - 1)).head? ≠ some b := by
  rw [runAt, Nat.add_sub_cancel]
  exact head?_drop_equalPrefix (Nat.lt_of_succ_lt_succ h)

/-- A byte whose run is below 3 is not followed by itself twice. -/
theorem take_two_ne_of_runAt {b : Byte} {rest : List Byte} (h : runAt b rest < 3) : rest.take 2 ≠ [b, b] := by
  intro htwo
  have hlong : runAt b ([b, b] ++ rest.drop 2) = equalPrefix b 127 (rest.drop 2) + 3 := by simp [runAt, equalPrefix]
  rw [← List.take_append_drop 2 rest, htwo, hlong] at h
  omega

/-! ### What the scan finds -/

/-- The record FlushLit emits: none for an empty buffer (R62). -/
def litRecords (lit : List Byte) : List RleRecord := if lit = [] then [] else [.lit lit]

/-- The records the scan of R62 makes of a literal buffer and the input bytes not consumed yet. -/
inductive RleScanned : List Byte → List Byte → List RleRecord → Prop
  /-- the input's end flushes the buffer -/
  | finish (lit : List Byte) : RleScanned lit [] (litRecords lit)
  /-- a run flushes the buffer -/
  | run {lit rest : List Byte} {len : Nat} {b : Byte} {recs : List RleRecord} (hmin : 3 ≤ len) (hmax : len ≤ 130)
      (hend : len < 130 → rest.head? ≠ some b) (hrest : RleScanned [] rest recs) :
      RleScanned lit (List.replicate len b ++ rest) (litRecords lit ++ .run len b :: recs)
  /-- the byte that fills the buffer flushes it -/
  | full {lit rest : List Byte} {b : Byte} {recs : List RleRecord} (hrun : rest.take 2 ≠ [b, b])
      (hfull : (lit ++ [b]).length = 128) (hrest : RleScanned [] rest recs) : RleScanned lit (b :: rest) (.lit (lit ++ [b]) :: recs)
  /-- any other byte joins the buffer -/
  | join {lit rest : List Byte} {b : Byte} {recs : List RleRecord} (hrun : rest.take 2 ≠ [b, b])
      (hroom : (lit ++ [b]).length ≠ 128) (hrest : RleScanned (lit ++ [b]) rest recs) : RleScanned lit (b :: rest) recs

@[simp] theorem RleRecord.bytes_run (len : Nat) (b : Byte) :
    (RleRecord.run len b).bytes = [BitVec.ofNat 8 (0x80 + (len - 3)), b] := rfl

@[simp] theorem RleRecord.bytes_lit (bs : List Byte) :
    (RleRecord.lit bs).bytes = BitVec.ofNat 8 (bs.length - 1) :: bs := rfl

@[simp] theorem RleRecord.data_run (len : Nat) (b : Byte) : (RleRecord.run len b).data = List.replicate len b := rfl

@[simp] theorem RleRecord.data_lit (bs : List Byte) : (RleRecord.lit bs).data = bs := rfl

/-- FlushLit emits its record's bytes (R50, R62). -/
theorem flushLit_eq (lit : List Byte) : flushLit lit = (litRecords lit).flatMap RleRecord.bytes := by
  cases lit <;> simp [flushLit, litRecords]

theorem litRecords_append_singleton (lit : List Byte) (b : Byte) : litRecords (lit ++ [b]) = [.lit (lit ++ [b])] := by
  simp [litRecords]

/-- A run's header byte has bit 7 set and its count below (R50). -/
theorem runHeader_eq {len : Nat} (hmax : len ≤ 130) : 0x80 ||| (len - 3) = 0x80 + (len - 3) :=
  (Nat.two_pow_add_eq_or_of_lt (i := 7) (b := len - 3) (by omega) 1).symm

/-- What the scan emits are the bytes of the records it makes. -/
theorem rleScan_scanned {n : Nat} {inp : List Byte} (hn : inp.length ≤ n) (st : RleScratch) (out : List Byte) :
    ∃ recs, RleScanned st.lit inp recs ∧ (rleScan n inp st out).2 = out ++ recs.flatMap RleRecord.bytes := by
  fun_induction rleScan n inp st out with
  | case1 n b rest st out r hrun ih =>
    have hmax : r ≤ 130 := runAt_le b rest
    obtain ⟨recs, hrecs, hbytes⟩ := ih (by simp at hn ⊢; omega)
    refine ⟨litRecords st.lit ++ .run r b :: recs, ?_, ?_⟩
    · rw [← replicate_runAt_append b rest]
      exact .run hrun hmax head?_drop_runAt hrecs
    · rw [hbytes, flushLit_eq, runHeader_eq hmax]
      simp
  | case2 n b rest st out r hrun lit hfull ih =>
    obtain ⟨recs, hrecs, hbytes⟩ := ih (by simpa using hn)
    refine ⟨.lit lit :: recs, .full (take_two_ne_of_runAt (Nat.not_le.mp hrun)) hfull hrecs, ?_⟩
    rw [hbytes, flushLit_eq, litRecords_append_singleton, List.append_assoc]
    simp [lit]
  | case3 n b rest st out r hrun lit hroom ih =>
    obtain ⟨recs, hrecs, hbytes⟩ := ih (by simpa using hn)
    exact ⟨recs, .join (take_two_ne_of_runAt (Nat.not_le.mp hrun)) hroom hrecs, hbytes⟩
  | case4 n inp st out hnone =>
    obtain rfl : inp = [] := by
      cases inp with
      | nil => rfl
      | cons b rest => exact absurd rfl (hnone (n - 1) b rest (by simp at hn; omega))
    exact ⟨_, .finish st.lit, by rw [flushLit_eq]⟩

/-- The payload is the bytes of the records the scan makes of the input (R62). -/
theorem rlePayload_scanned (inp : List Byte) :
    ∃ recs, RleScanned [] inp recs ∧ (rlePayload inp).2 = recs.flatMap RleRecord.bytes :=
  rleScan_scanned le_rfl RleScratch.zero []

/-! ### What the records of a scan are like -/

theorem litRecords_data (lit : List Byte) : (litRecords lit).flatMap RleRecord.data = lit := by
  cases lit <;> simp [litRecords]

/-- The records stand for the buffer and the input. -/
theorem RleScanned.data_eq {lit inp : List Byte} {recs : List RleRecord} (h : RleScanned lit inp recs) :
    recs.flatMap RleRecord.data = lit ++ inp := by
  induction h with
  | finish lit => rw [litRecords_data, List.append_nil]
  | run _ _ _ _ ih => simp [litRecords_data, ih]
  | full _ _ _ ih => simp [ih]
  | join _ _ _ ih => rw [ih, List.append_assoc, List.singleton_append]

/-- None of the first k bytes is followed by two bytes equal to it: what the scan keeps of its literal buffer, k bytes long, with
the input to come. -/
def NoThreeEqualBefore (k : Nat) (bs : List Byte) : Prop :=
  ∀ i < k, i + 2 < bs.length → ¬(bs.getD i 0 = bs.getD (i + 1) 0 ∧ bs.getD (i + 1) 0 = bs.getD (i + 2) 0)

theorem noThreeEqualBefore_zero (bs : List Byte) : NoThreeEqualBefore 0 bs := fun _ hi => absurd hi (Nat.not_lt_zero _)

/-- So a front of at most k bytes has no three equal bytes in a row. -/
theorem NoThreeEqualBefore.front {k : Nat} {bs rest : List Byte} (h : NoThreeEqualBefore k (bs ++ rest))
    (hk : bs.length ≤ k) : NoThreeEqual bs := by
  intro i hi
  have hclear := h i (by omega) (by simp; omega)
  rwa [List.getD_append _ _ _ _ (by omega), List.getD_append _ _ _ _ (by omega), List.getD_append _ _ _ _ hi] at hclear

/-- A byte that is not followed by itself twice joins the bytes before it. -/
theorem NoThreeEqualBefore.join {lit rest : List Byte} {b : Byte} (h : NoThreeEqualBefore lit.length (lit ++ b :: rest))
    (hrun : rest.take 2 ≠ [b, b]) : NoThreeEqualBefore (lit ++ [b]).length (lit ++ [b] ++ rest) := by
  intro i hi hlen
  simp only [List.append_assoc, List.singleton_append, List.length_append, List.length_cons, List.length_nil] at hi hlen ⊢
  rcases Nat.lt_or_eq_of_le (Nat.le_of_lt_succ hi) with hlt | rfl
  · exact h i hlt (by simp; omega)
  · match rest with
    | [] | [_] => simp at hlen
    | c :: d :: rest =>
      rintro ⟨hc, hd⟩
      obtain rfl : b = c := by simpa using hc
      obtain rfl : b = d := by simpa using hd
      exact hrun rfl

theorem litRecords_ok {lit : List Byte} (hlen : lit.length ≤ 127) (h : NoThreeEqual lit) : ∀ r ∈ litRecords lit, r.ok := by
  intro r hr
  unfold litRecords at hr
  split at hr
  · cases hr
  · case isFalse hne =>
    obtain rfl := List.mem_singleton.mp hr
    exact ⟨List.length_pos_iff.mpr hne, hlen.trans (by decide), h⟩

/-- The counts are those of R50, and no literal holds three equal bytes in a row (R63 (d)). -/
theorem RleScanned.ok {lit inp : List Byte} {recs : List RleRecord} (h : RleScanned lit inp recs) (hlen : lit.length ≤ 127)
    (hclear : NoThreeEqualBefore lit.length (lit ++ inp)) : ∀ r ∈ recs, r.ok := by
  induction h with
  | finish lit => exact litRecords_ok hlen (hclear.front le_rfl)
  | run hmin hmax _ _ ih =>
    simp only [List.forall_mem_append, List.forall_mem_cons]
    exact ⟨litRecords_ok hlen (hclear.front le_rfl), ⟨hmin, hmax⟩, ih (Nat.zero_le _) (noThreeEqualBefore_zero _)⟩
  | full hrun hfull _ ih =>
    rw [List.forall_mem_cons]
    exact ⟨⟨by simp, hfull.le, (hclear.join hrun).front le_rfl⟩, ih (Nat.zero_le _) (noThreeEqualBefore_zero _)⟩
  | join hrun hroom _ ih => exact ih (by simp at hroom ⊢; omega) (hclear.join hrun)

theorem RleRecord.data_ne_nil {r : RleRecord} (h : r.ok) : r.data ≠ [] := by
  cases r with
  | run len b =>
    have hlen : len ≠ 0 := (Nat.lt_of_lt_of_le (by decide) h.1).ne'
    simpa using hlen
  | lit bs => exact List.length_pos_iff.mp h.1

/-- The first record's data begins as the data of all. -/
theorem head?_data_eq {r : RleRecord} {recs : List RleRecord} (h : r.ok) :
    ((r :: recs).flatMap RleRecord.data).head? = r.data.head? := by
  rw [List.flatMap_cons, List.head?_append_of_ne_nil _ (RleRecord.data_ne_nil h)]

/-- Which record may follow which: after a literal below 128 bytes no literal, and after a run below 130 none that begins with the
run's byte (R62, R63 (e)). -/
def RleRecord.follows : RleRecord → RleRecord → Prop
  | .lit bs, r => ∀ bs', r = .lit bs' → bs.length = 128
  | .run len b, r => len < 130 → r.data.head? ≠ some b

/-- A flushed buffer may stand before a run, whatever its length. -/
theorem isChain_litRecords_append {lit : List Byte} {len : Nat} {b : Byte} {recs : List RleRecord}
    (h : (.run len b :: recs).IsChain RleRecord.follows) :
    (litRecords lit ++ .run len b :: recs).IsChain RleRecord.follows := by
  unfold litRecords
  split
  · exact h
  · rw [List.singleton_append, List.isChain_cons_cons]
    exact ⟨fun _ hlit => (nomatch hlit), h⟩

/-- The records of a scan follow each other so: a run is measured to its end, and only a full buffer is flushed before a
literal. -/
theorem RleScanned.chain {lit inp : List Byte} {recs : List RleRecord} (h : RleScanned lit inp recs)
    (hok : ∀ r ∈ recs, r.ok) : recs.IsChain RleRecord.follows := by
  induction h with
  | finish lit =>
    unfold litRecords
    split
    · exact .nil
    · exact .singleton _
  | @run _ rest _ b recs _ _ hend hrest ih =>
    obtain ⟨-, -, hrecs⟩ : _ ∧ _ ∧ ∀ r ∈ recs, r.ok := by
      simpa only [List.forall_mem_append, List.forall_mem_cons] using hok
    refine isChain_litRecords_append (List.isChain_cons.mpr ⟨fun r hr hlen => ?_, ih hrecs⟩)
    have hdata := hrest.data_eq
    obtain ⟨later, rfl⟩ := List.head?_eq_some_iff.mp hr
    rw [← head?_data_eq (hrecs r List.mem_cons_self), hdata]
    exact hend hlen
  | full _ hfull _ ih => exact List.isChain_cons.mpr ⟨fun _ _ _ _ => hfull, ih (List.forall_mem_cons.mp hok).2⟩
  | join _ _ _ ih => exact ih hok

/-- Only a buffer that holds something costs its header byte. -/
theorem length_litRecords_bytes (lit : List Byte) :
    ((litRecords lit).flatMap RleRecord.bytes).length = lit.length + min 1 lit.length := by
  cases lit <;> simp [litRecords]

/-- The bytes of the records are at most the bytes they stand for and one more for every 128 begun (R63 (c)). -/
theorem RleScanned.bytes_length_le {lit inp : List Byte} {recs : List RleRecord} (h : RleScanned lit inp recs)
    (hlen : lit.length ≤ 127) :
    (recs.flatMap RleRecord.bytes).length ≤ (lit ++ inp).length + ((lit ++ inp).length + 127) / 128 := by
  induction h with
  | finish lit =>
    have hflush := length_litRecords_bytes lit
    simp only [List.append_nil]
    omega
  | @run lit _ _ _ _ hmin _ _ _ ih =>
    have hflush := length_litRecords_bytes lit
    have hrest := ih (Nat.zero_le _)
    simp only [List.flatMap_append, List.flatMap_cons, RleRecord.bytes_run, List.length_append, List.length_cons,
      List.length_nil, List.length_replicate] at hrest ⊢
    omega
  | full _ hfull _ ih =>
    have hrest := ih (Nat.zero_le _)
    simp only [List.flatMap_cons, RleRecord.bytes_lit, List.nil_append, List.length_append, List.length_cons,
      List.length_nil] at hrest hfull ⊢
    omega
  | join _ hroom _ ih => simpa using ih (by simp at hroom ⊢; omega)

/-! ### The payload and the block -/

theorem rleBlock_framed (inp : List Byte) : rleBlock inp = framedBlock Config.tagRle inp.length (rlePayload inp).2 := rfl

/-- A block is its header, its payload and 0 to 3 bytes of padding (R48, R49). -/
theorem framedBlock_length_bounds (tag : Byte) (n : Nat) (payload : List Byte) :
    4 + payload.length ≤ (framedBlock tag n payload).length
      ∧ (framedBlock tag n payload).length ≤ 4 + payload.length + 3 := by
  simp only [framedBlock, padBytes, headerBytes, List.length_append, List.length_cons, List.length_nil, List.length_replicate]
  omega

/-- The payload as records: what they stand for, what each is like, which follow each other, and how long they are. -/
theorem rlePayload_records (inp : List Byte) :
    ∃ recs : List RleRecord, (rlePayload inp).2 = recs.flatMap RleRecord.bytes ∧ recs.flatMap RleRecord.data = inp
      ∧ (∀ r ∈ recs, r.ok) ∧ recs.IsChain RleRecord.follows
      ∧ (rlePayload inp).2.length ≤ inp.length + (inp.length + 127) / 128 := by
  obtain ⟨recs, hscan, hbytes⟩ := rlePayload_scanned inp
  have hok := hscan.ok (Nat.zero_le _) (noThreeEqualBefore_zero _)
  exact ⟨recs, hbytes, hscan.data_eq, hok, hscan.chain hok, hbytes ▸ hscan.bytes_length_le (Nat.zero_le _)⟩

/-- Neighbours in a chain are related. -/
theorem follows_of_getElem? {recs : List RleRecord} (h : recs.IsChain RleRecord.follows) {i : Nat} {r r' : RleRecord}
    (hr : recs[i]? = some r) (hr' : recs[i + 1]? = some r') : r.follows r' := by
  obtain ⟨hi, rfl⟩ := List.getElem?_eq_some_iff.mp hr'
  obtain ⟨_, rfl⟩ := List.getElem?_eq_some_iff.mp hr
  exact h.getElem i hi

/-- Settles O50, by what holds of the records of a scan. -/
theorem rleBlockBound : Obligations.RleBlockBound := by
  unfold Obligations.RleBlockBound
  intro inp
  obtain ⟨recs, hbytes, hdata, hok, hchain, hlen⟩ := rlePayload_records inp
  obtain ⟨-, hblock⟩ := framedBlock_length_bounds Config.tagRle inp.length (rlePayload inp).2
  rw [rleBlock_framed]
  refine ⟨framedBlock_tag .., framedBlock_aligned .., framedBlock_size _ _, ⟨recs, hbytes, hdata, hok, ?_, ?_⟩, hlen, by omega⟩
  · exact fun i bs bs' hbs hbs' => follows_of_getElem? hchain hbs hbs' bs' rfl
  · exact fun i len b r hrun hr => follows_of_getElem? hchain hrun hr

end Sys2Proof.Machine
end

section
/-! PROOF. The RLE round trip (spec/40_rle.md R67), on the functional cores and between the two commands on the machine. -/

namespace Sys2Proof.Machine

/-! ### Decoding records -/

/-- A record that fits the declared size is decoded to its data (R50, R65, R66). -/
theorem rleRecords_record {r : RleRecord} (hok : r.ok) {size n : Nat} {stream out : List Byte}
    (hroom : out.length + r.data.length ≤ size) :
    rleRecords size (n + 1) (r.bytes ++ stream) out = rleRecords size n stream (out ++ r.data) := by
  have hpos := List.length_pos_iff.mpr (RleRecord.data_ne_nil hok)
  have hmore : out.length < size := by omega
  cases r with
  | run len b =>
    obtain ⟨hmin, hmax⟩ : 3 ≤ len ∧ len ≤ 130 := hok
    have hhead : (BitVec.ofNat 8 (0x80 + (len - 3))).toNat = 128 + (len - 3) := by
      rw [BitVec.toNat_ofNat]
      omega
    have hcnt : min (128 + (len - 3) - 128 + 3) (size - out.length) = len := by
      simp only [RleRecord.data_run, List.length_replicate] at hroom
      omega
    rw [RleRecord.bytes_run, List.cons_append, List.singleton_append, rleRecords_run hmore (by omega), hhead, hcnt]
    rfl
  | lit bs =>
    obtain ⟨hmin, hmax, -⟩ : 1 ≤ bs.length ∧ bs.length ≤ 128 ∧ NoThreeEqual bs := hok
    have hhead : (BitVec.ofNat 8 (bs.length - 1)).toNat = bs.length - 1 := by
      rw [BitVec.toNat_ofNat]
      omega
    have hcnt : min (bs.length - 1 + 1) (size - out.length) = bs.length := by
      rw [RleRecord.data_lit] at hroom
      omega
    rw [RleRecord.bytes_lit, List.cons_append, rleRecords_lit hmore (by omega) (by rw [hhead, hcnt]; simp), hhead, hcnt,
      List.drop_left, List.take_left]
    rfl

/-- Records that make up the declared size are decoded to their data, whatever follows them (R64). -/
theorem rleRecords_bytes {recs : List RleRecord} (hok : ∀ r ∈ recs, r.ok) {n size : Nat} (hn : recs.length < n)
    (pad : List Byte) {out : List Byte} (hsize : size = out.length + (recs.flatMap RleRecord.data).length) :
    rleRecords size n (recs.flatMap RleRecord.bytes ++ pad) out = .ok (out ++ recs.flatMap RleRecord.data) := by
  induction recs generalizing n out with
  | nil =>
    obtain ⟨n, rfl⟩ := Nat.exists_eq_add_of_lt hn
    rw [rleRecords_done hsize.le, List.flatMap_nil, List.append_nil]
  | cons r recs ih =>
    obtain ⟨hr, hrecs⟩ := List.forall_mem_cons.mp hok
    obtain ⟨n, rfl⟩ := Nat.exists_eq_add_of_lt hn
    simp only [List.flatMap_cons, List.length_append, List.append_assoc] at hsize ⊢
    rw [rleRecords_record hr (by omega), ih hrecs (by simp; omega) (by rw [hsize, List.length_append, Nat.add_assoc]),
      List.append_assoc]

/-- Each record takes a byte or more. -/
theorem length_le_length_bytes (recs : List RleRecord) : recs.length ≤ (recs.flatMap RleRecord.bytes).length := by
  induction recs with
  | nil => rfl
  | cons r recs ih =>
    have hr : 1 ≤ r.bytes.length := by cases r <;> simp
    rw [List.flatMap_cons, List.length_append, List.length_cons]
    omega

/-- The head of a framed block gives the input's length and the payload with its padding (R48, R64). -/
theorem headOf_framedBlock {tag : Byte} {minLen cap n : Nat} {payload : List Byte}
    (hmin : minLen ≤ (framedBlock tag n payload).length) (hpos : 1 ≤ n) (hmax : n ≤ Config.sizeMax) (hcap : n ≤ cap) :
    headOf tag minLen cap (framedBlock tag n payload)
      = .ok (n, payload ++ padBytes (headerBytes tag n ++ payload).length) := by
  have hsize := framedBlock_size tag payload hmax
  obtain ⟨a, b, c, hblock⟩ : ∃ a b c,
      framedBlock tag n payload = tag :: a :: b :: c :: (payload ++ padBytes (headerBytes tag n ++ payload).length) :=
    ⟨_, _, _, rfl⟩
  rw [hblock] at hmin hsize ⊢
  replace hsize : leNat [a, b, c] = n := hsize
  simp only [headOf, ne_eq, not_true_eq_false, if_false, if_neg (Nat.not_lt.mpr hmin), List.take_succ_cons, List.take_zero,
    List.drop_succ_cons, List.drop_zero, hsize, if_neg (Nat.ne_zero_of_lt hpos), if_neg (Nat.not_lt.mpr hcap)]

/-- Settles O52: the payload is records that stand for the input, and the decoder gives a record's data. -/
theorem rleRoundTrip : Obligations.RleRoundTrip := by
  intro inp cap hpos hmax hcap
  obtain ⟨recs, hbytes, hdata, hok, -, -⟩ := rlePayload_records inp
  have hfuel := length_le_length_bytes recs
  obtain ⟨hlen, -⟩ := framedBlock_length_bounds Config.tagRle inp.length (rlePayload inp).2
  rw [rleDecode, rleBlock_framed, headOf_framedBlock (by omega) hpos hmax hcap]
  rw [hbytes] at hlen ⊢
  dsimp only
  rw [rleRecords_bytes hok (by omega) _ (by rw [hdata, List.length_nil, Nat.zero_add]), hdata, List.nil_append]

/-! ### On the machine -/

/-- The bytes from DST_ADDR on that OUT_LEN counts are the block, where memory holds it there. -/
theorem blockAt_eq {s t : State} {block : List Byte} (hlen : t.outLen.toNat = block.length)
    (hbyte : ∀ i < block.length, t.mem.read (s.lat.dstAddr + BitVec.ofNat 32 i) = block.getD i 0) : blockAt s t = block := by
  refine List.ext_getElem (by simp [blockAt, hlen]) fun i hi hi' => ?_
  simp [blockAt, hbyte i hi', hi']

/-- An encode command that completed with OK has left the block of its input (R23). -/
theorem encodedOk_block {i : Instr} {s t : State} {res : Except Code (List Byte)} (h : encodedOk i s t)
    (hres : encodeBlock s.cfg s.inBytes i = some res) : res = .ok (blockAt s t) := by
  obtain ⟨hentry, -, hspec, hwf, hexec, hcode⟩ := h
  obtain ⟨hlong, hraise⟩ := encodersReportFailure.1 i s hentry hspec hwf
  have hnext : ∀ {t'}, exec i s = .next t' → t' = t := fun ht' =>
    Host.Outcome.next.inj (ht'.symm.trans hexec)
  cases res with
  | error c =>
    obtain ⟨hc, -, t', ht', ⟨-, -, -, -, -, hfail, -⟩, -⟩ := hraise c hres
    obtain rfl := hnext ht'
    rw [hcode] at hfail
    rcases hc with rfl | rfl <;> cases hfail
  | ok block =>
    rcases Nat.lt_or_ge s.lat.dstCap.toNat block.length with hlt | hfits
    · obtain ⟨t', ht', -, -, -, -, -, hfail, -⟩ := hlong block hres hlt
      obtain rfl := hnext ht'
      rw [hcode] at hfail
      cases hfail
    · obtain ⟨t', ht', -, -, -, -, -, -, hlen, hbyte, -⟩ := encodersWriteTheirBlock i s block hentry hspec hwf hres hfits
      obtain rfl := hnext ht'
      exact congrArg Except.ok (blockAt_eq hlen hbyte).symm

/-- The input of a command past EntryCheck is not empty, and that of an encoder no longer than SIZE_MAX (R103). -/
theorem encodedOk_inBytes_length {i : Instr} {s t : State} (h : encodedOk i s t) :
    1 ≤ s.inBytes.length ∧ s.inBytes.length ≤ 2 ^ 24 - 1 := by
  obtain ⟨hentry, hdir, -⟩ := h
  rw [State.inBytes_length]
  constructor
  · refine Nat.one_le_iff_ne_zero.mpr fun hzero => hentry (.inr (.inl ?_))
    exact BitVec.eq_of_toNat_eq hzero
  · exact Nat.not_lt.mp fun hlong => hentry (.inr (.inr (.inl ⟨hdir, hlong⟩)))

/-- Settles O57: the decoder's input is the encoder's block, and the engine computes the core, which returns the input. -/
theorem rleRoundTripOnTheMachine : Obligations.RleRoundTripOnTheMachine := by
  intro s t u hencoded hstarted hinput hcap
  obtain ⟨hpos, hmax⟩ := encodedOk_inBytes_length hencoded
  have hblock : rleBlock s.inBytes = blockAt s t := Except.ok.inj (encodedOk_block hencoded rfl)
  have hdecodes := rleDecodeComputesItsCore u hstarted
  rwa [hinput, ← hblock, rleRoundTrip s.inBytes _ hpos hmax (by rwa [State.inBytes_length])] at hdecodes

end Sys2Proof.Machine
end

section
/-! PROOF. A branch and a leaf of a Huffman block (spec/41_huffman.md R84, R85), as the states they leave. -/

namespace Sys2Proof.Machine

/-- Settles O34: a branch that goes on goes to a child past its position and not past the table. -/
theorem hufWalkMovesForward : Obligations.HufWalkMovesForward := by
  intro s t off ll rl hexec hbusy
  have hpast := clearBit0_add_two s.work.q
  obtain rfl := Host.Outcome.next.inj hexec
  rcases Work.hufBranch_cases off ll rl s.work with ⟨-, hw⟩ | ⟨hchild, -, hw⟩ | ⟨hchild, -, hw⟩ <;> rw [hw] at hbusy ⊢
  · rw [State.take_raise, (completeFail_completed _ _).busy] at hbusy
    cases hbusy
  · exact ⟨by simp only [State.take_go]; omega, hchild⟩
  · exact ⟨by simp only [State.take_go]; omega, hchild⟩

/-- What follows a symbol, as the state it leaves (R82). -/
theorem State.take_afterSymbol {s : State} {w : Work} (hj : w.j = s.work.j) (hneed : w.need = s.work.need)
    (hbi : w.bi = s.work.bi) : s.take w.afterSymbol = afterHufSymbol s w := by
  unfold Work.afterSymbol afterHufSymbol Work.nextBitPhase
  simp only [hj, hneed, hbi]
  split_ifs <;> rfl

/-- The symbol of a leaf byte, as a number (R85). -/
theorem leafSymbol_eq (e : Env) (v : Byte) :
    leafSymbol e v = (256 + v.toNat - e.bias.toNat) % 256 % 2 ^ e.width := by
  have hbias := e.bias.isLt
  rw [leafSymbol, BitVec.toNat_sub]
  congr 2
  omega

/-- HUF.LEAF where the output has room, as the state it leaves (R85). -/
theorem exec_hufLeaf {s : State} (v : Byte) (h : s.work.out.length < s.lat.dstCap.toNat) :
    exec (.hufLeaf v) s = .next (afterHufSymbol s (s.work.takeLeaf s.env v)) := by
  rw [exec, execHufLeaf, Work.hufLeaf_eq v (by exact h), State.take_afterSymbol (w := s.work.takeLeaf s.env v) rfl rfl rfl]

/-- Settles O35: the byte at the leaf's position is read, and with room in the output its symbol is emitted or kept. -/
theorem hufLeafYieldsTheSymbol : Obligations.HufLeafYieldsTheSymbol := by
  refine ⟨fun s s' hnext hph hin => ?_, fun s v hroom hlo => ?_⟩
  · rw [step_of_engineNext hnext, engineTurn_byteUnit (g := .hufLeaf) (by rw [hph]; rfl) rfl fun _ => rfl, hph]
    exact if_neg (Nat.not_le.mpr hin)
  · intro value
    rw [exec_hufLeaf v hroom]
    have hsym : leafSymbol s.env v = value % 2 ^ s.env.width := leafSymbol_eq s.env v
    rcases s.env.width_cases with ⟨htag, hw⟩ | ⟨htag, hw⟩ <;> rw [State.env_tag] at htag <;> rw [hw] at hsym
    · rw [if_neg (not_not.mpr htag)]
      by_cases heven : s.work.j % 2 = 0
      · simp [Work.takeLeaf, Work.leafBytes, hw, heven, hsym]
      · have hor : s.work.lo ||| (leafSymbol s.env v <<< 4) = s.work.lo + 16 * (value % 16) := by
          rw [Nat.or_comm, ← Nat.shiftLeft_add_eq_or_of_lt (i := 4) hlo, Nat.shiftLeft_eq, hsym]
          omega
        simp [Work.takeLeaf, Work.leafBytes, hw, heven, hor]
    · replace hsym : leafSymbol s.env v = value := hsym.trans (Nat.mod_mod _ 256)
      rw [if_pos htag]
      simp [Work.takeLeaf, Work.leafBytes, hw, hsym]

end Sys2Proof.Machine
end

section
/-! SUPPORT. BuildTree (spec/41_huffman.md R72 to R74): it leaves one tree over the leaves in the link arrays, whatever order
the heap takes them in. -/

namespace Sys2Proof.Machine

/-! ### Trees -/

/-- A tree of node ids (R74). -/
inductive CodeTree
  | leaf (y : Nat)
  | branch (x : Nat) (l r : CodeTree)

/-- The id of the topmost node. -/
def CodeTree.top : CodeTree → Nat
  | .leaf y => y
  | .branch x _ _ => x

/-- The ids of all nodes. -/
def CodeTree.ids : CodeTree → List Nat
  | .leaf y => [y]
  | .branch x l r => x :: (l.ids ++ r.ids)

/-- The ids of the leaves. -/
def CodeTree.leaves : CodeTree → List Nat
  | .leaf y => [y]
  | .branch _ l r => l.leaves ++ r.leaves

@[simp] theorem CodeTree.top_leaf (y : Nat) : (CodeTree.leaf y).top = y := rfl
@[simp] theorem CodeTree.top_branch (x : Nat) (l r : CodeTree) : (CodeTree.branch x l r).top = x := rfl
@[simp] theorem CodeTree.ids_leaf (y : Nat) : (CodeTree.leaf y).ids = [y] := rfl
@[simp] theorem CodeTree.ids_branch (x : Nat) (l r : CodeTree) :
    (CodeTree.branch x l r).ids = x :: (l.ids ++ r.ids) := rfl
@[simp] theorem CodeTree.leaves_leaf (y : Nat) : (CodeTree.leaf y).leaves = [y] := rfl
@[simp] theorem CodeTree.leaves_branch (x : Nat) (l r : CodeTree) :
    (CodeTree.branch x l r).leaves = l.leaves ++ r.leaves := rfl

theorem CodeTree.top_mem_ids (t : CodeTree) : t.top ∈ t.ids := by cases t <;> simp

theorem CodeTree.leaves_pos (t : CodeTree) : 1 ≤ t.leaves.length := by
  induction t with
  | leaf y => exact le_rfl
  | branch x l r ihl ihr =>
    rw [CodeTree.leaves_branch, List.length_append]
    omega

/-- A tree has one branch less than leaves (R74). -/
theorem CodeTree.ids_length (t : CodeTree) : t.ids.length + 1 = 2 * t.leaves.length := by
  induction t with
  | leaf y => rfl
  | branch x l r ihl ihr =>
    rw [CodeTree.ids_branch, CodeTree.leaves_branch, List.length_cons, List.length_append, List.length_append]
    omega

theorem isLeafId_iff {A y : Nat} : isLeafId A y = true ↔ 1 ≤ y ∧ y ≤ A := decide_eq_true_iff

/-- The arrays link z as a child of x: the right one for true, which is code bit 1 (R74). -/
def HufScratch.Joins (h : HufScratch) (x : Nat) (right : Bool) (z : Nat) : Prop :=
  (if right then h.rc x else h.lc x) = z ∧ h.par z = x ∧ h.isl z = !right

/-- The link arrays hold a tree over an alphabet, whose leaves are the ids 1 to A (R76). -/
def HufScratch.Holds (A : Nat) (h : HufScratch) : CodeTree → Prop
  | .leaf y => isLeafId A y = true
  | .branch x l r =>
    isLeafId A x = false ∧ h.Joins x false l.top ∧ h.Joins x true r.top ∧ h.Holds A l ∧ h.Holds A r

/-- A tree stays held where the children of its nodes and the parents of all but the topmost stay. -/
theorem HufScratch.Holds.frame {A : Nat} {h h' : HufScratch} {t : CodeTree} (hold : h.Holds A t) (hnodup : t.ids.Nodup)
    (hkids : ∀ y ∈ t.ids, h'.lc y = h.lc y ∧ h'.rc y = h.rc y)
    (hpar : ∀ y ∈ t.ids, y ≠ t.top → h'.par y = h.par y ∧ h'.isl y = h.isl y) : h'.Holds A t := by
  induction t with
  | leaf y => exact hold
  | branch x l r ihl ihr =>
    obtain ⟨hx, hjl, hjr, hl, hr⟩ := hold
    simp only [CodeTree.ids_branch, CodeTree.top_branch, List.nodup_cons, List.mem_append, List.nodup_append', List.mem_cons]
      at hnodup hkids hpar
    obtain ⟨hnot, hnl, hnr, -⟩ := hnodup
    obtain ⟨hlc, hrc⟩ := hkids x (.inl rfl)
    have hpl := hpar l.top (.inr (.inl l.top_mem_ids)) (fun heq => hnot (.inl (heq ▸ l.top_mem_ids)))
    have hpr := hpar r.top (.inr (.inr r.top_mem_ids)) (fun heq => hnot (.inr (heq ▸ r.top_mem_ids)))
    refine ⟨hx, ?_, ?_, ?_, ?_⟩
    · simpa only [HufScratch.Joins, hlc, hrc, hpl] using hjl
    · simpa only [HufScratch.Joins, hlc, hrc, hpr] using hjr
    · exact ihl hl hnl (fun y hy => hkids y (.inr (.inl hy)))
        (fun y hy _ => hpar y (.inr (.inl hy)) (fun heq => hnot (.inl (heq ▸ hy))))
    · exact ihr hr hnr (fun y hy => hkids y (.inr (.inr hy)))
        (fun y hy _ => hpar y (.inr (.inr hy)) (fun heq => hnot (.inr (heq ▸ hy))))

/-! ### The heap only reorders -/

theorem swapAt_perm {c : List Nat} {i m : Nat} (hi : i < c.length) (hm : m < c.length) : (swapAt c i m).Perm c := by
  rw [swapAt, List.getD_eq_getElem _ _ hm, List.getD_eq_getElem _ _ hi]
  exact List.set_set_perm hi hm

/-- HeapApply reorders the candidates (R72). -/
theorem heapApply_perm (wt : Nat → Nat) (n i : Nat) (c : List Nat) : (heapApply wt n i c).Perm c := by
  induction n generalizing i c with
  | zero => rfl
  | succ n ih =>
    rw [heapApply]
    dsimp only
    split_ifs with hend hright hlight hlight
    · rfl
    · exact (ih _ _).trans (swapAt_perm (by omega) hright.1)
    · rfl
    · exact (ih _ _).trans (swapAt_perm (by omega) (by omega))
    · rfl

/-- HeapBuild reorders the candidates (R73). -/
theorem heapBuild_perm (wt : Nat → Nat) (n : Nat) (c : List Nat) : (heapBuild wt n c).Perm c := by
  induction n generalizing c with
  | zero => rfl
  | succ n ih => exact (ih _).trans (heapApply_perm ..)

/-- Taking the first candidate out leaves the others (R74). -/
theorem heapPop_perm (wt : Nat → Nat) (a : Nat) {rest : List Nat} (hrest : rest ≠ []) :
    (heapPop wt (a :: rest)).Perm rest := by
  obtain ⟨mid, z, rfl⟩ : ∃ mid z, rest = mid ++ [z] :=
    ⟨rest.dropLast, rest.getLast hrest, (List.dropLast_append_getLast hrest).symm⟩
  have hlast : ((a :: (mid ++ [z])).set 0 ((a :: (mid ++ [z])).getLastD 0)).dropLast = z :: mid := by
    rw [← List.cons_append, List.getLastD_concat, List.cons_append, List.set_cons_zero, ← List.cons_append,
      List.dropLast_concat]
  rw [heapPop, hlast]
  exact (heapApply_perm ..).trans (List.perm_append_singleton z mid).symm

/-! ### The merges -/

/-- The link arrays are canonical, so that a read gives what was written. -/
structure HufScratch.LinksWf (h : HufScratch) : Prop where
  left : cellsWfFrom 0 0 h.left = true
  right : cellsWfFrom 0 0 h.right = true
  parent : cellsWfFrom 0 0 h.parent = true
  isLeft : cellsWfFrom false 0 h.isLeft = true

/-- The scratch after a merge of a and b under the next id, whatever is written besides the links (R74). -/
def HufScratch.joined (h : HufScratch) (a b : Nat) (weight : List (Nat × Nat)) (cand : List Nat) : HufScratch :=
  { h with
    next := h.next + 1, weight := weight, cand := cand,
    left := cellSet 0 h.left h.next a, right := cellSet 0 h.right h.next b,
    parent := cellSet 0 (cellSet 0 h.parent a h.next) b h.next,
    isLeft := cellSet false (cellSet false h.isLeft a true) b false }

section Joined
variable {h : HufScratch} (hwf : h.LinksWf) (a b : Nat) (weight : List (Nat × Nat)) (cand : List Nat) (y : Nat)
include hwf

theorem HufScratch.LinksWf.joined : (h.joined a b weight cand).LinksWf where
  left := cellsWfFrom_cellSet hwf.left (Nat.zero_le _)
  right := cellsWfFrom_cellSet hwf.right (Nat.zero_le _)
  parent := cellsWfFrom_cellSet (cellsWfFrom_cellSet hwf.parent (Nat.zero_le _)) (Nat.zero_le _)
  isLeft := cellsWfFrom_cellSet (cellsWfFrom_cellSet hwf.isLeft (Nat.zero_le _)) (Nat.zero_le _)

theorem HufScratch.LinksWf.joined_lc : (h.joined a b weight cand).lc y = if y = h.next then a else h.lc y :=
  cellGet_cellSet hwf.left

theorem HufScratch.LinksWf.joined_rc : (h.joined a b weight cand).rc y = if y = h.next then b else h.rc y :=
  cellGet_cellSet hwf.right

theorem HufScratch.LinksWf.joined_par :
    (h.joined a b weight cand).par y = if y = b then h.next else if y = a then h.next else h.par y :=
  (cellGet_cellSet (cellsWfFrom_cellSet hwf.parent (Nat.zero_le _))).trans
    (congrArg (ite (y = b) h.next) (cellGet_cellSet hwf.parent))

theorem HufScratch.LinksWf.joined_isl :
    (h.joined a b weight cand).isl y = if y = b then false else if y = a then true else h.isl y :=
  (cellGet_cellSet (cellsWfFrom_cellSet hwf.isLeft (Nat.zero_le _))).trans
    (congrArg (ite (y = b) false) (cellGet_cellSet hwf.isLeft))

end Joined

/-- What one merge does with the first two candidates (R74): they are joined, and the next id takes their place. -/
theorem hufMerge_eq {h : HufScratch} {a b : Nat} {rest others : List Nat} (hcand : h.cand = a :: rest)
    (hpop : heapPop h.wt (a :: rest) = b :: others) :
    ∃ weight cand, cand.Perm (h.next :: others) ∧ hufMerge h = h.joined a b weight cand := by
  refine ⟨_, _, ?_, by simp only [hufMerge, hcand, hpop, List.headD_cons, List.set_cons_zero]; rfl⟩
  exact heapApply_perm ..

/-- What BuildTree keeps while it merges (R74): the candidates are the topmost nodes of disjoint trees over the leaves, and
the ids from next on are in none of them. -/
structure HufScratch.Forest (A : Nat) (h : HufScratch) (ts : List CodeTree) : Prop where
  cand : h.cand.Perm (ts.map CodeTree.top)
  holds : ∀ t ∈ ts, h.Holds A t
  nodup : (ts.flatMap CodeTree.ids).Nodup
  fresh : ∀ t ∈ ts, ∀ y ∈ t.ids, y < h.next
  next : A < h.next
  leaves : (ts.flatMap CodeTree.leaves).Perm h.leaves
  wf : h.LinksWf

section Forest
variable {A : Nat} {h : HufScratch} {ts : List CodeTree} (hf : h.Forest A ts)
include hf

theorem HufScratch.Forest.nodup_ids {t : CodeTree} (ht : t ∈ ts) : t.ids.Nodup := (List.nodup_flatMap.mp hf.nodup).1 t ht

/-- An id stands in one tree of a forest only. -/
theorem HufScratch.Forest.eq_of_mem_ids {t u : CodeTree} (ht : t ∈ ts) (hu : u ∈ ts) {y : Nat} (hyt : y ∈ t.ids)
    (hyu : y ∈ u.ids) : t = u := by
  by_contra hne
  have : Std.Symm (Function.onFun List.Disjoint CodeTree.ids) := ⟨fun _ _ hd => List.Disjoint.symm hd⟩
  exact (List.nodup_flatMap.mp hf.nodup).2.forall ht hu hne hyt hyu

/-- The order of the trees does not matter. -/
theorem HufScratch.Forest.perm {ts' : List CodeTree} (hp : ts.Perm ts') : h.Forest A ts' where
  cand := hf.cand.trans (hp.map _)
  holds t ht := hf.holds t (hp.mem_iff.mpr ht)
  nodup := (hp.flatMap_right _).nodup_iff.mp hf.nodup
  fresh t ht := hf.fresh t (hp.mem_iff.mpr ht)
  next := hf.next
  leaves := (hp.flatMap_right _).symm.trans hf.leaves
  wf := hf.wf

end Forest

section Join
variable {A : Nat} {h : HufScratch} {l r : CodeTree} {ts : List CodeTree} (hf : h.Forest A (l :: r :: ts))
  (weight : List (Nat × Nat))
include hf

/-- A merge touches no link inside the trees: its own id is new, and the two it joins are topmost (R74). -/
theorem HufScratch.Forest.joined_holds (cand : List Nat) :
    ∀ t ∈ l :: r :: ts, (h.joined l.top r.top weight cand).Holds A t := by
  have hl : l ∈ l :: r :: ts := List.mem_cons_self
  have hr : r ∈ l :: r :: ts := List.mem_cons_of_mem _ List.mem_cons_self
  refine fun t ht => (hf.holds t ht).frame (hf.nodup_ids ht) (fun y hy => ?_) (fun y hy htop => ?_)
  · have hne := (hf.fresh t ht y hy).ne
    rw [hf.wf.joined_lc, hf.wf.joined_rc, if_neg hne, if_neg hne]
    exact ⟨rfl, rfl⟩
  · have hyl : y ≠ l.top := by rintro rfl; exact htop (congrArg _ (hf.eq_of_mem_ids hl ht l.top_mem_ids hy))
    have hyr : y ≠ r.top := by rintro rfl; exact htop (congrArg _ (hf.eq_of_mem_ids hr ht r.top_mem_ids hy))
    rw [hf.wf.joined_par, hf.wf.joined_isl, if_neg hyr, if_neg hyl, if_neg hyr, if_neg hyl]
    exact ⟨rfl, rfl⟩

/-- The joined tree is held under the next id (R74). -/
theorem HufScratch.Forest.joined_holds_branch (cand : List Nat) :
    (h.joined l.top r.top weight cand).Holds A (.branch h.next l r) := by
  have hkeep := hf.joined_holds weight cand
  have htops : l.top ≠ r.top := by
    have hnodup := hf.nodup
    rw [List.flatMap_cons, List.flatMap_cons] at hnodup
    exact fun heq => List.disjoint_of_nodup_append hnodup l.top_mem_ids (List.mem_append_left _ (heq ▸ r.top_mem_ids))
  have hx : isLeafId A h.next = false := by
    have hnext := hf.next
    simp only [isLeafId, decide_eq_false_iff_not]
    omega
  refine ⟨hx, ?_, ?_, hkeep l List.mem_cons_self, hkeep r (List.mem_cons_of_mem _ List.mem_cons_self)⟩
  · simp [HufScratch.Joins, hf.wf.joined_lc, hf.wf.joined_par, hf.wf.joined_isl, htops]
  · simp [HufScratch.Joins, hf.wf.joined_rc, hf.wf.joined_par, hf.wf.joined_isl]

/-- Two trees of a forest, joined under the next id, make a forest with the others (R74). -/
theorem HufScratch.Forest.join {cand : List Nat} (hcand : cand.Perm (h.next :: ts.map CodeTree.top)) :
    (h.joined l.top r.top weight cand).Forest A (.branch h.next l r :: ts) := by
  have hts : ∀ {t}, t ∈ ts → t ∈ l :: r :: ts := fun ht => List.mem_cons_of_mem _ (List.mem_cons_of_mem _ ht)
  have hids : (CodeTree.branch h.next l r :: ts).flatMap CodeTree.ids = h.next :: (l :: r :: ts).flatMap CodeTree.ids := by
    simp
  have hold : ∀ y ∈ (l :: r :: ts).flatMap CodeTree.ids, y < h.next := fun y hy => by
    obtain ⟨t, ht, hy⟩ := List.mem_flatMap.mp hy
    exact hf.fresh t ht y hy
  refine ⟨hcand, ?_, ?_, fun t ht y hy => ?_, hf.next.trans (Nat.lt_succ_self _), ?_, hf.wf.joined ..⟩
  · exact List.forall_mem_cons.mpr
      ⟨hf.joined_holds_branch weight cand, fun t ht => hf.joined_holds weight cand t (hts ht)⟩
  · rw [hids, List.nodup_cons]
    exact ⟨fun hmem => (hold _ hmem).false, hf.nodup⟩
  · have hmem : y ∈ h.next :: (l :: r :: ts).flatMap CodeTree.ids := hids ▸ List.mem_flatMap.mpr ⟨t, ht, hy⟩
    rcases List.mem_cons.mp hmem with rfl | hmem
    · exact Nat.lt_succ_self _
    · exact (hold y hmem).trans (Nat.lt_succ_self _)
  · have hleaves := hf.leaves
    rwa [List.flatMap_cons, List.flatMap_cons, ← List.append_assoc] at hleaves

end Join

/-- The first of some candidates is the topmost node of a tree, and the others are those of the other trees. -/
theorem exists_tree_of_cand {a : Nat} {rest : List Nat} {ts : List CodeTree}
    (h : (a :: rest).Perm (ts.map CodeTree.top)) :
    ∃ t ts', t.top = a ∧ ts.Perm (t :: ts') ∧ rest.Perm (ts'.map CodeTree.top) := by
  obtain ⟨t, ht, rfl⟩ := List.mem_map.mp (h.mem_iff.mp List.mem_cons_self)
  obtain ⟨before, after, rfl⟩ := List.append_of_mem ht
  have hp : (before ++ t :: after).Perm (t :: (before ++ after)) := List.perm_middle
  exact ⟨t, before ++ after, rfl, hp, (h.trans (hp.map _)).cons_inv⟩

/-- One merge makes the candidates one fewer (R74). -/
theorem HufScratch.Forest.merge {A : Nat} {h : HufScratch} {ts : List CodeTree} (hf : h.Forest A ts)
    (hmore : 1 < h.cand.length) :
    ∃ ts', (hufMerge h).Forest A ts' ∧ (hufMerge h).cand.length + 1 = h.cand.length := by
  obtain ⟨a, rest, hcand⟩ := List.exists_cons_of_length_pos (Nat.lt_of_succ_lt hmore)
  have hrest : rest ≠ [] := by rintro rfl; simp [hcand] at hmore
  have hpop := heapPop_perm h.wt a hrest
  have hmid : heapPop h.wt (a :: rest) ≠ [] := fun hnil => hrest (by simpa [hnil] using hpop.symm)
  obtain ⟨b, others, hothers⟩ := List.exists_cons_of_ne_nil hmid
  obtain ⟨weight, cand, hperm, hmerge⟩ := hufMerge_eq hcand hothers
  rw [hothers] at hpop
  obtain ⟨l, ts1, rfl, hts, hts1⟩ := exists_tree_of_cand (hcand ▸ hf.cand)
  obtain ⟨r, ts2, rfl, hts2, hothers2⟩ := exists_tree_of_cand (hpop.trans hts1)
  have hlen : cand.length + 1 = h.cand.length := by
    rw [hperm.length_eq, hcand, List.length_cons, List.length_cons, ← hpop.length_eq, List.length_cons]
  rw [hmerge]
  exact ⟨_, (hf.perm (hts.trans (hts2.cons l))).join weight (hperm.trans (hothers2.cons _)), hlen⟩

/-- One candidate is the topmost node of one tree. -/
theorem HufScratch.Forest.eq_singleton {A : Nat} {h : HufScratch} {ts : List CodeTree} (hf : h.Forest A ts)
    (hone : h.cand.length = 1) : ∃ t, ts = [t] := by
  rw [hf.cand.length_eq, List.length_map] at hone
  exact List.length_eq_one_iff.mp hone

/-- The merges end with one tree over the leaves (R74). -/
theorem HufScratch.Forest.merges {A : Nat} (n : Nat) {h : HufScratch} {ts : List CodeTree} (hf : h.Forest A ts)
    (hpos : 1 ≤ h.cand.length) (hn : h.cand.length ≤ n + 1) : ∃ t, (hufMerges n h).Forest A [t] := by
  induction n generalizing h ts with
  | zero =>
    obtain ⟨t, rfl⟩ := hf.eq_singleton (by omega)
    exact ⟨t, hf⟩
  | succ n ih =>
    rw [hufMerges]
    split_ifs with hmore
    · obtain ⟨ts', hf', hlen⟩ := hf.merge hmore
      exact ih hf' (by omega) (by omega)
    · obtain ⟨t, rfl⟩ := hf.eq_singleton (by omega)
      exact ⟨t, hf⟩

/-- The merges leave the leaves and the codes as they were. -/
theorem hufMerges_kept (n : Nat) (h : HufScratch) :
    (hufMerges n h).leaves = h.leaves ∧ (hufMerges n h).code = h.code ∧ (hufMerges n h).clen = h.clen := by
  induction n generalizing h with
  | zero => exact ⟨rfl, rfl, rfl⟩
  | succ n ih =>
    rw [hufMerges]
    split_ifs
    · exact ih _
    · exact ⟨rfl, rfl, rfl⟩

/-! ### BuildTree -/

/-- The scratch holds one tree from root on, over an alphabet of A symbols and with the ids of LEAVES as its leaves
(R74). -/
structure HufScratch.Grown (A : Nat) (h : HufScratch) (t : CodeTree) : Prop where
  root : h.root = t.top
  holds : h.Holds A t
  nodup : t.ids.Nodup
  leaves : t.leaves.Perm h.leaves

/-- The scratch as the merges begin: the candidates in heap order, the branch ids still to be given out (R73, R74). -/
def HufScratch.heaped (A : Nat) (h : HufScratch) : HufScratch :=
  { h with cand := heapBuild h.wt (h.cand.length / 2) h.cand, next := A + 1 }

theorem hufBuildTree_eq (A : Nat) (h : HufScratch) :
    hufBuildTree A h =
      { hufMerges (h.heaped A).cand.length (h.heaped A) with
        root := (hufMerges (h.heaped A).cand.length (h.heaped A)).cand.headD 0 } := rfl

section BuildTree
variable {A : Nat} {h : HufScratch} (hcand : h.cand = h.leaves) (hnodup : h.leaves.Nodup)
  (hleaf : ∀ y ∈ h.leaves, isLeafId A y = true) (hwf : h.LinksWf)
include hcand hnodup hleaf hwf

/-- The merges begin with a forest of single leaves (R73). -/
theorem forest_heaped : (h.heaped A).Forest A (h.leaves.map CodeTree.leaf) where
  cand := by simpa [HufScratch.heaped, Function.comp_def, hcand] using heapBuild_perm h.wt (h.cand.length / 2) h.cand
  holds := by simpa [HufScratch.Holds] using hleaf
  nodup := by simpa [List.flatMap_map] using hnodup
  fresh t ht y hy := by
    obtain ⟨y', hy', rfl⟩ := List.mem_map.mp ht
    obtain rfl := List.mem_singleton.mp hy
    exact Nat.lt_succ_of_le (isLeafId_iff.mp (hleaf y hy')).2
  next := Nat.lt_succ_self A
  leaves := by simp [List.flatMap_map, HufScratch.heaped]
  wf := ⟨hwf.left, hwf.right, hwf.parent, hwf.isLeft⟩

/-- BuildTree on leaves that are the candidates, with no links yet, grows one tree over them (R72 to R74). -/
theorem hufBuildTree_grown (hpos : 1 ≤ h.leaves.length) :
    ∃ t, (hufBuildTree A h).Grown A t ∧ (hufBuildTree A h).leaves = h.leaves ∧ (hufBuildTree A h).code = h.code
      ∧ (hufBuildTree A h).clen = h.clen := by
  have hforest := forest_heaped hcand hnodup hleaf hwf
  have hlen : (h.heaped A).cand.length = h.leaves.length := by
    rw [hforest.cand.length_eq, List.length_map, List.length_map]
  obtain ⟨t, ht⟩ := hforest.merges (h.heaped A).cand.length (hlen ▸ hpos) (Nat.le_succ _)
  rw [hufBuildTree_eq]
  refine ⟨t, ⟨congrArg (List.headD · 0) (List.perm_singleton.mp ht.cand), ?_, ht.nodup_ids List.mem_cons_self, ?_⟩,
    hufMerges_kept (h.heaped A).cand.length (h.heaped A)⟩
  · exact (ht.holds t List.mem_cons_self).frame (ht.nodup_ids List.mem_cons_self) (fun _ _ => ⟨rfl, rfl⟩)
      (fun _ _ _ => ⟨rfl, rfl⟩)
  · have hperm := ht.leaves
    rwa [List.flatMap_singleton] at hperm

end BuildTree

end Sys2Proof.Machine
end

section
/-! SUPPORT. The leaves of a Huffman encode (spec/41_huffman.md R70, R71) and the tree over them. -/

namespace Sys2Proof.Machine

/-! ### Tally and LeafSet -/

/-- Tally of one symbol (R70). -/
def tallySymbol (h : HufScratch) (s : Nat) : HufScratch :=
  { h with weight := cellSet 0 h.weight (s + 1) (h.wt (s + 1) + 1) }

/-- Tally writes nothing but weights, and each leaf gains as much as its symbol occurs. -/
theorem foldl_tallySymbol (syms : List Nat) {h : HufScratch} (hwf : cellsWfFrom 0 0 h.weight = true) :
    ∃ weight, syms.foldl tallySymbol h = { h with weight := weight }
      ∧ ∀ s, cellGet 0 weight (s + 1) = h.wt (s + 1) + syms.count s := by
  induction syms generalizing h with
  | nil => exact ⟨h.weight, rfl, fun s => rfl⟩
  | cons s0 syms ih =>
    obtain ⟨weight, heq, hcount⟩ := ih (h := tallySymbol h s0) (cellsWfFrom_cellSet hwf (Nat.zero_le _))
    refine ⟨weight, heq, fun s => ?_⟩
    have hone : (tallySymbol h s0).wt (s + 1) = if s + 1 = s0 + 1 then h.wt (s0 + 1) + 1 else h.wt (s + 1) :=
      cellGet_cellSet hwf
    rw [hcount, hone, List.count_cons]
    by_cases hs : s = s0
    · subst hs
      simp
      omega
    · simp [hs, Ne.symm hs]

/-- A leaf weighs as much as its symbol occurs (R70). -/
theorem hufTally_eq (syms : List Nat) :
    ∃ weight, hufTally syms = { HufScratch.zero with weight := weight } ∧ ∀ s, cellGet 0 weight (s + 1) = syms.count s := by
  obtain ⟨weight, heq, hcount⟩ := foldl_tallySymbol syms (h := HufScratch.zero) rfl
  exact ⟨weight, heq, fun s => (hcount s).trans (Nat.zero_add _)⟩

/-- The ids LeafSet starts from, in ascending order (R71). -/
def leafIds (zero : Config.HufZero) (A : Nat) (h : HufScratch) : List Nat :=
  match zero with
  | .excludeZero => ((List.range A).map (· + 1)).filter (fun id => decide (h.wt id > 0))
  | .includeZero => (List.range A).map (· + 1)

/-- A single id gets the dummy partner (R71). -/
def withPartner : List Nat → List Nat
  | [id] => [min (id - 1) (if id - 1 = 0 then 1 else 0) + 1, max (id - 1) (if id - 1 = 0 then 1 else 0) + 1]
  | c => c

theorem hufLeafSet_eq (zero : Config.HufZero) (A : Nat) (h : HufScratch) :
    hufLeafSet zero A h =
      { h with cand := withPartner (leafIds zero A h), leaves := withPartner (leafIds zero A h) } := by
  cases zero <;> simp only [hufLeafSet, leafIds]
  case excludeZero =>
    generalize List.filter _ _ = ids
    rcases ids with _ | ⟨id, _ | ⟨id', ids⟩⟩ <;> rfl
  case includeZero =>
    generalize List.map _ _ = ids
    rcases ids with _ | ⟨id, _ | ⟨id', ids⟩⟩ <;> rfl

theorem leafIds_nodup (zero : Config.HufZero) (A : Nat) (h : HufScratch) : (leafIds zero A h).Nodup := by
  have hall : ((List.range A).map (· + 1)).Nodup := List.nodup_range.map (fun _ _ heq => Nat.succ.inj heq)
  cases zero with
  | excludeZero => exact hall.filter _
  | includeZero => exact hall

theorem isLeafId_of_mem_leafIds {zero : Config.HufZero} {A : Nat} {h : HufScratch} {y : Nat} (hy : y ∈ leafIds zero A h) :
    isLeafId A y = true := by
  have hall : y ∈ (List.range A).map (· + 1) := by
    cases zero with
    | excludeZero => exact List.mem_of_mem_filter hy
    | includeZero => exact hy
  obtain ⟨s, hs, rfl⟩ := List.mem_map.mp hall
  exact decide_eq_true ⟨Nat.le_add_left 1 s, List.mem_range.mp hs⟩

/-- A symbol that occurs has its leaf among the ids (R71). -/
theorem mem_leafIds {zero : Config.HufZero} {A : Nat} {h : HufScratch} {s : Nat} (hs : s < A) (hwt : 0 < h.wt (s + 1)) :
    s + 1 ∈ leafIds zero A h := by
  have hall : s + 1 ∈ (List.range A).map (· + 1) := List.mem_map.mpr ⟨s, List.mem_range.mpr hs, rfl⟩
  cases zero with
  | excludeZero => exact List.mem_filter.mpr ⟨hall, decide_eq_true hwt⟩
  | includeZero => exact hall

/-- With a partner where one is due the leaves are two or more different ids of the alphabet, none lost (R71). -/
theorem withPartner_spec {A : Nat} (hA : 2 ≤ A) {ids : List Nat} (hnodup : ids.Nodup) (hpos : ids ≠ [])
    (hleaf : ∀ y ∈ ids, isLeafId A y = true) :
    (withPartner ids).Nodup ∧ 2 ≤ (withPartner ids).length ∧ (∀ y ∈ withPartner ids, isLeafId A y = true)
      ∧ ids ⊆ withPartner ids := by
  match ids with
  | [] => exact absurd rfl hpos
  | [id] =>
    have hid := isLeafId_iff.mp (hleaf id List.mem_cons_self)
    simp only [isLeafId_iff]
    by_cases hone : id - 1 = 0
    · obtain rfl : id = 1 := by omega
      simp [withPartner, hA, hid]
    · simp [withPartner, hone]
      omega
  | _ :: _ :: rest => exact ⟨hnodup, by simp [withPartner], hleaf, fun _ hy => hy⟩

/-- Different ids of the alphabet are at most as many as its symbols. -/
theorem length_le_of_isLeafId {A : Nat} {ys : List Nat} (hnodup : ys.Nodup) (hleaf : ∀ y ∈ ys, isLeafId A y = true) :
    ys.length ≤ A := by
  have hsub : ys ⊆ (List.range A).map (· + 1) := fun y hy => by
    have hrange := isLeafId_iff.mp (hleaf y hy)
    exact List.mem_map.mpr ⟨y - 1, List.mem_range.mpr (by omega), by omega⟩
  simpa using (hnodup.subperm hsub).length_le

/-- The leaves of some symbols (R71): two or more different ids of the alphabet, one for each symbol among them. They are
the candidates, and nothing is linked or coded yet. -/
theorem hufLeafSet_leaves (zero : Config.HufZero) {A : Nat} (hA : 2 ≤ A) {syms : List Nat} (hsyms : syms ≠ [])
    (hrange : ∀ s ∈ syms, s < A) :
    ∃ h, hufLeafSet zero A (hufTally syms) = h ∧ h.cand = h.leaves ∧ h.leaves.Nodup ∧ 2 ≤ h.leaves.length
      ∧ (∀ y ∈ h.leaves, isLeafId A y = true) ∧ (∀ s ∈ syms, s + 1 ∈ h.leaves) ∧ h.LinksWf ∧ h.code = [] ∧ h.clen = [] := by
  obtain ⟨weight, htally, hcount⟩ := hufTally_eq syms
  have hmem : ∀ s ∈ syms, s + 1 ∈ leafIds zero A (hufTally syms) := fun s hs => by
    refine mem_leafIds (hrange s hs) ?_
    rw [htally]
    exact (List.count_pos_iff.mpr hs).trans_eq (hcount s).symm
  have hne : leafIds zero A (hufTally syms) ≠ [] := by
    obtain ⟨s, hs⟩ := List.exists_mem_of_ne_nil _ hsyms
    exact List.ne_nil_of_mem (hmem s hs)
  obtain ⟨hnodup, htwo, hleaf, hsub⟩ := withPartner_spec hA (leafIds_nodup zero A (hufTally syms)) hne
    fun y hy => isLeafId_of_mem_leafIds hy
  exact ⟨_, hufLeafSet_eq .., rfl, hnodup, htwo, hleaf, fun s hs => hsub (hmem s hs),
    by rw [htally]; exact ⟨rfl, rfl, rfl, rfl⟩, by rw [htally]; rfl, by rw [htally]; rfl⟩

/-- The tree of an encode with symbols (R69 to R74): it is grown over 2 to A different leaves, which include one for each
symbol, and no codes are written yet. -/
theorem hufTree_grown {cfg : Config.Params} {w : Nat} (hw : 1 ≤ w) {inp : List Byte} {syms : List Nat}
    (hscan : hufScan cfg.hufTail w inp = some syms) (hsyms : syms ≠ []) (hrange : ∀ s ∈ syms, s < 2 ^ w) :
    ∃ t, (hufTree cfg w inp).Grown (2 ^ w) t ∧ 2 ≤ t.leaves.length ∧ t.leaves.length ≤ 2 ^ w
      ∧ (∀ y ∈ t.leaves, isLeafId (2 ^ w) y = true) ∧ (∀ s ∈ syms, s + 1 ∈ t.leaves)
      ∧ (hufTree cfg w inp).code = [] ∧ (hufTree cfg w inp).clen = [] := by
  obtain ⟨h, hset, hcand, hnodup, htwo, hleaf, hmem, hwf, hcode, hclen⟩ :=
    hufLeafSet_leaves cfg.hufZero (Nat.pow_le_pow_right (n := 2) (by decide) hw) hsyms hrange
  have htree : hufTree cfg w inp = hufBuildTree (2 ^ w) h := by
    rw [hufTree, hscan, ← hset]
    rfl
  obtain ⟨t, hgrown, hleaves, hcode', hclen'⟩ := hufBuildTree_grown hcand hnodup hleaf hwf (Nat.le_of_succ_le htwo)
  have hperm := hleaves ▸ hgrown.leaves
  rw [htree]
  exact ⟨t, hgrown, hperm.length_eq ▸ htwo, hperm.length_eq ▸ length_le_of_isLeafId hnodup hleaf,
    fun y hy => hleaf y (hperm.mem_iff.mp hy), fun s hs => hperm.mem_iff.mpr (hmem s hs), hcode'.trans hcode,
    hclen'.trans hclen⟩

end Sys2Proof.Machine
end

section
/-! SUPPORT. The codes of a Huffman encode (spec/41_huffman.md R75): a leaf's code is the path that leads to it. -/

namespace Sys2Proof.Machine

/-! ### Paths -/

/-- The subtree a path leads to, false being the left child (R74). -/
def CodeTree.sub : List Bool → CodeTree → Option CodeTree
  | [], t => some t
  | _ :: _, .leaf _ => none
  | b :: p, .branch _ l r => if b then CodeTree.sub p r else CodeTree.sub p l

theorem CodeTree.sub_append (p q : List Bool) (t : CodeTree) :
    CodeTree.sub (p ++ q) t = (CodeTree.sub p t).bind (CodeTree.sub q) := by
  induction p generalizing t with
  | nil => rfl
  | cons b p ih =>
    cases t with
    | leaf y => rfl
    | branch x l r => cases b <;> exact ih _

theorem CodeTree.ids_sub {p : List Bool} {t u : CodeTree} (h : t.sub p = some u) : u.ids ⊆ t.ids := by
  induction p generalizing t with
  | nil =>
    obtain rfl := Option.some.inj h
    exact fun _ hy => hy
  | cons b p ih =>
    cases t with
    | leaf y => cases h
    | branch x l r =>
      intro y hy
      rw [CodeTree.ids_branch, List.mem_cons, List.mem_append]
      cases b with
      | false => exact .inr (.inl (ih h hy))
      | true => exact .inr (.inr (ih h hy))

/-- No node but the topmost has its id. -/
theorem CodeTree.top_sub_ne {b : Bool} {p : List Bool} {t u : CodeTree} (hnodup : t.ids.Nodup)
    (h : t.sub (b :: p) = some u) : u.top ≠ t.top := by
  cases t with
  | leaf y => cases h
  | branch x l r =>
    rw [CodeTree.ids_branch, List.nodup_cons, List.mem_append, not_or] at hnodup
    intro heq
    rw [CodeTree.top_branch] at heq
    cases b with
    | false => exact hnodup.1.1 (heq ▸ CodeTree.ids_sub (t := l) h u.top_mem_ids)
    | true => exact hnodup.1.2 (heq ▸ CodeTree.ids_sub (t := r) h u.top_mem_ids)

theorem HufScratch.Holds.sub {A : Nat} {h : HufScratch} {p : List Bool} {t u : CodeTree} (hold : h.Holds A t)
    (hu : t.sub p = some u) : h.Holds A u := by
  induction p generalizing t with
  | nil => exact Option.some.inj hu ▸ hold
  | cons b p ih =>
    cases t with
    | leaf y => cases hu
    | branch x l r =>
      obtain ⟨-, -, -, hl, hr⟩ := hold
      cases b with
      | false => exact ih hl hu
      | true => exact ih hr hu

/-- A path leads to each leaf, and it has fewer steps than there are leaves (R81 (c)). -/
theorem CodeTree.exists_path {t : CodeTree} {y : Nat} (hy : y ∈ t.leaves) :
    ∃ p, t.sub p = some (.leaf y) ∧ p.length < t.leaves.length := by
  induction t with
  | leaf y' =>
    obtain rfl := List.mem_singleton.mp hy
    exact ⟨[], rfl, Nat.one_pos⟩
  | branch x l r ihl ihr =>
    have hl := l.leaves_pos
    have hr := r.leaves_pos
    rw [CodeTree.leaves_branch, List.length_append]
    rcases List.mem_append.mp hy with hy | hy
    · obtain ⟨p, hp, hlen⟩ := ihl hy
      exact ⟨false :: p, hp, by rw [List.length_cons]; omega⟩
    · obtain ⟨p, hp, hlen⟩ := ihr hy
      exact ⟨true :: p, hp, by rw [List.length_cons]; omega⟩

/-- The last step of a path goes from a branch to its child, and the link arrays lead back (R74). -/
theorem HufScratch.Holds.last_step {A : Nat} {h : HufScratch} {p : List Bool} {b : Bool} {t u : CodeTree}
    (hold : h.Holds A t) (hu : t.sub (p ++ [b]) = some u) :
    ∃ v, t.sub p = some v ∧ h.par u.top = v.top ∧ h.isl u.top = !b := by
  rw [CodeTree.sub_append, Option.bind_eq_some_iff] at hu
  obtain ⟨v, hv, hu⟩ := hu
  cases v with
  | leaf y => cases hu
  | branch x l r =>
    obtain ⟨-, ⟨-, hpl, hil⟩, ⟨-, hpr, hir⟩, -, -⟩ := hold.sub hv
    cases b with
    | false => exact ⟨_, hv, Option.some.inj hu ▸ hpl, Option.some.inj hu ▸ hil⟩
    | true => exact ⟨_, hv, Option.some.inj hu ▸ hpr, Option.some.inj hu ▸ hir⟩

/-! ### Paths as numbers -/

/-- The number whose bits are a path, its first step in the highest bit (R75). -/
def pathNat (p : List Bool) : Nat := p.foldl (fun v b => 2 * v + b.toNat) 0

@[simp] theorem pathNat_nil : pathNat [] = 0 := rfl

theorem pathNat_append_singleton (p : List Bool) (b : Bool) : pathNat (p ++ [b]) = 2 * pathNat p + b.toNat := by
  simp [pathNat]

theorem pathNat_lt (p : List Bool) : pathNat p < 2 ^ p.length := by
  induction p using List.reverseRecOn with
  | nil => exact Nat.one_pos
  | append_singleton p b ih =>
    have hb := Bool.toNat_lt b
    rw [pathNat_append_singleton, List.length_append, List.length_singleton, Nat.pow_succ]
    omega

theorem bitsDown_pathNat (p : List Bool) : bitsDown p.length (pathNat p) = p := by
  induction p using List.reverseRecOn with
  | nil => rfl
  | append_singleton p b ih =>
    rw [pathNat_append_singleton, List.length_append, List.length_singleton]
    have hlast := bitsDown_add p.length 1 (pathNat p) (Bool.toNat_lt b)
    rw [Nat.pow_one] at hlast
    rw [hlast, ih]
    cases b <;> rfl

/-! ### CodeGen -/

/-- The walk up from the end of a path collects the path's steps, the last one lowest (R75); it fails exactly where the path
has too many. -/
theorem HufScratch.Grown.hufWalkUp_eq {A : Nat} {h : HufScratch} {t u : CodeTree} (hg : h.Grown A t) {p : List Bool}
    (hu : t.sub p = some u) (n : Nat) {c l : Nat} (hc : c < 2 ^ l) :
    hufWalkUp h n u.top c l = if p.length < n then some (2 ^ l * pathNat p + c, l + p.length) else none := by
  induction p using List.reverseRecOn generalizing u n c l with
  | nil =>
    obtain rfl := Option.some.inj hu
    cases n with
    | zero => rfl
    | succ n => simp [hufWalkUp, hg.root]
  | append_singleton p b ih =>
    obtain ⟨v, hv, hpar, hisl⟩ := hg.holds.last_step hu
    cases n with
    | zero => rfl
    | succ n =>
      have hne : u.top ≠ h.root := by
        obtain ⟨b', p', hp⟩ := List.exists_cons_of_ne_nil (List.append_ne_nil_of_right_ne_nil p (List.cons_ne_nil b []))
        rw [hg.root]
        exact CodeTree.top_sub_ne hg.nodup (hp ▸ hu)
      have hor : c ||| ((if h.isl u.top then 0 else 1) <<< l) = 2 ^ l * b.toNat + c := by
        rw [Nat.or_comm, ← Nat.shiftLeft_add_eq_or_of_lt hc, Nat.shiftLeft_eq, hisl, Nat.mul_comm]
        cases b <;> rfl
      have hlt : 2 ^ l * b.toNat + c < 2 ^ (l + 1) := by
        rw [Nat.pow_succ]
        cases b <;> simp <;> omega
      rw [hufWalkUp, if_neg hne, hor, hpar, ih hv n hlt, List.length_append, List.length_singleton]
      split_ifs with h1 h2 h2
      · rw [pathNat_append_singleton, Nat.pow_succ]
        congr 2
        · ring
        · omega
      · omega
      · omega
      · rfl

/-- CodeGen writes for each leaf what the walk up from it finds, and nothing else (R75). -/
theorem hufCodeGen_codes {ys : List Nat} {h h' : HufScratch} (hgen : hufCodeGen ys h = some h')
    (hys : ∀ y ∈ ys, 1 ≤ y) (hcode : cellsWfFrom 0 0 h.code = true) (hclen : cellsWfFrom 0 0 h.clen = true) (s : Nat) :
    (s + 1 ∈ ys → hufWalkUp h 32 (s + 1) 0 0 = some (cellGet 0 h'.code s, cellGet 0 h'.clen s))
    ∧ (s + 1 ∉ ys → cellGet 0 h'.code s = cellGet 0 h.code s ∧ cellGet 0 h'.clen s = cellGet 0 h.clen s) := by
  induction ys generalizing h with
  | nil =>
    obtain rfl := Option.some.inj hgen
    simp
  | cons y ys ih =>
    obtain ⟨hy, hys⟩ := List.forall_mem_cons.mp hys
    cases hwalk : hufWalkUp h 32 y 0 0 with
    | none => simp [hufCodeGen, hwalk] at hgen
    | some found =>
      simp only [hufCodeGen, hwalk] at hgen
      obtain ⟨hin, hout⟩ := ih hgen hys (cellsWfFrom_cellSet hcode (Nat.zero_le _))
        (cellsWfFrom_cellSet hclen (Nat.zero_le _))
      simp only [hufWalkUp_setCodes, cellGet_cellSet hcode, cellGet_cellSet hclen] at hin hout
      by_cases hmem : s + 1 ∈ ys
      · exact ⟨fun _ => hin hmem, fun hnot => absurd (List.mem_cons_of_mem _ hmem) hnot⟩
      · obtain ⟨hc, hl⟩ := hout hmem
        by_cases heq : s + 1 = y
        · subst heq
          simp at hc hl
          simp [hc, hl, hwalk]
        · have hs : s ≠ y - 1 := by omega
          simp [hc, hl, hs, heq, hmem]

end Sys2Proof.Machine
end

section
/-! SUPPORT. The table of a Huffman encode (spec/41_huffman.md R76 to R79): the tiers hold the tree in the order in which the
offsets of the branch bytes find it. -/

namespace Sys2Proof.Machine

/-! ### Tiers -/

/-- The children of the topmost node. -/
def CodeTree.kids : CodeTree → List CodeTree
  | .leaf _ => []
  | .branch _ l r => [l, r]

/-- The children of a tier's branches are the topmost nodes of the next tier's trees (R76). -/
theorem HufScratch.Holds.next_tier {A : Nat} {h : HufScratch} {ts : List CodeTree} (hold : ∀ t ∈ ts, h.Holds A t) :
    ((ts.map CodeTree.top).filter (fun x => !isLeafId A x)).flatMap (fun x => [h.lc x, h.rc x])
      = (ts.flatMap CodeTree.kids).map CodeTree.top := by
  induction ts with
  | nil => rfl
  | cons t ts ih =>
    obtain ⟨ht, hts⟩ := List.forall_mem_cons.mp hold
    rw [List.map_cons, List.flatMap_cons, List.map_append, ← ih hts]
    cases t with
    | leaf y =>
      replace ht : isLeafId A y = true := ht
      simp [ht, CodeTree.kids]
    | branch x l r =>
      obtain ⟨hx, ⟨hlc, -⟩, ⟨hrc, -⟩, -, -⟩ := ht
      replace hlc : h.lc x = l.top := hlc
      replace hrc : h.rc x = r.top := hrc
      simp [hx, CodeTree.kids, hlc, hrc]

/-- The nodes of some trees are their topmost nodes and the nodes of the next tier's trees. -/
theorem flatMap_ids_perm (ts : List CodeTree) :
    (ts.flatMap CodeTree.ids).Perm (ts.map CodeTree.top ++ (ts.flatMap CodeTree.kids).flatMap CodeTree.ids) := by
  induction ts with
  | nil => rfl
  | cons t ts ih =>
    cases t with
    | leaf y => exact ih.cons y
    | branch x l r =>
      simp only [List.flatMap_cons, CodeTree.ids_branch, CodeTree.kids, List.map_cons, CodeTree.top_branch,
        List.cons_append, List.nil_append, List.append_assoc]
      refine List.Perm.cons x ?_
      simpa using (ih.append_left (l.ids ++ r.ids)).trans (List.perm_append_comm_assoc ..)

/-- A child has fewer leaves than the whole tree. -/
theorem leaves_length_kids_lt {t u : CodeTree} (hu : u ∈ t.kids) : u.leaves.length < t.leaves.length := by
  cases t with
  | leaf y => cases hu
  | branch x l r =>
    have hl := l.leaves_pos
    have hr := r.leaves_pos
    rw [CodeTree.leaves_branch, List.length_append]
    simp only [CodeTree.kids, List.mem_cons, List.not_mem_nil, or_false] at hu
    rcases hu with rfl | rfl <;> omega

/-- Trees of one leaf have no children. -/
theorem kids_eq_nil_of_leaves {ts : List CodeTree} (h : ∀ t ∈ ts, t.leaves.length ≤ 1) : ts.flatMap CodeTree.kids = [] := by
  refine List.flatMap_eq_nil_iff.mpr fun t ht => List.eq_nil_iff_forall_not_mem.mpr fun u hu => ?_
  have hlt := leaves_length_kids_lt hu
  have hpos := u.leaves_pos
  have hone := h t ht
  omega

@[simp] theorem hufTiers_nil (A : Nat) (h : HufScratch) (n : Nat) : hufTiers A h n [] = [] := by
  cases n <;> simp [hufTiers]

/-- A tier, then the tiers from its branches' children on (R76). -/
theorem hufTiers_succ {A : Nat} {h : HufScratch} (n : Nat) {ts : List CodeTree} (hold : ∀ t ∈ ts, h.Holds A t) :
    hufTiers A h (n + 1) (ts.map CodeTree.top)
      = ts.map CodeTree.top ++ hufTiers A h n ((ts.flatMap CodeTree.kids).map CodeTree.top) := by
  have htier := HufScratch.Holds.next_tier hold
  rw [hufTiers, htier]
  split_ifs with hany
  · rfl
  · have hnone : (ts.map CodeTree.top).filter (fun x => !isLeafId A x) = [] :=
      List.filter_eq_nil_iff.mpr fun x hx hbranch => hany (List.any_eq_true.mpr ⟨x, hx, hbranch⟩)
    rw [hnone, List.flatMap_nil] at htier
    rw [← htier, hufTiers_nil, List.append_nil]

theorem HufScratch.Holds.kids {A : Nat} {h : HufScratch} {ts : List CodeTree} (hold : ∀ t ∈ ts, h.Holds A t) :
    ∀ u ∈ ts.flatMap CodeTree.kids, h.Holds A u := by
  intro u hu
  obtain ⟨t, ht, hu⟩ := List.mem_flatMap.mp hu
  cases t with
  | leaf y => cases hu
  | branch x l r =>
    obtain ⟨-, -, -, hl, hr⟩ := hold _ ht
    simp only [CodeTree.kids, List.mem_cons, List.not_mem_nil, or_false] at hu
    rcases hu with rfl | rfl
    · exact hl
    · exact hr

/-- Every tier but the first has an even number of nodes (R76). -/
theorem exists_length_kids (ts : List CodeTree) : ∃ m, (ts.flatMap CodeTree.kids).length = 2 * m := by
  induction ts with
  | nil => exact ⟨0, rfl⟩
  | cons t ts ih =>
    obtain ⟨m, hm⟩ := ih
    rw [List.flatMap_cons, List.length_append, hm]
    cases t with
    | leaf y => exact ⟨m, Nat.zero_add _⟩
    | branch x l r => exact ⟨m + 1, by simp only [CodeTree.kids, List.length_cons, List.length_nil]; omega⟩

/-- A tier's branch has its children side by side in the next tier, after an even number of nodes (R76). -/
theorem HufScratch.Holds.kids_getElem? {A : Nat} {h : HufScratch} {ts : List CodeTree} (hold : ∀ t ∈ ts, h.Holds A t)
    {i x : Nat} (hi : (ts.map CodeTree.top)[i]? = some x) (hx : isLeafId A x = false) :
    ∃ k, ((ts.flatMap CodeTree.kids).map CodeTree.top)[2 * k]? = some (h.lc x)
      ∧ ((ts.flatMap CodeTree.kids).map CodeTree.top)[2 * k + 1]? = some (h.rc x) := by
  induction ts generalizing i with
  | nil => cases hi
  | cons t ts ih =>
    obtain ⟨ht, hts⟩ := List.forall_mem_cons.mp hold
    cases i with
    | zero =>
      obtain rfl : t.top = x := Option.some.inj hi
      cases t with
      | leaf y =>
        rw [CodeTree.top_leaf, show isLeafId A y = true from ht] at hx
        cases hx
      | branch x l r =>
        obtain ⟨-, ⟨hlc, -⟩, ⟨hrc, -⟩, -, -⟩ := ht
        exact ⟨0, congrArg some hlc.symm, congrArg some hrc.symm⟩
    | succ i =>
      obtain ⟨k, hl, hr⟩ := ih hts hi
      cases t with
      | leaf y => exact ⟨k, hl, hr⟩
      | branch x l r => exact ⟨k + 1, hl, hr⟩

/-- The tiers begin with the first one. -/
theorem hufTiers_getElem? (A : Nat) (h : HufScratch) (n : Nat) {tier : List Nat} {i x : Nat} (hi : tier[i]? = some x) :
    (hufTiers A h n tier)[i]? = some x := by
  cases n with
  | zero => exact hi
  | succ n =>
    rw [hufTiers]
    split_ifs
    · rwa [List.getElem?_append_left (List.getElem?_eq_some_iff.mp hi).1]
    · exact hi

theorem fewer_leaves_kids {n : Nat} {ts : List CodeTree} (hn : ∀ t ∈ ts, t.leaves.length ≤ n + 2) :
    ∀ u ∈ ts.flatMap CodeTree.kids, u.leaves.length ≤ n + 1 := by
  intro u hu
  obtain ⟨t, ht, hu⟩ := List.mem_flatMap.mp hu
  exact Nat.le_of_lt_succ ((leaves_length_kids_lt hu).trans_le (hn t ht))

section Tiers
variable {A : Nat} {h : HufScratch} (n : Nat) {ts : List CodeTree} (hold : ∀ t ∈ ts, h.Holds A t)
  (hn : ∀ t ∈ ts, t.leaves.length ≤ n + 1)
include hold hn

/-- The tiers list each node of the trees once (R76). -/
theorem hufTiers_perm : (hufTiers A h n (ts.map CodeTree.top)).Perm (ts.flatMap CodeTree.ids) := by
  refine List.Perm.trans ?_ (flatMap_ids_perm ts).symm
  induction n generalizing ts with
  | zero => rw [kids_eq_nil_of_leaves hn, List.flatMap_nil, List.append_nil, hufTiers]
  | succ n ih =>
    rw [hufTiers_succ n hold]
    exact ((ih (HufScratch.Holds.kids hold) (fewer_leaves_kids hn)).trans (flatMap_ids_perm _).symm).append_left _

/-- A branch's children stand side by side in the tiers after its own, an even number of places after the first of these
(R76). -/
theorem hufTiers_kids {i x : Nat} (hi : (hufTiers A h n (ts.map CodeTree.top))[i]? = some x) (hx : isLeafId A x = false) :
    ∃ k, i < ts.length + 2 * k
      ∧ (hufTiers A h n (ts.map CodeTree.top))[ts.length + 2 * k]? = some (h.lc x)
      ∧ (hufTiers A h n (ts.map CodeTree.top))[ts.length + 2 * k + 1]? = some (h.rc x) := by
  induction n generalizing ts i with
  | zero =>
    obtain ⟨k, hl, -⟩ := HufScratch.Holds.kids_getElem? hold hi hx
    rw [kids_eq_nil_of_leaves hn] at hl
    cases hl
  | succ n ih =>
    have hlen : (ts.map CodeTree.top).length = ts.length := List.length_map _
    rw [hufTiers_succ n hold] at hi ⊢
    have hnext : ∀ j, (ts.map CodeTree.top
        ++ hufTiers A h n ((ts.flatMap CodeTree.kids).map CodeTree.top))[ts.length + j]?
          = (hufTiers A h n ((ts.flatMap CodeTree.kids).map CodeTree.top))[j]? := fun j => by
      rw [List.getElem?_append_right (by omega), hlen, Nat.add_sub_cancel_left]
    rcases Nat.lt_or_ge i ts.length with hlt | hge
    · rw [List.getElem?_append_left (by omega)] at hi
      obtain ⟨k, hl, hr⟩ := HufScratch.Holds.kids_getElem? hold hi hx
      refine ⟨k, by omega, ?_, ?_⟩
      · rw [hnext, hufTiers_getElem? A h n hl]
      · rw [Nat.add_assoc, hnext, hufTiers_getElem? A h n hr]
    · obtain ⟨m, hm⟩ := exists_length_kids ts
      rw [List.getElem?_append_right (by omega), hlen] at hi
      obtain ⟨k, hlt, hl, hr⟩ := ih (HufScratch.Holds.kids hold) (fewer_leaves_kids hn) hi
      rw [hm, ← Nat.mul_add] at hl hr
      exact ⟨m + k, by omega, by rw [hnext, hl], by rw [Nat.add_assoc, hnext, hr]⟩

end Tiers

/-! ### Table indices -/

/-- In a list without repetition each node's index is its place (R76). -/
theorem cellGet_hufIndices (t : Nat) {xs : List Nat} (hnodup : xs.Nodup) {idx : List (Nat × Nat)}
    (hwf : cellsWfFrom 0 0 idx = true) (y : Nat) :
    (∀ i, xs[i]? = some y → cellGet 0 (hufIndices t xs idx) y = t + i)
    ∧ (y ∉ xs → cellGet 0 (hufIndices t xs idx) y = cellGet 0 idx y) := by
  induction xs generalizing t idx with
  | nil => exact ⟨fun i hi => (by cases hi), fun _ => rfl⟩
  | cons x xs ih =>
    obtain ⟨hx, hxs⟩ := List.nodup_cons.mp hnodup
    obtain ⟨hin, hout⟩ := ih (t + 1) hxs (cellsWfFrom_cellSet (a := x) (v := t) hwf (Nat.zero_le _))
    rw [cellGet_cellSet hwf] at hout
    rw [hufIndices]
    refine ⟨fun i hi => ?_, fun hy => ?_⟩
    · cases i with
      | zero =>
        obtain rfl : x = y := Option.some.inj hi
        rw [hout hx, if_pos rfl, Nat.add_zero]
      | succ i => rw [hin i hi, Nat.add_assoc, Nat.add_comm 1]
    · rw [List.mem_cons, not_or] at hy
      rw [hout hy.2, if_neg hy.1]

/-! ### The nodes of one tree -/

/-- ORDER, the nodes in table order (R76). -/
def HufScratch.order (A : Nat) (h : HufScratch) : List Nat := hufTiers A h 512 [h.root]

/-- The table indices (R76). -/
def HufScratch.indices (A : Nat) (h : HufScratch) : List (Nat × Nat) := hufIndices 0 (h.order A) []

/-- The root comes first. -/
theorem HufScratch.order_zero (A : Nat) (h : HufScratch) : (h.order A)[0]? = some h.root :=
  hufTiers_getElem? A h 512 rfl

/-- The offset of the branch x at table index i, before P_HUF_OFFSET is applied (R77). -/
def HufScratch.offsetAt (A : Nat) (h : HufScratch) (i x : Nat) : Nat :=
  HufScratch.branchOffset { h with idx := h.indices A } i x

theorem HufScratch.offsetAt_eq (A : Nat) (h : HufScratch) (i x : Nat) :
    h.offsetAt A i x = (cellGet 0 (h.indices A) (h.lc x) - 1 - clearBit0 (i + 1)) / 2 := rfl

section Order
variable {A : Nat} {h : HufScratch} {t : CodeTree} (hg : h.Grown A t) (hlen : t.leaves.length ≤ 256)
include hg hlen

/-- The table lists each node of the tree once (R76). -/
theorem HufScratch.Grown.order_perm : (h.order A).Perm t.ids := by
  have hperm := hufTiers_perm 512 (List.forall_mem_singleton.mpr hg.holds) (List.forall_mem_singleton.mpr (by omega))
  rwa [List.flatMap_singleton, List.map_singleton, ← hg.root] at hperm

/-- The table has one node less than twice as many as there are leaves (R79). -/
theorem HufScratch.Grown.order_length : (h.order A).length + 1 = 2 * t.leaves.length := by
  rw [(hg.order_perm hlen).length_eq, t.ids_length]

/-- A node's index is its place. -/
theorem HufScratch.Grown.cellGet_indices {i y : Nat} (hi : (h.order A)[i]? = some y) :
    cellGet 0 (h.indices A) y = i := by
  have hnodup := (hg.order_perm hlen).nodup_iff.mpr hg.nodup
  rw [HufScratch.indices, (cellGet_hufIndices 0 hnodup rfl y).1 i hi, Nat.zero_add]

/-- A branch's left child has an odd index past the branch's own, and its right child the next one (R76). -/
theorem HufScratch.Grown.order_kids {i x : Nat} (hi : (h.order A)[i]? = some x) (hx : isLeafId A x = false) :
    ∃ k, i < 2 * k + 1 ∧ (h.order A)[2 * k + 1]? = some (h.lc x) ∧ (h.order A)[2 * k + 2]? = some (h.rc x) := by
  obtain ⟨k, hlt, hl, hr⟩ := hufTiers_kids 512 (List.forall_mem_singleton.mpr hg.holds)
    (List.forall_mem_singleton.mpr (by omega)) (i := i) (x := x) (by rwa [List.map_singleton, ← hg.root]) hx
  rw [List.map_singleton, ← hg.root, List.length_singleton, Nat.add_comm 1] at hl hr
  exact ⟨k, by rwa [List.length_singleton, Nat.add_comm] at hlt, hl, hr⟩

/-- The offset of a branch counts the pairs of places from the branch to its children (R77). -/
theorem HufScratch.Grown.order_offsetAt {i x : Nat} (hi : (h.order A)[i]? = some x) (hx : isLeafId A x = false) :
    (h.order A)[clearBit0 (i + 1) + 2 * h.offsetAt A i x + 1]? = some (h.lc x)
      ∧ (h.order A)[clearBit0 (i + 1) + 2 * h.offsetAt A i x + 2]? = some (h.rc x) := by
  obtain ⟨k, hlt, hl, hr⟩ := hg.order_kids hlen hi hx
  have hoff : clearBit0 (i + 1) + 2 * h.offsetAt A i x = 2 * k := by
    rw [HufScratch.offsetAt_eq, hg.cellGet_indices hlen hl]
    unfold clearBit0
    omega
  rw [hoff]
  exact ⟨hl, hr⟩

/-- Every offset leads to places inside the table. -/
theorem HufScratch.Grown.lt_order_length_of_mem_offsets {off : Nat} (hoff : off ∈ h.offsets A) :
    2 * off + 1 < (h.order A).length := by
  obtain ⟨i, hi, hsome⟩ := List.mem_filterMap.mp hoff
  replace hi : i < (h.order A).length := List.mem_range.mp hi
  replace hsome : (if isLeafId A ((h.order A).getD i 0) then none else some (h.offsetAt A i ((h.order A).getD i 0)))
      = some off := hsome
  rw [List.getD_eq_getElem _ _ hi] at hsome
  split_ifs at hsome with hleaf
  obtain ⟨hleft, -⟩ := hg.order_offsetAt hlen (List.getElem?_eq_getElem hi) (Bool.eq_false_iff.mpr hleaf)
  obtain ⟨hlt, -⟩ := List.getElem?_eq_some_iff.mp hleft
  obtain rfl := Option.some.inj hsome
  omega

end Order

end Sys2Proof.Machine
end

section
/-! PROOF. For w = 4 ENCODING_OVERFLOW never occurs (spec/41_huffman.md R81 (c)). -/

namespace Sys2Proof.Machine

theorem wordFields_lt {w x n f s : Nat} (hs : s ∈ wordFields w x n f) : s < 2 ^ w := by
  induction n generalizing f with
  | zero => cases hs
  | succ n ih =>
    rcases List.mem_cons.mp hs with rfl | hs
    · exact Nat.mod_lt _ (by positivity)
    · exact ih hs

/-- A symbol is a field of w bits (R69). -/
theorem wordSymbols_lt {w s : Nat} (bs : List Byte) (hs : s ∈ wordSymbols w bs) : s < 2 ^ w := by
  match bs with
  | [] => cases hs
  | [_] => cases hs
  | [_, _] => cases hs
  | [_, _, _] => cases hs
  | b0 :: b1 :: b2 :: b3 :: rest =>
    rw [wordSymbols, List.mem_append] at hs
    rcases hs with hs | hs
    · exact wordFields_lt hs
    · exact wordSymbols_lt rest hs

theorem hufScan_lt {tail : Config.HufTail} {w s : Nat} {inp : List Byte} {syms : List Nat}
    (hscan : hufScan tail w inp = some syms) (hs : s ∈ syms) : s < 2 ^ w := by
  cases tail with
  | pad => exact wordSymbols_lt _ (Option.some.inj hscan ▸ hs)
  | truncate => exact wordSymbols_lt _ (Option.some.inj hscan ▸ hs)
  | reject =>
    rw [hufScan] at hscan
    split_ifs at hscan
    exact wordSymbols_lt _ (Option.some.inj hscan ▸ hs)

/-- No leaf is deeper than the leaves are many (R81 (c)). -/
theorem HufScratch.Grown.not_tooDeep {A : Nat} {h : HufScratch} {t : CodeTree} (hg : h.Grown A t)
    (hlen : t.leaves.length ≤ 32) : ¬h.tooDeep := by
  rw [← hufCodeGen_eq_none_iff_tooDeep, hufCodeGen_eq_none_iff]
  rintro ⟨y, hy, hnone⟩
  obtain ⟨p, hp, hshort⟩ := CodeTree.exists_path (hg.leaves.mem_iff.mpr hy)
  have hwalk := hg.hufWalkUp_eq hp 32 (c := 0) (l := 0) Nat.one_pos
  rw [if_pos (by omega)] at hwalk
  exact absurd (hnone.symm.trans hwalk) (by simp)

/-- Settles O55: at most 16 leaves make codes of at most 15 bits and a table of at most 31 nodes. -/
theorem huffmanFourNeverOverflows : Obligations.HuffmanFourNeverOverflows := by
  intro cfg inp hover
  match hscan : hufScan cfg.hufTail 4 inp with
  | none => simp [hufEncode, hscan] at hover
  | some [] => simp [hufEncode, hscan] at hover
  | some (sym :: syms) =>
    obtain ⟨t, hg, -, hlen, -⟩ := hufTree_grown (by decide) hscan (by simp) fun s hs => hufScan_lt hscan hs
    rcases hufEncode_scanned Config.tagHuf4 hscan with ⟨hdeep | ⟨-, off, hoff, hbig⟩, -⟩ | ⟨-, block, hok⟩
    · exact hg.not_tooDeep (by omega) hdeep
    · have hlt := hg.lt_order_length_of_mem_offsets (by omega) hoff
      have horder := hg.order_length (by omega)
      omega
    · cases hover.symm.trans hok

end Sys2Proof.Machine
end

section
/-! SUPPORT. The table of a Huffman encode as the decoder walks it (spec/41_huffman.md R77, R78, R84): from the root the walk
follows a path through the branch bytes to the path's leaf. -/

namespace Sys2Proof.Machine

/-! ### Walking a table -/

/-- The branch byte at a table position leads by a bit to a position inside the table, flagged as a leaf or not (R84). -/
def leadsTo (table : List Byte) (last q : Nat) (bit : Bool) (leaf : Bool) : Prop :=
  childOf q (table.getD q 0) bit ≤ last ∧ leafFlag (table.getD q 0) bit = leaf

/-- The table holds a tree from position q on: a leaf's byte there, or a branch byte that leads to both children (R54, R84). -/
def CodeTree.InTable (table : List Byte) (last : Nat) (leafByte : Nat → Byte) : CodeTree → Nat → Prop
  | .leaf y, q => table.getD q 0 = leafByte y
  | .branch _ l r, q =>
    leadsTo table last q false l.kids.isEmpty ∧ l.InTable table last leafByte (childOf q (table.getD q 0) false)
    ∧ leadsTo table last q true r.kids.isEmpty ∧ r.InTable table last leafByte (childOf q (table.getD q 0) true)

section Walk
variable {table : List Byte} {last q y : Nat} {leafByte : Nat → Byte} {p : List Bool} {rest : List Bool}

/-- One step of the walk, to a child that is the leaf or from which the walk reaches it (R84). -/
theorem hufSymbol_step {u : CodeTree} {b : Bool} (hlead : leadsTo table last q b u.kids.isEmpty)
    (hu : u.InTable table last leafByte (childOf q (table.getD q 0) b)) (hp : u.sub p = some (.leaf y))
    (hgo : p ≠ [] → hufSymbol table last (childOf q (table.getD q 0) b) (p ++ rest) = some (leafByte y, rest)) :
    hufSymbol table last q (b :: p ++ rest) = some (leafByte y, rest) := by
  obtain ⟨hlast, hflag⟩ := hlead
  rw [List.cons_append, hufSymbol_cons, if_neg (Nat.not_lt.mpr hlast), hflag]
  cases u with
  | leaf y' =>
    cases p with
    | nil =>
      cases hp
      exact congrArg (fun v => some (v, rest)) hu
    | cons b p => cases hp
  | branch x l r =>
    rw [CodeTree.kids, List.isEmpty_cons, if_neg Bool.false_ne_true]
    exact hgo (by rintro rfl; cases hp)

/-- The decoder's walk follows a path to its leaf (R84, R85). -/
theorem CodeTree.InTable.walk {t : CodeTree} (ht : t.InTable table last leafByte q) (hp : t.sub p = some (.leaf y))
    (hne : p ≠ []) : hufSymbol table last q (p ++ rest) = some (leafByte y, rest) := by
  induction t generalizing p q with
  | leaf y' =>
    cases p with
    | nil => exact absurd rfl hne
    | cons b p => cases hp
  | branch x l r ihl ihr =>
    obtain ⟨hl, htl, hr, htr⟩ := ht
    cases p with
    | nil => exact absurd rfl hne
    | cons b p =>
      cases b with
      | false => exact hufSymbol_step hl htl hp (ihl htl hp)
      | true => exact hufSymbol_step hr htr hp (ihr htr hp)

end Walk

/-- A sequence of codes, whatever follows it, decodes to their leaf bytes (R82). -/
theorem hufLeaves_codes {table : List Byte} {last : Nat} {code : Nat → List Bool} {leafByte : Nat → Byte} {syms : List Nat}
    (hsym : ∀ s ∈ syms, ∀ rest, hufSymbol table last 1 (code s ++ rest) = some (leafByte (s + 1), rest)) (rest : List Bool) :
    hufLeaves table last syms.length (syms.flatMap code ++ rest) = (syms.map (fun s => leafByte (s + 1)), true) := by
  induction syms with
  | nil => rfl
  | cons s syms ih =>
    obtain ⟨hs, hsyms⟩ := List.forall_mem_cons.mp hsym
    rw [List.flatMap_cons, List.append_assoc, List.length_cons, hufLeaves_succ_some (hs _), ih hsyms]
    rfl

/-! ### The bytes of the table -/

/-- The bytes of the nodes in table order (R77, R78). -/
theorem hufNodes_bytes {cfg : Config.Params} {A : Nat} {h : HufScratch} {t : Nat} {xs : List Nat} {nodes : List Byte}
    (hnodes : hufNodes cfg A h t xs = some nodes) :
    nodes.length = xs.length ∧ ∀ i x, xs[i]? = some x →
      (isLeafId A x = true → nodes.getD i 0 = hufLeafByte cfg.leafBias x)
      ∧ (isLeafId A x = false →
          hufBranchByte cfg.hufOffset (t + i) (cellGet 0 h.idx (h.lc x)) (isLeafId A (h.lc x)) (isLeafId A (h.rc x))
            = some (nodes.getD i 0)) := by
  induction xs generalizing t nodes with
  | nil =>
    obtain rfl := Option.some.inj hnodes
    exact ⟨rfl, fun i x hi => (by cases hi)⟩
  | cons x0 xs ih =>
    rw [hufNodes] at hnodes
    split at hnodes
    case h_2 => cases hnodes
    case h_1 b bs hbyte hrest =>
      obtain rfl := Option.some.inj hnodes
      obtain ⟨hlen, hget⟩ := ih hrest
      refine ⟨congrArg (· + 1) hlen, fun i x hi => ?_⟩
      cases i with
      | zero =>
        obtain rfl : x0 = x := Option.some.inj hi
        refine ⟨fun hleaf => ?_, fun hbranch => ?_⟩
        · rw [if_pos hleaf] at hbyte
          exact (Option.some.inj hbyte).symm
        · rw [if_neg (Bool.eq_false_iff.mp hbranch)] at hbyte
          exact hbyte
      | succ i =>
        have hnext := hget i x hi
        rwa [Nat.add_right_comm] at hnext

/-- A branch byte whose offset fits in 6 bits gives back the offset and the flag of either child (R54, R77). -/
theorem hufBranchByte_fields {policy : Config.HufOffset} {t c : Nat} {ll rl : Bool} {node : Byte}
    (hbyte : hufBranchByte policy t c ll rl = some node) (hfits : (c - 1 - clearBit0 (t + 1)) / 2 ≤ 63) (b : Bool) :
    node.toNat % 64 = (c - 1 - clearBit0 (t + 1)) / 2 ∧ leafFlag node b = if b then rl else ll := by
  have hall : ∀ off < 64, ∀ ll rl b : Bool,
      (BitVec.ofNat 8 (off ||| ((if ll then 1 else 0) <<< 7) ||| ((if rl then 1 else 0) <<< 6))).toNat % 64 = off
      ∧ leafFlag (BitVec.ofNat 8 (off ||| ((if ll then 1 else 0) <<< 7) ||| ((if rl then 1 else 0) <<< 6))) b
        = if b then rl else ll := by
    decide
  unfold hufBranchByte at hbyte
  rw [if_neg (Nat.not_lt.mpr hfits)] at hbyte
  obtain rfl := Option.some.inj hbyte
  exact hall _ (Nat.lt_succ_of_le hfits) ll rl b

/-- The topmost id says whether the tree is a leaf (R76). -/
theorem HufScratch.Holds.isLeafId_top {A : Nat} {h : HufScratch} {t : CodeTree} (hold : h.Holds A t) :
    isLeafId A t.top = t.kids.isEmpty := by
  cases t with
  | leaf y => exact hold
  | branch x l r => exact hold.1

/-- No offset of the tree is cut: one above 63 fails, or there is none (R77). -/
def HufScratch.offsetsKept (policy : Config.HufOffset) (A : Nat) (h : HufScratch) : Prop :=
  policy = .fail ∨ ∀ off ∈ h.offsets A, off ≤ 63

/-- Where a branch has a byte, its offset is 63 or less. -/
theorem HufScratch.offsetsKept.branch_le {policy : Config.HufOffset} {A : Nat} {h : HufScratch}
    (hkept : h.offsetsKept policy A) {i x : Nat} (hi : (h.order A)[i]? = some x) (hx : isLeafId A x = false) {ll rl : Bool} {node : Byte}
    (hbyte : hufBranchByte policy i (cellGet 0 (h.indices A) (h.lc x)) ll rl = some node) : h.offsetAt A i x ≤ 63 := by
  by_contra hbig
  rw [Nat.not_le] at hbig
  rcases hkept with hfail | hle
  · exact absurd (hbyte.symm.trans ((hufBranchByte_eq_none_iff policy i _ ll rl).mpr ⟨hfail, hbig⟩)) (by simp)
  · obtain ⟨off, hoff, hlarge⟩ := (exists_offset_iff h A).mpr ⟨i, x, hi, hx, hbig⟩
    exact absurd (hle off hoff) (Nat.not_le.mpr hlarge)

/-- The nodes' bytes stand in the table from position 1 on, and last is not before their end (R79). -/
def CarriesNodes (table : List Byte) (last : Nat) (nodes : List Byte) : Prop :=
  nodes.length ≤ last ∧ ∀ i < nodes.length, table.getD (i + 1) 0 = nodes.getD i 0

section Table
variable {cfg : Config.Params} {A : Nat} {h : HufScratch} {t : CodeTree} (hg : h.Grown A t) (hlen : t.leaves.length ≤ 256)
  (hkept : h.offsetsKept cfg.hufOffset A) {code clen : List (Nat × Nat)} {nodes : List Byte}
  (hnodes : hufNodes cfg A { h with code := code, clen := clen, idx := h.indices A } 0 (h.order A) = some nodes)
  {table : List Byte} {last : Nat} (hcarries : CarriesNodes table last nodes)
include hg hlen hkept hnodes hcarries

/-- A branch byte leads by either bit to the place of that child (R77, R84). -/
theorem HufScratch.Grown.branch_leadsTo {i x : Nat} (hi : (h.order A)[i]? = some x) (hx : isLeafId A x = false)
    (b : Bool) :
    ∃ j, childOf (i + 1) (table.getD (i + 1) 0) b = j + 1 ∧ (h.order A)[j]? = some (if b then h.rc x else h.lc x)
      ∧ leadsTo table last (i + 1) b (isLeafId A (if b then h.rc x else h.lc x)) := by
  obtain ⟨hlength, hget⟩ := hufNodes_bytes hnodes
  obtain ⟨hlast, htable⟩ := hcarries
  obtain ⟨hlt, -⟩ := List.getElem?_eq_some_iff.mp hi
  have hbyte := (hget i x hi).2 hx
  rw [Nat.zero_add, ← htable i (hlength ▸ hlt)] at hbyte
  obtain ⟨hfield, hflag⟩ := hufBranchByte_fields hbyte (hkept.branch_le hi hx hbyte) b
  replace hfield : (table.getD (i + 1) 0).toNat % 64 = h.offsetAt A i x := hfield
  obtain ⟨hleft, hright⟩ := hg.order_offsetAt hlen hi hx
  have hchild : (h.order A)[clearBit0 (i + 1) + 2 * h.offsetAt A i x + 1 + b.toNat]?
      = some (if b then h.rc x else h.lc x) := by
    cases b with
    | false => exact hleft
    | true => exact hright
  have hplace : childOf (i + 1) (table.getD (i + 1) 0) b
      = clearBit0 (i + 1) + 2 * h.offsetAt A i x + 1 + b.toNat + 1 := by
    rw [childOf, hfield, clearBit0]
    omega
  obtain ⟨hin, -⟩ := List.getElem?_eq_some_iff.mp hchild
  refine ⟨_, hplace, hchild, ?_, hflag.trans (apply_ite (isLeafId A) (b = true) _ _).symm⟩
  rw [hplace]
  omega

/-- The nodes' bytes hold each subtree at its topmost node's place (R76 to R78). -/
theorem HufScratch.Grown.inTable {u : CodeTree} (hu : h.Holds A u) {i : Nat} (hi : (h.order A)[i]? = some u.top) :
    u.InTable table last (hufLeafByte cfg.leafBias) (i + 1) := by
  induction u generalizing i with
  | leaf y =>
    obtain ⟨hlength, hget⟩ := hufNodes_bytes hnodes
    obtain ⟨hlt, -⟩ := List.getElem?_eq_some_iff.mp hi
    exact (hcarries.2 i (hlength ▸ hlt)).trans ((hget i y hi).1 hu)
  | branch x l r ihl ihr =>
    obtain ⟨hx, ⟨hlc, -⟩, ⟨hrc, -⟩, hl, hr⟩ := hu
    have hkid := hg.branch_leadsTo hlen hkept hnodes hcarries (x := x) hi hx
    obtain ⟨jl, hplacel, hjl, hleadl⟩ := hkid false
    obtain ⟨jr, hplacer, hjr, hleadr⟩ := hkid true
    rw [hlc] at hjl hleadl
    rw [hrc] at hjr hleadr
    exact ⟨hl.isLeafId_top ▸ hleadl, hplacel ▸ ihl hl hjl, hr.isLeafId_top ▸ hleadr, hplacer ▸ ihr hr hjr⟩

end Table

end Sys2Proof.Machine
end

section
/-! PROOF. The Huffman round trip (spec/41_huffman.md R86), on the functional cores and between the two commands on the
machine. -/

namespace Sys2Proof.Machine

/-! ### The parts of a block -/

/-- What Serialize leaves: the indices, and the table of the nodes' bytes (R76 to R79). -/
theorem hufSerialize_eq_some {cfg : Config.Params} {A : Nat} {h h' : HufScratch} {code clen : List (Nat × Nat)}
    (hser : hufSerialize cfg A { h with code := code, clen := clen } = some h') :
    ∃ nodes, hufNodes cfg A { h with code := code, clen := clen, idx := h.indices A } 0 (h.order A) = some nodes
      ∧ h' = { h with code := code, clen := clen, idx := h.indices A, tbl := hufTable nodes } := by
  simp only [hufSerialize, hufTiers_setCodes] at hser
  split at hser
  case h_1 => cases hser
  case h_2 nodes hnodes => exact ⟨nodes, hnodes, (Option.some.inj hser).symm⟩

/-- The block of an encode that succeeds, with the results of its steps (R68). -/
theorem hufEncode_ok {cfg : Config.Params} {tag : Byte} {w : Nat} {inp block : List Byte}
    (hok : (hufEncode cfg tag w inp).2 = .ok block) :
    ∃ syms code clen nodes, hufScan cfg.hufTail w inp = some syms ∧ syms ≠ []
      ∧ hufCodeGen (hufTree cfg w inp).leaves (hufTree cfg w inp)
          = some { hufTree cfg w inp with code := code, clen := clen }
      ∧ hufNodes cfg (2 ^ w)
          { hufTree cfg w inp with code := code, clen := clen, idx := (hufTree cfg w inp).indices (2 ^ w) } 0
          ((hufTree cfg w inp).order (2 ^ w)) = some nodes
      ∧ block = framedBlock tag inp.length (hufTable nodes
          ++ (hufWords (hufPack { hufTree cfg w inp with
              code := code, clen := clen, idx := (hufTree cfg w inp).indices (2 ^ w), tbl := hufTable nodes }
            syms 0 0)).flatMap wordBytes) := by
  match hscan : hufScan cfg.hufTail w inp with
  | none => simp [hufEncode, hscan] at hok
  | some [] => simp [hufEncode, hscan] at hok
  | some (sym :: syms) =>
    have htree : hufTree cfg w inp = hufBuildTree (2 ^ w) (hufLeafSet cfg.hufZero (2 ^ w) (hufTally (sym :: syms))) := by
      rw [hufTree, hscan]
      rfl
    simp only [hufEncode, hscan, ← htree] at hok
    cases hgen : hufCodeGen (hufTree cfg w inp).leaves (hufTree cfg w inp) with
    | none => simp [hgen] at hok
    | some h =>
      obtain ⟨code, clen, rfl⟩ := hufCodeGen_eq_some hgen
      simp only [hgen] at hok
      cases hser : hufSerialize cfg (2 ^ w) { hufTree cfg w inp with code := code, clen := clen } with
      | none => simp [hser] at hok
      | some h' =>
        obtain ⟨nodes, hnodes, rfl⟩ := hufSerialize_eq_some hser
        simp only [hser, Except.ok.injEq] at hok
        exact ⟨_, code, clen, nodes, rfl, List.cons_ne_nil _ _, rfl, hnodes, by
          rw [framedBlock, ← List.append_assoc]
          exact hok.symm⟩

/-- The code of a symbol with a leaf is the path to that leaf, of 1 to 31 steps (R75). -/
theorem HufScratch.Grown.code_path {A : Nat} {h : HufScratch} {t : CodeTree} (hg : h.Grown A t)
    (hleaf : ∀ y ∈ t.leaves, isLeafId A y = true) (htwo : 2 ≤ t.leaves.length) (hcode : h.code = []) (hclen : h.clen = [])
    {code clen : List (Nat × Nat)} (hgen : hufCodeGen h.leaves h = some { h with code := code, clen := clen }) {s : Nat}
    (hs : s + 1 ∈ t.leaves) :
    ∃ p, t.sub p = some (.leaf (s + 1)) ∧ p ≠ [] ∧ p.length ≤ 31 ∧ cellGet 0 code s = pathNat p
      ∧ cellGet 0 clen s = p.length := by
  obtain ⟨p, hp, -⟩ := CodeTree.exists_path hs
  have hpos : ∀ y ∈ h.leaves, 1 ≤ y := fun y hy => (isLeafId_iff.mp (hleaf y (hg.leaves.mem_iff.mpr hy))).1
  have hwalk := (hufCodeGen_codes hgen hpos (by rw [hcode]; rfl) (by rw [hclen]; rfl) s).1 (hg.leaves.mem_iff.mp hs)
  rw [show s + 1 = (CodeTree.leaf (s + 1)).top from rfl, hg.hufWalkUp_eq hp 32 Nat.one_pos] at hwalk
  split_ifs at hwalk with hlen
  obtain ⟨hc, hl⟩ := Prod.mk.inj (Option.some.inj hwalk)
  refine ⟨p, hp, ?_, Nat.le_of_lt_succ hlen, ?_, ?_⟩
  · rintro rfl
    obtain rfl := Option.some.inj hp
    exact absurd htwo (by simp)
  · simpa using hc.symm
  · simpa using hl.symm

/-! ### The payload -/

/-- A payload word's bytes are its four least significant bytes (R68). -/
theorem wordBytes_eq (x : Nat) : wordBytes x = leBytes 4 x := by
  simp only [wordBytes, leBytes, Nat.div_div_eq_div_mul]

/-- The bits the decoder reads from payload words are the words' bits (R56, R83). -/
theorem payloadBits_words (words : List Nat) (rest : List Byte) :
    payloadBits (words.flatMap wordBytes ++ rest) = words.flatMap (bitsDown 32) ++ payloadBits rest := by
  induction words with
  | nil => rfl
  | cons x words ih =>
    have hword : wordBitsFrom (BitVec.ofNat 32 (leNat (wordBytes x))) 0 = bitsDown 32 x := by
      rw [wordBytes_eq, leNat_leBytes, wordBitsFrom, bitsDown]
      refine List.map_congr_left fun i hi => ?_
      have hlt := List.mem_range.mp hi
      rw [BitVec.getLsbD_ofNat, Nat.zero_add, show 256 ^ 4 = 2 ^ 32 from rfl, Nat.testBit_mod_two_pow]
      simp [show 31 - i < 32 by omega]
    rw [List.flatMap_cons, List.flatMap_cons, List.append_assoc, List.append_assoc, ← ih, ← hword]
    exact congrArg (· ++ _) (wordBitsFrom_leNat ..).symm

/-! ### Symbols and bytes -/

/-- The symbols of a byte: itself, or its low nibble and its high nibble (R69). -/
def byteSymbols (w : Nat) (b : Byte) : List Nat := if w = 8 then [b.toNat] else [b.toNat % 16, b.toNat / 16]

/-- A word's value is the sum of its bytes' parts (R69). -/
theorem word_of_bytes (b0 b1 b2 b3 : Byte) :
    b0.toNat ||| (b1.toNat <<< 8) ||| (b2.toNat <<< 16) ||| (b3.toNat <<< 24)
      = b0.toNat + 256 * b1.toNat + 65536 * b2.toNat + 16777216 * b3.toNat := by
  have h0 := b0.isLt
  have h1 := b1.isLt
  have h2 := b2.isLt
  rw [Nat.or_comm _ (b1.toNat <<< 8), ← Nat.shiftLeft_add_eq_or_of_lt h0, Nat.or_comm _ (b2.toNat <<< 16),
    ← Nat.shiftLeft_add_eq_or_of_lt (i := 16) (by rw [Nat.shiftLeft_eq]; omega), Nat.or_comm _ (b3.toNat <<< 24),
    ← Nat.shiftLeft_add_eq_or_of_lt (i := 24) (by simp only [Nat.shiftLeft_eq]; omega)]
  simp only [Nat.shiftLeft_eq]
  omega

/-- The symbols of whole words are those of their bytes (R69). -/
theorem wordSymbols_eq {w : Nat} (hw : w = 4 ∨ w = 8) (bs : List Byte) (hmod : bs.length % 4 = 0) :
    wordSymbols w bs = bs.flatMap (byteSymbols w) := by
  match bs with
  | [] => rfl
  | [_] => simp at hmod
  | [_, _] => simp at hmod
  | [_, _, _] => simp at hmod
  | b0 :: b1 :: b2 :: b3 :: rest =>
    have hrest := wordSymbols_eq hw rest (by simp only [List.length_cons] at hmod; omega)
    have h0 := b0.isLt
    have h1 := b1.isLt
    have h2 := b2.isLt
    have h3 := b3.isLt
    rw [wordSymbols, hrest, word_of_bytes]
    rcases hw with rfl | rfl
    · simp [wordFields, byteSymbols]
      omega
    · simp [wordFields, byteSymbols]
      omega

/-- Where P_HUF_TAIL cuts nothing off, the symbols begin with those of the input's bytes (R69). -/
theorem hufScan_eq_append {tail : Config.HufTail} {w : Nat} (hw : w = 4 ∨ w = 8) {inp : List Byte} {syms : List Nat}
    (hscan : hufScan tail w inp = some syms) (htail : tail = .truncate → inp.length % 4 = 0) :
    ∃ more, syms = inp.flatMap (byteSymbols w) ++ more := by
  cases tail with
  | pad =>
    obtain rfl := Option.some.inj hscan
    refine ⟨_, (wordSymbols_eq hw _ ?_).trans List.flatMap_append⟩
    rw [List.length_append, List.length_replicate]
    omega
  | truncate =>
    obtain rfl := Option.some.inj hscan
    have hmod := htail rfl
    rw [List.take_of_length_le (by omega)]
    exact ⟨[], (wordSymbols_eq hw _ hmod).trans (List.append_nil _).symm⟩
  | reject =>
    rw [hufScan] at hscan
    split_ifs at hscan with hmod
    obtain rfl := Option.some.inj hscan
    exact ⟨[], (wordSymbols_eq hw _ (not_not.mp hmod)).trans (List.append_nil _).symm⟩

/-- As many symbols come of some bytes as the decoder needs for them (R82). -/
theorem length_byteSymbols {w : Nat} (hw : w = 4 ∨ w = 8) (bs : List Byte) :
    (bs.flatMap (byteSymbols w)).length = bs.length * 8 / w := by
  have hlen : (bs.flatMap (byteSymbols w)).length = bs.length * (8 / w) := by
    rcases hw with rfl | rfl <;> simp [List.length_flatMap, byteSymbols]
  rcases hw with rfl | rfl <;> omega

/-- The decoder puts the symbols of some bytes together to these bytes (R82). -/
theorem bytes_of_byteSymbols {w : Nat} (hw : w = 4 ∨ w = 8) (bs : List Byte) :
    (if w = 8 then (bs.flatMap (byteSymbols w)).map (BitVec.ofNat 8) else joinNibbles (bs.flatMap (byteSymbols w))) = bs := by
  induction bs with
  | nil => rcases hw with rfl | rfl <;> rfl
  | cons b bs ih =>
    rcases hw with rfl | rfl
    · have hbyte : b.toNat % 16 + 16 * (b.toNat / 16) = b.toNat := Nat.mod_add_div ..
      simpa [byteSymbols, joinNibbles, hbyte] using ih
    · simpa [byteSymbols] using ih

/-- A leaf byte gives its symbol back (R78, R85). -/
theorem symbol_of_hufLeafByte (bias : Config.LeafBias) {w s : Nat} (hw : w ≤ 8) (hs : s < 2 ^ w) :
    (hufLeafByte bias (s + 1) - bias.toByte).toNat % 2 ^ w = s := by
  have hpow : 2 ^ w ≤ 256 := Nat.pow_le_pow_right (n := 2) (by decide) hw
  have hbias := bias.toByte.isLt
  have hbyte : (hufLeafByte bias (s + 1) - bias.toByte).toNat = s := by
    rw [hufLeafByte, BitVec.toNat_sub, BitVec.toNat_ofNat]
    omega
  rw [hbyte, Nat.mod_eq_of_lt hs]

/-! ### The round trip -/

/-- The table's bytes: the size byte counts the positions, and the payload begins after them (R79). -/
theorem hufTable_eq {nodes : List Byte} {K : Nat} (hK : nodes.length + 1 = 2 * K) (hle : K ≤ 256) :
    ∃ size pad, hufTable nodes = size :: (nodes ++ pad) ∧ (hufTable nodes).length = 2 + 2 * size.toNat := by
  refine ⟨_, _, rfl, ?_⟩
  rw [hufTable, List.length_cons, List.length_append, List.length_replicate, BitVec.toNat_ofNat]
  omega

/-- The decoder of a block made of nodes and words walks a table that carries the nodes, with the words' bits ahead, and puts
the leaf bytes it finds together (R82). -/
theorem hufDecode_framedBlock (bias tag : Byte) (w : Nat) {cap n K : Nat} (hpos : 1 ≤ n) (hmax : n ≤ 2 ^ 24 - 1)
    (hcap : n ≤ cap) {nodes : List Byte} (hK : nodes.length + 1 = 2 * K) (hle : K ≤ 256) (words : List Nat) :
    ∃ table last rest, CarriesNodes table last nodes
      ∧ ∀ vs, hufLeaves table last (n * 8 / w) (words.flatMap (bitsDown 32) ++ rest) = (vs, true) →
        hufDecode bias tag w cap (framedBlock tag n (hufTable nodes ++ words.flatMap wordBytes))
          = .ok (if w = 8 then (vs.map (fun v => (v - bias).toNat % 2 ^ w)).map (BitVec.ofNat 8)
                 else joinNibbles (vs.map (fun v => (v - bias).toNat % 2 ^ w))) := by
  obtain ⟨size, pad, htable, hsize⟩ := hufTable_eq hK hle
  have hblock : 4 + (2 + 2 * size.toNat) ≤ (framedBlock tag n (hufTable nodes ++ words.flatMap wordBytes)).length := by
    rw [← hsize, framedBlock]
    simp only [List.length_append, headerBytes, List.length_cons, List.length_nil]
    omega
  have hhead := headOf_framedBlock (tag := tag) (minLen := 5) (by omega) hpos hmax hcap
    (payload := hufTable nodes ++ words.flatMap wordBytes)
  generalize padBytes _ = fill at hhead
  have hlast : nodes.length ≤ 2 * size.toNat + 1 := by
    rw [htable, List.length_cons, List.length_append] at hsize
    omega
  refine ⟨hufTable nodes ++ words.flatMap wordBytes ++ fill, 2 * size.toNat + 1, payloadBits fill, ⟨hlast, fun i hi => ?_⟩,
    fun vs hvs => ?_⟩
  · rw [htable, List.append_assoc, List.cons_append, List.getD_cons_succ, List.append_assoc, List.getD_append _ _ _ _ hi]
  · have hsz : (hufTable nodes ++ words.flatMap wordBytes ++ fill).headD 0 = size := by rw [htable]; rfl
    have hdrop : (hufTable nodes ++ words.flatMap wordBytes ++ fill).drop (2 + 2 * size.toNat)
        = words.flatMap wordBytes ++ fill := by
      rw [List.append_assoc, ← hsize, List.drop_left]
    rw [hufDecode, hhead]
    dsimp only
    rw [hsz, hdrop, payloadBits_words, hvs, if_neg (by omega), if_pos rfl]

/-- The block of an encode that succeeds with its offsets kept: words that hold the symbols' codes, which the walk follows to
the symbols' leaves in any table that carries the nodes (R75 to R80). -/
theorem hufEncode_codes {cfg : Config.Params} {tag : Byte} {w : Nat} {inp block : List Byte} (hw : w = 4 ∨ w = 8)
    (hkept : (hufTree cfg w inp).offsetsKept cfg.hufOffset (2 ^ w)) (hok : (hufEncode cfg tag w inp).2 = .ok block) :
    ∃ (syms : List Nat) (nodes : List Byte) (words : List Nat) (K : Nat) (code : Nat → List Bool) (zeros : List Bool),
      hufScan cfg.hufTail w inp = some syms ∧ syms ≠ []
      ∧ block = framedBlock tag inp.length (hufTable nodes ++ words.flatMap wordBytes)
      ∧ nodes.length + 1 = 2 * K ∧ K ≤ 256
      ∧ words.flatMap (bitsDown 32) = syms.flatMap code ++ zeros
      ∧ ∀ table last, CarriesNodes table last nodes → ∀ s ∈ syms, ∀ rest,
          hufSymbol table last 1 (code s ++ rest) = some (hufLeafByte cfg.leafBias (s + 1), rest) := by
  obtain ⟨syms, code, clen, nodes, hscan, hne, hgen, hnodes, hblock⟩ := hufEncode_ok hok
  have hpow : 2 ^ w ≤ 256 := Nat.pow_le_pow_right (n := 2) (by decide) (by omega : w ≤ 8)
  obtain ⟨t, hg, htwo, hle, hleaf, hmem, hcode, hclen⟩ := hufTree_grown (w := w) (by omega) hscan hne
    fun s hs => hufScan_lt hscan hs
  replace hle := hle.trans hpow
  have hpath := fun s hs => hg.code_path hleaf htwo hcode hclen hgen (hmem s hs)
  obtain ⟨zeros, -, hbits⟩ := packLaysCodesEndToEnd
    { hufTree cfg w inp with
      code := code, clen := clen, idx := (hufTree cfg w inp).indices (2 ^ w), tbl := hufTable nodes }
    syms fun s hs => by
      obtain ⟨p, -, -, hlen, hc, hl⟩ := hpath s hs
      exact ⟨hl.trans_le hlen, by simpa only [hc, hl] using pathNat_lt p⟩
  refine ⟨syms, nodes, _, t.leaves.length, _, _, hscan, hne, hblock, ?_, hle, hbits, ?_⟩
  · rw [(hufNodes_bytes hnodes).1, hg.order_length hle]
  · intro table last hcarries s hs rest
    obtain ⟨p, hp, hpne, -, hc, hl⟩ := hpath s hs
    have htree := hg.inTable hle hkept hnodes hcarries hg.holds (hg.root ▸ HufScratch.order_zero ..)
    have hsym := htree.walk hp hpne (rest := rest)
    simpa only [hc, hl, bitsDown_pathNat] using hsym

/-- No input, no symbols (R69). -/
theorem hufScan_nil (tail : Config.HufTail) (w : Nat) : hufScan tail w [] = some [] := by
  cases tail <;> rfl

/-- The decode of a block whose offsets are kept gives the input back (R86). -/
theorem hufDecode_hufEncode {cfg : Config.Params} {tag : Byte} {w cap : Nat} {inp block : List Byte} (hw : w = 4 ∨ w = 8)
    (hmax : inp.length ≤ 2 ^ 24 - 1) (hcap : inp.length ≤ cap) (htail : cfg.hufTail = .truncate → inp.length % 4 = 0)
    (hkept : (hufTree cfg w inp).offsetsKept cfg.hufOffset (2 ^ w)) (hok : (hufEncode cfg tag w inp).2 = .ok block) :
    hufDecode cfg.leafBias.toByte tag w cap block = .ok inp := by
  obtain ⟨syms, nodes, words, K, code, zeros, hscan, hne, rfl, hK, hle, hbits, hsym⟩ := hufEncode_codes hw hkept hok
  have hpos : 1 ≤ inp.length := by
    by_contra hzero
    obtain rfl := List.length_eq_zero_iff.mp (by omega : inp.length = 0)
    exact hne (Option.some.inj (hscan.symm.trans (hufScan_nil ..)))
  obtain ⟨table, last, rest, hcarries, hdecode⟩ :=
    hufDecode_framedBlock cfg.leafBias.toByte tag w hpos hmax hcap hK hle words
  obtain ⟨more, rfl⟩ := hufScan_eq_append hw hscan htail
  have hleaves := hufLeaves_codes (fun s hs => hsym table last hcarries s (List.mem_append_left more hs))
    (more.flatMap code ++ (zeros ++ rest))
  rw [length_byteSymbols hw, ← List.append_assoc, ← List.flatMap_append, ← List.append_assoc, ← hbits] at hleaves
  have hback : ((inp.flatMap (byteSymbols w)).map fun s => hufLeafByte cfg.leafBias (s + 1)).map
      (fun v => (v - cfg.leafBias.toByte).toNat % 2 ^ w) = inp.flatMap (byteSymbols w) :=
    List.map_map.trans <| (List.map_congr_left fun s hs => symbol_of_hufLeafByte _ (by omega)
      (hufScan_lt hscan (List.mem_append_left more hs))).trans (List.map_id _)
  rw [hdecode _ hleaves, hback, bytes_of_byteSymbols hw]

/-- Four bits never mask an offset (R77). -/
theorem offsetsKept_four {cfg : Config.Params} {tag : Byte} {inp block : List Byte}
    (hok : (hufEncode cfg tag 4 inp).2 = .ok block) : (hufTree cfg 4 inp).offsetsKept cfg.hufOffset (2 ^ 4) := by
  obtain ⟨syms, -, -, -, hscan, hne, -⟩ := hufEncode_ok hok
  obtain ⟨t, hg, -, hlen, -⟩ := hufTree_grown (by decide) hscan hne fun s hs => hufScan_lt hscan hs
  refine .inr fun off hoff => ?_
  have hlt := hg.lt_order_length_of_mem_offsets (by omega) hoff
  have horder := hg.order_length (by omega)
  omega

/-- Settles O54: the words hold the codes of the input's symbols, and the walk follows each code to its leaf. -/
theorem huffmanRoundTrip : Obligations.HuffmanRoundTrip := by
  intro cfg inp block cap hmax hcap htail
  exact ⟨fun hok => hufDecode_hufEncode (.inl rfl) hmax hcap htail (offsetsKept_four hok) hok,
    fun hok hfits => hufDecode_hufEncode (.inr rfl) hmax hcap htail hfits hok⟩

/-- Settles O59: the decoder's input is the encoder's block, and the engine computes the core, which returns the input. -/
theorem huffmanRoundTripOnTheMachine : Obligations.HuffmanRoundTripOnTheMachine := by
  intro s t u i tag hform hencoded hstarted hinput hcap hcfg htail
  obtain ⟨-, hmax⟩ := encodedOk_inBytes_length hencoded
  rw [← State.inBytes_length] at hcap htail
  obtain ⟨htrip4, htrip8⟩ := huffmanRoundTrip s.cfg s.inBytes (blockAt s t) u.lat.dstCap.toNat hmax hcap htail
  obtain ⟨hdec4, hdec8⟩ := hufDecodeComputesItsCore u
  rw [hinput, hcfg] at hdec4 hdec8
  rcases hform with ⟨rfl, rfl⟩ | ⟨rfl, rfl, hfits⟩
  · exact htrip4 (encodedOk_block hencoded rfl) ▸ hdec4 hstarted
  · exact htrip8 (encodedOk_block hencoded rfl) hfits ▸ hdec8 hstarted

end Sys2Proof.Machine
end

section
/-! PROOF. The steps of LZ_DEC at an item of a group (spec/42_lz77.md R99, R100). -/

namespace Sys2Proof.Machine

/-! ### A literal -/

/-- Settles O27: the byte at the cursor is the unit, and with room the literal is emitted. -/
theorem lzLitStepCopiesTheByte : Obligations.LzLitStepCopiesTheByte := by
  intro s s' hnext hph hbit hroom
  have hg : s'.work.grammar s'.phase = some .lzLit := by simp [hph, Work.grammar, hbit]
  rw [step_of_engineNext hnext, engineTurn_byteUnit (f := .lzLit) hg rfl fun _ => rfl, hph, Work.offset]
  split_ifs
  · rfl
  · exact lzLitEmitsItsByte s' _ hroom

/-! ### A reference -/

/-- At a reference item the unit is the token at the cursor, and a token that is cut off is MALFORMED (R52, R100). -/
theorem engineTurn_lzRef {s : State} (hph : s.phase = .lzItem) (hbit : s.work.flagBit = true) :
    engineTurn s =
      if s.work.p + 1 ≥ s.lat.srcLen.toNat then .next (completeFail .malformed s)
      else
        exec (.lzRef ((s.src s.work.p).toNat / 16 + 3)
          ((s.src s.work.p).toNat % 16 * 256 + (s.src (s.work.p + 1)).toNat + 1)) s := by
  have hg : s.work.grammar s.phase = some .lzRef := by simp [hph, Work.grammar, hbit]
  have hbytes : s.fetchBytes .lzRef = (s.env.tail s.work.p).take 2 := by
    rw [State.fetchBytes, if_neg (by decide), Env.window_eq_take_tail, hph]
    rfl
  by_cases hend : s.work.p + 1 ≥ s.lat.srcLen.toNat
  · have hshort : decode .lzRef (s.fetchBytes .lzRef) = .rejected .truncated := by
      refine decode_short ?_
      simp only [hbytes, List.length_take, Env.tail_length, State.env_len, Grammar.width]
      omega
    have hcode : s.rejectCode = .malformed := by rw [State.rejectCode, hph]
    rw [if_pos hend, engineTurn_rejected_stream hg (by decide) hshort, hcode]
  · have hlen : s.work.p + 1 < s.env.len := Nat.not_le.mp hend
    have hunit : decode .lzRef (s.fetchBytes .lzRef) = .instr (.lzRef ((s.src s.work.p).toNat / 16 + 3)
        ((s.src s.work.p).toNat % 16 * 256 + (s.src (s.work.p + 1)).toNat + 1)) [] := by
      rw [hbytes, Env.tail_eq_cons (by omega), Env.tail_eq_cons hlen, ← decodeToken_bytes]
      rfl
    rw [if_neg hend, engineTurn_unit hg hunit]

/-- What stands in the output before a copy stands there after it. -/
theorem copyBack_getElem?_of_lt (dist k : Nat) {out : List Byte} {j : Nat} (hj : j < out.length) :
    (copyBack dist k out)[j]? = out[j]? := by
  obtain ⟨copied, hcopied⟩ := copyBack_prefix dist k out
  rw [← hcopied, List.getElem?_append_left hj]

/-- Every byte a copy appends is the byte dist places before it in the output as it then is (R100). -/
theorem copyBack_getElem?_sub {dist k : Nat} {out : List Byte} (hpos : 1 ≤ dist) (hdist : dist ≤ out.length) {j : Nat}
    (hle : out.length ≤ j) (hlt : j < out.length + k) : (copyBack dist k out)[j]? = (copyBack dist k out)[j - dist]? := by
  induction k generalizing out with
  | zero => omega
  | succ k ih =>
    rw [copyBack]
    rcases Nat.eq_or_lt_of_le hle with rfl | hmore
    · have hback : out.length - dist < out.length := by omega
      rw [copyBack_getElem?_of_lt _ _ (by simp), copyBack_getElem?_of_lt _ _ (by simp), List.getElem?_concat_length,
        List.getElem?_append_left hback, List.getElem?_eq_getElem hback, List.getD_eq_getElem _ _ hback]
    · exact ih (by simp; omega) (by simpa using hmore) (by simp; omega)

/-- Settles O29: the two bytes at the cursor are the token, and the copy's bytes repeat those dist places before them. -/
theorem lzRefCopiesHistory : Obligations.LzRefCopiesHistory := by
  constructor
  · intro s s' hnext hph hbit
    exact (step_of_engineNext hnext).trans (engineTurn_lzRef hph hbit)
  · intro s len dist hpos hout hcap moved
    refine ⟨fun hfar => ?_, fun hnear => ?_⟩
    · rw [exec, execLzRef, Work.lzRef_far hfar, State.take_raise]
    · refine ⟨copyBack dist (min len (s.work.size - s.work.out.length)) s.work.out, ?_, copyBack_length .., ?_,
        fun j hle hlt => ?_⟩
      · rw [exec, execLzRef, Work.lzRef_eq hnear hout hcap, State.take_afterItem]
      · exact (List.prefix_iff_eq_take.mp (copyBack_prefix ..)).symm
      · exact copyBack_getElem?_sub hpos hnear hle (by rwa [copyBack_length] at hlt)

end Sys2Proof.Machine
end

section
/-! PROOF. The groups LZ_ENC writes: how long they are (spec/42_lz77.md R96 (d)) and what LZ_DEC makes of them (R101). -/

namespace Sys2Proof.Machine

/-! ### The groups of a payload -/

/-- Groups as LZ_ENC writes them: each of 1 to 8 items, and every one but the last of 8 (R95). -/
def GroupSizes (groups : List (List LzItem)) : Prop :=
  ∀ i g, groups[i]? = some g → 1 ≤ g.length ∧ g.length ≤ 8 ∧ (i + 1 < groups.length → g.length = 8)

theorem GroupSizes.head {g : List LzItem} {gs : List (List LzItem)} (h : GroupSizes (g :: gs)) :
    1 ≤ g.length ∧ g.length ≤ 8 ∧ (gs = [] ∨ g.length = 8) := by
  obtain ⟨hmin, hmax, hfull⟩ := h 0 g rfl
  refine ⟨hmin, hmax, ?_⟩
  rcases gs with _ | ⟨g', gs⟩
  · exact .inl rfl
  · exact .inr (hfull (by simp))

theorem GroupSizes.tail {g : List LzItem} {gs : List (List LzItem)} (h : GroupSizes (g :: gs)) : GroupSizes gs := by
  intro i x hx
  obtain ⟨hmin, hmax, hfull⟩ := h (i + 1) x hx
  exact ⟨hmin, hmax, fun hmore => hfull (Nat.succ_lt_succ hmore)⟩

/-- The payload of LZ_ENC as groups of items that stand for the input (R94 to R96). -/
theorem lzPayload_groups (fill : Byte) {inp : List Byte} (hinp : 1 ≤ inp.length) :
    ∃ groups : List (List LzItem), (lzPayload fill inp).2 = groups.flatMap lzGroupBytes ∧ GroupSizes groups
      ∧ (∀ item ∈ groups.flatten, item.InRange) ∧ lzExpand groups.flatten [] = some inp := by
  obtain ⟨groups, hbytes, hsizes, hrange, hexpand, -, -⟩ := lzBlockItems fill inp hinp
  refine ⟨groups, hbytes, hsizes, fun item hitem => ?_, hexpand⟩
  cases item with
  | lit b => trivial
  | ref len dist => exact hrange len dist hitem

/-! ### Their length -/

theorem LzItem.InRange.span_pos {item : LzItem} (h : item.InRange) : 1 ≤ item.span := by
  cases item with
  | lit b => exact le_rfl
  | ref len dist => exact h.1.trans' (by decide)

/-- An item takes no more bytes than it stands for: a reference has two and stands for three or more (R96 (d)). -/
theorem LzItem.InRange.bytes_length_le {item : LzItem} (h : item.InRange) : item.bytes.length ≤ item.span := by
  cases item with
  | lit b => exact le_rfl
  | ref len dist => exact (Nat.le_succ 2).trans h.1

theorem LzItem.bytes_length_pos (item : LzItem) : 1 ≤ item.bytes.length := by
  cases item <;> simp [LzItem.bytes, encode]

/-- Items lengthen the output by what they stand for (R96 (c)). -/
theorem length_of_lzExpand {items : List LzItem} {out out' : List Byte} (h : lzExpand items out = some out') :
    out'.length = out.length + (items.map LzItem.span).sum := by
  induction items generalizing out with
  | nil => simp [Option.some.inj h]
  | cons item items ih =>
    cases item with
    | lit b =>
      rw [ih h, List.length_append, List.map_cons, List.sum_cons, ← Nat.add_assoc]
      rfl
    | ref len dist =>
      rw [lzExpand] at h
      split at h
      · cases h
      · rw [ih h, copyBack_length, List.map_cons, List.sum_cons, ← Nat.add_assoc]
        rfl

section Sums
variable {items : List LzItem} (h : ∀ item ∈ items, item.InRange)
include h

theorem length_le_sum_span : items.length ≤ (items.map LzItem.span).sum := by
  rw [← List.length_map LzItem.span]
  refine List.length_le_sum_of_one_le _ fun n hn => ?_
  obtain ⟨item, hitem, rfl⟩ := List.mem_map.mp hn
  exact (h item hitem).span_pos

theorem bytes_length_le_sum_span : (items.flatMap LzItem.bytes).length ≤ (items.map LzItem.span).sum := by
  rw [List.length_flatMap]
  exact List.sum_le_sum fun item hitem => (h item hitem).bytes_length_le

end Sums

theorem length_le_flatMap_bytes_length (items : List LzItem) : items.length ≤ (items.flatMap LzItem.bytes).length := by
  induction items with
  | nil => rfl
  | cons item items ih =>
    have hpos := item.bytes_length_pos
    rw [List.flatMap_cons, List.length_append, List.length_cons]
    omega

/-- Each group has a flag byte besides its items (R51). -/
theorem length_flatMap_lzGroupBytes (groups : List (List LzItem)) :
    (groups.flatMap lzGroupBytes).length = groups.length + (groups.flatten.flatMap LzItem.bytes).length := by
  induction groups with
  | nil => rfl
  | cons g gs ih =>
    simp only [List.flatMap_cons, List.flatten_cons, List.flatMap_append, List.length_append, List.length_cons, ih,
      lzGroupBytes]
    omega

/-- There is a group for every 8 items, and one more for a rest (R95). -/
theorem GroupSizes.length_le {groups : List (List LzItem)} (h : GroupSizes groups) :
    8 * groups.length ≤ groups.flatten.length + 7 := by
  induction groups with
  | nil => exact Nat.zero_le _
  | cons g gs ih =>
    have hgs := ih h.tail
    obtain ⟨hmin, -, rfl | hfull⟩ := h.head
    · simpa using hmin
    · rw [List.flatten_cons, List.length_append, List.length_cons]
      omega

theorem lzBlock_framed (fill : Byte) (inp : List Byte) :
    lzBlock fill inp = framedBlock Config.tagLz inp.length (lzPayload fill inp).2 := rfl

/-- Settles O51: no item takes more bytes than it stands for, and 8 items share a flag byte. -/
theorem lzBlockBound : Obligations.LzBlockBound := by
  intro fill inp hinp
  obtain ⟨groups, hbytes, hsizes, hrange, hexpand⟩ := lzPayload_groups fill hinp
  have hspan : inp.length = (groups.flatten.map LzItem.span).sum := by
    rw [length_of_lzExpand hexpand, List.length_nil, Nat.zero_add]
  have hitems := length_le_sum_span hrange
  have hdata := bytes_length_le_sum_span hrange
  have hgroups := hsizes.length_le
  have hpayload : (lzPayload fill inp).2.length ≤ inp.length + (inp.length + 7) / 8 := by
    rw [hbytes, length_flatMap_lzGroupBytes]
    omega
  obtain ⟨-, hblock⟩ := framedBlock_length_bounds Config.tagLz inp.length (lzPayload fill inp).2
  rw [lzBlock_framed]
  exact ⟨hpayload, by omega⟩

/-! ### Decoding an item -/

/-- A token's two bytes read back as its length and distance (R52, R100). -/
theorem token_fields {len dist : Nat} (h : 3 ≤ len ∧ len ≤ 18 ∧ 1 ≤ dist ∧ dist ≤ 4096) :
    ∃ t0 t1 : Byte, (LzItem.ref len dist).bytes = [t0, t1] ∧ t0.toNat / 16 + 3 = len
      ∧ t0.toNat % 16 * 256 + t1.toNat + 1 = dist := by
  obtain ⟨t0, t1, hbytes⟩ : ∃ t0 t1, encode (.lzRef len dist) = [t0, t1] := ⟨_, _, rfl⟩
  have hdecode := decode_encode_lzRef [] h
  rw [hbytes] at hdecode
  change Decoded.instr (decodeToken (t0.toNat * 256 + t1.toNat)) [] = _ at hdecode
  rw [decodeToken_bytes] at hdecode
  simp only [Decoded.instr.injEq, Instr.lzRef.injEq, and_true] at hdecode
  exact ⟨t0, t1, hbytes, hdecode⟩

/-- An item whose data fits the declared size is decoded to its data (R99, R100). -/
theorem lzItems_item {item : LzItem} (hrange : item.InRange) {out out' : List Byte}
    (hexpand : lzExpand [item] out = some out') {size : Nat} (hroom : out'.length ≤ size) (n : Nat) (flags : List Bool)
    (stream : List Byte) :
    lzItems size (n + 1) (item.isRef :: flags) (item.bytes ++ stream) out = lzItems size n flags stream out' := by
  have hlen := length_of_lzExpand hexpand
  have hpos := hrange.span_pos
  simp only [List.map_cons, List.map_nil, List.sum_cons, List.sum_nil, Nat.add_zero] at hlen
  have hmore : out.length < size := by omega
  cases item with
  | lit b =>
    obtain rfl := Option.some.inj hexpand
    exact lzItems_lit hmore
  | ref len dist =>
    obtain ⟨hmin, hmax, hnear, hfar⟩ := hrange
    obtain ⟨t0, t1, hbytes, hlen', hdist'⟩ := token_fields (dist := dist) ⟨hmin, hmax, by omega, by omega⟩
    have hcount : min len (size - out.length) = len := min_eq_left (by simp only [LzItem.span] at hlen; omega)
    rw [hbytes, LzItem.isRef, List.cons_append, List.singleton_append, lzItems_ref hmore, hlen', hdist', hcount]
    rw [lzExpand] at hexpand
    split_ifs at hexpand ⊢
    obtain rfl := Option.some.inj hexpand
    rfl

/-- Items whose data fits the declared size are decoded to their data (R98). -/
theorem lzItems_items {items : List LzItem} (hrange : ∀ item ∈ items, item.InRange) {out out' : List Byte}
    (hexpand : lzExpand items out = some out') {size : Nat} (hroom : out'.length ≤ size) (n : Nat) (flags : List Bool)
    (stream : List Byte) :
    lzItems size (n + items.length) (items.map LzItem.isRef ++ flags) (items.flatMap LzItem.bytes ++ stream) out
      = lzItems size n flags stream out' := by
  induction items generalizing out with
  | nil =>
    obtain rfl := Option.some.inj hexpand
    rfl
  | cons item items ih =>
    obtain ⟨hitem, hitems⟩ := List.forall_mem_cons.mp hrange
    rw [← List.singleton_append, lzExpand_append] at hexpand
    obtain ⟨mid, hfirst, hrest⟩ := Option.bind_eq_some_iff.mp hexpand
    have hmid := length_of_lzExpand hrest
    rw [List.flatMap_cons, List.append_assoc, List.map_cons, List.cons_append, List.length_cons, ← Nat.add_assoc,
      lzItems_item hitem hfirst (by omega), ih hitems hrest]

/-! ### Decoding a group -/

/-- Bit 7 - i of the first n items' flag bits is item i's (R51). -/
theorem getLsbD_lzFlagBits (items : List LzItem) {n i : Nat} (hn : n ≤ 8) (hi : i < 8) :
    (lzFlagBits items n).getLsbD (7 - i) = (decide (i < n) && (items[i]?.map LzItem.isRef).getD false) := by
  induction n with
  | zero => simp [lzFlagBits]
  | succ n ih =>
    have hbit : ∀ m < 8, ∀ k < 8, (BitVec.ofNat 8 (0x80 >>> m)).getLsbD (7 - k) = decide (k = m) := by decide
    have hsucc : decide (i < n + 1) = (decide (i < n) || decide (i = n)) := by
      rw [← Bool.decide_or, decide_eq_decide]
      omega
    rw [lzFlagBits_succ, hsucc]
    split
    case isTrue href =>
      rw [BitVec.getLsbD_or, ih (by omega), hbit n hn i hi]
      by_cases heq : i = n <;> simp [heq, href]
    case isFalse hlit =>
      rw [ih (by omega)]
      by_cases heq : i = n <;> simp [heq, hlit]

/-- A flag byte's bits from bit 7 down are the items' and then zeros (R51, R98). -/
theorem bitsMsb_lzFlagByte {items : List LzItem} (h : items.length ≤ 8) :
    bitsMsb (lzFlagByte items) = items.map LzItem.isRef ++ List.replicate (8 - items.length) false := by
  change bitsMsb (lzFlagBits items 8) = _
  refine List.ext_getElem (by simp [bitsMsb, h]) fun i hi _ => ?_
  have hi8 : i < 8 := by simpa [bitsMsb] using hi
  have hbit : (bitsMsb (lzFlagBits items 8))[i] = (items[i]?.map LzItem.isRef).getD false := by
    simp [bitsMsb, getLsbD_lzFlagBits items le_rfl hi8, hi8]
  refine hbit.trans ?_
  rw [List.getElem_append]
  by_cases hin : i < items.length
  · simp [hin]
  · simp [hin]

/-- Groups that make up the declared size are decoded to the data of their items, whatever follows them (R97, R98). -/
theorem lzItems_groups {groups : List (List LzItem)} (hsizes : GroupSizes groups)
    (hrange : ∀ item ∈ groups.flatten, item.InRange) {out out' : List Byte} (hexpand : lzExpand groups.flatten out = some out')
    {n : Nat} (hn : groups.length + groups.flatten.length < n) (pad : List Byte) :
    lzItems out'.length n [] (groups.flatMap lzGroupBytes ++ pad) out = .ok out' := by
  induction groups generalizing out n with
  | nil =>
    obtain rfl := Option.some.inj hexpand
    obtain ⟨n, rfl⟩ := Nat.exists_eq_add_of_lt hn
    exact lzItems_done le_rfl
  | cons g gs ih =>
    obtain ⟨hmin, hmax, hlast⟩ := hsizes.head
    rw [List.flatten_cons, List.length_append, List.length_cons] at hn
    rw [List.flatten_cons, lzExpand_append] at hexpand
    obtain ⟨hg, hgs⟩ := List.forall_mem_append.mp (List.flatten_cons ▸ hrange)
    obtain ⟨mid, hfirst, hrest⟩ := Option.bind_eq_some_iff.mp hexpand
    have hmid := length_of_lzExpand hfirst
    have hout := length_of_lzExpand hrest
    have hspan := length_le_sum_span hg
    obtain ⟨m, rfl⟩ : ∃ m, n = m + 1 + g.length + 1 := ⟨n - g.length - 2, by omega⟩
    rw [List.flatMap_cons, lzGroupBytes, List.cons_append, List.cons_append, lzItems_flags (by omega),
      bitsMsb_lzFlagByte hmax, List.append_assoc, lzItems_items hg hfirst (by omega)]
    rcases hlast with rfl | hfull
    · obtain rfl := Option.some.inj hrest
      exact lzItems_done le_rfl
    · rw [hfull, Nat.sub_self, List.replicate_zero]
      exact ih hsizes.tail hgs hrest (by omega)

/-! ### The round trip -/

/-- Settles O53: the payload is groups of items that stand for the input, and the decoder gives the data of their items. -/
theorem lzRoundTrip : Obligations.LzRoundTrip := by
  intro fill inp cap hpos hmax hcap
  obtain ⟨groups, hbytes, hsizes, hrange, hexpand⟩ := lzPayload_groups fill hpos
  obtain ⟨hlen, -⟩ := framedBlock_length_bounds Config.tagLz inp.length (lzPayload fill inp).2
  rw [lzDecode, lzBlock_framed, headOf_framedBlock (by omega) hpos hmax hcap]
  have hitems := length_le_flatMap_bytes_length groups.flatten
  rw [hbytes] at hlen ⊢
  rw [length_flatMap_lzGroupBytes] at hlen
  exact lzItems_groups hsizes hrange hexpand (by omega) _

/-- Settles O58: the decoder's input is the encoder's block, and the engine computes the core, which returns the input. -/
theorem lzRoundTripOnTheMachine : Obligations.LzRoundTripOnTheMachine := by
  intro s t u hencoded hstarted hinput hcap
  obtain ⟨hpos, hmax⟩ := encodedOk_inBytes_length hencoded
  have hblock : lzBlock s.cfg.lzFill s.inBytes = blockAt s t := Except.ok.inj (encodedOk_block hencoded rfl)
  have hdecodes := lzDecodeComputesItsCore u hstarted
  rwa [hinput, ← hblock, lzRoundTrip _ s.inBytes _ hpos hmax (by rwa [State.inBytes_length])] at hdecodes

end Sys2Proof.Machine
end

section
/-! SUPPORT. The commands that end before their body runs: an illegal TAG (spec/60_exceptions.md R109) and a line of
EntryCheck that raises (R103). -/

namespace Sys2Proof.Machine

/-- A command that raises with fresh scratch has emitted nothing, so its completion leaves memory and the host's registers
alone (R23, R111). -/
theorem completes_of_raise_fresh {s : State} (hspec : s.disturbed = false) {c : Code}
    {o : Host.Outcome State Fault Refusal} (ho : o = .next (completeFail c { s with work := Work.zero })) :
    ∃ t, o = .next t ∧ t.code = c ∧ t.outLen = 0 ∧ t.busy = false ∧ t.done = true ∧ t.phase = .idle
      ∧ t.mem = s.mem ∧ t.hostRegs = s.hostRegs := by
  rw [completeFail_nothing_emitted (by exact hspec) rfl] at ho
  exact ⟨_, ho, rfl, rfl, rfl, rfl, rfl, rfl, rfl⟩

/-! ### The TAG check -/

/-- A latched op that decodes has one of the four tags (R46, R47). -/
theorem tag_mem_of_decode_command {dir : Bool} {tag : Byte} {i : Instr} {rest : List Byte}
    (h : decode .command (leBytes 4 (cmdValue dir tag)) = .instr i rest) :
    tag ∈ [Config.tagLz, Config.tagHuf4, Config.tagHuf8, Config.tagRle] := by
  have hmem : (field (leNat (leBytes 4 (cmdValue dir tag))) 8 0, i) ∈ commandTable := mem_commandTable_of_decodeCommand h
  have hkeys : ∀ row ∈ commandTable,
      BitVec.ofNat 8 row.1 ∈ [Config.tagLz, Config.tagHuf4, Config.tagHuf8, Config.tagRle] := by decide
  have hlow : BitVec.ofNat 8 (field (leNat (leBytes 4 (cmdValue dir tag))) 8 0) = tag := by
    have htag := tag.isLt
    rw [leNat_leBytes, BitVec.toNat_eq, BitVec.toNat_ofNat]
    cases dir <;> simp only [field, cmdValue, Bool.false_eq_true, if_false, if_true] <;> omega
  exact hlow ▸ hkeys _ hmem

/-- A turn on a started command with another TAG ends it (R47, R109). -/
theorem engineTurn_illegal {s : State} (hph : s.phase = .command)
    (htag : s.lat.tag ∉ [Config.tagLz, Config.tagHuf4, Config.tagHuf8, Config.tagRle]) :
    engineTurn s = .next (completeFail .illegalCommand { s with work := Work.zero }) := by
  have hg : s.work.grammar s.phase = some .command := by rw [hph]; rfl
  have hcode : s.rejectCode = .illegalCommand := by rw [State.rejectCode, hph]
  cases hd : decode .command (s.fetchBytes .command) with
  | instr i rest => exact absurd (tag_mem_of_decode_command hd) htag
  | rejected e => rw [engineTurn_rejected hg hd, hcode, failFetch, if_pos hph]

/-- Taking the engine's event from the input changes nothing else. -/
theorem mem_hostRegs_of_engineNext {s s' : State} (h : s.engineNext = some s') :
    s'.mem = s.mem ∧ s'.hostRegs = s.hostRegs := by
  unfold State.engineNext at h
  split at h <;> cases h <;> exact ⟨rfl, rfl⟩

/-- Settles O16: no instruction decodes, and the command ends with nothing emitted. -/
theorem illegalCommandCompletes : Obligations.IllegalCommandCompletes := by
  intro s s' hnext hph hspec htag
  obtain ⟨hmem, hregs⟩ := mem_hostRegs_of_engineNext hnext
  rw [step_of_engineNext hnext, ← hmem, ← hregs]
  exact completes_of_raise_fresh hspec (engineTurn_illegal hph htag)

/-! ### EntryCheck -/

/-- All eight commands run EntryCheck before their own body (R103). -/
theorem exec_command_eq_runCommand {i : Instr} (hi : i.grammar = .command) (s : State) :
    ∃ body, exec i s = .next (runCommand s body) := by
  cases i with
  | rleEnc | rleDec | lzEnc | lzDec | huf4Enc | huf4Dec | huf8Enc | huf8Dec => exact ⟨_, rfl⟩
  | _ => cases hi

/-- Settles O17: every command is its body behind EntryCheck, which raises with nothing emitted. -/
theorem entryCheckGuardsEveryCommand : Obligations.EntryCheckGuardsEveryCommand := by
  intro i s hi hspec hentry
  obtain ⟨body, hexec⟩ := exec_command_eq_runCommand hi s
  rw [runCommand_fails hentry] at hexec
  exact completes_of_raise_fresh hspec hexec

end Sys2Proof.Machine
end

section
/-! SUPPORT. Every started command completes (spec/70_reset_and_hazards.md R129, R130): each turn of the engine completes the
command or brings the decoder nearer to its end, in an order in which nothing comes nearer for ever. -/

namespace Sys2Proof.Machine

/-! ### What a decoder has ahead of it -/

/-- How many steps of the frame lie ahead: the command, its header and a Huffman block's size byte are taken once each. -/
def Phase.stagesAhead : Phase → Nat
  | .command => 3
  | .header => 2
  | .hufSize => 1
  | _ => 0

/-- How much of the block lies ahead: input bytes for RLE and LZ77, symbols for Huffman (R130). -/
def Work.unitsAhead (e : Env) (w : Work) : Phase → Nat
  | .rleRecord | .lzFlags | .lzItem => e.len - w.p
  | .hufWord | .hufBranch | .hufLeaf => w.need - w.j
  | _ => 0

/-- How much of the walk to a symbol lies ahead: the table's positions, and a payload word before the next branch. -/
def Work.walkAhead (w : Work) : Phase → Nat
  | .hufWord => 2 * (w.last - w.q) + 1
  | .hufBranch | .hufLeaf => 2 * (w.last - w.q)
  | _ => 0

/-- What the engine has ahead of it, compared by the stage, then by the units, then by the walk. -/
def Work.ahead (e : Env) (w : Work) (ph : Phase) : ℕ ×ₗ ℕ ×ₗ ℕ :=
  toLex (ph.stagesAhead, toLex (w.unitsAhead e ph, w.walkAhead ph))

theorem Work.ahead_lt_iff {e : Env} {w w' : Work} {ph ph' : Phase} :
    w'.ahead e ph' < w.ahead e ph ↔
      ph'.stagesAhead < ph.stagesAhead
      ∨ (ph'.stagesAhead = ph.stagesAhead
        ∧ (w'.unitsAhead e ph' < w.unitsAhead e ph
          ∨ (w'.unitsAhead e ph' = w.unitsAhead e ph ∧ w'.walkAhead ph' < w.walkAhead ph))) := by
  simp only [Work.ahead, Prod.Lex.toLex_lt_toLex]

/-- An answer that goes on leaves less ahead than the bound. -/
def Item.Below (e : Env) (bound : ℕ ×ₗ ℕ ×ₗ ℕ) : Item → Prop
  | .go ph w => w.ahead e ph < bound
  | .ok _ => True
  | .raise _ _ => True

section Units
variable {e : Env} {w w' : Work}

/-- A later stage leaves less ahead, whatever its scratch is. -/
theorem Work.below_of_stage {ph ph' : Phase} (h : ph'.stagesAhead < ph.stagesAhead) :
    (Item.go ph' w').Below e (w.ahead e ph) :=
  Work.ahead_lt_iff.mpr (.inl h)

/-- An RLE record that moves the cursor leaves less of the input ahead. -/
theorem Work.afterRecord_below (hp : w.p < e.len) (hmove : w.p < w'.p) :
    w'.afterRecord.Below e (w.ahead e .rleRecord) := by
  rcases w'.afterRecord_cases with ⟨-, ha⟩ | ⟨-, ha⟩ <;> rw [ha]
  · exact Work.ahead_lt_iff.mpr (.inr ⟨rfl, .inl (Nat.sub_lt_sub_left hp hmove)⟩)
  · trivial

theorem Work.rleRun_below (h : w.placed e .rleRecord) (hp : w.p < e.len) (len : Nat) :
    (w.rleRun e len).Below e (w.ahead e .rleRecord) := by
  obtain ⟨-, -, hout, hcap⟩ := h
  by_cases hend : e.len ≤ w.p + 1
  · rw [Work.rleRun_short hend]
    trivial
  · rw [Work.rleRun_eq (by omega) hout.le hcap]
    exact Work.afterRecord_below hp (by simp only; omega)

theorem Work.rleLit_below (h : w.placed e .rleRecord) (hp : w.p < e.len) (len : Nat) :
    (w.rleLit e len).Below e (w.ahead e .rleRecord) := by
  obtain ⟨-, -, hout, hcap⟩ := h
  by_cases hend : e.len - (w.p + 1) < min len (w.size - w.out.length)
  · rw [Work.rleLit_short hout.le hcap hend]
    trivial
  · rw [Work.rleLit_eq hout.le hcap (by omega)]
    exact Work.afterRecord_below hp (by simp only; omega)

/-- A flag byte or an item of a group that moves the cursor leaves less of the input ahead. -/
theorem Work.afterItem_below {ph : Phase} (hph : ph = .lzFlags ∨ ph = .lzItem) (hp : w.p < e.len) (hmove : w.p < w'.p) :
    w'.afterItem.Below e (w.ahead e ph) := by
  have hfewer : e.len - w'.p < e.len - w.p := Nat.sub_lt_sub_left hp hmove
  rcases hph with rfl | rfl <;>
    rcases w'.afterItem_cases with ⟨-, ha⟩ | ⟨-, -, ha⟩ | ⟨-, -, ha⟩ <;> rw [ha]
  case inl.inl | inr.inl => trivial
  all_goals exact Work.ahead_lt_iff.mpr (.inr ⟨rfl, .inl hfewer⟩)

theorem Work.lzFlags_below (hp : w.p < e.len) (f : Byte) : (w.lzFlags f).Below e (w.ahead e .lzFlags) :=
  Work.afterItem_below (.inl rfl) hp (Nat.lt_succ_self _)

theorem Work.lzLit_below (h : w.placed e .lzItem) (hp : w.p < e.len) (b : Byte) :
    (w.lzLit e b).Below e (w.ahead e .lzItem) := by
  obtain ⟨-, -, hout, hcap, -, -⟩ := h
  rw [Work.lzLit_eq b (by omega)]
  exact Work.afterItem_below (.inr rfl) hp (Nat.lt_succ_self _)

theorem Work.lzRef_below (h : w.placed e .lzItem) (hp : w.p < e.len) (len dist : Nat) :
    (w.lzRef e len dist).Below e (w.ahead e .lzItem) := by
  obtain ⟨-, -, hout, hcap, -, -⟩ := h
  by_cases hfar : w.out.length < dist
  · rw [Work.lzRef_far hfar]
    trivial
  · rw [Work.lzRef_eq (by omega) hout.le hcap]
    exact Work.afterItem_below (.inr rfl) hp (by simp only; omega)

/-- A walk's next unit is a payload word or a branch. -/
theorem Work.nextBitPhase_cases (w : Work) : w.nextBitPhase = .hufWord ∨ w.nextBitPhase = .hufBranch := by
  unfold Work.nextBitPhase
  split_ifs
  · exact .inl rfl
  · exact .inr rfl

theorem Work.hufSize_below (h : w.placed e .hufSize) (b : Byte) : (w.hufSize e b).Below e (w.ahead e .hufSize) := by
  obtain ⟨-, -, -, hpos, -⟩ := h
  by_cases hend : e.len ≤ 4 + (2 * b.toNat + 1)
  · rw [Work.hufSize_short hend]
    trivial
  · rw [Work.hufSize_eq (by omega) (symbolsNeeded_pos e hpos).ne']
    rcases Work.nextBitPhase_cases (w.walkStart e b) with hnext | hnext <;> rw [hnext] <;>
      exact Work.below_of_stage (by decide)

/-- A payload word moves neither the walk nor the symbol count, and a branch comes after it. -/
theorem Work.hufWord_below (c : Word) : (w.hufWord c).Below e (w.ahead e .hufWord) :=
  Work.ahead_lt_iff.mpr (.inr ⟨rfl, .inr ⟨rfl, Nat.lt_succ_self _⟩⟩)

/-- A branch moves the walk up the table (R84), so even a payload word after it leaves less ahead. -/
theorem Work.hufBranch_below (off : Nat) (ll rl : Bool) : (w.hufBranch off ll rl).Below e (w.ahead e .hufBranch) := by
  have hup := clearBit0_add_two w.q
  rcases Work.hufBranch_cases off ll rl w with ⟨-, ha⟩ | ⟨hlast, -, ha⟩ | ⟨hlast, -, ha⟩ <;> rw [ha]
  case inl => trivial
  case' inr.inr => rcases Work.nextBitPhase_cases { w with bi := (w.bi + 1) % 32 } with hnext | hnext <;> rw [hnext]
  all_goals exact Work.ahead_lt_iff.mpr (.inr ⟨rfl, .inr ⟨rfl, by simp only [Work.walkAhead]; omega⟩⟩)

/-- A leaf is a symbol less to decode. -/
theorem Work.hufLeaf_below (h : w.placed e .hufLeaf) (v : Byte) : (w.hufLeaf e v).Below e (w.ahead e .hufLeaf) := by
  have hwalks : w.walks e := h
  have hfewer : w.need - (w.j + 1) < w.need - w.j := by
    obtain ⟨-, -, -, -, -, -, -, -, hj, -⟩ := hwalks
    omega
  rw [Work.hufLeaf_eq v hwalks.room]
  rcases Work.afterSymbol_cases (w.takeLeaf e v) with ⟨-, ha⟩ | ⟨-, ha⟩ <;> rw [ha]
  · trivial
  · rcases Work.nextBitPhase_cases (w.takeLeaf e v) with hnext | hnext <;> rw [hnext] <;>
      exact Work.ahead_lt_iff.mpr (.inr ⟨rfl, .inl hfewer⟩)

/-- The unit after a header is of a later stage. -/
theorem headerNext_stagesAhead_lt (tag : Byte) : (headerNext tag).stagesAhead < Phase.header.stagesAhead := by
  unfold headerNext
  split_ifs <;> decide

theorem Work.header_below (tag : Byte) (size : Nat) :
    (w.header e tag (headerMinLen tag) size (headerNext tag)).Below e (w.ahead e .header) := by
  rcases Work.header_cases e tag (headerMinLen tag) size (headerNext tag) w with
    ⟨-, ha⟩ | ⟨-, -, ha⟩ | ⟨-, -, -, ha⟩ | ⟨-, -, -, -, ha⟩ | ⟨-, -, -, -, ha⟩ <;> rw [ha]
  case inr.inr.inr.inr => exact Work.below_of_stage (headerNext_stagesAhead_lt tag)
  all_goals trivial

end Units

/-- An encoder's block goes on to nothing. -/
theorem Work.emitAll_below (e e' : Env) (bs : List Byte) (w : Work) (bound : ℕ ×ₗ ℕ ×ₗ ℕ) :
    (w.emitAll e' bs).Below e bound := by
  unfold Work.emitAll
  split_ifs <;> trivial

/-! ### A turn of the engine -/

/-- What the engine has ahead of it. -/
def State.ahead (s : State) : ℕ ×ₗ ℕ ×ₗ ℕ := s.work.ahead s.env s.phase

/-- The command that ran at s has completed at t, or it runs on with less ahead. -/
def State.Advances (s t : State) : Prop :=
  (t.busy = false ∧ t.done = true) ∨ (t.busy = s.busy ∧ t.input = s.input ∧ t.ahead < s.ahead)

theorem Completed.advances {s s' t : State} (h : Completed s' t) : s.Advances t := .inl ⟨h.busy, h.done⟩

/-- An answer below what is ahead advances the command, whatever it leaves in an encoder's scratch. -/
theorem State.take_advances {s : State} {it : Item} (hit : it.Below s.env s.ahead) (rle : RleScratch) (huf : HufScratch)
    (lz : LzScratch) : s.Advances (State.take { s with rle := rle, huf := huf, lz := lz } it) := by
  rcases State.take_cases { s with rle := rle, huf := huf, lz := lz } it with ⟨ph, w, rfl, -⟩ | ⟨w, -, hdone⟩
  · exact .inr ⟨rfl, rfl, hit⟩
  · exact hdone.advances

/-- A command advances when its body's answer does; failing EntryCheck completes it. -/
theorem runCommand_advances {s : State} {body : State → State} {rle : RleScratch} {huf : HufScratch} {lz : LzScratch}
    {it : Item}
    (hbody : body { s with work := Work.zero } = State.take { s with rle := rle, huf := huf, lz := lz } it)
    (hit : it.Below s.env s.ahead) : s.Advances (runCommand s body) := by
  by_cases hentry : EntryFails s.lat
  · rw [runCommand_fails hentry]
    exact (completeFail_completed _ _).advances
  · rw [runCommand_ok hentry, hbody]
    exact State.take_advances hit ..

/-- A Huffman encode completes. -/
theorem runHufEnc_advances (tag : Byte) (w : Nat) (s : State) : s.Advances (runHufEnc tag w s) := by
  refine runCommand_advances (rle := s.rle) (lz := s.lz) rfl ?_
  split
  · exact Work.emitAll_below ..
  · trivial

/-- A decode command goes on to the header, a stage further. -/
theorem decodeCommand_advances {s : State} (hph : s.phase = .command) :
    s.Advances (runCommand s fun s => s.take (.go .header s.work)) := by
  refine runCommand_advances (rle := s.rle) (huf := s.huf) (lz := s.lz) (it := .go .header Work.zero) rfl ?_
  rw [State.ahead, hph]
  exact Work.below_of_stage (by decide)

/-- A unit of the stream that decodes lies inside the input (R60). -/
theorem offset_lt_of_fetched {s : State} {g : Grammar} {i : Instr} {rest : List Byte} (hstream : g ≠ .command)
    (hd : decode g (s.fetchBytes g) = .instr i rest) : s.work.offset s.phase < s.env.len := by
  by_contra hend
  have hnone : (s.fetchBytes g).length = 0 := by
    rw [State.fetchBytes, if_neg hstream, Env.window_length]
    omega
  have hwidth : 0 < g.width := by cases g <;> decide
  rw [decode_short (hnone ▸ hwidth)] at hd
  cases hd

section Turn
variable {s : State} (h : s.Inv)
include h

/-- A unit of the stream advances the command when its answer, at its place and inside the input, is below what is ahead. -/
theorem State.Inv.streamUnit_advances {g : Grammar} (hg : s.work.grammar s.phase = some g)
    (hoff : s.work.offset s.phase < s.env.len) {it : Item}
    (hit : s.work.placed s.env (phaseOf g) → s.work.offset (phaseOf g) < s.env.len →
      it.Below s.env (s.work.ahead s.env (phaseOf g))) : s.Advances (s.take it) := by
  have hphase : s.phase = phaseOf g := Work.grammar_phase hg
  refine State.take_advances (s := s) ?_ s.rle s.huf s.lz
  rw [State.ahead, hphase]
  exact hit (hphase ▸ h.placed) (hphase ▸ hoff)

/-- Every instruction the engine takes at its place advances the command, an arm at a time. -/
theorem State.Inv.exec_advances {i : Instr} {t : State} (hg : s.work.grammar s.phase = some i.grammar)
    (hoff : i.grammar ≠ .command → s.work.offset s.phase < s.env.len) (ht : Machine.exec i s = .next t) :
    s.Advances t := by
  cases i with
  | rleEnc => cases ht; exact runCommand_advances (huf := s.huf) (lz := s.lz) rfl (Work.emitAll_below ..)
  | lzEnc => cases ht; exact runCommand_advances (rle := s.rle) (huf := s.huf) rfl (Work.emitAll_below ..)
  | huf4Enc => cases ht; exact runHufEnc_advances ..
  | huf8Enc => cases ht; exact runHufEnc_advances ..
  | rleDec | lzDec | huf4Dec | huf8Dec => cases ht; exact decodeCommand_advances (Work.grammar_phase hg)
  | hdrLz77 size =>
    cases ht; exact h.streamUnit_advances hg (hoff nofun) fun _ _ => Work.header_below Config.tagLz size
  | hdrHuffman4 size =>
    cases ht; exact h.streamUnit_advances hg (hoff nofun) fun _ _ => Work.header_below Config.tagHuf4 size
  | hdrHuffman8 size =>
    cases ht; exact h.streamUnit_advances hg (hoff nofun) fun _ _ => Work.header_below Config.tagHuf8 size
  | hdrRle size =>
    cases ht; exact h.streamUnit_advances hg (hoff nofun) fun _ _ => Work.header_below Config.tagRle size
  | rleRun len => cases ht; exact h.streamUnit_advances hg (hoff nofun) (Work.rleRun_below · · len)
  | rleLit len => cases ht; exact h.streamUnit_advances hg (hoff nofun) (Work.rleLit_below · · len)
  | lzFlags f => cases ht; exact h.streamUnit_advances hg (hoff nofun) fun _ hp => Work.lzFlags_below hp f
  | lzLit b => cases ht; exact h.streamUnit_advances hg (hoff nofun) (Work.lzLit_below · · b)
  | lzRef len dist => cases ht; exact h.streamUnit_advances hg (hoff nofun) (Work.lzRef_below · · len dist)
  | hufSize b => cases ht; exact h.streamUnit_advances hg (hoff nofun) fun hw _ => Work.hufSize_below hw b
  | hufBranch off ll rl =>
    cases ht; exact h.streamUnit_advances hg (hoff nofun) fun _ _ => Work.hufBranch_below off ll rl
  | hufLeaf v => cases ht; exact h.streamUnit_advances hg (hoff nofun) fun hw _ => Work.hufLeaf_below hw v
  | hufWord c => cases ht; exact h.streamUnit_advances hg (hoff nofun) fun _ _ => Work.hufWord_below c

/-- A turn on a running command answers a next state and advances the command. -/
theorem State.Inv.engineTurn_advances (hbusy : s.busy = true) : ∃ t, Machine.engineTurn s = .next t ∧ s.Advances t := by
  obtain ⟨g, hg⟩ : ∃ g, s.work.grammar s.phase = some g := by
    have hidle : s.phase ≠ .idle := h.busyPhase.mp hbusy
    cases hph : s.phase <;> simp [hph, Work.grammar] at hidle ⊢
  cases hd : decode g (s.fetchBytes g) with
  | instr i rest =>
    obtain rfl := grammar_of_decode hd
    obtain ⟨rle, huf, lz, it, htakes, -⟩ := exec_answers i s
    exact ⟨_, (engineTurn_unit hg hd).trans htakes, h.exec_advances hg (offset_lt_of_fetched · hd) htakes⟩
  | rejected e =>
    obtain ⟨w, hdone⟩ := failFetch_completed s.rejectCode s
    exact ⟨_, engineTurn_rejected hg hd, hdone.advances⟩

end Turn

/-- Settles O44, by induction on what the engine has ahead of it: each turn completes the command or leaves less ahead. -/
theorem everyCommandCompletes : Obligations.EveryCommandCompletes := by
  intro s h hbusy hinput
  induction hahead : s.ahead using WellFoundedLT.induction generalizing s with
  | ind bound ih =>
    obtain ⟨t, hturn, hdone | ⟨hbusy', hinput', hless⟩⟩ := h.engineTurn_advances hbusy
    · exact ⟨1, t, run_succ 0 ((step_nil hinput).trans hturn), hdone⟩
    · obtain ⟨k, u, hrun, hdone⟩ :=
        ih t.ahead (hahead ▸ hless) t (h.engineTurn hturn) (hbusy'.trans hbusy) (hinput'.trans hinput) rfl
      exact ⟨k + 1, u, (run_succ k ((step_nil hinput).trans hturn)).trans hrun, hdone⟩

end Sys2Proof.Machine
end

section
/-! SUPPORT. Reset (spec/70_reset_and_hazards.md R122), early reads (R125), the completion of a command whose outcome is
unspecified (R124), and what the engine never writes (R127). -/

namespace Sys2Proof.Machine

/-! ### Reset while a command runs -/

/-- A reset that abandons a running command frees its DST region (R122). -/
theorem resetHardware_mem_of_busy {s : State} (h : s.busy = true) : (resetHardware s).mem = (freeDst s).mem := by
  rw [resetHardware, if_pos h]
  rfl

/-- Settles O2: the reset state, over a memory whose DST region is freed. -/
theorem resetWhileBusyAbandonsCommand : Obligations.ResetWhileBusyAbandonsCommand := by
  intro s rest hin hbusy hwf
  have hmem := resetHardware_mem_of_busy (s := { s with input := rest }) hbusy
  refine ⟨resetHardware { s with input := rest }, step_host hin, rfl, rfl, engineTurn_idle rfl,
    readReg_eq_zero ⟨rfl, rfl⟩ rfl ⟨rfl, rfl, rfl, rfl⟩, resetHardware_cfg _, fun i hi => ?_, fun a ha => ?_⟩
  · rw [hmem]
    exact read_freeDst_inside (s := { s with input := rest }) hwf hi
  · rw [hmem]
    exact read_freeDst_outside (s := { s with input := rest }) hwf ha

/-! ### Reads while a command runs -/

/-- While a command runs a read of a DST byte returns a free value (R41 (c)). -/
theorem hostMemRead_inside {s : State} {a : Addr} (h : (s.busy && s.inDst a) = true) :
    hostMemRead a s = { s with rdata := (Config.freeByte s.free).setWidth 32, free := s.free + 1 } := by
  rw [hostMemRead, if_pos h]

section Busy
variable {s : State} (h : s.Inv) (hbusy : s.busy = true)
include h hbusy

/-- While a command runs STATUS reads BUSY = 1, DONE = 0 and CODE = 0. -/
theorem State.Inv.readReg_status : s.readReg .status = 1 := by
  have hdone : s.done = false := Bool.eq_false_iff.mpr fun hdone => h.notBoth ⟨hbusy, hdone⟩
  obtain ⟨hcode, -⟩ := h.busyClear hbusy
  rw [State.readReg, statusWord, hbusy, hdone, hcode]
  decide

/-- While a command runs OUT_LEN reads 0. -/
theorem State.Inv.readReg_outLen : s.readReg .outLen = 0 := by
  obtain ⟨-, hlen⟩ := h.busyClear hbusy
  exact hlen

end Busy

/-- Settles O8: a memory read of a free byte, and two register reads whose values the invariant gives. -/
theorem earlyReads : Obligations.EarlyReads := by
  intro s rest h hbusy
  refine ⟨fun a hdst htouch hin => ?_, fun hin => ?_, fun hin => ?_⟩
  · rw [step_memRead htouch hin, hostMemRead_inside (s := { s with input := rest })]
    exact Bool.and_eq_true_iff.mpr ⟨hbusy, hdst⟩
  · rw [step_regRead (k := 1) (by decide) hin, ← h.readReg_status hbusy]
    rfl
  · rw [step_regRead (k := 6) (by decide) hin, ← h.readReg_outLen hbusy]
    rfl

/-! ### The completion of a disturbed command -/

/-- Settles O37: OK or failed, a disturbed command completes in the same way, with its DST region freed. -/
theorem disturbedCompletion : Obligations.DisturbedCompletion := by
  intro s t hdist hwf ht
  obtain rfl : t = completeDisturbed s := by
    rcases ht with rfl | ⟨c, rfl⟩
    · exact completeOk_disturbed hdist
    · exact completeFail_disturbed hdist
  have hdone := completeDisturbed_completed s
  exact ⟨hdone.busy, hdone.done, hdone.disturbed, hdone.hostRegs, rfl, hdone.outLen,
    fun i hi => read_freeDst_inside (s := { s with free := s.free + 1 }) hwf hi,
    fun a ha => completeDisturbed_read_outside hwf ha⟩

/-! ### What an instruction never writes -/

/-- An answer writes neither the host's registers, nor the latch, nor the coming events (R127). -/
theorem State.take_keeps (s : State) (it : Item) :
    (s.take it).hostRegs = s.hostRegs ∧ (s.take it).lat = s.lat ∧ (s.take it).input = s.input := by
  rcases s.take_cases it with ⟨ph, w, rfl, -⟩ | ⟨w, -, hdone⟩
  · exact ⟨rfl, rfl, rfl⟩
  · exact ⟨hdone.hostRegs, hdone.lat, hdone.input⟩

/-- Settles O39: an instruction is one answer. -/
theorem engineKeepsTheHostsRegisters : Obligations.EngineKeepsTheHostsRegisters := by
  intro i s t hexec
  obtain ⟨rle, huf, lz, it, htakes, -⟩ := exec_answers i s
  obtain rfl := Host.Outcome.next.inj (hexec.symm.trans htakes)
  exact State.take_keeps { s with rle := rle, huf := huf, lz := lz } it

end Sys2Proof.Machine
end
